-- ==== Sys2Proof/Word.lean ====
section
/-! DEFINITION. The word types of the block (spec 00_scope.md R8: bits numbered from 0, all arithmetic unsigned). -/

namespace Sys2Proof

/-- A byte: 8 bits (R8). -/
abbrev Byte := BitVec 8

/-- A command word or a status code: 32 bits (R80, R90). -/
abbrev Word := BitVec 32

end Sys2Proof
end

