-- ==== Sys2Proof/Config.lean ====
section
/-! DEFINITION. What an implementation fixes (spec 00_scope.md R7: the complete list of parameters) and the free values the
spec leaves open. A `Config` is plain data; `Machine.State` carries one in its field `cfg`, which no step changes, so a
statement about every state is a statement about every value of every parameter. -/

namespace Sys2Proof

/-- `WIRE_ORDER` (R7, R62): the byte order of a typed I2C value on the wire. -/
inductive WireOrder where
  | big
  | little
deriving DecidableEq, Repr, Inhabited

/-- The numeric status classification codes `ST_*` (R82): named parameters with defaults. -/
structure StCodes where
  ok : BitVec 16 := 0x0000#16
  nack : BitVec 16 := 0x0001#16
  busTimeout : BitVec 16 := 0x0002#16
  busError : BitVec 16 := 0x0003#16
  txTimeout : BitVec 16 := 0x0004#16
  opTimeout : BitVec 16 := 0x0005#16
  noData : BitVec 16 := 0x0006#16
  overflow : BitVec 16 := 0x0007#16
  framing : BitVec 16 := 0x0008#16
  parity : BitVec 16 := 0x0009#16
deriving DecidableEq, Repr, Inhabited

/-- The ten codes in the order of R82's table. -/
def StCodes.all (c : StCodes) : List (BitVec 16) :=
  [c.ok, c.nack, c.busTimeout, c.busError, c.txTimeout, c.opTimeout, c.noData, c.overflow, c.framing, c.parity]

/-- The bit positions `EF_*` of the UART error flags within the 8-bit latch (R86): named parameters with defaults. -/
structure EfBits where
  framing : Fin 8 := 0
  overrun : Fin 8 := 1
  parity : Fin 8 := 2
  overflow : Fin 8 := 3
  timeout : Fin 8 := 4
deriving DecidableEq, Repr, Inhabited

/-- The five positions in the order of R86's table. -/
def EfBits.all (b : EfBits) : List (Fin 8) :=
  [b.framing, b.overrun, b.parity, b.overflow, b.timeout]

/-- The parameters of R7. Defaults are the ones the spec states; where R7 says OPEN the default given here is the value of
the spec's worked vectors where it has one, and otherwise this model's choice (notes/assumptions/2.md). -/
structure Config where
  /-- `N_RX`: capacity of the receive ring in slots. OPEN. -/
  nRx : Nat := 8
  /-- `N_TX`: capacity of the transmit ring in slots. OPEN. -/
  nTx : Nat := 8
  /-- `IDXW`: width of a ring index, the platform's atomic access width. OPEN, 8 in the vectors. -/
  idxw : Nat := 8
  /-- `I2C_WAIT_BOUND`. OPEN; no rule reads it. -/
  i2cWaitBound : Nat := 1
  /-- `SCAN_LO`: first address `scan` probes. -/
  scanLo : Nat := 0
  /-- `SCAN_HI`: last address `scan` probes. -/
  scanHi : Nat := 127
  /-- `WIRE_ORDER`. OPEN. -/
  wireOrder : WireOrder := .big
  /-- `BUFAW`: width of a host buffer address. OPEN, 16 in the vectors. -/
  bufaw : Nat := 16
  /-- `UART_BAUD`: what UART `open` writes to the baud cell. Opaque. -/
  uartBaud : Nat := 0
  /-- `UART_FORMAT`: what UART `open` writes to the format cell. Opaque. -/
  uartFormat : Nat := 0
  /-- `I2C_SPEED`. Opaque; no rule reads it. -/
  i2cSpeed : Nat := 0
  /-- `I2C_PULLUP`. Opaque; no rule reads it. -/
  i2cPullup : Nat := 0
  /-- `SENDBUF_TIMEOUT`: milliseconds, 0 = indefinitely. OPEN, 0 in the vectors. -/
  sendbufTimeout : BitVec 32 := 0#32
  /-- `POLL_QUANTUM`: milliseconds per unsuccessful poll. OPEN. -/
  pollQuantum : Nat := 10
  /-- `ST_*` (R82). -/
  st : StCodes := {}
  /-- `EF_*` (R86). -/
  ef : EfBits := {}
  /-- `NUM_I2C`. OPEN; this model is one engine of them (R3). -/
  numI2c : Nat := 1
  /-- `NUM_UART`. OPEN; this model is one controller of them (R3). -/
  numUart : Nat := 1
deriving DecidableEq, Repr, Inhabited

/-- The constraints of R7's table (with R82 and R86 for the codes and the bits). -/
abbrev Config.wf (c : Config) : Prop :=
  (2 ≤ c.nRx ∧ c.nRx ≤ 2 ^ c.idxw) ∧ (2 ≤ c.nTx ∧ c.nTx ≤ 2 ^ c.idxw) ∧
  (c.idxw = 8 ∨ c.idxw = 16 ∨ c.idxw = 32) ∧ 0 < c.i2cWaitBound ∧
  (c.scanLo ≤ c.scanHi ∧ c.scanHi ≤ 127) ∧ 0 < c.bufaw ∧ 0 < c.pollQuantum ∧
  (c.st.all.Nodup ∧ c.st.ok = 0#16) ∧ c.ef.all.Nodup ∧ 0 < c.numI2c ∧ 0 < c.numUart

/-- One answer of the environment to one I2C bus action, `env.xfer()` (R13, R110): whether "transfer complete" was
signalled within the bound, whether a bus error or arbitration loss was flagged, whether the slave acknowledged, and the
byte read. -/
structure Xfer where
  done : Bool
  err : Bool
  ack : Bool
  data : Byte
deriving DecidableEq, Repr, Inhabited

/-! ## Free values. None has a body: nothing in Lean can evaluate one. Each is applied to the counter `State.drawn`, which the
draw advances, so two draws are unrelated. -/

/-- FREE VALUE (R13): the answer `env.busy_clear()` once `State.busyIn` is used up. -/
opaque Config.freeBusyClear : Nat → Bool

/-- FREE VALUE (R13): the answer `env.xfer()` once `State.xferIn` is used up. -/
opaque Config.freeXfer : Nat → Xfer

/-- FREE VALUE (R13): the answer `env.init_ok()` once `State.initIn` is used up. -/
opaque Config.freeInitOk : Nat → Bool

/-- FREE VALUE (R139, 93 U1): `RES_VALUE` after a `read<T>` that did not return `ST_OK`. -/
opaque Config.freeResValue : Nat → BitVec 64

/-- FREE VALUE (R40, 93 U3): the byte a read of `DATA` gives while no received byte waits. -/
opaque Config.freeData : Nat → Byte

end Sys2Proof
end

