-- ==== Sys2Proof/Syntax.lean ====
section
/-! DEFINITION. The instructions of the block: one constructor per row of spec/opcode_table.json, 25 commands (format CW32,
spec 30_encoding.md R92) and the two interrupt entry points (format IRQ, R95), and the three ways one of them is
presented to the machine. -/

namespace Sys2Proof

/-- One operation of the block (R2: what a processor's manual calls an instruction). Arguments are the command-word fields
the row uses (R90, R92); arguments that travel in operand registers (R91) are not part of it. -/
inductive Instr where
  /-- `I2C_OPEN`, `open()` (R131). -/
  | i2cOpen
  /-- `I2C_CLOSE`, `close()` (R132). -/
  | i2cClose
  /-- `I2C_ISOPEN`, `isOpen()` (R133). -/
  | i2cIsopen
  /-- `I2C_RESET`, `reset()` (R117). -/
  | i2cReset
  /-- `I2C_SCAN`, `scan()` (R134). -/
  | i2cScan
  /-- `I2C_WRITE`, `write(addr, reg, buf, count)` (R135). -/
  | i2cWrite (addr : BitVec 7) (reg : Byte)
  /-- `I2C_READ`, `read(addr, reg, buf, count)` (R136). -/
  | i2cRead (addr : BitVec 7) (reg : Byte)
  /-- `I2C_READRAW`, `read(addr, buf, count, stop_comm)` (R137); `stopComm` is `F`. -/
  | i2cReadraw (stopComm : Bool) (addr : BitVec 7)
  /-- `I2C_WRITET`, `write<T>(addr, reg, value)` (R138); `size` is `BYTE`. -/
  | i2cWritet (addr : BitVec 7) (reg : Byte) (size : Byte)
  /-- `I2C_READT`, `read<T>(addr, reg)` (R139); `size` is `BYTE`. -/
  | i2cReadt (addr : BitVec 7) (reg : Byte) (size : Byte)
  /-- `I2C_WAITBUSY`, `waitBusy()` (R112). -/
  | i2cWaitbusy
  /-- `I2C_START`, `start(addr, rw)` (R113); `rw` is `F`, 0 = write, 1 = read. -/
  | i2cStart (rw : Bool) (addr : BitVec 7)
  /-- `I2C_STOP`, `stop()` (R114). -/
  | i2cStop
  /-- `I2C_SENDB`, `sendByte(b)` (R115). -/
  | i2cSendb (byte : Byte)
  /-- `I2C_RECVB`, `receiveByte(ack)` (R116); `ack` is `F`. -/
  | i2cRecvb (ack : Bool)
  /-- `U_OPEN`, `open()` (R182). -/
  | uOpen
  /-- `U_CLOSE`, `close()` (R183). -/
  | uClose
  /-- `U_ISOPEN`, `isOpen()` (R184). -/
  | uIsopen
  /-- `U_AVAIL`, `available()` (R185). -/
  | uAvail
  /-- `U_FLUSH`, `flush(direction)` (R186); `outbound` is `F`. -/
  | uFlush (outbound : Bool)
  /-- `U_SEND`, `send(byte, drain, timeout)` (R187); `drain` is `F`. -/
  | uSend (drain : Bool) (byte : Byte)
  /-- `U_SENDBUF`, `send(buffer, count, drain)` (R188). -/
  | uSendbuf (drain : Bool)
  /-- `U_SENDSTR`, `send(string, drain)` (R189). -/
  | uSendstr (drain : Bool)
  /-- `U_RECV`, `recv()` (R190). -/
  | uRecv
  /-- `U_RECVBUF`, `recv(buffer, count, timeout)` (R191). -/
  | uRecvbuf
  /-- `ON_RX`, the on-receive entry point, interrupt cause 0 (R165). -/
  | onRx
  /-- `ON_TXE`, the on-transmit-empty entry point, interrupt cause 1 (R166). -/
  | onTxe
deriving DecidableEq, Repr

/-- What is presented to the machine for execution: a word the host writes to the `CW` register of one engine (each engine
has its own, R90), or the one-bit cause the interrupt mechanism presents (R95). Nothing is fetched from memory (R74). -/
inductive Presented where
  | i2cCommand (w : Word)
  | uartCommand (w : Word)
  | cause (c : BitVec 1)
deriving DecidableEq, Repr

end Sys2Proof
end

