-- ==== Sys2Proof/WellFormed.lean ====
section
/-! DEFINITION. Which instructions exist. Every argument has the width of its field, so the one thing left to check is the
size of a typed operation (spec 30_encoding.md R93, R94). -/

namespace Sys2Proof

/-- The sizes a typed operation may have (R94): 1, 2, 4 or 8 bytes. -/
def typedSizeOk (size : Byte) : Bool :=
  size == 1#8 || size == 2#8 || size == 4#8 || size == 8#8

/-- An instruction is well formed when some legal command word or cause stands for it (R93). -/
def Instr.wf : Instr → Bool
  | .i2cWritet _ _ size => typedSizeOk size
  | .i2cReadt _ _ size => typedSizeOk size
  | .i2cOpen => true
  | .i2cClose => true
  | .i2cIsopen => true
  | .i2cReset => true
  | .i2cScan => true
  | .i2cWrite _ _ => true
  | .i2cRead _ _ => true
  | .i2cReadraw _ _ => true
  | .i2cWaitbusy => true
  | .i2cStart _ _ => true
  | .i2cStop => true
  | .i2cSendb _ => true
  | .i2cRecvb _ => true
  | .uOpen => true
  | .uClose => true
  | .uIsopen => true
  | .uAvail => true
  | .uFlush _ => true
  | .uSend _ _ => true
  | .uSendbuf _ => true
  | .uSendstr _ => true
  | .uRecv => true
  | .uRecvbuf => true
  | .onRx => true
  | .onTxe => true

end Sys2Proof
end

