-- ==== Sys2Proof/Decode.lean ====
section
/-! DEFINITION. Decoding a command word or an interrupt cause, total, rejecting by name; the encoder, written from the same
tables (spec 30_encoding.md R90 to R95, R97); and the host's view of the decoder by opcode-table row. -/

namespace Sys2Proof

/-- Why a word is reserved (R93: every word that is not legal for the engine it is written to). -/
inductive DecodeError where
  /-- `OPC` is no code of R92. -/
  | unknownOpc
  /-- `OPC` is a code of the other engine. -/
  | otherEngine
  /-- A command-word field the row does not list is not zero. -/
  | unusedField
  /-- `BYTE` of a typed operation is not 1, 2, 4 or 8. -/
  | badSize
deriving DecidableEq, Repr

/-! ## The fields of a command word (R90) -/

/-- `OPC`, bits 31:24. -/
def fieldOpc (w : Word) : BitVec 8 := w.extractLsb' 24 8

/-- `F`, bit 23. -/
def fieldF (w : Word) : Bool := w.getLsbD 23

/-- `ADDR`, bits 22:16. -/
def fieldAddr (w : Word) : BitVec 7 := w.extractLsb' 16 7

/-- `REG`, bits 15:8. -/
def fieldReg (w : Word) : Byte := w.extractLsb' 8 8

/-- `BYTE`, bits 7:0. -/
def fieldByte (w : Word) : Byte := w.extractLsb' 0 8

/-- The command-word fields a row of R92 uses; the others must be zero (R93). -/
structure Uses where
  f : Bool := false
  addr : Bool := false
  reg : Bool := false
  byte : Bool := false
deriving DecidableEq, Repr

/-- Every field the row does not use is zero (R93). -/
def unusedZero (u : Uses) (w : Word) : Bool :=
  (u.f || !fieldF w) && (u.addr || fieldAddr w == 0#7) && (u.reg || fieldReg w == 0#8) && (u.byte || fieldByte w == 0#8)

/-- The instruction of a row whose unused fields are zero. -/
def legal (u : Uses) (w : Word) (i : Instr) : Except DecodeError Instr :=
  if unusedZero u w then .ok i else .error .unusedField

/-- The instruction of a typed row: `BYTE` must be a size (R93, R94). -/
def legalTyped (w : Word) (i : Instr) : Except DecodeError Instr :=
  if fieldF w then .error .unusedField
  else if typedSizeOk (fieldByte w) then .ok i else .error .badSize

/-- R92: the codes an I2C engine accepts, 0x01 to 0x0A and 0x10 to 0x14. -/
def isI2cOpc (o : BitVec 8) : Bool :=
  (0x01#8 ≤ o && o ≤ 0x0A#8) || (0x10#8 ≤ o && o ≤ 0x14#8)

/-- R92: the codes a UART controller accepts, 0x21 to 0x2A. -/
def isUartOpc (o : BitVec 8) : Bool :=
  0x21#8 ≤ o && o ≤ 0x2A#8

/-- A word written to the I2C engine's `CW` (R92, the rows 0x01 to 0x14). -/
def decodeI2c (w : Word) : Except DecodeError Instr :=
  match fieldOpc w with
  | 0x01#8 => legal {} w .i2cOpen
  | 0x02#8 => legal {} w .i2cClose
  | 0x03#8 => legal {} w .i2cIsopen
  | 0x04#8 => legal {} w .i2cReset
  | 0x05#8 => legal {} w .i2cScan
  | 0x06#8 => legal { addr := true, reg := true } w (.i2cWrite (fieldAddr w) (fieldReg w))
  | 0x07#8 => legal { addr := true, reg := true } w (.i2cRead (fieldAddr w) (fieldReg w))
  | 0x08#8 => legal { f := true, addr := true } w (.i2cReadraw (fieldF w) (fieldAddr w))
  | 0x09#8 => legalTyped w (.i2cWritet (fieldAddr w) (fieldReg w) (fieldByte w))
  | 0x0A#8 => legalTyped w (.i2cReadt (fieldAddr w) (fieldReg w) (fieldByte w))
  | 0x10#8 => legal {} w .i2cWaitbusy
  | 0x11#8 => legal { f := true, addr := true } w (.i2cStart (fieldF w) (fieldAddr w))
  | 0x12#8 => legal {} w .i2cStop
  | 0x13#8 => legal { byte := true } w (.i2cSendb (fieldByte w))
  | 0x14#8 => legal { f := true } w (.i2cRecvb (fieldF w))
  | o => if isUartOpc o then .error .otherEngine else .error .unknownOpc

/-- A word written to the UART controller's `CW` (R92, the rows 0x21 to 0x2A). -/
def decodeUart (w : Word) : Except DecodeError Instr :=
  match fieldOpc w with
  | 0x21#8 => legal {} w .uOpen
  | 0x22#8 => legal {} w .uClose
  | 0x23#8 => legal {} w .uIsopen
  | 0x24#8 => legal {} w .uAvail
  | 0x25#8 => legal { f := true } w (.uFlush (fieldF w))
  | 0x26#8 => legal { f := true, byte := true } w (.uSend (fieldF w) (fieldByte w))
  | 0x27#8 => legal { f := true } w (.uSendbuf (fieldF w))
  | 0x28#8 => legal { f := true } w (.uSendstr (fieldF w))
  | 0x29#8 => legal {} w .uRecv
  | 0x2A#8 => legal {} w .uRecvbuf
  | o => if isI2cOpc o then .error .otherEngine else .error .unknownOpc

/-- R95: cause 0 = receive, cause 1 = transmit-empty. -/
def decodeCause (c : BitVec 1) : Instr :=
  if c = 0#1 then .onRx else .onTxe

/-- The instruction presented to the machine, or why there is none. -/
def decode : Presented → Except DecodeError Instr
  | .i2cCommand w => decodeI2c w
  | .uartCommand w => decodeUart w
  | .cause c => .ok (decodeCause c)

/-! ## The encoder -/

/-- A command word from its fields, most significant first (R90). -/
def commandWord (opc : BitVec 8) (f : Bool) (addr : BitVec 7) (reg byte : Byte) : Word :=
  opc ++ BitVec.ofBool f ++ addr ++ reg ++ byte

/-- What the host writes, or the interrupt mechanism presents, for an instruction (R92, R95). -/
def encode : Instr → Presented
  | .i2cOpen => .i2cCommand (commandWord 0x01#8 false 0#7 0#8 0#8)
  | .i2cClose => .i2cCommand (commandWord 0x02#8 false 0#7 0#8 0#8)
  | .i2cIsopen => .i2cCommand (commandWord 0x03#8 false 0#7 0#8 0#8)
  | .i2cReset => .i2cCommand (commandWord 0x04#8 false 0#7 0#8 0#8)
  | .i2cScan => .i2cCommand (commandWord 0x05#8 false 0#7 0#8 0#8)
  | .i2cWrite addr reg => .i2cCommand (commandWord 0x06#8 false addr reg 0#8)
  | .i2cRead addr reg => .i2cCommand (commandWord 0x07#8 false addr reg 0#8)
  | .i2cReadraw stopComm addr => .i2cCommand (commandWord 0x08#8 stopComm addr 0#8 0#8)
  | .i2cWritet addr reg size => .i2cCommand (commandWord 0x09#8 false addr reg size)
  | .i2cReadt addr reg size => .i2cCommand (commandWord 0x0A#8 false addr reg size)
  | .i2cWaitbusy => .i2cCommand (commandWord 0x10#8 false 0#7 0#8 0#8)
  | .i2cStart rw addr => .i2cCommand (commandWord 0x11#8 rw addr 0#8 0#8)
  | .i2cStop => .i2cCommand (commandWord 0x12#8 false 0#7 0#8 0#8)
  | .i2cSendb byte => .i2cCommand (commandWord 0x13#8 false 0#7 0#8 byte)
  | .i2cRecvb ack => .i2cCommand (commandWord 0x14#8 ack 0#7 0#8 0#8)
  | .uOpen => .uartCommand (commandWord 0x21#8 false 0#7 0#8 0#8)
  | .uClose => .uartCommand (commandWord 0x22#8 false 0#7 0#8 0#8)
  | .uIsopen => .uartCommand (commandWord 0x23#8 false 0#7 0#8 0#8)
  | .uAvail => .uartCommand (commandWord 0x24#8 false 0#7 0#8 0#8)
  | .uFlush outbound => .uartCommand (commandWord 0x25#8 outbound 0#7 0#8 0#8)
  | .uSend drain byte => .uartCommand (commandWord 0x26#8 drain 0#7 0#8 byte)
  | .uSendbuf drain => .uartCommand (commandWord 0x27#8 drain 0#7 0#8 0#8)
  | .uSendstr drain => .uartCommand (commandWord 0x28#8 drain 0#7 0#8 0#8)
  | .uRecv => .uartCommand (commandWord 0x29#8 false 0#7 0#8 0#8)
  | .uRecvbuf => .uartCommand (commandWord 0x2A#8 false 0#7 0#8 0#8)
  | .onRx => .cause 0#1
  | .onTxe => .cause 1#1

/-! ## The opcode table's rows -/

/-- Where an opcode-table word of `nbits` bits is presented: a 32-bit word is a command for the engine whose code `OPC`
is (a code of neither goes to the I2C engine, which refuses it); a shorter one is the one-bit interrupt cause, its bit 0
(the table's mask of the two IRQ rows is 0x1). -/
def presentTableWord (nbits w : Nat) : Option Presented :=
  if nbits = 32 then
    if isUartOpc (fieldOpc (BitVec.ofNat 32 w)) then some (.uartCommand (BitVec.ofNat 32 w))
    else some (.i2cCommand (BitVec.ofNat 32 w))
  else if nbits < 32 then some (.cause (BitVec.ofNat 1 w))
  else none

/-- The instruction the decoder reads from an opcode-table word. -/
def decodeTableWord (nbits w : Nat) : Option Instr :=
  match presentTableWord nbits w with
  | some p => (decode p).toOption
  | none => none

end Sys2Proof
end

