-- ==== Sys2Proof/Machine/State.lean ====
section
/-! DEFINITION. The state of the machine as plain data: one I2C engine instance (spec 10_state.md R20 to R30), one UART
controller instance with its abstract peripheral (R31 to R46), the host buffer space (20_memory.md R60), `GIE` (R44), and
the model's own fields: the configuration, the environment's answers and the schedule. The state after reset (R48, R240). -/

namespace Sys2Proof.Machine

/-! ## Status codes -/

/-- The status classifications (R81, R82), by name; `Config.st` gives each its number. -/
inductive StClass where
  | ok
  | nack
  | busTimeout
  | busError
  | txTimeout
  | opTimeout
  | noData
  | overflow
  | framing
  | parity
deriving DecidableEq, Repr, Inhabited

/-- `status(class, payload)` (R80): what an operation returns. `Flags.lean` gives its 32-bit word. -/
structure Status where
  cls : StClass
  payload : BitVec 16
deriving DecidableEq, Repr, Inhabited

/-! ## Memory -/

/-- A byte memory in one canonical form: addresses strictly rising, and no entry equal to what an unlisted address reads
as, which is 0 (notes/assumptions/3.md). -/
abbrev Memory := List Host.Cell

/-- The canonical form. -/
abbrev Memory.wf (m : Memory) : Prop :=
  m.Pairwise (fun x y => x.1 < y.1) ∧ ∀ c ∈ m, c.2 ≠ 0#8

/-- Every listed address lies below `size`: the memory of an address space of `size` bytes (R60). -/
abbrev Memory.within (m : Memory) (size : Nat) : Prop :=
  ∀ c ∈ m, c.1 < size

/-! ## The I2C engine -/

/-- `I2C.fsm` (R24): six values. `Operands.lean` gives the 3-bit coding. -/
inductive Fsm where
  | closed
  | idle
  | addressing
  | transferringData
  | stopping
  | error
deriving DecidableEq, Repr, Inhabited

/-- `res`: the outcome the environment gave to a bus action (R12, R110). -/
inductive Res where
  | ok
  | nack
  | err
  | timeout
deriving DecidableEq, Repr, Inhabited

/-- The events of the bus trace (R12). -/
inductive BusEvent where
  /-- `START(rep, res)`; `rep` when the engine already held the bus. -/
  | start (rep : Bool) (res : Res)
  /-- `TXA(a7, rw, res)`. -/
  | txa (addr : BitVec 7) (rw : Bool) (res : Res)
  /-- `TXB(b, res)`. -/
  | txb (b : Byte) (res : Res)
  /-- `RXB(b, ack, res)`. -/
  | rxb (b : Byte) (ack : Bool) (res : Res)
  /-- `STOP`. -/
  | stop
  /-- `CFG_INIT`. -/
  | cfgInit
  /-- `CFG_DEINIT`. -/
  | cfgDeinit
deriving DecidableEq, Repr, Inhabited

/-- One I2C engine instance (R20). -/
structure I2c where
  /-- `I2C.id` (R21): constant, read by no rule. -/
  id : Nat := 0
  /-- `I2C.open` (R22). -/
  opened : Bool := false
  /-- `I2C.scratch[0..7]` (R23): space `SCR`, addresses 0 to 7. -/
  scratch : Memory := []
  /-- `I2C.fsm` (R24). -/
  fsm : Fsm := .closed
  /-- `T_ADDR` (R26). -/
  tAddr : BitVec 7 := 0#7
  /-- `T_REG` (R26). -/
  tReg : Byte := 0#8
  /-- `T_DIR` (R26): false = write, true = read. -/
  tDir : Bool := false
  /-- `T_REM` (R26). -/
  tRem : BitVec 16 := 0#16
  /-- `CW` (R27). -/
  cw : Word := 0#32
  /-- `OPR_COUNT` (R27). -/
  oprCount : BitVec 16 := 0#16
  /-- `OPR_BUF` (R27): a `HBUF` address, `BUFAW` bits, so below `2^BUFAW`. -/
  oprBuf : Nat := 0
  /-- `OPR_VALUE` (R27). -/
  oprValue : BitVec 64 := 0#64
  /-- `RES_STATUS` (R28). -/
  resStatus : Word := 0#32
  /-- `RES_VALUE` (R28). -/
  resValue : BitVec 64 := 0#64
  /-- `BUSY` (R28). -/
  busy : Bool := false
  /-- `I2C.trace` (R30): oldest event first. -/
  trace : List BusEvent := []
deriving DecidableEq, Repr, Inhabited

/-! ## The UART controller -/

/-- `CTRL` (R33): its four fields, no positions. -/
structure Ctrl where
  rxEn : Bool := false
  rxIe : Bool := false
  txeIe : Bool := false
  txEn : Bool := false
deriving DecidableEq, Repr, Inhabited

/-- The hardware flags `FE`, `OVR`, `PE` that belong to a waiting byte (R34, R40). -/
structure HwFlags where
  fe : Bool := false
  ovr : Bool := false
  pe : Bool := false
deriving DecidableEq, Repr, Inhabited

/-- A ring (R37): `head` is the next write slot, `tail` the next read slot, `buf` the space of its slots. -/
structure Ring where
  head : Nat := 0
  tail : Nat := 0
  buf : Memory := []
deriving DecidableEq, Repr, Inhabited

/-- Which UART command a mainline operation in progress is running, with its one-bit argument. -/
inductive UOp where
  | opening
  | closing
  | isOpen
  | available
  | flush (outbound : Bool)
  | send (drain : Bool)
  | sendBuf (drain : Bool)
  | sendStr (drain : Bool)
  | recv
  | recvBuf
deriving DecidableEq, Repr, Inhabited

/-- The numbered pseudocode line a mainline UART operation is at (R45): the routine's rule and the line's number. The
routines `flush_out()`, single-byte `send` and `recv()` are also called by others. -/
inductive Line where
  | open1 | open2 | open3 | open4 | open5
  | close1 | close2 | close3 | close4 | close5
  | isOpen1 | isOpen2
  | avail1 | avail2 | avail3
  | flushOut1 | flushOut2 | flushOut3
  | flushIn1 | flushIn2
  | send1 | send2 | send3 | send4 | send5 | send6 | send7 | send8 | send9
  | sendBuf1 | sendBuf2 | sendBuf3 | sendBuf4 | sendBuf5 | sendBuf6 | sendBuf7 | sendBuf8
  | sendStr1 | sendStr2 | sendStr3 | sendStr4 | sendStr5 | sendStr6 | sendStr7 | sendStr8 | sendStr9
  | recv1 | recv2 | recv3 | recv4 | recv5
  | recvBuf1 | recvBuf2 | recvBuf3 | recvBuf4 | recvBuf5 | recvBuf6 | recvBuf8 | recvBuf9
deriving DecidableEq, Repr, Inhabited

/-- The bookkeeping of a mainline UART operation in progress (R45): which line it is at, the operands sampled at issue
(R74) and its local variables. It exists from issue to return and is invisible to the host. -/
structure Job where
  op : UOp
  line : Line
  /-- `OPR_BUF` as sampled at issue. -/
  buf : Nat := 0
  /-- `OPR_COUNT` as sampled at issue. -/
  count : BitVec 16 := 0#16
  /-- `OPR_TIMEOUT` as sampled at issue. -/
  timeout : BitVec 32 := 0#32
  /-- The byte a `send` is sending, or `b` of a `recv()`. -/
  byte : Byte := 0#8
  /-- The loop counter `i`, called `n` in the buffer `send` forms. -/
  i : Nat := 0
  /-- `nx` of `send`. -/
  nx : Nat := 0
  /-- `waited`, in milliseconds (R181). -/
  waited : Nat := 0
  /-- `acc` of `recv(buffer, count, timeout)`. -/
  acc : Byte := 0#8
  /-- `e` of `recv()`. -/
  flags : Byte := 0#8
  /-- `h` of `available()`. -/
  h : Nat := 0
  /-- `t` of `available()`. -/
  t : Nat := 0
  /-- The status a called `send` or `recv()` returned to its caller. -/
  ret : Status := ⟨.ok, 0#16⟩
deriving DecidableEq, Repr, Inhabited

/-- One UART controller instance with its abstract peripheral (R31). `STAT` is a view of it (R43) and `DATA` stores nothing
of its own (R35), so neither is a field. -/
structure Uart where
  /-- `U.id` (R32): constant, read by no rule. -/
  id : Nat := 0
  /-- `U.open` (R32). -/
  opened : Bool := false
  /-- `CTRL` (R33). -/
  ctrl : Ctrl := {}
  /-- `BAUD` (R35). -/
  baud : Nat := 0
  /-- `FORMAT` (R35). -/
  format : Nat := 0
  /-- `rx_error` (R36). -/
  rxError : Byte := 0#8
  /-- `RX` (R37). -/
  rx : Ring := {}
  /-- `TX` (R37). -/
  tx : Ring := {}
  /-- `rx_hold` (R40). -/
  rxHold : Option (Byte × HwFlags) := none
  /-- `tx_hold` (R41). -/
  txHold : Option Byte := none
  /-- `tx_shift` (R41). -/
  txShift : Option Byte := none
  /-- `wire_in` (R40): oldest first. -/
  wireIn : List (Byte × HwFlags) := []
  /-- `wire_out` (R42): oldest first. -/
  wireOut : List Byte := []
  /-- `CW` (R27). -/
  cw : Word := 0#32
  /-- `OPR_COUNT` (R27). -/
  oprCount : BitVec 16 := 0#16
  /-- `OPR_BUF` (R27). -/
  oprBuf : Nat := 0
  /-- `OPR_VALUE` (R27): the UART's own copy; no UART operation reads it. -/
  oprValue : BitVec 64 := 0#64
  /-- `OPR_TIMEOUT` (R27). -/
  oprTimeout : BitVec 32 := 0#32
  /-- `RES_STATUS` (R28). -/
  resStatus : Word := 0#32
  /-- `RES_VALUE` (R28). -/
  resValue : BitVec 64 := 0#64
  /-- `BUSY` (R28). -/
  busy : Bool := false
  /-- The mainline operation in progress (R45). -/
  job : Option Job := none
deriving DecidableEq, Repr, Inhabited

/-! ## The schedule -/

/-- The two engines of the block. -/
inductive Engine where
  | i2c
  | uart
deriving DecidableEq, Repr, Inhabited

/-- One move of an agent (R11). Which enabled agent moves next is the schedule's choice (R49); the model holds that choice
as data (notes/assumptions/5.md). -/
inductive Event where
  /-- The host writes a `CW`, or the interrupt mechanism presents a cause. -/
  | present (p : Presented)
  /-- The host writes `OPR_COUNT` of an engine (R27). -/
  | setCount (e : Engine) (v : BitVec 16)
  /-- The host writes `OPR_BUF` of an engine (R27). -/
  | setBuf (e : Engine) (v : Nat)
  /-- The host writes `OPR_VALUE` of an engine (R27). -/
  | setValue (e : Engine) (v : BitVec 64)
  /-- The host writes `OPR_TIMEOUT`, UART only (R27). -/
  | setTimeout (v : BitVec 32)
  /-- The host writes a byte of `HBUF` (R68). -/
  | hostWrite (a : Nat) (b : Byte)
  /-- The host reads a byte of `HBUF` (R68). -/
  | hostRead (a : Nat)
  /-- The mainline agent runs the next line of the UART operation in progress (R10). -/
  | mainline
  /-- `HW_RX(b, e)` (R40). -/
  | hwRx (b : Byte) (e : HwFlags)
  /-- `HW_TX_TAKE` (R42). -/
  | hwTxTake
  /-- `HW_TX_DONE` (R42). -/
  | hwTxDone
  /-- The environment sets `GIE` (R13, R44). -/
  | setGie (b : Bool)
  /-- The schedule's choice of how many lines the UART commands after this run together with their issue (R10, R49). -/
  | setBurst (n : Nat)
deriving DecidableEq, Repr

/-! ## The machine -/

/-- The state of the machine. -/
structure State where
  /-- The parameters of R7; no step changes them. The model's own field (R49: parameters are not state). -/
  cfg : Config := {}
  /-- The I2C engine. -/
  i2c : I2c := {}
  /-- The UART controller. -/
  uart : Uart := {}
  /-- `HBUF` (R60): host buffer memory, addresses below `2^BUFAW`. -/
  hbuf : Memory := []
  /-- `GIE` (R44). -/
  gie : Bool := false
  /-- The model's own field: the next answers of `env.busy_clear()` (R13), first one first. -/
  busyIn : List Bool := []
  /-- The model's own field: the next answers of `env.xfer()` (R13), first one first. -/
  xferIn : List Xfer := []
  /-- The model's own field: the next answers of `env.init_ok()` (R13), first one first. -/
  initIn : List Bool := []
  /-- The model's own field: how many free values have been drawn. -/
  drawn : Nat := 0
  /-- The model's own field: the moves of the agents to come (R49), first one first. -/
  sched : List Event := []
  /-- The model's own field: how many lines of a UART command the schedule runs together with its issue, before any other
  agent moves (R10, R49). 0, as after reset, is line by line: any agent may move between any two lines. The schedule changes it
  by `setBurst`. -/
  burst : Nat := 0
deriving DecidableEq, Repr

/-- Why the machine stops. -/
inductive Fault where
  /-- A write of `DATA` while `tx_hold` is occupied (R41, 93 U4). Raised by `writeData`; no run of the rules reaches it.
  Safe: the hardware loses a byte and goes on. -/
  | dataOverwritten
  /-- An access to a ring slot at or above the ring's capacity (R76: slot `k` exists for `0 <= k < N`). Raised by
  `slotRead` and `slotWrite`; no state in which the ring invariant R38 holds reaches it. Safe. -/
  | noSuchSlot
deriving DecidableEq, Repr

/-- Why the machine has no step for what is presented to it. -/
inductive Refusal where
  /-- No meaning yet for the instruction with this mnemonic. Raised by the refused arms of `exec`, of which there is none.
  Safe. -/
  | notModelled (mnemonic : String)
  /-- A reserved command word (R93, 93 U8). Raised by the presentation of a command word and by a typed operation whose
  size is not 1, 2, 4 or 8. Safe. -/
  | reservedWord (e : DecodeError)
  /-- A command while that engine's `BUSY` is 1 (R247, 93 U7). Raised by every command. Safe. -/
  | busy
  /-- An operation that needs the device or port open while it is not (R130, R180, R245, 93 U6). Safe. -/
  | notOpen
  /-- A host-issued primitive outside its admission states (R118, 93 U9). Safe. -/
  | notAdmitted
  /-- An interrupt entry point while its source is not pending or `GIE` = 0 (R216: none is taken then). Raised by `ON_RX` and
  `ON_TXE`. Safe. -/
  | notTaken
  /-- A host access to a buffer byte the UART operation in progress owns (R68, 93 U11). Safe. -/
  | bufferOwned
deriving DecidableEq, Repr

/-- The state after reset (R48, R240) of a block with the parameters `c` and the environment's choice `g` of `GIE` (R44): both
devices not open, `fsm` = `Closed`, both rings
empty, the latch clear, every `CTRL` field 0, the peripheral idle, `BUSY` = 0, the traces empty; what the spec leaves
unspecified is 0 (notes/assumptions/1.md). -/
def State.resetWith (c : Config) (g : Bool) : State :=
  { cfg := c, gie := g }

/-- The state after reset, with the parameters of notes/assumptions/2.md and `GIE` = 1 (notes/assumptions/1.md). -/
def State.reset : State := State.resetWith {} true

end Sys2Proof.Machine
end

