-- ==== Sys2Proof/Machine/Flags.lean ====
section
/-! DEFINITION. Everything the block computes as a flag or a code: the status word (spec 30_encoding.md R80, R82), the outcome
of a bus action (40_i2c_primitives.md R110), the `STAT` view (10_state.md R43), the error-latch bits (30_encoding.md R86), the
pending interrupts (10_state.md R46). -/

namespace Sys2Proof.Machine

/-! ## Status codes -/

/-- The number of a classification (R82). -/
def StClass.code (c : StCodes) : StClass → BitVec 16
  | .ok => c.ok
  | .nack => c.nack
  | .busTimeout => c.busTimeout
  | .busError => c.busError
  | .txTimeout => c.txTimeout
  | .opTimeout => c.opTimeout
  | .noData => c.noData
  | .overflow => c.overflow
  | .framing => c.framing
  | .parity => c.parity

/-- The 32-bit status code: classification in bits 31:16, payload in bits 15:0 (R80). -/
def Status.word (c : Config) (st : Status) : Word :=
  st.cls.code c.st ++ st.payload

/-- `status(ST_OK, payload)`. -/
def okStatus (payload : BitVec 16) : Status := ⟨.ok, payload⟩

/-! ## Outcome of one I2C bus action (R110) -/

/-- `eval_cond(r)`: timeout over bus error. -/
def evalCond (r : Xfer) : StClass :=
  if r.done = false then .busTimeout else if r.err then .busError else .ok

/-- `eval_tx(r)`: timeout over bus error over NACK. -/
def evalTx (r : Xfer) : StClass :=
  if r.done = false then .busTimeout else if r.err then .busError else if r.ack = false then .nack else .ok

/-- `eval_rx(r)` is `eval_cond(r)`: in a receive the master drives the acknowledge bit. -/
def evalRx (r : Xfer) : StClass := evalCond r

/-- `res(c)`, for the four classifications a bus action can end with. -/
def resOf : StClass → Res
  | .ok => .ok
  | .nack => .nack
  | .busError => .err
  | _ => .timeout

/-! ## `STAT` as functions of the peripheral (R43) -/

/-- `STAT.RXC`: a received byte waits to be read. -/
def statRxc (u : Uart) : Bool := u.rxHold.isSome

/-- `STAT.FE`, `STAT.OVR`, `STAT.PE`: the flags of the waiting byte, all 0 when none waits. -/
def statErrors (u : Uart) : HwFlags :=
  match u.rxHold with
  | some (_, e) => e
  | none => {}

/-- `STAT.TXE`: the transmit data register is empty. -/
def statTxe (u : Uart) : Bool := u.txHold.isNone

/-- `STAT.TXC`: the transmitter is idle, as a level. -/
def statTxc (u : Uart) : Bool := u.txHold.isNone && u.txShift.isNone

/-! ## The error latch (R86) -/

/-- The latch with only the bit at position `k`. -/
def efBit (k : Fin 8) : Byte := 1#8 <<< k.val

/-- The flag at position `k` when `b`, else nothing. -/
def efIf (b : Bool) (k : Fin 8) : Byte := if b then efBit k else 0#8

/-- R165 line 1: the latch bits of the hardware flags. -/
def hwLatch (c : EfBits) (e : HwFlags) : Byte :=
  efIf e.fe c.framing ||| efIf e.ovr c.overrun ||| efIf e.pe c.parity

/-- The bits the latch can hold: framing, overrun, parity, overflow; never `EF_TIMEOUT`, never a reserved bit (R86). -/
def latchMask (c : EfBits) : Byte :=
  efBit c.framing ||| efBit c.overrun ||| efBit c.parity ||| efBit c.overflow

/-! ## Interrupts (R46, R215, R216) -/

/-- The receive interrupt is pending. -/
def rxPending (u : Uart) : Bool := statRxc u && u.ctrl.rxIe

/-- The transmit-empty interrupt is pending. -/
def txePending (u : Uart) : Bool := statTxe u && u.ctrl.txeIe

/-- The source with cause `c` is pending (R95: cause 0 = receive, 1 = transmit-empty). -/
def causePending (c : BitVec 1) (u : Uart) : Bool :=
  if c = 0#1 then rxPending u else txePending u

/-! ## The protocol state machine -/

/-- The coding of `I2C.fsm` in 3 bits (R24); 6 and 7 never occur. -/
def Fsm.code : Fsm → BitVec 3
  | .closed => 0#3
  | .idle => 1#3
  | .addressing => 2#3
  | .transferringData => 3#3
  | .stopping => 4#3
  | .error => 5#3

/-- The engine holds the bus in this protocol state; at a moment when `BUSY` = 0 this is `bus_held` (R29). -/
def Fsm.holdsBus : Fsm → Bool
  | .addressing => true
  | .transferringData => true
  | .error => true
  | .closed => false
  | .idle => false
  | .stopping => false

end Sys2Proof.Machine
end

