-- ==== Sys2Proof/Machine/Ops.lean ====
section
/-! DEFINITION. The named operations every meaning is written over: outcomes in sequence, memory, the environment's answers, the
engines' registers, the abstract UART peripheral, the ring arithmetic, the critical section, and taking an interrupt and
returning from one. -/

namespace Sys2Proof.Machine

/-- What a meaning answers. -/
abbrev Out := Host.Outcome State Fault Refusal

/-- One outcome and then a continuation on its next state. -/
def andThen (o : Out) (f : State → Out) : Out :=
  match o with
  | .next s => f s
  | .fault e => .fault e
  | .refused r => .refused r

/-! ## Memory (R9, R60, R63, R64): byte wide, kept in canonical form -/

/-- The byte at an address; an unlisted address reads as 0. -/
def Memory.read : Memory → Nat → Byte
  | [], _ => 0#8
  | (k, b) :: m, a => if k = a then b else Memory.read m a

/-- The memory with address `a` unlisted. -/
def Memory.erase : Memory → Nat → Memory
  | [], _ => []
  | (k, b) :: m, a => if k = a then m else (k, b) :: Memory.erase m a

/-- The memory with `b` listed at `a`. -/
def Memory.insert : Memory → Nat → Byte → Memory
  | [], a, b => [(a, b)]
  | (k, c) :: m, a, b =>
    if a < k then (a, b) :: (k, c) :: m
    else if a = k then (a, b) :: m
    else (k, c) :: Memory.insert m a b

/-- One byte written. -/
def Memory.write (m : Memory) (a : Nat) (b : Byte) : Memory :=
  if b = 0#8 then Memory.erase m a else Memory.insert m a b

/-! ## Engine updates -/

/-- The state with the I2C engine changed. -/
def State.mapI2c (f : I2c → I2c) (s : State) : State := { s with i2c := f s.i2c }

/-- The state with the UART controller changed. -/
def State.mapUart (f : Uart → Uart) (s : State) : State := { s with uart := f s.uart }

/-- The state with a byte of `HBUF` written. -/
def State.writeHbuf (a : Nat) (b : Byte) (s : State) : State := { s with hbuf := Memory.write s.hbuf a b }

/-! ## The environment's answers (R13): the next one held in the state, or a free value when none is left -/

/-- `env.busy_clear()`. -/
def askBusyClear (s : State) : Bool × State :=
  match s.busyIn with
  | b :: rest => (b, { s with busyIn := rest })
  | [] => (Config.freeBusyClear s.drawn, { s with drawn := s.drawn + 1 })

/-- `env.xfer()`. -/
def askXfer (s : State) : Xfer × State :=
  match s.xferIn with
  | r :: rest => (r, { s with xferIn := rest })
  | [] => (Config.freeXfer s.drawn, { s with drawn := s.drawn + 1 })

/-- `env.init_ok()`. -/
def askInitOk (s : State) : Bool × State :=
  match s.initIn with
  | b :: rest => (b, { s with initIn := rest })
  | [] => (Config.freeInitOk s.drawn, { s with drawn := s.drawn + 1 })

/-! ## The I2C engine -/

/-- `emit E` (R9, R12). -/
def emit (e : BusEvent) (s : State) : State := s.mapI2c fun d => { d with trace := d.trace ++ [e] }

/-- `fsm <- S` (R9, R24). -/
def setFsm (f : Fsm) (s : State) : State := s.mapI2c fun d => { d with fsm := f }

/-- The return of an I2C operation: `RES_STATUS` written, then `BUSY <- 0` (R28, R96). -/
def i2cReturn (st : Status) (s : State) : State :=
  s.mapI2c fun d => { d with resStatus := st.word s.cfg, busy := false }

/-- An I2C command from issue to return, one step (R121): refused while `BUSY` = 1 (R247) and where it is not admitted (R118,
R130); else `BUSY <- 1`, the operation, its return (R96). -/
def i2cCommand (refusal : Option Refusal) (body : State → Status × State) (s : State) : Out :=
  if s.i2c.busy then .refused .busy
  else
    match refusal with
    | some r => .refused r
    | none =>
      let r := body (s.mapI2c fun d => { d with busy := true })
      .next (i2cReturn r.1 r.2)

/-- The admission of an operation that needs `I2C.open` = 1 (R130). -/
def needsI2cOpen (s : State) : Option Refusal :=
  if s.i2c.opened then none else some .notOpen

/-! ## Ring arithmetic (R160, R161): exact in the natural numbers before the `mod` -/

/-- `next(i) = (i + 1) mod N`. -/
def ringNext (n i : Nat) : Nat := (i + 1) % n

/-- `empty(R)`. -/
def Ring.isEmpty (r : Ring) : Bool := r.head == r.tail

/-- `full(R)`. -/
def Ring.isFull (n : Nat) (r : Ring) : Bool := ringNext n r.head == r.tail

/-- `count(R) = (N + R.head - R.tail) mod N`. -/
def ringCount (n head tail : Nat) : Nat := (n + head - tail) % n

/-- A read of slot `k` of a ring of capacity `n` (R76): the slot exists for `k < n`. -/
def slotRead (n k : Nat) (r : Ring) (f : Byte → Out) : Out :=
  if k < n then f (Memory.read r.buf k) else .fault .noSuchSlot

/-- A write of slot `k` of a ring of capacity `n` (R76). -/
def slotWrite (n k : Nat) (b : Byte) (r : Ring) (f : Ring → Out) : Out :=
  if k < n then f { r with buf := Memory.write r.buf k b } else .fault .noSuchSlot

/-! ## The abstract UART peripheral (R40 to R42) -/

/-- A read of `DATA` (R40): the waiting byte, which it consumes; with none waiting, an unspecified byte (93 U3: a free value). -/
def readData (s : State) : Byte × State :=
  match s.uart.rxHold with
  | some (b, _) => (b, s.mapUart fun u => { u with rxHold := none })
  | none => (Config.freeData s.drawn, { s with drawn := s.drawn + 1 })

/-- A write of `DATA` (R41): hands the byte to the transmitter; a fault while it still holds one (93 U4). -/
def writeData (b : Byte) (s : State) : Out :=
  match s.uart.txHold with
  | none => .next (s.mapUart fun u => { u with txHold := some b })
  | some _ => .fault .dataOverwritten

/-- `CTRL.RX_EN <- 0` (R40): a disabled receiver keeps no byte. -/
def disableReceiver (u : Uart) : Uart :=
  { u with ctrl := { u.ctrl with rxEn := false }, rxHold := none }

/-- `HW_RX(b, e)` (R40): enabled when the receiver is enabled and holds nothing. -/
def hwRx (b : Byte) (e : HwFlags) (s : State) : State :=
  if s.uart.ctrl.rxEn && s.uart.rxHold.isNone then
    s.mapUart fun u => { u with rxHold := some (b, e), wireIn := u.wireIn ++ [(b, e)] }
  else s

/-- `HW_TX_TAKE` (R42): enabled when the transmitter is enabled, holds a byte and shifts none. -/
def hwTxTake (s : State) : State :=
  match s.uart.txHold, s.uart.txShift with
  | some b, none =>
    if s.uart.ctrl.txEn then s.mapUart fun u => { u with txShift := some b, txHold := none } else s
  | _, _ => s

/-- `HW_TX_DONE` (R42): enabled when a byte is being shifted. -/
def hwTxDone (s : State) : State :=
  match s.uart.txShift with
  | some b => s.mapUart fun u => { u with wireOut := u.wireOut ++ [b], txShift := none }
  | none => s

/-! ## Critical sections and interrupts -/

/-- `atomic { S }` (R72): `saved <- GIE; GIE <- 0; S; GIE <- saved`. -/
def atomically (f : State → State) (s : State) : State :=
  { f { s with gie := false } with gie := s.gie }

/-- Interrupt entry (R218): the controller saves nothing and changes no mode; `GIE` = 0 during the entry point. -/
def enterInterrupt (s : State) : State := { s with gie := false }

/-- Interrupt return (R219): `GIE` is 1 again. -/
def returnFromInterrupt (s : State) : State := { s with gie := true }

/-- Taking an interrupt (R216, R221): only when `GIE` = 1 and the source is pending; the entry point runs from its first line to
its last as one step. -/
def takeInterrupt (c : BitVec 1) (entry : State → Out) (s : State) : Out :=
  if s.gie && causePending c s.uart then
    andThen (entry (enterInterrupt s)) fun t => .next (returnFromInterrupt t)
  else .refused .notTaken

/-! ## UART operations in progress (R45) -/

/-- The operation goes on at line `l`. -/
def goto (l : Line) (j : Job) (s : State) : State :=
  s.mapUart fun u => { u with job := some { j with line := l } }

/-- The return of a UART operation: `RES_STATUS` written, then `BUSY <- 0` (R28, R96); its bookkeeping is gone (R45). -/
def uartReturn (st : Status) (s : State) : State :=
  s.mapUart fun u => { u with resStatus := st.word s.cfg, busy := false, job := none }

/-- `goto` as an outcome. -/
def proceed (l : Line) (j : Job) (s : State) : Out := .next (goto l j s)

/-- `return` as an outcome. -/
def finish (st : Status) (s : State) : Out := .next (uartReturn st s)

end Sys2Proof.Machine
end

