-- ==== Sys2Proof/Machine/Operands.lean ====
section
/-! DEFINITION. Operands: the sampling of the operand registers at issue (spec 20_memory.md R74), the one addressing mode (R67)
and its two buffer spaces (R75), the layout of a typed value (R62), the address byte (30_encoding.md R89), and which buffer
bytes an operation in progress owns (R68). -/

namespace Sys2Proof.Machine

/-- The space a buffer operation moves bytes of (R75): the host's, or the scratch buffer in its place. -/
inductive Space where
  | hbuf
  | scr
deriving DecidableEq, Repr

/-- The size of `HBUF`, `2^BUFAW` bytes (R60). -/
def hbufSize (c : Config) : Nat := 2 ^ c.bufaw

/-- Effective address of byte `i` of a buffer (R67): `(buf + i) mod 2^BUFAW`; in `SCR` the base is 0 and a typed operation
touches only cells 0 to 7 (R75). -/
def effAddr (c : Config) (sp : Space) (buf i : Nat) : Nat :=
  match sp with
  | .hbuf => (buf + i) % hbufSize c
  | .scr => buf + i

/-- `MemRead(space, a, 1)`. -/
def readSpace (sp : Space) (a : Nat) (s : State) : Byte :=
  match sp with
  | .hbuf => Memory.read s.hbuf a
  | .scr => Memory.read s.i2c.scratch a

/-- `MemWrite(space, a, 1, b)`. -/
def writeSpace (sp : Space) (a : Nat) (b : Byte) (s : State) : State :=
  match sp with
  | .hbuf => s.writeHbuf a b
  | .scr => s.mapI2c fun d => { d with scratch := Memory.write d.scratch a b }

/-! ## Typed values (R62) -/

/-- How far byte `k` of a value of `size` bytes lies from bit 0: `WIRE_ORDER` = big puts the most significant byte first. -/
def typedShift (o : WireOrder) (size k : Nat) : Nat :=
  match o with
  | .big => 8 * (size - 1 - k)
  | .little => 8 * k

/-- Byte `k` of the value in `WIRE_ORDER`. -/
def typedByte (o : WireOrder) (size : Nat) (v : BitVec 64) (k : Nat) : Byte :=
  (v >>> typedShift o size k).setWidth 8

/-- Cells `0 .. n-1` of `SCR` written with the bytes of the value. -/
def stageTyped (o : WireOrder) (size : Nat) (v : BitVec 64) : Nat → Memory → Memory
  | 0, m => m
  | n + 1, m => Memory.write (stageTyped o size v n m) n (typedByte o size v n)

/-- The value that cells `0 .. n-1` of `SCR` contribute, decoded: the inverse of the staging, zero-extended to 64 bits. -/
def gatherTyped (o : WireOrder) (size : Nat) (m : Memory) : Nat → BitVec 64
  | 0 => 0#64
  | n + 1 => gatherTyped o size m n ||| ((Memory.read m n).setWidth 64 <<< typedShift o size n)

/-! ## The address byte (R89) -/

/-- `AB = {addr, rw}`, the byte put on the bus after a start condition. -/
def addressByte (addr : BitVec 7) (rw : Bool) : Byte := addr ++ BitVec.ofBool rw

/-! ## Sampling and ownership -/

/-- The bookkeeping of a UART operation at issue: its first line and the operand registers sampled (R74). -/
def jobAt (op : UOp) (l : Line) (b : Byte) (u : Uart) : Job :=
  { op := op, line := l, buf := u.oprBuf, count := u.oprCount, timeout := u.oprTimeout, byte := b }

/-- No byte of the string at `buf` before offset `k` is the terminator. -/
def noZeroBefore (c : Config) (m : Memory) (buf : Nat) : Nat → Bool
  | 0 => true
  | k + 1 => noZeroBefore c m buf k && Memory.read m (effAddr c .hbuf buf k) != 0#8

/-- The operation in progress owns `HBUF` byte `a` (R68): it lies in the operation's buffer, which for a string reaches to its
terminator. -/
def jobOwns (s : State) (j : Job) (a : Nat) : Bool :=
  let k := (a + hbufSize s.cfg - j.buf % hbufSize s.cfg) % hbufSize s.cfg
  match j.op with
  | .sendBuf _ => k < j.count.toNat
  | .recvBuf => k < j.count.toNat
  | .sendStr _ => noZeroBefore s.cfg s.hbuf j.buf k
  | _ => false

/-- Some operation in progress owns `HBUF` byte `a`. -/
def owned (s : State) (a : Nat) : Bool :=
  match s.uart.job with
  | some j => jobOwns s j a
  | none => false

end Sys2Proof.Machine
end

