-- ==== Sys2Proof/Machine/I2cPrim.lean ====
section
/-! DEFINITION. The I2C protocol primitives (spec 40_i2c_primitives.md R110 to R121) as functions that return their status, and
the meanings of the commands that issue them. -/

namespace Sys2Proof.Machine

/-! ## The primitives -/

/-- `waitBusy()` (R112). -/
def waitBusy (s : State) : Status × State :=
  let (clear, s) := askBusyClear s
  (if clear then okStatus 0#16 else ⟨.busTimeout, 0#16⟩, s)

/-- Whether the engine already holds the bus, `rep` (R113 line 1). -/
def repeated (s : State) : Bool := s.i2c.fsm == .transferringData || s.i2c.fsm == .error

/-- R113 line 2. -/
def startBegun (addr : BitVec 7) (rw : Bool) (s : State) : State :=
  s.mapI2c fun d => { d with fsm := .addressing, tAddr := addr, tDir := rw }

/-- R113 lines 5 to 7: the address byte and its acknowledge. -/
def sendAddress (addr : BitVec 7) (rw : Bool) (s : State) : Status × State :=
  let (r, s) := askXfer s
  let c := evalTx r
  let s := emit (.txa addr rw (resOf c)) s
  if c ≠ .ok then (⟨c, 0#16⟩, setFsm .error s) else (okStatus 0#16, setFsm .transferringData s)

/-- `start(addr, rw)` (R113). -/
def start (addr : BitVec 7) (rw : Bool) (s : State) : Status × State :=
  let rep := repeated s
  let (r, s) := askXfer (startBegun addr rw s)
  let c := evalCond r
  let s := emit (.start rep (resOf c)) s
  if c ≠ .ok then (⟨c, 0#16⟩, setFsm .error s) else sendAddress addr rw s

/-- `stop()` (R114): the environment is not asked and the status is always `ST_OK`. -/
def stop (s : State) : Status × State :=
  (okStatus 0#16, setFsm .idle (emit .stop (setFsm .stopping s)))

/-- `sendByte(b)` (R115). -/
def sendByte (b : Byte) (s : State) : Status × State :=
  let (r, s) := askXfer s
  let c := evalTx r
  let s := emit (.txb b (resOf c)) s
  if c ≠ .ok then (⟨c, 0#16⟩, setFsm .error s) else (okStatus 1#16, s)

/-- `receiveByte(ack)` (R116). -/
def receiveByte (ack : Bool) (s : State) : Status × State :=
  let (r, s) := askXfer s
  let c := evalRx r
  let s := emit (.rxb r.data ack (resOf c)) s
  if c ≠ .ok then (⟨c, 0#16⟩, setFsm .error s) else (okStatus (0#8 ++ r.data), s)

/-- `open()` (R131). -/
def i2cOpen (s : State) : Status × State :=
  if s.i2c.opened then (okStatus 0#16, s)
  else
    let (initOk, s) := askInitOk s
    (if initOk then okStatus 0#16 else ⟨.busError, 0#16⟩,
     if initOk then (emit .cfgInit s).mapI2c fun d => { d with opened := true, fsm := .idle } else s)

/-- `close()` (R132): no `STOP` even while the engine holds the bus. -/
def i2cClose (s : State) : Status × State :=
  if s.i2c.opened then
    (okStatus 0#16, (emit .cfgDeinit s).mapI2c fun d => { d with opened := false, fsm := .closed })
  else (okStatus 0#16, s)

/-- `reset()` (R117): close, then open; the status is that of the open. -/
def i2cReset (s : State) : Status × State := i2cOpen (i2cClose s).2

/-! ## Admission of host-issued primitives (R118) -/

/-- `start` and `stop`: the device open and `fsm` one of `Idle`, `TransferringData`, `Error`. -/
def admitsStartStop (s : State) : Option Refusal :=
  if s.i2c.opened = false then some .notOpen
  else if s.i2c.fsm = .idle ∨ s.i2c.fsm = .transferringData ∨ s.i2c.fsm = .error then none
  else some .notAdmitted

/-- `sendByte` (`dir` false) and `receiveByte` (`dir` true): the device open, `fsm` = `TransferringData` and `T_DIR` = `dir`. -/
def admitsTransfer (dir : Bool) (s : State) : Option Refusal :=
  if s.i2c.opened = false then some .notOpen
  else if s.i2c.fsm = .transferringData ∧ s.i2c.tDir = dir then none
  else some .notAdmitted

/-! ## The meanings -/

/-- `I2C_WAITBUSY` (R112), admitted in any state of an open device (R118). -/
def execI2cWaitbusy (s : State) : Out := i2cCommand (needsI2cOpen s) waitBusy s

/-- `I2C_START` (R113). -/
def execI2cStart (rw : Bool) (addr : BitVec 7) (s : State) : Out :=
  i2cCommand (admitsStartStop s) (start addr rw) s

/-- `I2C_STOP` (R114). -/
def execI2cStop (s : State) : Out := i2cCommand (admitsStartStop s) stop s

/-- `I2C_SENDB` (R115). -/
def execI2cSendb (b : Byte) (s : State) : Out := i2cCommand (admitsTransfer false s) (sendByte b) s

/-- `I2C_RECVB` (R116). -/
def execI2cRecvb (ack : Bool) (s : State) : Out := i2cCommand (admitsTransfer true s) (receiveByte ack) s

/-- `I2C_RESET` (R117), admitted in every state of the device (R130). -/
def execI2cReset (s : State) : Out := i2cCommand none i2cReset s

end Sys2Proof.Machine
end

