-- ==== Sys2Proof/Machine/I2cOps.lean ====
section
/-! DEFINITION. The I2C public operations (spec 41_i2c_operations.md R130 to R148): fixed sequences of the primitives, and the
meanings of their commands. An operation runs from issue to return as one step (R121). -/

namespace Sys2Proof.Machine

/-- `abort(c, n)` (R140): the cleanup of every failing exit, a stop unless the bus is idle. -/
def abort (c : StClass) (n : BitVec 16) (s : State) : Status × State :=
  (⟨c, n⟩, if s.i2c.fsm = .idle then s else (stop s).2)

/-- A primitive of a composite operation: on any status but `ST_OK` the operation aborts with that classification and the
payload `n` (R141), else it goes on. -/
def orAbort (n : BitVec 16) (r : Status × State) (go : Status → State → Status × State) : Status × State :=
  if r.1.cls = .ok then go r.1 r.2 else abort r.1.cls n r.2

/-- `T_REM <- T_REM - 1`. -/
def countDown (s : State) : State := s.mapI2c fun d => { d with tRem := d.tRem - 1#16 }

/-- R135 lines 5 to 10: the data bytes of a write, `rem` of them from index `n` on, then the stop and the return. -/
def sendLoop (sp : Space) (buf : Nat) : Nat → Nat → State → Status × State
  | 0, n, s => (okStatus (BitVec.ofNat 16 n), (stop s).2)
  | rem + 1, n, s =>
    orAbort (BitVec.ofNat 16 n) (sendByte (readSpace sp (effAddr s.cfg sp buf n) s) s) fun _ t =>
      sendLoop sp buf rem (n + 1) (countDown t)

/-- R136 lines 6 to 12 and R137 lines 4 to 10: the data bytes of a read, the last one NACKed, then the stop if `stopComm` and the
return. -/
def receiveLoop (sp : Space) (buf : Nat) (stopComm : Bool) : Nat → Nat → State → Status × State
  | 0, n, s => (okStatus (BitVec.ofNat 16 n), if stopComm then (stop s).2 else s)
  | rem + 1, n, s =>
    orAbort (BitVec.ofNat 16 n) (receiveByte (decide (0 < rem)) s) fun st t =>
      receiveLoop sp buf stopComm rem (n + 1)
        (countDown (writeSpace sp (effAddr t.cfg sp buf n) (st.payload.setWidth 8) t))

/-- R135: `write(addr, reg, buf, count)` from a buffer in a space. -/
def writeBuffer (sp : Space) (addr : BitVec 7) (reg : Byte) (buf : Nat) (count : BitVec 16) (s : State) : Status × State :=
  orAbort 0#16
    (waitBusy (s.mapI2c fun d => { d with tAddr := addr, tReg := reg, tDir := false, tRem := count })) fun _ s =>
  orAbort 0#16 (start addr false s) fun _ s =>
  orAbort 0#16 (sendByte reg s) fun _ s =>
  sendLoop sp buf count.toNat 0 s

/-- R136: `read(addr, reg, buf, count)` into a buffer in a space; the second start is a repeated one. -/
def readBuffer (sp : Space) (addr : BitVec 7) (reg : Byte) (buf : Nat) (count : BitVec 16) (s : State) : Status × State :=
  orAbort 0#16
    (waitBusy (s.mapI2c fun d => { d with tAddr := addr, tReg := reg, tRem := count })) fun _ s =>
  orAbort 0#16 (start addr false s) fun _ s =>
  orAbort 0#16 (sendByte reg s) fun _ s =>
  orAbort 0#16 (start addr true s) fun _ s =>
  receiveLoop sp buf true count.toNat 0 s

/-- R137: the raw read. -/
def readRaw (addr : BitVec 7) (buf : Nat) (count : BitVec 16) (stopComm : Bool) (s : State) : Status × State :=
  orAbort 0#16 (waitBusy (s.mapI2c fun d => { d with tAddr := addr, tRem := count })) fun _ s =>
  orAbort 0#16 (start addr true s) fun _ s =>
  receiveLoop .hbuf buf stopComm count.toNat 0 s

/-- R134 lines 2 to 8: `k` addresses still to probe from `a` on, `n` counted so far. -/
def scanLoop : Nat → Nat → Nat → State → Status × State
  | 0, _, n, s => (okStatus (BitVec.ofNat 16 n), s)
  | k + 1, a, n, s =>
    orAbort (BitVec.ofNat 16 n) (waitBusy s) fun _ s =>
      let (st, s) := start (BitVec.ofNat 7 a) false s
      let s := (stop s).2
      if st.cls = .ok then scanLoop k (a + 1) (n + 1) s
      else if st.cls = .nack then scanLoop k (a + 1) n s
      else (⟨st.cls, BitVec.ofNat 16 n⟩, s)

/-- R134: `scan()`. -/
def scan (s : State) : Status × State :=
  scanLoop (s.cfg.scanHi + 1 - s.cfg.scanLo) s.cfg.scanLo 0 s

/-- R138: `write<T>(addr, reg, value)`: stage the value in `SCR`, then write from there. -/
def writeTyped (addr : BitVec 7) (reg size : Byte) (s : State) : Status × State :=
  writeBuffer .scr addr reg 0 (size.setWidth 16)
    (s.mapI2c fun d =>
      { d with scratch := stageTyped s.cfg.wireOrder size.toNat d.oprValue size.toNat d.scratch })

/-- `RES_VALUE` after a typed read: the decoded value on `ST_OK`, else unspecified (R139, 93 U1: a free value). -/
def typedResult (size : Byte) (st : Status) (s : State) : State :=
  if st.cls = .ok then
    s.mapI2c fun d => { d with resValue := gatherTyped s.cfg.wireOrder size.toNat d.scratch size.toNat }
  else { s.mapI2c fun d => { d with resValue := Config.freeResValue s.drawn } with drawn := s.drawn + 1 }

/-- R139: `read<T>(addr, reg)`: read into `SCR`, then decode. -/
def readTyped (addr : BitVec 7) (reg size : Byte) (s : State) : Status × State :=
  let (st, t) := readBuffer .scr addr reg 0 (size.setWidth 16) s
  (st, typedResult size st t)

/-- R133: `isOpen()` of the I2C engine. -/
def i2cIsOpen (s : State) : Status × State :=
  (okStatus 0#16, s.mapI2c fun d => { d with resValue := (BitVec.ofBool d.opened).setWidth 64 })

/-- The admission of a typed operation: open (R130) and a size of R94. -/
def admitsTyped (size : Byte) (s : State) : Option Refusal :=
  if typedSizeOk size then needsI2cOpen s else some (.reservedWord .badSize)

/-! ## The meanings -/

/-- `I2C_OPEN` (R131), admitted in every state of the device (R130). -/
def execI2cOpen (s : State) : Out := i2cCommand none i2cOpen s

/-- `I2C_CLOSE` (R132). -/
def execI2cClose (s : State) : Out := i2cCommand none i2cClose s

/-- `I2C_ISOPEN` (R133). -/
def execI2cIsopen (s : State) : Out := i2cCommand none i2cIsOpen s

/-- `I2C_SCAN` (R134). -/
def execI2cScan (s : State) : Out := i2cCommand (needsI2cOpen s) scan s

/-- `I2C_WRITE` (R135): `buf` and `count` are `OPR_BUF` and `OPR_COUNT` at issue (R74). -/
def execI2cWrite (addr : BitVec 7) (reg : Byte) (s : State) : Out :=
  i2cCommand (needsI2cOpen s) (writeBuffer .hbuf addr reg s.i2c.oprBuf s.i2c.oprCount) s

/-- `I2C_READ` (R136). -/
def execI2cRead (addr : BitVec 7) (reg : Byte) (s : State) : Out :=
  i2cCommand (needsI2cOpen s) (readBuffer .hbuf addr reg s.i2c.oprBuf s.i2c.oprCount) s

/-- `I2C_READRAW` (R137). -/
def execI2cReadraw (stopComm : Bool) (addr : BitVec 7) (s : State) : Out :=
  i2cCommand (needsI2cOpen s) (readRaw addr s.i2c.oprBuf s.i2c.oprCount stopComm) s

/-- `I2C_WRITET` (R138). -/
def execI2cWritet (addr : BitVec 7) (reg size : Byte) (s : State) : Out :=
  i2cCommand (admitsTyped size s) (writeTyped addr reg size) s

/-- `I2C_READT` (R139). -/
def execI2cReadt (addr : BitVec 7) (reg size : Byte) (s : State) : Out :=
  i2cCommand (admitsTyped size s) (readTyped addr reg size) s

end Sys2Proof.Machine
end

