-- ==== Sys2Proof/Machine/UartIrq.lean ====
section
/-! DEFINITION. The two UART interrupt entry points and the manual pump (spec 42_uart_ring_and_handlers.md R165 to R168). The
handler logic is a plain function shared by the interrupt and the pump. -/

namespace Sys2Proof.Machine

/-- R165, on-receive, from its first line to its last: the flags of the waiting byte, the byte, the next head; stored when the
ring is not full, else dropped with the overflow flag; the latch is assigned, not accumulated. -/
def onReceive (s : State) : Out :=
  let e := hwLatch s.cfg.ef (statErrors s.uart)
  let (b, s) := readData s
  let nx := ringNext s.cfg.nRx s.uart.rx.head
  if nx ≠ s.uart.rx.tail then
    slotWrite s.cfg.nRx s.uart.rx.head b s.uart.rx fun r =>
      .next (s.mapUart fun u => { u with rx := { r with head := nx }, rxError := e })
  else .next (s.mapUart fun u => { u with rxError := e ||| efBit s.cfg.ef.overflow })

/-- `CTRL.TXE_IE <- 0`. -/
def clearTxeIe (s : State) : State := s.mapUart fun u => { u with ctrl := { u.ctrl with txeIe := false } }

/-- R166, on-transmit-empty: with an empty ring it only switches its interrupt off; else it moves one byte to `DATA`, and
switches the interrupt off when that was the last. -/
def onTransmitEmpty (s : State) : Out :=
  if s.uart.tx.isEmpty then .next (clearTxeIe s)
  else
    slotRead s.cfg.nTx s.uart.tx.tail s.uart.tx fun b =>
      andThen (writeData b (s.mapUart fun u => { u with tx := { u.tx with tail := ringNext s.cfg.nTx u.tx.tail } }))
        fun t => .next (if t.uart.tx.isEmpty then clearTxeIe t else t)

/-- R167, the manual pump: exactly when the interrupt would be taken were `GIE` 1, mainline runs the handler logic itself;
there is no entry and no return (R219). -/
def pump (s : State) : Out :=
  if !s.gie && txePending s.uart then onTransmitEmpty s else .next s

/-- `ON_RX` (R165), cause 0. -/
def execOnRx (s : State) : Out := takeInterrupt 0#1 onReceive s

/-- `ON_TXE` (R166), cause 1. -/
def execOnTxe (s : State) : Out := takeInterrupt 1#1 onTransmitEmpty s

end Sys2Proof.Machine
end

