-- ==== Sys2Proof/Machine/UartMain.lean ====
section
/-! DEFINITION. The mainline UART operations line by line (spec 43_uart_operations.md R180 to R192): what the mainline agent does
at each numbered line of the pseudocode (00_scope.md R10, 10_state.md R45). A line of a routine that other operations call
(`flush_out()`, single-byte `send`, `recv()`) ends in the caller's line that `op` selects. -/

namespace Sys2Proof.Machine

/-- A line that changes the UART and goes on. -/
def change (f : Uart → Uart) (l : Line) (j : Job) (s : State) : Out := proceed l j (s.mapUart f)

/-! ## Returns of the shared routines to their callers -/

/-- `flush_out()` returns (R186 line 3): to `close` line 3, to a draining `send` (lines 9, 8, 9), or to the host. -/
def flushOutReturn (j : Job) (s : State) : Out :=
  match j.op with
  | .closing => proceed .close3 j s
  | .send _ => proceed .send9 j s
  | .sendBuf _ => proceed .sendBuf8 j s
  | .sendStr _ => proceed .sendStr9 j s
  | _ => finish (okStatus 0#16) s

/-- Single-byte `send` returns (R187): to the buffer or string form, or to the host. -/
def sendReturn (st : Status) (j : Job) (s : State) : Out :=
  match j.op with
  | .sendBuf _ => proceed .sendBuf5 { j with ret := st } s
  | .sendStr _ => proceed .sendStr6 { j with ret := st } s
  | _ => finish st s

/-- `recv()` returns (R190): to `recv(buffer, count, timeout)`, or to the host. -/
def recvReturn (st : Status) (j : Job) (s : State) : Out :=
  match j.op with
  | .recvBuf => proceed .recvBuf4 { j with ret := st } s
  | _ => finish st s

/-! ## Waiting -/

/-- The timeout a single-byte `send` runs with: its operand (R187), or `SENDBUF_TIMEOUT` when a buffer or string form called
it (R188, R189). -/
def sendTimeout (c : Config) (j : Job) : BitVec 32 :=
  match j.op with
  | .send _ => j.timeout
  | _ => c.sendbufTimeout

/-- Whether a single-byte `send` drains before it returns: as asked (R187); never when a buffer or string form called it. -/
def sendDrains (j : Job) : Bool :=
  match j.op with
  | .send drain => drain
  | _ => false

/-- Whether a buffer or string `send` drains after its last byte (R188, R189). -/
def bufferDrains (j : Job) : Bool :=
  match j.op with
  | .sendBuf drain => drain
  | .sendStr drain => drain
  | _ => false

/-- `waited <- waited + POLL_QUANTUM` (R181). -/
def wait (c : Config) (j : Job) : Job := { j with waited := j.waited + c.pollQuantum }

/-! ## `open`, `close`, `isOpen` -/

/-- R182 line 3: receiver, transmitter and receive interrupt enabled. -/
def enableReceive (u : Uart) : Uart := { u with ctrl := { u.ctrl with rxEn := true, txEn := true, rxIe := true } }

/-- R183 line 3, inside `atomic`: every `CTRL` field 0, the receiver empty, the receive ring and the latch reset. -/
def tearDown (u : Uart) : Uart :=
  { disableReceiver { u with ctrl := { u.ctrl with rxIe := false, txeIe := false, txEn := false } } with
    rx := { u.rx with head := 0, tail := 0 }, rxError := 0#8 }

/-! ## `flush` -/

/-- R186 outbound line 1: the ring is empty and the transmitter idle. -/
def drained (u : Uart) : Bool := u.tx.isEmpty && statTxc u

/-- R186 inbound line 1: what was received and not read is discarded, and the latch cleared. -/
def discardInput (u : Uart) : Uart := { u with rx := { u.rx with tail := u.rx.head }, rxError := 0#8 }

/-! ## `send` -/

/-- R187 line 4: the pump, then the bound, then the wait. -/
def sendWait (j : Job) (s : State) : Out :=
  andThen (pump s) fun t =>
    if sendTimeout t.cfg j ≠ 0#32 ∧ (sendTimeout t.cfg j).toNat ≤ j.waited then sendReturn ⟨.txTimeout, 0#16⟩ j t
    else proceed .send3 (wait t.cfg j) t

/-- R187 line 5: the slot is written before the index moves. -/
def sendStore (j : Job) (s : State) : Out :=
  slotWrite s.cfg.nTx s.uart.tx.head j.byte s.uart.tx fun r => change (fun u => { u with tx := r }) .send6 j s

/-- `CTRL.TXE_IE <- 1`. -/
def setTxeIe (u : Uart) : Uart := { u with ctrl := { u.ctrl with txeIe := true } }

/-- R188 line 3, R189 line 3: the byte of the buffer at the loop counter. -/
def bufferByte (j : Job) (s : State) : Byte := Memory.read s.hbuf (effAddr s.cfg .hbuf j.buf j.i)

/-! ## `recv` -/

/-- R190 line 2. -/
def recvRead (j : Job) (s : State) : Out :=
  slotRead s.cfg.nRx s.uart.rx.tail s.uart.rx fun b => proceed .recv3 { j with byte := b } s

/-- R190 line 4, inside `atomic`: the latch is read and cleared in one step. -/
def readClear (j : Job) (s : State) : Out :=
  proceed .recv5 { j with flags := s.uart.rxError } (atomically (fun t => t.mapUart fun u => { u with rxError := 0#8 }) s)

/-- `EF_TIMEOUT` set in the accumulated flags (R191 line 5). -/
def timeoutFlags (c : Config) (acc : Byte) : Byte := acc ||| efBit c.ef.timeout

/-- R191 line 8: the byte stored, its flags accumulated, the counter advanced. -/
def recvStore (j : Job) (s : State) : Out :=
  proceed .recvBuf2 { j with acc := j.acc ||| (j.ret.payload >>> 8).setWidth 8, i := j.i + 1 }
    (s.writeHbuf (effAddr s.cfg .hbuf j.buf j.i) (j.ret.payload.setWidth 8))

/-! ## The lines -/

/-- One numbered line of the operation in progress. -/
def lineStep (j : Job) (s : State) : Out :=
  match j.line with
  -- R182, `open()`
  | .open1 => if s.uart.opened then finish (okStatus 0#16) s else proceed .open2 j s
  | .open2 => change (fun u => { u with baud := s.cfg.uartBaud, format := s.cfg.uartFormat }) .open3 j s
  | .open3 => change enableReceive .open4 j s
  | .open4 => change (fun u => { u with opened := true }) .open5 j s
  | .open5 => finish (okStatus 0#16) s
  -- R183, `close()`
  | .close1 => if s.uart.opened then proceed .close2 j s else finish (okStatus 0#16) s
  | .close2 => proceed .flushOut1 j s
  | .close3 => proceed .close4 j (atomically (fun t => t.mapUart tearDown) s)
  | .close4 => change (fun u => { u with opened := false }) .close5 j s
  | .close5 => finish (okStatus 0#16) s
  -- R184, `isOpen()`
  | .isOpen1 => change (fun u => { u with resValue := (BitVec.ofBool u.opened).setWidth 64 }) .isOpen2 j s
  | .isOpen2 => finish (okStatus 0#16) s
  -- R185, `available()`
  | .avail1 => proceed .avail2 { j with h := s.uart.rx.head } s
  | .avail2 => proceed .avail3 { j with t := s.uart.rx.tail } s
  | .avail3 => finish (okStatus (BitVec.ofNat 16 (ringCount s.cfg.nRx j.h j.t))) s
  -- R186, outbound, `flush_out()`
  | .flushOut1 => if drained s.uart then proceed .flushOut3 j s else proceed .flushOut2 j s
  | .flushOut2 => andThen (pump s) (proceed .flushOut1 j)
  | .flushOut3 => flushOutReturn j s
  -- R186, inbound
  | .flushIn1 => proceed .flushIn2 j (atomically (fun t => t.mapUart discardInput) s)
  | .flushIn2 => finish (okStatus 0#16) s
  -- R187, `send(byte, drain, timeout)`
  | .send1 => proceed .send2 { j with waited := 0 } s
  | .send2 => proceed .send3 { j with nx := ringNext s.cfg.nTx s.uart.tx.head } s
  | .send3 => if j.nx = s.uart.tx.tail then proceed .send4 j s else proceed .send5 j s
  | .send4 => sendWait j s
  | .send5 => sendStore j s
  | .send6 => change (fun u => { u with tx := { u.tx with head := j.nx } }) .send7 j s
  | .send7 => proceed .send8 j (atomically (fun t => t.mapUart setTxeIe) s)
  | .send8 => if sendDrains j then proceed .flushOut1 j s else proceed .send9 j s
  | .send9 => sendReturn (okStatus 1#16) j s
  -- R188, `send(buffer, count, drain)`
  | .sendBuf1 => proceed .sendBuf2 { j with i := 0 } s
  | .sendBuf2 => if j.i < j.count.toNat then proceed .sendBuf3 j s else proceed .sendBuf7 j s
  | .sendBuf3 => proceed .sendBuf4 { j with byte := bufferByte j s } s
  | .sendBuf4 => proceed .send1 j s
  | .sendBuf5 => if j.ret.cls = .ok then proceed .sendBuf6 j s else finish ⟨j.ret.cls, BitVec.ofNat 16 j.i⟩ s
  | .sendBuf6 => proceed .sendBuf2 { j with i := j.i + 1 } s
  | .sendBuf7 => if bufferDrains j then proceed .flushOut1 j s else proceed .sendBuf8 j s
  | .sendBuf8 => finish (okStatus (BitVec.ofNat 16 j.i)) s
  -- R189, `send(string, drain)`
  | .sendStr1 => proceed .sendStr2 { j with i := 0 } s
  | .sendStr2 => proceed .sendStr3 j s
  | .sendStr3 => proceed .sendStr4 { j with byte := bufferByte j s } s
  | .sendStr4 => if j.byte = 0#8 then proceed .sendStr8 j s else proceed .sendStr5 j s
  | .sendStr5 => proceed .send1 j s
  | .sendStr6 => if j.ret.cls = .ok then proceed .sendStr7 j s else finish ⟨j.ret.cls, BitVec.ofNat 16 j.i⟩ s
  | .sendStr7 => proceed .sendStr2 { j with i := j.i + 1 } s
  | .sendStr8 => if bufferDrains j then proceed .flushOut1 j s else proceed .sendStr9 j s
  | .sendStr9 => finish (okStatus (BitVec.ofNat 16 j.i)) s
  -- R190, `recv()`
  | .recv1 => if s.uart.rx.isEmpty then recvReturn ⟨.noData, 0xFF00#16⟩ j s else proceed .recv2 j s
  | .recv2 => recvRead j s
  | .recv3 => change (fun u => { u with rx := { u.rx with tail := ringNext s.cfg.nRx u.rx.tail } }) .recv4 j s
  | .recv4 => readClear j s
  | .recv5 => recvReturn (okStatus (j.flags ++ j.byte)) j s
  -- R191, `recv(buffer, count, timeout)`; its line 7 is the `else` between lines 6 and 8
  | .recvBuf1 => proceed .recvBuf2 { j with i := 0, waited := 0, acc := 0#8 } s
  | .recvBuf2 => if j.i < j.count.toNat then proceed .recvBuf3 j s else proceed .recvBuf9 j s
  | .recvBuf3 => proceed .recv1 j s
  | .recvBuf4 => if j.ret.cls = .noData then proceed .recvBuf5 j s else proceed .recvBuf8 j s
  | .recvBuf5 =>
    if j.timeout.toNat ≤ j.waited then finish ⟨.opTimeout, timeoutFlags s.cfg j.acc ++ 0#8⟩ s else proceed .recvBuf6 j s
  | .recvBuf6 => proceed .recvBuf2 (wait s.cfg j) s
  | .recvBuf8 => recvStore j s
  | .recvBuf9 => finish (okStatus (j.acc ++ 0#8)) s

/-- The mainline agent runs one line (R10); with no operation in progress it does nothing. -/
def mainlineStep (s : State) : Out :=
  match s.uart.job with
  | some j => lineStep j s
  | none => .next s

/-- The mainline agent runs `n` lines, or up to the return. -/
def runLines : Nat → State → Out
  | 0, s => .next s
  | n + 1, s =>
    match s.uart.job with
    | some j => andThen (lineStep j s) (runLines n)
    | none => .next s

end Sys2Proof.Machine
end

