-- ==== Sys2Proof/Machine/UartOps.lean ====
section
/-! DEFINITION. The meanings of the UART commands (spec 43_uart_operations.md R180 to R191, 30_encoding.md R96): admission, issue,
and the operation's lines for as long as the schedule lets the mainline agent run (`State.burst`); the schedule runs the
others later. -/

namespace Sys2Proof.Machine

/-- The admission of an operation that needs `U.open` = 1 (R180). -/
def needsUartOpen (s : State) : Option Refusal :=
  if s.uart.opened then none else some .notOpen

/-- A UART command: refused while `BUSY` = 1 (R247) and where it is not admitted (R180); else `BUSY <- 1`, the operands sampled
(R74), the operation at its first line, and `burst` lines of it: none unless the schedule has asked for some (R10). -/
def uartCommand (refusal : Option Refusal) (op : UOp) (first : Line) (b : Byte) (s : State) : Out :=
  if s.uart.busy then .refused .busy
  else
    match refusal with
    | some r => .refused r
    | none => runLines s.burst (s.mapUart fun u => { u with busy := true, job := some (jobAt op first b u) })

/-- `U_OPEN` (R182), admitted in every state of the port (R180). -/
def execUOpen (s : State) : Out := uartCommand none .opening .open1 0#8 s

/-- `U_CLOSE` (R183), admitted in every state of the port (R180). -/
def execUClose (s : State) : Out := uartCommand none .closing .close1 0#8 s

/-- `U_ISOPEN` (R184), admitted in every state of the port (R180). -/
def execUIsopen (s : State) : Out := uartCommand none .isOpen .isOpen1 0#8 s

/-- `U_AVAIL` (R185). -/
def execUAvail (s : State) : Out := uartCommand (needsUartOpen s) .available .avail1 0#8 s

/-- `U_FLUSH` (R186): outbound when `F` = 1, inbound when 0. -/
def execUFlush (outbound : Bool) (s : State) : Out :=
  uartCommand (needsUartOpen s) (.flush outbound) (if outbound then .flushOut1 else .flushIn1) 0#8 s

/-- `U_SEND` (R187). -/
def execUSend (drain : Bool) (b : Byte) (s : State) : Out :=
  uartCommand (needsUartOpen s) (.send drain) .send1 b s

/-- `U_SENDBUF` (R188). -/
def execUSendbuf (drain : Bool) (s : State) : Out :=
  uartCommand (needsUartOpen s) (.sendBuf drain) .sendBuf1 0#8 s

/-- `U_SENDSTR` (R189). -/
def execUSendstr (drain : Bool) (s : State) : Out :=
  uartCommand (needsUartOpen s) (.sendStr drain) .sendStr1 0#8 s

/-- `U_RECV` (R190). -/
def execURecv (s : State) : Out := uartCommand (needsUartOpen s) .recv .recv1 0#8 s

/-- `U_RECVBUF` (R191). -/
def execURecvbuf (s : State) : Out := uartCommand (needsUartOpen s) .recvBuf .recvBuf1 0#8 s

end Sys2Proof.Machine
end

