-- ==== Sys2Proof/Machine/Sched.lean ====
section
/-! DEFINITION. What is presented to the machine and the moves of the other agents (spec 00_scope.md R11, R13; 10_state.md R40 to
R44; 20_memory.md R68; 30_encoding.md R96; 60_exceptions.md R216). `Step.lean` only calls what stands here. -/

namespace Sys2Proof.Machine

/-- What becomes of a presentation. -/
inductive Fetched where
  /-- The instruction runs in this state. -/
  | run (i : Instr) (s : State)
  /-- Nothing runs: the interrupt is not taken. -/
  | idle (s : State)
  /-- The word is refused. -/
  | reject (r : Refusal)
deriving DecidableEq, Repr

/-- The host's write of a command word, or the interrupt mechanism's presentation of a cause. A legal word is in `CW` when its
operation starts (R96); a reserved one is refused (R93). A cause whose source is not pending, or any cause while `GIE` = 0, is
not taken and nothing happens (R216). -/
def fetch (p : Presented) (s : State) : Fetched :=
  match p with
  | .i2cCommand w =>
    match decodeI2c w with
    | .ok i => .run i (s.mapI2c fun d => { d with cw := w })
    | .error e => .reject (.reservedWord e)
  | .uartCommand w =>
    match decodeUart w with
    | .ok i => .run i (s.mapUart fun u => { u with cw := w })
    | .error e => .reject (.reservedWord e)
  | .cause c => if s.gie && causePending c s.uart then .run (decodeCause c) s else .idle s

/-- The host writes `OPR_COUNT` of an engine (R27). -/
def setCount (e : Engine) (v : BitVec 16) (s : State) : State :=
  match e with
  | .i2c => s.mapI2c fun d => { d with oprCount := v }
  | .uart => s.mapUart fun u => { u with oprCount := v }

/-- The host writes `OPR_BUF` of an engine, which holds `BUFAW` bits (R27). -/
def setBuf (e : Engine) (v : Nat) (s : State) : State :=
  match e with
  | .i2c => s.mapI2c fun d => { d with oprBuf := v % hbufSize s.cfg }
  | .uart => s.mapUart fun u => { u with oprBuf := v % hbufSize s.cfg }

/-- The host writes `OPR_VALUE` of an engine (R27). -/
def setValue (e : Engine) (v : BitVec 64) (s : State) : State :=
  match e with
  | .i2c => s.mapI2c fun d => { d with oprValue := v }
  | .uart => s.mapUart fun u => { u with oprValue := v }

/-- The host writes `OPR_TIMEOUT` (R27). -/
def setTimeout (v : BitVec 32) (s : State) : State := s.mapUart fun u => { u with oprTimeout := v }

/-- The host writes a byte of `HBUF`; refused when the operation in progress owns it (R68). -/
def hostWrite (a : Nat) (b : Byte) (s : State) : Out :=
  if owned s (a % hbufSize s.cfg) then .refused .bufferOwned else .next (s.writeHbuf (a % hbufSize s.cfg) b)

/-- The host reads a byte of `HBUF`; refused when the operation in progress owns it (R68), else without effect. -/
def hostRead (a : Nat) (s : State) : Out :=
  if owned s (a % hbufSize s.cfg) then .refused .bufferOwned else .next s

/-- A move of an agent that presents nothing. -/
def move (e : Event) (s : State) : Out :=
  match e with
  | .present _ => .next s
  | .setCount g v => .next (setCount g v s)
  | .setBuf g v => .next (setBuf g v s)
  | .setValue g v => .next (setValue g v s)
  | .setTimeout v => .next (setTimeout v s)
  | .hostWrite a b => hostWrite a b s
  | .hostRead a => hostRead a s
  | .mainline => mainlineStep s
  | .hwRx b f => .next (hwRx b f s)
  | .hwTxTake => .next (hwTxTake s)
  | .hwTxDone => .next (hwTxDone s)
  | .setGie b => .next { s with gie := b }
  | .setBurst n => .next { s with burst := n }

/-- The state with an interrupt source pending and able to be taken: what it takes for its entry point to be the next to
run (R216). -/
def makePending (c : BitVec 1) (s : State) : State :=
  if c = 0#1 then
    { s.mapUart fun u => { u with ctrl := { u.ctrl with rxIe := true }, rxHold := some (u.rxHold.getD (0#8, {})) } with
      gie := true }
  else { s.mapUart fun u => { u with ctrl := { u.ctrl with txeIe := true }, txHold := none } with gie := true }

/-- The state in which `p` is the next thing presented; a cause is also made pending. -/
def presentNext (p : Presented) (s : State) : State :=
  match p with
  | .cause c => { makePending c s with sched := .present p :: s.sched }
  | _ => { s with sched := .present p :: s.sched }

end Sys2Proof.Machine
end

