-- ==== Sys2Proof/Machine/Dispatch.lean ====
section
/-! DEFINITION. `exec`: one arm per instruction of spec/opcode_table.json, each one direct call of its meaning. -/

namespace Sys2Proof.Machine

def exec (i : Instr) (s : State) : Host.Outcome State Fault Refusal :=
  match i with
  | .i2cOpen => Sys2Proof.Machine.execI2cOpen s
  | .i2cClose => Sys2Proof.Machine.execI2cClose s
  | .i2cIsopen => Sys2Proof.Machine.execI2cIsopen s
  | .i2cReset => Sys2Proof.Machine.execI2cReset s
  | .i2cScan => Sys2Proof.Machine.execI2cScan s
  | .i2cWrite addr reg => Sys2Proof.Machine.execI2cWrite addr reg s
  | .i2cRead addr reg => Sys2Proof.Machine.execI2cRead addr reg s
  | .i2cReadraw stopComm addr => Sys2Proof.Machine.execI2cReadraw stopComm addr s
  | .i2cWritet addr reg size => Sys2Proof.Machine.execI2cWritet addr reg size s
  | .i2cReadt addr reg size => Sys2Proof.Machine.execI2cReadt addr reg size s
  | .i2cWaitbusy => Sys2Proof.Machine.execI2cWaitbusy s
  | .i2cStart rw addr => Sys2Proof.Machine.execI2cStart rw addr s
  | .i2cStop => Sys2Proof.Machine.execI2cStop s
  | .i2cSendb byte => Sys2Proof.Machine.execI2cSendb byte s
  | .i2cRecvb ack => Sys2Proof.Machine.execI2cRecvb ack s
  | .uOpen => Sys2Proof.Machine.execUOpen s
  | .uClose => Sys2Proof.Machine.execUClose s
  | .uIsopen => Sys2Proof.Machine.execUIsopen s
  | .uAvail => Sys2Proof.Machine.execUAvail s
  | .uFlush outbound => Sys2Proof.Machine.execUFlush outbound s
  | .uSend drain byte => Sys2Proof.Machine.execUSend drain byte s
  | .uSendbuf drain => Sys2Proof.Machine.execUSendbuf drain s
  | .uSendstr drain => Sys2Proof.Machine.execUSendstr drain s
  | .uRecv => Sys2Proof.Machine.execURecv s
  | .uRecvbuf => Sys2Proof.Machine.execURecvbuf s
  | .onRx => Sys2Proof.Machine.execOnRx s
  | .onTxe => Sys2Proof.Machine.execOnTxe s

end Sys2Proof.Machine
end

