-- ==== Sys2Proof/Machine/Step.lean ====
section
/-! DEFINITION. One step of the machine: the next move of the schedule (spec 00_scope.md R10, R11; 10_state.md R49). -/

namespace Sys2Proof.Machine

/-- What becomes of a presentation: the instruction runs, the interrupt is not taken, or the word is refused. -/
def runFetched (f : Fetched) : Host.Outcome State Fault Refusal :=
  match f with
  | .run i s => exec i s
  | .idle s => .next s
  | .reject r => .refused r

/-- One step: the agent whose move is next in the schedule moves. When the schedule holds no further move, only the mainline
operation in progress goes on, by itself; with none in progress the block does nothing (R241). -/
def step (s : State) : Host.Outcome State Fault Refusal :=
  match s.sched with
  | [] => mainlineStep s
  | .present p :: rest => runFetched (fetch p { s with sched := rest })
  | e :: rest => move e { s with sched := rest }

/-- The state in which the next step runs the instruction of an opcode-table word: a command word is the next the host writes to
its engine's `CW`; an interrupt cause is the next the interrupt mechanism presents, and its source is pending with
`GIE` = 1, since an entry point runs only then (R216). -/
def State.withFetchWord (s : State) (nbits w : Nat) : State :=
  match presentTableWord nbits w with
  | some p => presentNext p s
  | none => s

end Sys2Proof.Machine
end

