-- ==== Sys2Proof/Safety.lean ====
section
/-! DEFINITION. The terms claims about runs are made in: the well-formed bus trace (spec 40_i2c_primitives.md R120), the
invariants of the two engines (10_state.md R22, R24, R29, R36, R38; 42_uart_ring_and_handlers.md R169, R170;
60_exceptions.md R222), the bytes on their way to the wire (R194), and the end of a run (70_reset_and_hazards.md R253). -/

namespace Sys2Proof

/-! ## Groups of instructions -/

/-- The commands of the I2C engine (R92, 0x01 to 0x14). -/
def Instr.isI2c : Instr → Bool
  | .i2cOpen | .i2cClose | .i2cIsopen | .i2cReset | .i2cScan | .i2cWrite _ _ | .i2cRead _ _ | .i2cReadraw _ _
  | .i2cWritet _ _ _ | .i2cReadt _ _ _ | .i2cWaitbusy | .i2cStart _ _ | .i2cStop | .i2cSendb _ | .i2cRecvb _ => true
  | .uOpen | .uClose | .uIsopen | .uAvail | .uFlush _ | .uSend _ _ | .uSendbuf _ | .uSendstr _ | .uRecv | .uRecvbuf => false
  | .onRx | .onTxe => false

/-- The commands of the UART controller (R92, 0x21 to 0x2A). -/
def Instr.isUart : Instr → Bool
  | .i2cOpen | .i2cClose | .i2cIsopen | .i2cReset | .i2cScan | .i2cWrite _ _ | .i2cRead _ _ | .i2cReadraw _ _
  | .i2cWritet _ _ _ | .i2cReadt _ _ _ | .i2cWaitbusy | .i2cStart _ _ | .i2cStop | .i2cSendb _ | .i2cRecvb _ => false
  | .uOpen | .uClose | .uIsopen | .uAvail | .uFlush _ | .uSend _ _ | .uSendbuf _ | .uSendstr _ | .uRecv | .uRecvbuf => true
  | .onRx | .onTxe => false

/-- The I2C operations admitted on a device that is not open (R130). -/
def Instr.anyDevice : Instr → Bool
  | .i2cOpen => true
  | .i2cClose => true
  | .i2cIsopen => true
  | .i2cReset => true
  | _ => false

/-- The UART operations admitted on a port that is not open (R180). -/
def Instr.anyPort : Instr → Bool
  | .uOpen => true
  | .uClose => true
  | .uIsopen => true
  | _ => false

/-- The three `send` forms. -/
def Instr.isSend : Instr → Bool
  | .uSend _ _ => true
  | .uSendbuf _ => true
  | .uSendstr _ => true
  | _ => false

/-- The two `recv` forms. -/
def Instr.isRecv : Instr → Bool
  | .uRecv => true
  | .uRecvbuf => true
  | _ => false

end Sys2Proof

namespace Sys2Proof.Machine

/-! ## The bus trace (R120) -/

/-- What the part of a trace read so far allows next. -/
inductive TracePhase where
  /-- No transaction: at the start, after a `STOP` or a `CFG_DEINIT`. -/
  | quiet
  /-- After a `START` whose `res` is `ok`: a `TXA` may follow, directly. -/
  | started
  /-- After a `TXA` whose `res` is `ok`, with only `ok` transfer events since: its direction (true = read). -/
  | transfer (rw : Bool)
  /-- After an event whose `res` is not `ok`. -/
  | broken
deriving DecidableEq, Repr

/-- A trace read so far: `held` when some `START` has no `STOP` and no `CFG_DEINIT` after it (R120 d). -/
structure TraceState where
  held : Bool := false
  phase : TracePhase := .quiet
deriving DecidableEq, Repr

/-- The phase after an event with outcome `r` that leads to `p` when `ok`. -/
def TracePhase.after (r : Res) (p : TracePhase) : TracePhase := if r = .ok then p else .broken

/-- One more event: `none` when R120 forbids it there. -/
def traceStep (t : TraceState) : BusEvent → Option TraceState
  | .start rep r => if rep = t.held then some ⟨true, .after r .started⟩ else none
  | .txa _ rw r => if t.phase = .started then some ⟨t.held, .after r (.transfer rw)⟩ else none
  | .txb _ r => if t.phase = .transfer false then some ⟨t.held, .after r (.transfer false)⟩ else none
  | .rxb _ _ r => if t.phase = .transfer true then some ⟨t.held, .after r (.transfer true)⟩ else none
  | .stop => some {}
  | .cfgDeinit => some {}
  | .cfgInit => if t.phase = .started then none else some t

/-- A trace read from its first event; `none` when R120 fails somewhere in it. -/
def readTrace (l : List BusEvent) : Option TraceState :=
  l.foldl (fun t e => t.bind fun t => traceStep t e) (some {})

/-- R120: the trace is well formed. -/
def traceWf (l : List BusEvent) : Bool := (readTrace l).isSome

/-- What the trace shows in the protocol state the engine is in between two operations: nothing in progress in `Closed` and `Idle`,
a transfer in the direction `T_DIR` in `TransferringData`, a failed event in `Error`. -/
def traceExpected (d : I2c) : TraceState :=
  match d.fsm with
  | .transferringData => ⟨true, .transfer d.tDir⟩
  | .error => ⟨true, .broken⟩
  | _ => {}

/-! ## The bus actions of a transfer (R135 to R139) -/

/-- One action of a transfer on the bus, for which the environment is asked once. -/
inductive BusAction where
  /-- A start condition; `rep` when the engine already holds the bus. -/
  | start (rep : Bool)
  /-- The address byte. -/
  | address (addr : BitVec 7) (rw : Bool)
  /-- A byte sent: the register byte or a data byte. -/
  | send (b : Byte)
  /-- A byte received and answered with ACK when `ack`. -/
  | receive (ack : Bool)
deriving DecidableEq, Repr

/-- How the answer `r` to the action is classified (R110). -/
def BusAction.outcome (a : BusAction) (r : Xfer) : StClass :=
  match a with
  | .start _ => evalCond r
  | .address _ _ => evalTx r
  | .send _ => evalTx r
  | .receive _ => evalRx r

/-- The event the action leaves in the trace when answered by `r` (R113, R115, R116). -/
def BusAction.event (a : BusAction) (r : Xfer) : BusEvent :=
  match a with
  | .start rep => .start rep (resOf (evalCond r))
  | .address addr rw => .txa addr rw (resOf (evalTx r))
  | .send b => .txb b (resOf (evalTx r))
  | .receive ack => .rxb r.data ack (resOf (evalRx r))

/-- The actions of `write`, in order: start, address, register byte, data bytes (R135, R138). -/
def writeActions (rep : Bool) (addr : BitVec 7) (reg : Byte) (data : List Byte) : List BusAction :=
  [.start rep, .address addr false, .send reg] ++ data.map .send

/-- `count` bytes received, all but the last answered with ACK (R136 lines 6 and 7). -/
def receiveActions (count : Nat) : List BusAction :=
  (List.range count).map fun k => .receive (decide (k + 1 < count))

/-- The actions of `read`, in order: the register select, then a repeated start and the data bytes (R136, R139). -/
def readActions (rep : Bool) (addr : BitVec 7) (reg : Byte) (count : Nat) : List BusAction :=
  [.start rep, .address addr false, .send reg, .start true, .address addr true] ++ receiveActions count

/-- The actions of the raw read: no register select (R137). -/
def rawActions (rep : Bool) (addr : BitVec 7) (count : Nat) : List BusAction :=
  [.start rep, .address addr true] ++ receiveActions count

/-- Of a transfer's actions the first ones, `pre`, go well with the answers `good`, and the next one, `a`, fails with the answer
`bad`; `rest` is not asked for. -/
abbrev failsAt (actions pre : List BusAction) (a : BusAction) (xfers good : List Xfer) (bad : Xfer) (rest : List Xfer) : Prop :=
  (∃ post, actions = pre ++ a :: post) ∧ xfers = good ++ bad :: rest ∧ good.length = pre.length ∧
  (∀ p ∈ pre.zip good, p.1.outcome p.2 = .ok) ∧ a.outcome bad ≠ .ok

/-- R140, R141, R142: the transfer from `s` that failed at action `a` ended in `t`: the class of that failure and the payload `n`, no
action after it but a stop, the bus idle. -/
abbrev stoppedAt (s t : State) (pre : List BusAction) (a : BusAction) (good : List Xfer) (bad : Xfer) (rest : List Xfer)
    (n : Nat) : Prop :=
  t.i2c.resStatus = (a.outcome bad).code s.cfg.st ++ BitVec.ofNat 16 n ∧ t.i2c.fsm = .idle ∧ t.i2c.busy = false ∧
  t.xferIn = rest ∧ t.i2c.trace = s.i2c.trace ++ List.zipWith BusAction.event pre good ++ [a.event bad, .stop]

/-! ## The I2C engine between two operations -/

/-- `bus_held` (R29). -/
def busHeld (s : State) : Bool := s.i2c.fsm.holdsBus && !s.i2c.busy

/-- Between operations the engine is not busy, `fsm` is not `Addressing` and not `Stopping` (R24, R118), it is `Closed` exactly
when the device is not open (R22, R24, R29), and the trace is well formed and shows the phase `fsm` names (R120). -/
abbrev I2cInv (s : State) : Prop :=
  s.i2c.busy = false ∧ s.i2c.fsm ≠ .addressing ∧ s.i2c.fsm ≠ .stopping ∧
  (s.i2c.fsm = .closed ↔ s.i2c.opened = false) ∧ readTrace s.i2c.trace = some (traceExpected s.i2c)

/-! ## Memory -/

/-- Every memory is in canonical form and within its address space (R60). -/
abbrev MemInv (s : State) : Prop :=
  (Memory.wf s.hbuf ∧ Memory.within s.hbuf (hbufSize s.cfg)) ∧
  (Memory.wf s.i2c.scratch ∧ Memory.within s.i2c.scratch 8) ∧
  (Memory.wf s.uart.rx.buf ∧ Memory.within s.uart.rx.buf s.cfg.nRx) ∧
  (Memory.wf s.uart.tx.buf ∧ Memory.within s.uart.tx.buf s.cfg.nTx)

/-! ## The UART controller -/

/-- The line belongs to a routine the command runs, itself or by a call. -/
def lineOf : UOp → Line → Bool
  | .opening, l => l ∈ [.open1, .open2, .open3, .open4, .open5]
  | .closing, l => l ∈ [.close1, .close2, .close3, .close4, .close5, .flushOut1, .flushOut2, .flushOut3]
  | .isOpen, l => l ∈ [.isOpen1, .isOpen2]
  | .available, l => l ∈ [.avail1, .avail2, .avail3]
  | .flush outbound, l => if outbound then l ∈ [.flushOut1, .flushOut2, .flushOut3] else l ∈ [.flushIn1, .flushIn2]
  | .send drain, l =>
    l ∈ [.send1, .send2, .send3, .send4, .send5, .send6, .send7, .send8, .send9] ||
    (drain && l ∈ [.flushOut1, .flushOut2, .flushOut3])
  | .sendBuf drain, l =>
    l ∈ [.sendBuf1, .sendBuf2, .sendBuf3, .sendBuf4, .sendBuf5, .sendBuf6, .sendBuf7, .sendBuf8, .send1, .send2, .send3,
      .send4, .send5, .send6, .send7, .send8, .send9] ||
    (drain && l ∈ [.flushOut1, .flushOut2, .flushOut3])
  | .sendStr drain, l =>
    l ∈ [.sendStr1, .sendStr2, .sendStr3, .sendStr4, .sendStr5, .sendStr6, .sendStr7, .sendStr8, .sendStr9, .send1,
      .send2, .send3, .send4, .send5, .send6, .send7, .send8, .send9] ||
    (drain && l ∈ [.flushOut1, .flushOut2, .flushOut3])
  | .recv, l => l ∈ [.recv1, .recv2, .recv3, .recv4, .recv5]
  | .recvBuf, l =>
    l ∈ [.recvBuf1, .recvBuf2, .recvBuf3, .recvBuf4, .recvBuf5, .recvBuf6, .recvBuf8, .recvBuf9, .recv1, .recv2,
      .recv3, .recv4, .recv5]

/-- R38 with R45: both rings' indices lie below their capacities; from its line 3 to its line 6 a `send` holds the next head, and
once it has found room (lines 5 and 6) that is not the tail; a `recv()` that has found a byte (lines 2 and 3) still has one (R169:
neither index passes the other). -/
abbrev RingInv (s : State) : Prop :=
  s.cfg.wf ∧ s.uart.rx.head < s.cfg.nRx ∧ s.uart.rx.tail < s.cfg.nRx ∧
  s.uart.tx.head < s.cfg.nTx ∧ s.uart.tx.tail < s.cfg.nTx ∧
  (∀ j, s.uart.job = some j → j.line ∈ [.send3, .send4, .send5, .send6] → j.nx = ringNext s.cfg.nTx s.uart.tx.head) ∧
  (∀ j, s.uart.job = some j → j.line ∈ [.send5, .send6] → j.nx ≠ s.uart.tx.tail) ∧
  (∀ j, s.uart.job = some j → j.line ∈ [.recv2, .recv3] → s.uart.rx.head ≠ s.uart.rx.tail)

/-- One step of one agent moves the indices of a ring of capacity `n` as R169 allows: not at all, by a push into a ring that is not
full, or by a pop from a ring that is not empty. -/
abbrev ringMoved (n : Nat) (r r' : Ring) : Prop :=
  (r'.head = r.head ∧ r'.tail = r.tail) ∨
  (ringNext n r.head ≠ r.tail ∧ r'.head = ringNext n r.head ∧ r'.tail = r.tail) ∨
  (r.head ≠ r.tail ∧ r'.head = r.head ∧ r'.tail = ringNext n r.tail)

/-- The byte holds only the four flags of the latch: bits 5 to 7 and `EF_TIMEOUT` are not set (R86). -/
abbrev flagsOnly (c : Config) (b : Byte) : Prop := b &&& ~~~ latchMask c.ef = 0#8

/-- R86, R87: only the four flags are in the latch, in the flags a `recv()` has read from it, in what it returned to
`recv(buffer, count, timeout)`, and in what that has accumulated. -/
abbrev LatchInv (s : State) : Prop :=
  flagsOnly s.cfg s.uart.rxError ∧
  ∀ j, s.uart.job = some j →
    flagsOnly s.cfg j.acc ∧ (j.line = .recv5 → flagsOnly s.cfg j.flags) ∧
    (j.line = .recvBuf8 ∨ (j.line = .recvBuf4 ∧ j.ret.cls ≠ .noData) →
      flagsOnly s.cfg ((j.ret.payload >>> 8).setWidth 8))

/-- Nothing is enabled, waiting, queued or in the transmitter: the port as it is when not open (R182, R183, R222, R243). -/
abbrev portQuiet (u : Uart) : Prop :=
  u.ctrl = {} ∧ u.rx.head = u.rx.tail ∧ u.rxError = 0#8 ∧ u.rxHold = none ∧
  u.tx.head = u.tx.tail ∧ u.txHold = none ∧ u.txShift = none

/-- The line of the operation in progress, if there is one. -/
def atLine (u : Uart) (l : Line) : Bool := u.job.any fun j => j.line == l

/-- R45: `BUSY` = 1 exactly while an operation is in progress, which is at a line of its own command; an operation past its
admission runs on an open port. R222, R243: the port is quiet when not open, except between lines 3 and 4 of `open`, and from
line 3 of `close` on. R170: while the port is open, outside the window between lines 6 and 7 of `send`, a non-empty
transmit ring has its interrupt enabled. -/
abbrev PortInv (s : State) : Prop :=
  (s.uart.busy = s.uart.job.isSome) ∧
  (∀ j, s.uart.job = some j → lineOf j.op j.line = true) ∧
  (s.uart.opened = false → atLine s.uart .open4 = false → portQuiet s.uart) ∧
  (s.uart.opened = false → s.uart.tx.head = s.uart.tx.tail ∧ s.uart.txHold = none ∧ s.uart.txShift = none) ∧
  (∀ j, s.uart.job = some j → j.line ∈ [.open2, .open3, .open4, .close5] → s.uart.opened = false) ∧
  (∀ j, s.uart.job = some j → j.op ∉ [.opening, .closing, .isOpen] → s.uart.opened = true) ∧
  (∀ j, s.uart.job = some j → j.line ∈ [.close2, .close3, .close4, .flushOut1, .flushOut2, .flushOut3] →
    s.uart.opened = true) ∧
  (∀ j, s.uart.job = some j → j.op = .closing → j.line ∈ [.flushOut3, .close3, .close4] →
    s.uart.tx.head = s.uart.tx.tail ∧ s.uart.txHold = none ∧ s.uart.txShift = none) ∧
  (atLine s.uart .close4 = true → portQuiet s.uart) ∧
  (s.uart.opened = true → s.uart.tx.head ≠ s.uart.tx.tail → atLine s.uart .send7 = false →
    s.uart.ctrl.txeIe = true)

/-! ## The buffer of the operation in progress -/

/-- `HBUF` byte `a` is byte `k` of the buffer of the operation in progress (R67, R68): `k` below its count, or, for a string, with no
terminator before it. That a string's buffer reaches to its terminator is the model's reading (notes/assumptions/12.md). -/
abbrev inBuffer (s : State) (j : Job) (a : Nat) : Prop :=
  ∃ k < 2 ^ s.cfg.bufaw, a = (j.buf + k) % 2 ^ s.cfg.bufaw ∧
    (((∃ drain, j.op = .sendBuf drain) ∨ j.op = .recvBuf) ∧ k < j.count.toNat ∨
      (∃ drain, j.op = .sendStr drain) ∧ ∀ m < k, Memory.read s.hbuf ((j.buf + m) % 2 ^ s.cfg.bufaw) ≠ 0#8)

/-! ## The bytes on their way -/

/-- The bytes queued in a ring of capacity `n`, oldest first: slots `tail`, `tail + 1`, ... up to `head` (R160, R163). -/
def Ring.bytes (n : Nat) (r : Ring) : List Byte :=
  (List.range (ringCount n r.head r.tail)).map fun k => Memory.read r.buf ((r.tail + k) % n)

/-- Every byte accepted for transmission, oldest first: on the wire, in the shift stage, in the hold stage, queued (R194). -/
def txPipeline (s : State) : List Byte :=
  s.uart.wireOut ++ s.uart.txShift.toList ++ s.uart.txHold.toList ++ s.uart.tx.bytes s.cfg.nTx

/-! ## The end of a run -/

/-- The move is a command of the host. -/
def Event.isCommand : Event → Bool
  | .present (.i2cCommand _) => true
  | .present (.uartCommand _) => true
  | _ => false

/-- R253: the host has no more commands, both `BUSY` are 0, no interrupt is pending with `GIE` = 1, and no byte is queued or in the
transmitter. DESIGN CHOICE: the last is asked whether or not a claim speaks of `wire_out`, as R253's second sentence reads
(notes/assumptions/22.md). -/
abbrev runOver (s : State) : Prop :=
  (∀ e ∈ s.sched, e.isCommand = false) ∧ s.i2c.busy = false ∧ s.uart.busy = false ∧
  (s.gie = true → rxPending s.uart = false ∧ txePending s.uart = false) ∧
  s.uart.tx.head = s.uart.tx.tail ∧ s.uart.txHold = none ∧ s.uart.txShift = none

end Sys2Proof.Machine
end

