-- ==== Sys2Proof/Certificates/Slice0/Obligations.lean ====
section
/-! DEFINITION. The statements about the machine, from the numbered rules of spec/. -/

open Sys2Proof Sys2Proof.Machine

/-! ## Encodings (30_encoding.md) -/

/-- R90, R92, R93, R95: decoding what encodes a well-formed instruction gives it back, with every operand at every value. -/
def Obligations.DecodeOfEncodeIsTheInstruction : Prop :=
  ∀ i : Instr, i.wf = true → decode (encode i) = .ok i

/-- R93: what decodes has one meaning: it is the encoding of the well-formed instruction it decodes to, so every other word is
refused. -/
def Obligations.OnlyEncodingsDecode : Prop :=
  ∀ (p : Presented) (i : Instr), decode p = .ok i → i.wf = true ∧ encode i = p

/-- R92, R95: a few words written out from the spec's table decode to what they stand for. -/
def Obligations.SpecWordsDecode : Prop :=
  decode (.i2cCommand 0x06501000#32) = .ok (.i2cWrite 0x50#7 0x10#8) ∧
  decode (.i2cCommand 0x08D00000#32) = .ok (.i2cReadraw true 0x50#7) ∧
  decode (.i2cCommand 0x0A480008#32) = .ok (.i2cReadt 0x48#7 0x00#8 8#8) ∧
  decode (.i2cCommand 0x11D00000#32) = .ok (.i2cStart true 0x50#7) ∧
  decode (.i2cCommand 0x130000AA#32) = .ok (.i2cSendb 0xAA#8) ∧
  decode (.uartCommand 0x26800068#32) = .ok (.uSend true 0x68#8) ∧
  decode (.uartCommand 0x25000000#32) = .ok (.uFlush false) ∧
  decode (.uartCommand 0x2A000000#32) = .ok .uRecvbuf ∧
  decode (.cause 0#1) = .ok .onRx ∧ decode (.cause 1#1) = .ok .onTxe

/-! ## The step -/

/-- R95, R96, R216: the next presentation of the schedule runs as `exec` of what it decodes to: a command with its word in the
engine's `CW`; an interrupt cause as its entry point while its source is pending and `GIE` = 1. R216 takes no other cause; that the step
then consumes it without effect is the model's choice (log entries 5 and 9). -/
def Obligations.StepRunsWhatIsPresented : Prop :=
  ∀ (s : State) (rest : List Event) (i : Instr),
    (∀ w, s.sched = .present (.i2cCommand w) :: rest → decode (.i2cCommand w) = .ok i →
      step s = exec i { s with sched := rest, i2c := { s.i2c with cw := w } }) ∧
    (∀ w, s.sched = .present (.uartCommand w) :: rest → decode (.uartCommand w) = .ok i →
      step s = exec i { s with sched := rest, uart := { s.uart with cw := w } }) ∧
    (s.sched = .present (.cause 0#1) :: rest →
      step s = if s.gie = true ∧ s.uart.rxHold ≠ none ∧ s.uart.ctrl.rxIe = true then exec .onRx { s with sched := rest }
        else .next { s with sched := rest }) ∧
    (s.sched = .present (.cause 1#1) :: rest →
      step s = if s.gie = true ∧ s.uart.txHold = none ∧ s.uart.ctrl.txeIe = true then exec .onTxe { s with sched := rest }
        else .next { s with sched := rest })

/-- R93: a word that is the encoding of no well-formed instruction of the engine it is written to is refused as reserved; so is
a typed operation of another size. -/
def Obligations.ReservedWordsAreRefused : Prop :=
  ∀ (s : State) (rest : List Event) (w : Word),
    (s.sched = .present (.i2cCommand w) :: rest → (∀ i : Instr, i.wf = true → encode i ≠ .i2cCommand w) →
      ∃ e, step s = .refused (.reservedWord e)) ∧
    (s.sched = .present (.uartCommand w) :: rest → (∀ i : Instr, i.wf = true → encode i ≠ .uartCommand w) →
      ∃ e, step s = .refused (.reservedWord e)) ∧
    (∀ addr reg size, typedSizeOk size = false → s.i2c.busy = false →
      exec (.i2cWritet addr reg size) s = .refused (.reservedWord .badSize) ∧
      exec (.i2cReadt addr reg size) s = .refused (.reservedWord .badSize))

/-- R10, R45, R74, R96, R216: with `burst` = 0 a UART command only begins with its issue: `BUSY` = 1, the operation of that command at
the first line of its pseudocode, its operands sampled; from then on one line of it is one move of the
schedule, so that any agent may move between any two lines; and the lines that a larger `burst`, which the schedule may set, runs
together with the issue are what the mainline agent does step by step when no other agent moves (`burst` and `setBurst` are the
model's own, log entry 6). -/
def Obligations.LinesAreSteps : Prop :=
  (∀ s : State, s.uart.busy = false → s.burst = 0 →
    let issued : UOp → Line → Byte → Out := fun op first b => .next
      { s with uart := { s.uart with
        busy := true
        job := some { op := op, line := first, byte := b, buf := s.uart.oprBuf, count := s.uart.oprCount,
                      timeout := s.uart.oprTimeout } } }
    (exec .uOpen s = issued .opening .open1 0#8 ∧ exec .uClose s = issued .closing .close1 0#8 ∧
      exec .uIsopen s = issued .isOpen .isOpen1 0#8) ∧
    (s.uart.opened = true →
      exec .uAvail s = issued .available .avail1 0#8 ∧
      exec (.uFlush true) s = issued (.flush true) .flushOut1 0#8 ∧
      exec (.uFlush false) s = issued (.flush false) .flushIn1 0#8 ∧
      (∀ drain b, exec (.uSend drain b) s = issued (.send drain) .send1 b) ∧
      (∀ drain, exec (.uSendbuf drain) s = issued (.sendBuf drain) .sendBuf1 0#8 ∧
        exec (.uSendstr drain) s = issued (.sendStr drain) .sendStr1 0#8) ∧
      exec .uRecv s = issued .recv .recv1 0#8 ∧ exec .uRecvbuf s = issued .recvBuf .recvBuf1 0#8)) ∧
  (∀ (s : State) (rest : List Event), s.sched = .mainline :: rest → step s = runLines 1 { s with sched := rest }) ∧
  (∀ (s : State) (rest : List Event) (n : Nat), s.sched = .setBurst n :: rest →
    step s = .next { s with sched := rest, burst := n }) ∧
  (∀ (n : Nat) (s : State), s.sched = [] → Host.Core.run core n s = runLines n s)

/-! ## Reset (70_reset_and_hazards.md) -/

/-- R240, R241: what reset leaves, for every value of the parameters and of `GIE`; no interrupt is pending or enabled, and the block
does nothing until the host issues a command. -/
def Obligations.ResetLeavesEverythingIdle : Prop :=
  (∀ (c : Config) (g : Bool),
    let s := State.resetWith c g
    s.cfg = c ∧ s.gie = g ∧ s.i2c.opened = false ∧ s.uart.opened = false ∧ s.i2c.fsm = .closed ∧
    s.uart.rx.head = 0 ∧ s.uart.rx.tail = 0 ∧ s.uart.tx.head = 0 ∧ s.uart.tx.tail = 0 ∧ s.uart.rxError = 0#8 ∧
    s.uart.ctrl.rxEn = false ∧ s.uart.ctrl.txEn = false ∧ s.uart.ctrl.rxIe = false ∧ s.uart.ctrl.txeIe = false ∧
    s.uart.rxHold = none ∧ s.uart.txHold = none ∧ s.uart.txShift = none ∧
    s.i2c.busy = false ∧ s.uart.busy = false ∧ s.uart.job = none ∧
    s.i2c.trace = [] ∧ s.uart.wireIn = [] ∧ s.uart.wireOut = [] ∧
    rxPending s.uart = false ∧ txePending s.uart = false ∧ step s = .next s) ∧
  (∃ c g, State.reset = State.resetWith c g ∧ c.wf)

/-- Every invariant below holds at reset. -/
def Obligations.InvariantsHoldAtReset : Prop :=
  ∀ (c : Config) (g : Bool),
    MemInv (State.resetWith c g) ∧ I2cInv (State.resetWith c g) ∧ LatchInv (State.resetWith c g) ∧
    PortInv (State.resetWith c g) ∧ (c.wf → RingInv (State.resetWith c g))

/-! ## What every step keeps -/

/-- R21, R30, R43, R49: no step changes a parameter or an identity, and the traces only grow. -/
def Obligations.ParametersStayAndTracesGrow : Prop :=
  ∀ s t : State, step s = .next t →
    t.cfg = s.cfg ∧ t.i2c.id = s.i2c.id ∧ t.uart.id = s.uart.id ∧
    s.i2c.trace <+: t.i2c.trace ∧ s.uart.wireIn <+: t.uart.wireIn ∧ s.uart.wireOut <+: t.uart.wireOut

/-- R60, R64: every step keeps every memory in canonical form and within its address space. -/
def Obligations.StepKeepsMemoryCanonical : Prop :=
  ∀ s t : State, s.cfg.wf → MemInv s → step s = .next t → MemInv t

/-- R38, R169: every step keeps both rings' indices below their capacities, and a head about to move off the tail. R169: one step of
one agent (a step that does not run several lines of a UART command at once) moves the indices of a ring only by a push when it is
not full or a pop when it is not empty, except that inbound `flush` and `close` empty the receive ring: neither index passes the
other. -/
def Obligations.StepKeepsRingIndices : Prop :=
  (∀ s t : State, RingInv s → step s = .next t → RingInv t) ∧
  (∀ s t : State, RingInv s → (s.burst = 0 ∨ ∀ w rest, s.sched ≠ .present (.uartCommand w) :: rest) → step s = .next t →
    ringMoved s.cfg.nTx s.uart.tx t.uart.tx ∧
    (ringMoved s.cfg.nRx s.uart.rx t.uart.rx ∨
      (atLine s.uart .flushIn1 = true ∧ t.uart.rx.head = s.uart.rx.head ∧ t.uart.rx.tail = s.uart.rx.head) ∨
      (atLine s.uart .close3 = true ∧ t.uart.rx.head = 0 ∧ t.uart.rx.tail = 0)))

/-- R86: every step keeps the latch, and what a `recv` has taken from it, to the four flags. R87: so the flags that `recv()` returns
with a byte are never 0xFF and its payload is never the no-data pattern. R88: nor are any but those flags, and `EF_TIMEOUT` on a
timeout, in the result of `recv(buffer, count, timeout)`. -/
def Obligations.StepKeepsLatchFlags : Prop :=
  (∀ s t : State, LatchInv s → step s = .next t → LatchInv t) ∧
  (∀ s : State, LatchInv s → s.uart.rxError ≠ 0xFF#8) ∧
  (∀ (s : State) (j : Job), LatchInv s → s.uart.job = some j →
    (j.op = .recv → j.line = .recv5 →
      ∃ e b : Byte, mainlineStep s = .next (uartReturn ⟨.ok, e ++ b⟩ s) ∧ flagsOnly s.cfg e ∧ e ≠ 0xFF#8 ∧
        e ++ b ≠ 0xFF00#16) ∧
    (j.line = .recvBuf9 →
      ∃ e : Byte, mainlineStep s = .next (uartReturn ⟨.ok, e ++ 0#8⟩ s) ∧ flagsOnly s.cfg e ∧ e ≠ 0xFF#8) ∧
    (j.line = .recvBuf5 → j.timeout.toNat ≤ j.waited →
      ∃ e : Byte, mainlineStep s = .next (uartReturn ⟨.opTimeout, (e ||| efBit s.cfg.ef.timeout) ++ 0#8⟩ s) ∧
        flagsOnly s.cfg e))

/-- R120 (a) to (e): every step keeps the bus trace well formed, with the protocol state it names (R24, R25, R29). -/
def Obligations.StepKeepsTraceWellFormed : Prop :=
  ∀ s t : State, I2cInv s → step s = .next t → I2cInv t

/-- R170, R182, R222, R243: every step keeps the port quiet while not open, and, while it is open, a queued byte backed by an
enabled interrupt outside the window of `send`. -/
def Obligations.StepKeepsPortInvariant : Prop :=
  ∀ s t : State, PortInv s → step s = .next t → PortInv t

/-- R194: the bytes accepted for transmission keep their order on the way to the wire and none is lost or repeated: after every
step what was on its way is the beginning of what is. -/
def Obligations.StepKeepsTransmitOrder : Prop :=
  ∀ s t : State, RingInv s → MemInv s → step s = .next t → txPipeline s <+: txPipeline t

/-- R164, R194: a step takes bytes from the receive ring at the old end, or adds one at the new end. -/
def Obligations.StepKeepsReceiveOrder : Prop :=
  ∀ s t : State, RingInv s → MemInv s → step s = .next t →
    (∃ k, t.uart.rx.bytes s.cfg.nRx = (s.uart.rx.bytes s.cfg.nRx).drop k) ∨
    (∃ b, t.uart.rx.bytes s.cfg.nRx = s.uart.rx.bytes s.cfg.nRx ++ [b])

/-- R41, R76: with indices in range no step ends in a fault: `DATA` is never overwritten and no slot outside a ring is touched. -/
def Obligations.NoStepFaults : Prop :=
  ∀ (s : State) (e : Fault), RingInv s → step s ≠ .fault e

/-- R72, R218, R219: only the environment moves `GIE`: no operation and no entry point leaves it other than it found it. -/
def Obligations.OnlyTheEnvironmentMovesGie : Prop :=
  ∀ s t : State, (∀ b rest, s.sched ≠ .setGie b :: rest) → step s = .next t → t.gie = s.gie

/-! ## The two engines and the two domains -/

/-- R121, R231: an I2C command changes nothing of the UART controller, of `GIE` or of the schedule, and keeps its own command and
operand registers (R27). -/
def Obligations.I2cCommandsTouchNoUart : Prop :=
  ∀ (i : Instr) (s t : State), i.isI2c = true → exec i s = .next t →
    t.uart = s.uart ∧ t.gie = s.gie ∧ t.sched = s.sched ∧ t.burst = s.burst ∧
    t.i2c.cw = s.i2c.cw ∧ t.i2c.oprCount = s.i2c.oprCount ∧ t.i2c.oprBuf = s.i2c.oprBuf ∧
    t.i2c.oprValue = s.i2c.oprValue

/-- R121, R168: a UART command or an entry point changes nothing of the I2C engine and consumes none of its answers. -/
def Obligations.UartTouchesNoI2c : Prop :=
  ∀ (i : Instr) (s t : State), i.isI2c = false → exec i s = .next t →
    t.i2c = s.i2c ∧ t.busyIn = s.busyIn ∧ t.xferIn = s.xferIn ∧ t.initIn = s.initIn

/-- R118, R130, R180, R216, R245, R247: while its engine is busy every command is refused; on a device or port that is not open every
command but those that are admitted there; a host-issued primitive outside its admission states. R216 takes no entry point whose
source is not pending, or while `GIE` = 0; that `exec` then refuses it is the model's choice (log entry 9). -/
def Obligations.WhatIsNotAdmittedIsRefused : Prop :=
  (∀ (i : Instr) (s : State), i.wf = true →
    (i.isI2c = true → s.i2c.busy = true → exec i s = .refused .busy) ∧
    (i.isUart = true → s.uart.busy = true → exec i s = .refused .busy) ∧
    (i.isI2c = true → i.anyDevice = false → s.i2c.busy = false → s.i2c.opened = false → exec i s = .refused .notOpen) ∧
    (i.isUart = true → i.anyPort = false → s.uart.busy = false → s.uart.opened = false → exec i s = .refused .notOpen)) ∧
  (∀ s : State, s.i2c.busy = false → s.i2c.opened = true →
    (s.i2c.fsm ≠ .idle → s.i2c.fsm ≠ .transferringData → s.i2c.fsm ≠ .error →
      ∀ rw addr, exec (.i2cStart rw addr) s = .refused .notAdmitted ∧ exec .i2cStop s = .refused .notAdmitted) ∧
    (¬ (s.i2c.fsm = .transferringData ∧ s.i2c.tDir = false) → ∀ b, exec (.i2cSendb b) s = .refused .notAdmitted) ∧
    (¬ (s.i2c.fsm = .transferringData ∧ s.i2c.tDir = true) → ∀ ack, exec (.i2cRecvb ack) s = .refused .notAdmitted)) ∧
  (∀ s : State,
    (s.gie = false ∨ s.uart.rxHold = none ∨ s.uart.ctrl.rxIe = false → exec .onRx s = .refused .notTaken) ∧
    (s.gie = false ∨ s.uart.txHold ≠ none ∨ s.uart.ctrl.txeIe = false → exec .onTxe s = .refused .notTaken))

/-! ## I2C primitives (40_i2c_primitives.md) -/

/-- R110, R213: the three classifying functions, timeout over bus error over NACK. -/
def Obligations.BusActionOutcome : Prop :=
  ∀ r : Xfer,
    (r.done = false → evalCond r = .busTimeout ∧ evalTx r = .busTimeout ∧ evalRx r = .busTimeout) ∧
    (r.done = true → r.err = true → evalCond r = .busError ∧ evalTx r = .busError ∧ evalRx r = .busError) ∧
    (r.done = true → r.err = false → evalCond r = .ok ∧ evalRx r = .ok ∧
      evalTx r = if r.ack = true then .ok else .nack) ∧
    resOf .ok = .ok ∧ resOf .nack = .nack ∧ resOf .busError = .err ∧ resOf .busTimeout = .timeout

/-- R112, R114: `waitBusy()` reports what the environment answered and changes nothing else; `stop()` emits `STOP`, ends in `Idle`
and always returns `ST_OK`. -/
def Obligations.WaitBusyAndStopResult : Prop :=
  ∀ s : State, s.i2c.busy = false → s.i2c.opened = true →
    (∀ (clear : Bool) (rest : List Bool), s.busyIn = clear :: rest →
      exec .i2cWaitbusy s = .next { s with
        busyIn := rest
        i2c := { s.i2c with resStatus := (if clear then s.cfg.st.ok else s.cfg.st.busTimeout) ++ 0#16 } }) ∧
    (s.i2c.fsm = .idle ∨ s.i2c.fsm = .transferringData ∨ s.i2c.fsm = .error →
      exec .i2cStop s = .next { s with
        i2c := { s.i2c with fsm := .idle, trace := s.i2c.trace ++ [.stop], resStatus := s.cfg.st.ok ++ 0#16 } })

/-- R113: `start(addr, rw)`: a failed start condition ends in `Error` without an address byte; a good one is followed by the
address byte, and ends in `TransferringData` or `Error`. -/
def Obligations.StartResult : Prop :=
  ∀ (s : State) (addr : BitVec 7) (rw : Bool) (r1 : Xfer) (rest : List Xfer), s.i2c.busy = false → s.i2c.opened = true →
    s.i2c.fsm = .idle ∨ s.i2c.fsm = .transferringData ∨ s.i2c.fsm = .error → s.xferIn = r1 :: rest →
    let rep := decide (s.i2c.fsm ≠ .idle)
    (evalCond r1 ≠ .ok →
      exec (.i2cStart rw addr) s = .next { s with
        xferIn := rest
        i2c := { s.i2c with
          fsm := .error, tAddr := addr, tDir := rw
          trace := s.i2c.trace ++ [.start rep (resOf (evalCond r1))]
          resStatus := (evalCond r1).code s.cfg.st ++ 0#16 } }) ∧
    (evalCond r1 = .ok → ∀ r2 rest', rest = r2 :: rest' →
      exec (.i2cStart rw addr) s = .next { s with
        xferIn := rest'
        i2c := { s.i2c with
          fsm := if evalTx r2 = .ok then .transferringData else .error
          tAddr := addr, tDir := rw
          trace := s.i2c.trace ++ [.start rep .ok, .txa addr rw (resOf (evalTx r2))]
          resStatus := (evalTx r2).code s.cfg.st ++ 0#16 } })

/-- R115: `sendByte(b)`: payload 1 when the slave acknowledged; else the failing status, payload 0, and `Error`. -/
def Obligations.SendByteResult : Prop :=
  ∀ (s : State) (b : Byte) (r : Xfer) (rest : List Xfer), s.i2c.busy = false → s.i2c.opened = true →
    s.i2c.fsm = .transferringData → s.i2c.tDir = false → s.xferIn = r :: rest →
    exec (.i2cSendb b) s = .next { s with
      xferIn := rest
      i2c := { s.i2c with
        fsm := if evalTx r = .ok then .transferringData else .error
        trace := s.i2c.trace ++ [.txb b (resOf (evalTx r))]
        resStatus := (evalTx r).code s.cfg.st ++ (if evalTx r = .ok then 1#16 else 0#16) } }

/-- R116: `receiveByte(ack)`: the byte in payload bits 7:0; else the failing status, payload 0, and `Error`. -/
def Obligations.ReceiveByteResult : Prop :=
  ∀ (s : State) (ack : Bool) (r : Xfer) (rest : List Xfer), s.i2c.busy = false → s.i2c.opened = true →
    s.i2c.fsm = .transferringData → s.i2c.tDir = true → s.xferIn = r :: rest →
    exec (.i2cRecvb ack) s = .next { s with
      xferIn := rest
      i2c := { s.i2c with
        fsm := if evalRx r = .ok then .transferringData else .error
        trace := s.i2c.trace ++ [.rxb r.data ack (resOf (evalRx r))]
        resStatus := (evalRx r).code s.cfg.st ++ (if evalRx r = .ok then r.data.setWidth 16 else 0#16) } }

/-! ## I2C public operations (41_i2c_operations.md) -/

/-- R131, R132: `open()`: idempotent; the environment decides whether bring-up succeeds. `close()`: idempotent; the device closed
from any state, without a `STOP`. -/
def Obligations.I2cOpenAndCloseResult : Prop :=
  ∀ s : State, s.i2c.busy = false →
    (s.i2c.opened = true →
      exec .i2cOpen s = .next { s with i2c := { s.i2c with resStatus := s.cfg.st.ok ++ 0#16 } } ∧
      exec .i2cClose s = .next { s with
        i2c := { s.i2c with
          opened := false, fsm := .closed, trace := s.i2c.trace ++ [.cfgDeinit], resStatus := s.cfg.st.ok ++ 0#16 } }) ∧
    (s.i2c.opened = false →
      exec .i2cClose s = .next { s with i2c := { s.i2c with resStatus := s.cfg.st.ok ++ 0#16 } } ∧
      (∀ rest, s.initIn = true :: rest →
        exec .i2cOpen s = .next { s with
          initIn := rest
          i2c := { s.i2c with
            opened := true, fsm := .idle, trace := s.i2c.trace ++ [.cfgInit], resStatus := s.cfg.st.ok ++ 0#16 } }) ∧
      (∀ rest, s.initIn = false :: rest →
        exec .i2cOpen s = .next { s with
          initIn := rest, i2c := { s.i2c with resStatus := s.cfg.st.busError ++ 0#16 } }))

/-- R133, R184: `isOpen()` of either engine puts the flag in `RES_VALUE` and changes nothing else but the status. -/
def Obligations.IsOpenResult : Prop :=
  (∀ s : State, s.i2c.busy = false →
    exec .i2cIsopen s = .next { s with
      i2c := { s.i2c with resValue := if s.i2c.opened then 1#64 else 0#64, resStatus := s.cfg.st.ok ++ 0#16 } }) ∧
  (∀ s : State, s.uart.busy = false → 2 ≤ s.burst →
    exec .uIsopen s = .next { s with
      uart := { s.uart with
        resValue := if s.uart.opened then 1#64 else 0#64, resStatus := s.cfg.st.ok ++ 0#16, job := none } })

/-- R117, R242: `reset()` is close then open; it returns the status of the open. -/
def Obligations.I2cResetResult : Prop :=
  ∀ (s : State) (initOk : Bool) (rest : List Bool), s.i2c.busy = false → s.initIn = initOk :: rest →
    exec .i2cReset s = .next { s with
      initIn := rest
      i2c := { s.i2c with
        opened := initOk
        fsm := if initOk then .idle else if s.i2c.opened then .closed else s.i2c.fsm
        trace := s.i2c.trace ++ (if s.i2c.opened then [.cfgDeinit] else []) ++ (if initOk then [.cfgInit] else [])
        resStatus := (if initOk then s.cfg.st.ok else s.cfg.st.busError) ++ 0#16 } }

/-- R140, R141, R142, R146: from every state with the device open, under every environment, a transfer operation returns: a status
of OK, NACK, bus timeout or bus error, with the number of data bytes moved, all of them when OK; and the bus is idle, except
after a raw read that succeeded with the stop deferred (R29, R137). -/
def Obligations.TransfersReturn : Prop :=
  ∀ s : State, s.i2c.busy = false → s.i2c.opened = true → ∀ (i : Instr) (count : Nat),
    (∃ addr reg, i = .i2cWrite addr reg ∧ count = s.i2c.oprCount.toNat) ∨
    (∃ addr reg, i = .i2cRead addr reg ∧ count = s.i2c.oprCount.toNat) ∨
    (∃ stopComm addr, i = .i2cReadraw stopComm addr ∧ count = s.i2c.oprCount.toNat) ∨
    (∃ addr reg size, i = .i2cWritet addr reg size ∧ typedSizeOk size = true ∧ count = size.toNat) ∨
    (∃ addr reg size, i = .i2cReadt addr reg size ∧ typedSizeOk size = true ∧ count = size.toNat) →
    ∃ (t : State) (c : StClass) (n : Nat), exec i s = .next t ∧
      c ∈ [.ok, .nack, .busTimeout, .busError] ∧ n ≤ count ∧ (c = .ok → n = count) ∧
      t.i2c.resStatus = c.code s.cfg.st ++ BitVec.ofNat 16 n ∧ t.i2c.busy = false ∧ t.i2c.opened = true ∧
      t.i2c.fsm = (if c = .ok ∧ ∃ addr, i = .i2cReadraw false addr then .transferringData else .idle)

/-- R134, R146: from every state with the device open, under every environment, `scan()` returns OK, bus timeout or bus error, never
NACK, with a count of at most the addresses of its range, and the bus idle. -/
def Obligations.ScanReturns : Prop :=
  ∀ s : State, s.cfg.wf → s.i2c.busy = false → s.i2c.opened = true →
    ∃ (t : State) (c : StClass) (n : Nat), exec .i2cScan s = .next t ∧
      c ∈ [.ok, .busTimeout, .busError] ∧ n ≤ s.cfg.scanHi + 1 - s.cfg.scanLo ∧
      t.i2c.resStatus = c.code s.cfg.st ++ BitVec.ofNat 16 n ∧ t.i2c.busy = false ∧ t.i2c.fsm = .idle

/-- R134: on an idle bus `scan()` probes its range in order, each probe a wait, a start, the address with the write direction, and a
stop, and counts the addresses that acknowledged. R83, R134: it ends early at the first wait, start or address that meets a timeout or
a bus error, with the class of that failure, the number that acknowledged before it, and the bus idle. -/
def Obligations.ScanCountsAcknowledgements : Prop :=
  ∀ (s : State) (probes : List (Xfer × Xfer)) (xs : List Xfer) (bs : List Bool), s.cfg.wf →
    s.i2c.busy = false → s.i2c.opened = true → s.i2c.fsm = .idle →
    (∀ p ∈ probes, evalCond p.1 = .ok ∧ (evalTx p.2 = .ok ∨ evalTx p.2 = .nack)) →
    s.busyIn = List.replicate probes.length true ++ bs →
    s.xferIn = probes.flatMap (fun p => [p.1, p.2]) ++ xs →
    let acknowledged := BitVec.ofNat 16 (probes.countP fun p => evalTx p.2 == .ok)
    let probed := s.i2c.trace ++ (probes.zipIdx s.cfg.scanLo).flatMap (fun p =>
      [.start false .ok, .txa (BitVec.ofNat 7 p.2) false (resOf (evalTx p.1.2)), .stop])
    let ends := fun (c : StClass) (more : List BusEvent) => ∃ t, exec .i2cScan s = .next t ∧
      t.i2c.resStatus = c.code s.cfg.st ++ acknowledged ∧ t.i2c.fsm = .idle ∧ t.i2c.busy = false ∧
      t.i2c.trace = probed ++ more
    (probes.length = s.cfg.scanHi + 1 - s.cfg.scanLo → ends .ok []) ∧
    (probes.length < s.cfg.scanHi + 1 - s.cfg.scanLo →
      (∀ bs', bs = false :: bs' → ends .busTimeout []) ∧
      (∀ bs' bad xs', bs = true :: bs' → xs = bad :: xs' → evalCond bad ≠ .ok →
        ends (evalCond bad) [.start false (resOf (evalCond bad)), .stop]) ∧
      (∀ bs' r bad xs', bs = true :: bs' → xs = r :: bad :: xs' → evalCond r = .ok → evalTx bad ≠ .ok → evalTx bad ≠ .nack →
        ends (evalTx bad) [.start false .ok,
          .txa (BitVec.ofNat 7 (s.cfg.scanLo + probes.length)) false (resOf (evalTx bad)), .stop]))

/-- R135: `write(addr, reg, buf, count)` with every byte acknowledged: the whole transaction on the bus, the bytes taken from
`HBUF` in order, payload `count`, `HBUF` unchanged. -/
def Obligations.WriteResult : Prop :=
  ∀ (s : State) (addr : BitVec 7) (reg : Byte) (r1 r2 r3 : Xfer) (data rest : List Xfer) (bs : List Bool),
    s.i2c.busy = false → s.i2c.opened = true → s.busyIn = true :: bs →
    s.xferIn = r1 :: r2 :: r3 :: data ++ rest → data.length = s.i2c.oprCount.toNat →
    evalCond r1 = .ok → evalTx r2 = .ok → evalTx r3 = .ok → (∀ r ∈ data, evalTx r = .ok) →
    exec (.i2cWrite addr reg) s = .next { s with
      busyIn := bs
      xferIn := rest
      i2c := { s.i2c with
        fsm := .idle, tAddr := addr, tReg := reg, tDir := false, tRem := 0#16
        trace := s.i2c.trace ++
          [.start (decide (s.i2c.fsm = .transferringData ∨ s.i2c.fsm = .error)) .ok, .txa addr false .ok, .txb reg .ok] ++
          (List.range s.i2c.oprCount.toNat).map (fun k =>
            .txb (Memory.read s.hbuf ((s.i2c.oprBuf + k) % 2 ^ s.cfg.bufaw)) .ok) ++ [.stop]
        resStatus := s.cfg.st.ok ++ s.i2c.oprCount } }

/-- R135, R138, R140, R141, R142: a `write` or `write<T>` that fails at its start, its address byte, its register byte or a data byte
stops there: the class of that failure, the data bytes acknowledged before it as payload, a stop, and the bus idle; `HBUF` is
unchanged, and `write<T>` has staged its value all the same. -/
def Obligations.WriteStopsAtFirstError : Prop :=
  ∀ (s : State) (addr : BitVec 7) (reg : Byte) (pre : List BusAction) (a : BusAction) (good : List Xfer) (bad : Xfer)
    (rest : List Xfer) (bs : List Bool),
    s.i2c.busy = false → s.i2c.opened = true → s.busyIn = true :: bs →
    let rep := decide (s.i2c.fsm = .transferringData ∨ s.i2c.fsm = .error)
    (failsAt (writeActions rep addr reg ((List.range s.i2c.oprCount.toNat).map fun k =>
        Memory.read s.hbuf ((s.i2c.oprBuf + k) % 2 ^ s.cfg.bufaw))) pre a s.xferIn good bad rest →
      ∃ t, exec (.i2cWrite addr reg) s = .next t ∧ stoppedAt s t pre a good bad rest (pre.length - 3) ∧ t.hbuf = s.hbuf) ∧
    (∀ size, typedSizeOk size = true → s.i2c.scratch.wf →
      let byte := fun k => s.i2c.oprValue.extractLsb' (match s.cfg.wireOrder with
        | .big => 8 * (size.toNat - 1 - k)
        | .little => 8 * k) 8
      failsAt (writeActions rep addr reg ((List.range size.toNat).map byte)) pre a s.xferIn good bad rest →
      ∃ t, exec (.i2cWritet addr reg size) s = .next t ∧ stoppedAt s t pre a good bad rest (pre.length - 3) ∧
        t.hbuf = s.hbuf ∧ (∀ k < size.toNat, Memory.read t.i2c.scratch k = byte k) ∧
        (∀ k, size.toNat ≤ k → Memory.read t.i2c.scratch k = Memory.read s.i2c.scratch k))

/-- R136: `read(addr, reg, buf, count)` with every answer good: the register select, a repeated start, the bytes, all but the last
acknowledged, then a stop; the bytes are in `HBUF`, every other byte of `HBUF` is as it was. R141, R142, R144: one that fails at a start,
an address byte, the register byte or a data byte stops there: the class of that failure, a stop, and as payload the number of bytes
received before it, which are in `HBUF`. -/
def Obligations.ReadResult : Prop :=
  (∀ (s : State) (addr : BitVec 7) (reg : Byte) (r1 r2 r3 r4 r5 : Xfer) (data rest : List Xfer) (bs : List Bool),
    s.i2c.busy = false → s.i2c.opened = true → s.busyIn = true :: bs → s.hbuf.wf →
    s.xferIn = r1 :: r2 :: r3 :: r4 :: r5 :: data ++ rest → data.length = s.i2c.oprCount.toNat →
    data.length ≤ 2 ^ s.cfg.bufaw →
    evalCond r1 = .ok → evalTx r2 = .ok → evalTx r3 = .ok → evalCond r4 = .ok → evalTx r5 = .ok →
    (∀ r ∈ data, evalRx r = .ok) →
    ∃ m : Memory, exec (.i2cRead addr reg) s = .next { s with
        busyIn := bs
        xferIn := rest
        hbuf := m
        i2c := { s.i2c with
          fsm := .idle, tAddr := addr, tReg := reg, tDir := true, tRem := 0#16
          trace := s.i2c.trace ++
            [.start (decide (s.i2c.fsm = .transferringData ∨ s.i2c.fsm = .error)) .ok, .txa addr false .ok, .txb reg .ok,
             .start true .ok, .txa addr true .ok] ++
            data.zipIdx.map (fun p => .rxb p.1.data (decide (p.2 + 1 < data.length)) .ok) ++ [.stop]
          resStatus := s.cfg.st.ok ++ s.i2c.oprCount } } ∧
      (∀ k (h : k < data.length), Memory.read m ((s.i2c.oprBuf + k) % 2 ^ s.cfg.bufaw) = (data[k]).data) ∧
      (∀ a, (∀ k < data.length, a ≠ (s.i2c.oprBuf + k) % 2 ^ s.cfg.bufaw) → Memory.read m a = Memory.read s.hbuf a)) ∧
  (∀ (s : State) (addr : BitVec 7) (reg : Byte) (pre : List BusAction) (a : BusAction) (good : List Xfer) (bad : Xfer)
    (rest : List Xfer) (bs : List Bool),
    s.i2c.busy = false → s.i2c.opened = true → s.busyIn = true :: bs → s.hbuf.wf →
    failsAt (readActions (decide (s.i2c.fsm = .transferringData ∨ s.i2c.fsm = .error)) addr reg s.i2c.oprCount.toNat) pre a
      s.xferIn good bad rest →
    let data := good.drop 5
    ∃ t, exec (.i2cRead addr reg) s = .next t ∧ stoppedAt s t pre a good bad rest data.length ∧
      (data.length ≤ 2 ^ s.cfg.bufaw → ∀ k (h : k < data.length),
        Memory.read t.hbuf ((s.i2c.oprBuf + k) % 2 ^ s.cfg.bufaw) = (data[k]).data) ∧
      (∀ a, (∀ k < data.length, a ≠ (s.i2c.oprBuf + k) % 2 ^ s.cfg.bufaw) → Memory.read t.hbuf a = Memory.read s.hbuf a))

/-- R137, R29: the raw read with every answer good: no register select; with `stop_comm` = 0 no stop, and the engine holds the bus. R140,
R141, R142, R144: one that fails at its start, its address byte or a data byte issues the stop whatever `stop_comm` is. -/
def Obligations.RawReadResult : Prop :=
  (∀ (s : State) (stopComm : Bool) (addr : BitVec 7) (r1 r2 : Xfer) (data rest : List Xfer) (bs : List Bool),
    s.i2c.busy = false → s.i2c.opened = true → s.busyIn = true :: bs → s.hbuf.wf →
    s.xferIn = r1 :: r2 :: data ++ rest → data.length = s.i2c.oprCount.toNat → data.length ≤ 2 ^ s.cfg.bufaw →
    evalCond r1 = .ok → evalTx r2 = .ok → (∀ r ∈ data, evalRx r = .ok) →
    ∃ m : Memory, exec (.i2cReadraw stopComm addr) s = .next { s with
        busyIn := bs
        xferIn := rest
        hbuf := m
        i2c := { s.i2c with
          fsm := if stopComm then .idle else .transferringData
          tAddr := addr, tDir := true, tRem := 0#16
          trace := s.i2c.trace ++
            [.start (decide (s.i2c.fsm = .transferringData ∨ s.i2c.fsm = .error)) .ok, .txa addr true .ok] ++
            data.zipIdx.map (fun p => .rxb p.1.data (decide (p.2 + 1 < data.length)) .ok) ++
            (if stopComm then [.stop] else [])
          resStatus := s.cfg.st.ok ++ s.i2c.oprCount } } ∧
      (∀ k (h : k < data.length), Memory.read m ((s.i2c.oprBuf + k) % 2 ^ s.cfg.bufaw) = (data[k]).data) ∧
      (∀ a, (∀ k < data.length, a ≠ (s.i2c.oprBuf + k) % 2 ^ s.cfg.bufaw) → Memory.read m a = Memory.read s.hbuf a)) ∧
  (∀ (s : State) (stopComm : Bool) (addr : BitVec 7) (pre : List BusAction) (a : BusAction) (good : List Xfer) (bad : Xfer)
    (rest : List Xfer) (bs : List Bool),
    s.i2c.busy = false → s.i2c.opened = true → s.busyIn = true :: bs → s.hbuf.wf →
    failsAt (rawActions (decide (s.i2c.fsm = .transferringData ∨ s.i2c.fsm = .error)) addr s.i2c.oprCount.toNat) pre a
      s.xferIn good bad rest →
    let data := good.drop 2
    ∃ t, exec (.i2cReadraw stopComm addr) s = .next t ∧ stoppedAt s t pre a good bad rest data.length ∧
      (data.length ≤ 2 ^ s.cfg.bufaw → ∀ k (h : k < data.length),
        Memory.read t.hbuf ((s.i2c.oprBuf + k) % 2 ^ s.cfg.bufaw) = (data[k]).data) ∧
      (∀ a, (∀ k < data.length, a ≠ (s.i2c.oprBuf + k) % 2 ^ s.cfg.bufaw) → Memory.read t.hbuf a = Memory.read s.hbuf a))

/-- R62, R138: `write<T>` with every byte acknowledged sends the bytes of the value in `WIRE_ORDER` and leaves them in
`SCR[0..s-1]`; the other cells are as they were. -/
def Obligations.TypedWriteResult : Prop :=
  ∀ (s : State) (addr : BitVec 7) (reg size : Byte) (r1 r2 r3 : Xfer) (data rest : List Xfer) (bs : List Bool),
    s.i2c.busy = false → s.i2c.opened = true → s.i2c.scratch.wf → typedSizeOk size = true → s.busyIn = true :: bs →
    s.xferIn = r1 :: r2 :: r3 :: data ++ rest → data.length = size.toNat →
    evalCond r1 = .ok → evalTx r2 = .ok → evalTx r3 = .ok → (∀ r ∈ data, evalTx r = .ok) →
    let place := fun k => match s.cfg.wireOrder with
      | .big => 8 * (size.toNat - 1 - k)
      | .little => 8 * k
    ∃ m : Memory, exec (.i2cWritet addr reg size) s = .next { s with
        busyIn := bs
        xferIn := rest
        i2c := { s.i2c with
          scratch := m
          fsm := .idle, tAddr := addr, tReg := reg, tDir := false, tRem := 0#16
          trace := s.i2c.trace ++
            [.start (decide (s.i2c.fsm = .transferringData ∨ s.i2c.fsm = .error)) .ok, .txa addr false .ok, .txb reg .ok] ++
            (List.range size.toNat).map (fun k => .txb (s.i2c.oprValue.extractLsb' (place k) 8) .ok) ++ [.stop]
          resStatus := s.cfg.st.ok ++ size.setWidth 16 } } ∧
      (∀ k < size.toNat, Memory.read m k = s.i2c.oprValue.extractLsb' (place k) 8) ∧
      (∀ k, size.toNat ≤ k → Memory.read m k = Memory.read s.i2c.scratch k)

/-- R139: `read<T>` with every answer good: byte `k` received is byte `k` of `RES_VALUE` in `WIRE_ORDER`, and `SCR[k]`; upper bits
of `RES_VALUE` are 0; `HBUF` is unchanged. R141, R142: one that fails stops there, and the bytes received before are in `SCR` (`RES_VALUE`
is then a free value, log entry 10, of which nothing is said). -/
def Obligations.TypedReadResult : Prop :=
  (∀ (s : State) (addr : BitVec 7) (reg size : Byte) (r1 r2 r3 r4 r5 : Xfer) (data rest : List Xfer) (bs : List Bool),
    s.i2c.busy = false → s.i2c.opened = true → s.i2c.scratch.wf → typedSizeOk size = true → s.busyIn = true :: bs →
    s.xferIn = r1 :: r2 :: r3 :: r4 :: r5 :: data ++ rest → data.length = size.toNat →
    evalCond r1 = .ok → evalTx r2 = .ok → evalTx r3 = .ok → evalCond r4 = .ok → evalTx r5 = .ok →
    (∀ r ∈ data, evalRx r = .ok) →
    ∃ t, exec (.i2cReadt addr reg size) s = .next t ∧
      t.i2c.resStatus = s.cfg.st.ok ++ size.setWidth 16 ∧ t.i2c.fsm = .idle ∧ t.hbuf = s.hbuf ∧
      (∀ k (h : k < data.length),
        Memory.read t.i2c.scratch k = (data[k]).data ∧
        t.i2c.resValue.extractLsb' (match s.cfg.wireOrder with
          | .big => 8 * (size.toNat - 1 - k)
          | .little => 8 * k) 8 = (data[k]).data) ∧
      t.i2c.resValue.toNat < 2 ^ (8 * size.toNat) ∧
      (∀ k, size.toNat ≤ k → Memory.read t.i2c.scratch k = Memory.read s.i2c.scratch k) ∧
      t.i2c.trace = s.i2c.trace ++
        [.start (decide (s.i2c.fsm = .transferringData ∨ s.i2c.fsm = .error)) .ok, .txa addr false .ok, .txb reg .ok,
         .start true .ok, .txa addr true .ok] ++
        data.zipIdx.map (fun p => .rxb p.1.data (decide (p.2 + 1 < data.length)) .ok) ++ [.stop]) ∧
  (∀ (s : State) (addr : BitVec 7) (reg size : Byte) (pre : List BusAction) (a : BusAction) (good : List Xfer) (bad : Xfer)
    (rest : List Xfer) (bs : List Bool),
    s.i2c.busy = false → s.i2c.opened = true → s.i2c.scratch.wf → typedSizeOk size = true → s.busyIn = true :: bs →
    failsAt (readActions (decide (s.i2c.fsm = .transferringData ∨ s.i2c.fsm = .error)) addr reg size.toNat) pre a
      s.xferIn good bad rest →
    let data := good.drop 5
    ∃ t, exec (.i2cReadt addr reg size) s = .next t ∧ stoppedAt s t pre a good bad rest data.length ∧ t.hbuf = s.hbuf ∧
      (∀ k (h : k < data.length), Memory.read t.i2c.scratch k = (data[k]).data) ∧
      (∀ k, data.length ≤ k → Memory.read t.i2c.scratch k = Memory.read s.i2c.scratch k))

/-- R140, R248: when `waitBusy` fails, `scan` or a transfer operation, the typed forms included, returns `ST_BUS_TIMEOUT` with payload 0; it issues a stop exactly when the
engine holds the bus from an earlier deferred stop. -/
def Obligations.BusyTimeoutPaysOwedStop : Prop :=
  ∀ (s : State) (i : Instr) (bs : List Bool), s.cfg.wf → s.i2c.busy = false → s.i2c.opened = true → s.busyIn = false :: bs →
    s.i2c.fsm = .idle ∨ s.i2c.fsm = .transferringData ∨ s.i2c.fsm = .error →
    i = .i2cScan ∨ (∃ addr reg, i = .i2cWrite addr reg) ∨ (∃ addr reg, i = .i2cRead addr reg) ∨
      (∃ stopComm addr, i = .i2cReadraw stopComm addr) ∨
      (∃ addr reg size, typedSizeOk size = true ∧ (i = .i2cWritet addr reg size ∨ i = .i2cReadt addr reg size)) →
    ∃ t, exec i s = .next t ∧ t.i2c.resStatus = s.cfg.st.busTimeout ++ 0#16 ∧ t.i2c.fsm = .idle ∧
      t.i2c.trace = s.i2c.trace ++ (if s.i2c.fsm = .idle then [] else [.stop]) ∧ t.hbuf = s.hbuf ∧ t.xferIn = s.xferIn

/-- R20, R22, R23, R144: what an I2C command leaves alone: the buffer but for the bytes a read stores, the scratch buffer but for
the cells a typed operation uses, `I2C.open` but for bring-up and tear-down, `RES_VALUE` but for `isOpen` and the typed read, the
transaction registers of the operations that run no transaction. -/
def Obligations.I2cFrame : Prop :=
  ∀ (i : Instr) (s t : State), i.isI2c = true → exec i s = .next t →
    (i ∉ [.i2cOpen, .i2cClose, .i2cReset] → t.i2c.opened = s.i2c.opened ∧ t.initIn = s.initIn) ∧
    (i ≠ .i2cIsopen → (∀ addr reg size, i ≠ .i2cReadt addr reg size) → t.i2c.resValue = s.i2c.resValue) ∧
    ((∀ addr reg size, i ≠ .i2cWritet addr reg size) → (∀ addr reg size, i ≠ .i2cReadt addr reg size) →
      t.i2c.scratch = s.i2c.scratch) ∧
    (∀ addr reg size, i = .i2cWritet addr reg size ∨ i = .i2cReadt addr reg size →
      ∀ k, size.toNat ≤ k → Memory.read t.i2c.scratch k = Memory.read s.i2c.scratch k) ∧
    ((∀ addr reg, i ≠ .i2cRead addr reg) → (∀ stopComm addr, i ≠ .i2cReadraw stopComm addr) → t.hbuf = s.hbuf) ∧
    ((∃ addr reg, i = .i2cRead addr reg) ∨ (∃ stopComm addr, i = .i2cReadraw stopComm addr) →
      ∀ a, (∀ k < (t.i2c.resStatus.extractLsb' 0 16).toNat, a ≠ (s.i2c.oprBuf + k) % 2 ^ s.cfg.bufaw) →
        Memory.read t.hbuf a = Memory.read s.hbuf a) ∧
    (i ∈ [.i2cOpen, .i2cClose, .i2cIsopen, .i2cReset, .i2cWaitbusy, .i2cStop] ∨ (∃ b, i = .i2cSendb b) ∨
        (∃ ack, i = .i2cRecvb ack) →
      t.i2c.tAddr = s.i2c.tAddr ∧ t.i2c.tReg = s.i2c.tReg ∧ t.i2c.tDir = s.i2c.tDir ∧ t.i2c.tRem = s.i2c.tRem) ∧
    (i ∈ [.i2cIsopen, .i2cWaitbusy] → t.i2c.fsm = s.i2c.fsm ∧ t.i2c.trace = s.i2c.trace)

/-! ## The rings, the interrupt entry points, the peripheral and the host -/

/-- R160, R161: the ring arithmetic, for indices below the capacity. -/
def Obligations.RingArithmetic : Prop :=
  ∀ n head tail : Nat, 2 ≤ n → head < n → tail < n →
    ringNext n head < n ∧ ringNext n (n - 1) = 0 ∧
    (ringCount n head tail = 0 ↔ head = tail) ∧
    (ringCount n head tail = n - 1 ↔ ringNext n head = tail) ∧
    ringCount n head tail ≤ n - 1 ∧
    (ringNext n head ≠ tail → ringCount n (ringNext n head) tail = ringCount n head tail + 1) ∧
    (head ≠ tail → ringCount n head (ringNext n tail) + 1 = ringCount n head tail)

/-- R165, R171: on-receive with room stores the byte, then advances the head, and assigns the latch; with the ring full it changes
the latch and the waiting byte only, and the overflow flag is set. -/
def Obligations.OnReceiveResult : Prop :=
  ∀ (s : State) (b : Byte) (e : HwFlags), s.gie = true → s.uart.rxHold = some (b, e) → s.uart.ctrl.rxIe = true →
    s.uart.rx.head < s.cfg.nRx →
    let hw := (if e.fe then efBit s.cfg.ef.framing else 0#8) ||| (if e.ovr then efBit s.cfg.ef.overrun else 0#8) |||
      (if e.pe then efBit s.cfg.ef.parity else 0#8)
    ((s.uart.rx.head + 1) % s.cfg.nRx ≠ s.uart.rx.tail →
      exec .onRx s = .next { s with
        uart := { s.uart with
          rx := { s.uart.rx with
            buf := Memory.write s.uart.rx.buf s.uart.rx.head b, head := (s.uart.rx.head + 1) % s.cfg.nRx }
          rxHold := none, rxError := hw } }) ∧
    ((s.uart.rx.head + 1) % s.cfg.nRx = s.uart.rx.tail →
      exec .onRx s = .next { s with
        uart := { s.uart with rxHold := none, rxError := hw ||| efBit s.cfg.ef.overflow } })

/-- R166: on-transmit-empty with an empty ring only switches its interrupt off; else it moves the oldest byte to `DATA` and
switches the interrupt off when that was the last. -/
def Obligations.OnTransmitEmptyResult : Prop :=
  ∀ s : State, s.gie = true → s.uart.txHold = none → s.uart.ctrl.txeIe = true → s.uart.tx.tail < s.cfg.nTx →
    (s.uart.tx.head = s.uart.tx.tail →
      exec .onTxe s = .next { s with uart := { s.uart with ctrl := { s.uart.ctrl with txeIe := false } } }) ∧
    (s.uart.tx.head ≠ s.uart.tx.tail →
      exec .onTxe s = .next { s with
        uart := { s.uart with
          txHold := some (Memory.read s.uart.tx.buf s.uart.tx.tail)
          tx := { s.uart.tx with tail := (s.uart.tx.tail + 1) % s.cfg.nTx }
          ctrl := { s.uart.ctrl with txeIe := decide (s.uart.tx.head ≠ (s.uart.tx.tail + 1) % s.cfg.nTx) } } })

/-- R217: when both sources are pending the two orders of their entry points reach the same state. -/
def Obligations.EntryPointsCommute : Prop :=
  ∀ s : State, RingInv s → s.gie = true → rxPending s.uart = true → txePending s.uart = true →
    ∃ t, andThen (exec .onRx s) (exec .onTxe) = .next t ∧ andThen (exec .onTxe s) (exec .onRx) = .next t

/-- R167: the manual pump does exactly what the transmit-empty interrupt would have done had `GIE` been 1, and otherwise nothing. -/
def Obligations.PumpIsTheInterrupt : Prop :=
  ∀ s : State,
    (s.gie = false → txePending s.uart = true →
      exec .onTxe { s with gie := true } = andThen (pump s) fun t => .next { t with gie := true }) ∧
    (s.gie = true ∨ s.uart.txHold ≠ none ∨ s.uart.ctrl.txeIe = false → pump s = .next s)

/-- R13, R27, R40, R42, R44, R68: the steps of the abstract peripheral, each with its effect when enabled and none when not; the host's
writes of operand registers; the environment's write of `GIE`; the host's accesses to its buffer memory, refused for a byte of the
buffer of the operation in progress and carried out for every other. That a move that is not enabled is skipped, that reads are
refused like writes, and that a string's buffer reaches to its terminator, are the model's (log entries 5 and 12). -/
def Obligations.PeripheralAndHostMoves : Prop :=
  ∀ (s : State) (rest : List Event),
    (∀ b e, s.sched = .hwRx b e :: rest →
      step s = .next { s with
        sched := rest
        uart := if s.uart.ctrl.rxEn = true ∧ s.uart.rxHold = none then
          { s.uart with rxHold := some (b, e), wireIn := s.uart.wireIn ++ [(b, e)] } else s.uart }) ∧
    (s.sched = .hwTxTake :: rest →
      step s = .next { s with
        sched := rest
        uart := if s.uart.ctrl.txEn = true ∧ s.uart.txHold ≠ none ∧ s.uart.txShift = none then
          { s.uart with txShift := s.uart.txHold, txHold := none } else s.uart }) ∧
    (s.sched = .hwTxDone :: rest →
      step s = .next { s with
        sched := rest
        uart := { s.uart with wireOut := s.uart.wireOut ++ s.uart.txShift.toList, txShift := none } }) ∧
    (∀ v, s.sched = .setCount .uart v :: rest →
      step s = .next { s with sched := rest, uart := { s.uart with oprCount := v } }) ∧
    (∀ v, s.sched = .setCount .i2c v :: rest →
      step s = .next { s with sched := rest, i2c := { s.i2c with oprCount := v } }) ∧
    (∀ v, s.sched = .setBuf .uart v :: rest →
      step s = .next { s with sched := rest, uart := { s.uart with oprBuf := v % 2 ^ s.cfg.bufaw } }) ∧
    (∀ v, s.sched = .setBuf .i2c v :: rest →
      step s = .next { s with sched := rest, i2c := { s.i2c with oprBuf := v % 2 ^ s.cfg.bufaw } }) ∧
    (∀ v, s.sched = .setValue .i2c v :: rest →
      step s = .next { s with sched := rest, i2c := { s.i2c with oprValue := v } }) ∧
    (∀ v, s.sched = .setTimeout v :: rest →
      step s = .next { s with sched := rest, uart := { s.uart with oprTimeout := v } }) ∧
    (∀ v, s.sched = .setValue .uart v :: rest →
      step s = .next { s with sched := rest, uart := { s.uart with oprValue := v } }) ∧
    (∀ b, s.sched = .setGie b :: rest → step s = .next { s with sched := rest, gie := b }) ∧
    (∀ a, a < 2 ^ s.cfg.bufaw → (∀ j, s.uart.job = some j → ¬ inBuffer s j a) →
      (∀ b, s.sched = .hostWrite a b :: rest → step s = .next { s with sched := rest, hbuf := Memory.write s.hbuf a b }) ∧
      (s.sched = .hostRead a :: rest → step s = .next { s with sched := rest })) ∧
    (∀ a j, s.uart.job = some j → inBuffer s j a →
      (∀ b, s.sched = .hostWrite a b :: rest → step s = .refused .bufferOwned) ∧
      (s.sched = .hostRead a :: rest → step s = .refused .bufferOwned))

/-! ## UART mainline operations (43_uart_operations.md). `burst` is how many lines run before another agent moves: with fewer, the
operation is still in progress when the step ends. -/

/-- R182: `open()`: idempotent; baud and format written, receiver, transmitter and receive interrupt enabled. -/
def Obligations.UartOpenResult : Prop :=
  ∀ s : State, s.uart.busy = false → 5 ≤ s.burst →
    (s.uart.opened = true →
      exec .uOpen s = .next { s with uart := { s.uart with resStatus := s.cfg.st.ok ++ 0#16, job := none } }) ∧
    (s.uart.opened = false →
      exec .uOpen s = .next { s with
        uart := { s.uart with
          baud := s.cfg.uartBaud, format := s.cfg.uartFormat
          ctrl := { s.uart.ctrl with rxEn := true, txEn := true, rxIe := true }
          opened := true, resStatus := s.cfg.st.ok ++ 0#16, job := none } })

/-- R183: `close()` on a closed port is a no-op; on an open one whose transmitter has drained it disables everything and resets the
receive ring and the latch. -/
def Obligations.UartCloseResult : Prop :=
  ∀ s : State, s.uart.busy = false → 7 ≤ s.burst →
    (s.uart.opened = false →
      exec .uClose s = .next { s with uart := { s.uart with resStatus := s.cfg.st.ok ++ 0#16, job := none } }) ∧
    (s.uart.opened = true → s.uart.tx.head = s.uart.tx.tail → s.uart.txHold = none → s.uart.txShift = none →
      exec .uClose s = .next { s with
        uart := { s.uart with
          ctrl := { rxEn := false, rxIe := false, txeIe := false, txEn := false }
          rx := { s.uart.rx with head := 0, tail := 0 }
          rxError := 0#8, rxHold := none, opened := false, resStatus := s.cfg.st.ok ++ 0#16, job := none } })

/-- R185, R80: `available()` returns the count of unread bytes in its 16-bit payload and changes nothing else. That a count above 65535,
possible only with `N_RX` above 65536, is reported by its low 16 bits is the model's reading (log entry 20). -/
def Obligations.AvailableResult : Prop :=
  ∀ s : State, s.uart.busy = false → s.uart.opened = true → 3 ≤ s.burst →
    exec .uAvail s = .next { s with
      uart := { s.uart with
        resStatus := s.cfg.st.ok ++ BitVec.ofNat 16 ((s.cfg.nRx + s.uart.rx.head - s.uart.rx.tail) % s.cfg.nRx)
        job := none } }

/-- R186: `flush(direction)`: inbound discards unread input and clears the latch; outbound with the ring empty and the transmitter
idle returns at once. -/
def Obligations.FlushResult : Prop :=
  ∀ s : State, s.uart.busy = false → s.uart.opened = true → 2 ≤ s.burst →
    exec (.uFlush false) s = .next { s with
      uart := { s.uart with
        rx := { s.uart.rx with tail := s.uart.rx.head }, rxError := 0#8, resStatus := s.cfg.st.ok ++ 0#16, job := none } } ∧
    (s.uart.tx.head = s.uart.tx.tail → s.uart.txHold = none → s.uart.txShift = none →
      exec (.uFlush true) s = .next { s with uart := { s.uart with resStatus := s.cfg.st.ok ++ 0#16, job := none } })

/-- R183, R186, R187, R188, R189: when the ring is empty and the transmitter idle, the drain loop ends and the operation that called it
goes on to its return. Only then: while a byte is queued or in the transmitter an iteration is the pump and back to the test, and the
operation, whichever called the loop, is still in progress. -/
def Obligations.DrainEndsWhenIdle : Prop :=
  (∀ (s : State) (j : Job), s.uart.job = some j → j.line = .flushOut1 →
    s.uart.tx.head ≠ s.uart.tx.tail ∨ s.uart.txHold ≠ none ∨ s.uart.txShift ≠ none →
    runLines 2 s = andThen (pump s) (fun t => .next (goto .flushOut1 j t)) ∧
    (∀ t, runLines 2 s = .next t → t.uart.job = some j ∧ t.uart.busy = s.uart.busy ∧ t.uart.resStatus = s.uart.resStatus) ∧
    (RingInv s → ∃ t, runLines 2 s = .next t)) ∧
  (∀ (s : State) (j : Job), s.uart.job = some j → j.line = .flushOut1 →
    s.uart.tx.head = s.uart.tx.tail → s.uart.txHold = none → s.uart.txShift = none →
    (j.op = .flush true → runLines 2 s = .next (uartReturn ⟨.ok, 0#16⟩ s)) ∧
    (∀ drain, j.op = .send drain → runLines 3 s = .next (uartReturn ⟨.ok, 1#16⟩ s)) ∧
    (∀ drain, j.op = .sendBuf drain → runLines 3 s = .next (uartReturn ⟨.ok, BitVec.ofNat 16 j.i⟩ s)) ∧
    (∀ drain, j.op = .sendStr drain → runLines 3 s = .next (uartReturn ⟨.ok, BitVec.ofNat 16 j.i⟩ s)) ∧
    (j.op = .closing → runLines 2 s = .next (goto .close3 j s)))

/-- R187: `send(byte, drain, timeout)` with room: the byte in its slot, the head advanced, the interrupt enabled; with `drain` = 0 it
returns with payload 1, with `drain` = 1 it goes on to the drain loop. -/
def Obligations.SendResult : Prop :=
  ∀ (s : State) (b : Byte), s.uart.busy = false → s.uart.opened = true → s.uart.tx.head < s.cfg.nTx →
    (s.uart.tx.head + 1) % s.cfg.nTx ≠ s.uart.tx.tail →
    let queued : Uart := { s.uart with
      tx := { s.uart.tx with
        buf := Memory.write s.uart.tx.buf s.uart.tx.head b, head := (s.uart.tx.head + 1) % s.cfg.nTx }
      ctrl := { s.uart.ctrl with txeIe := true } }
    (8 ≤ s.burst →
      exec (.uSend false b) s = .next { s with uart := { queued with resStatus := s.cfg.st.ok ++ 1#16, job := none } }) ∧
    (s.burst = 7 → ∃ j, j.op = .send true ∧ j.line = .flushOut1 ∧
      exec (.uSend true b) s = .next { s with uart := { queued with busy := true, job := some j } })

/-- R187 (93 U18): `send` on a ring that stays full, the pump not in action: with a timeout it gives up after it: `ST_TX_TIMEOUT`,
payload 0, the byte not queued and nothing else changed; with `timeout` = 0 it never returns and changes nothing. R188, R189: a buffer
or string `send` whose ring fills up and then stays full gives up at the byte that finds no room, after `SENDBUF_TIMEOUT`: the bytes
before it are queued in order and counted in the payload; with interrupts disabled and the transmitter free the pump has made room for
one more. -/
def Obligations.SendOnStuckRing : Prop :=
  (∀ (s : State) (drain : Bool) (b : Byte), s.uart.busy = false → s.uart.opened = true →
    (s.uart.tx.head + 1) % s.cfg.nTx = s.uart.tx.tail → 0 < s.cfg.pollQuantum →
    s.gie = true ∨ s.uart.txHold ≠ none ∨ s.uart.ctrl.txeIe = false →
    (s.uart.oprTimeout ≠ 0#32 → 2 * (s.uart.oprTimeout.toNat / s.cfg.pollQuantum + 3) ≤ s.burst →
      exec (.uSend drain b) s = .next { s with
        uart := { s.uart with resStatus := s.cfg.st.txTimeout ++ 0#16, job := none } }) ∧
    (s.uart.oprTimeout = 0#32 →
      ∃ j, exec (.uSend drain b) s = .next { s with uart := { s.uart with busy := true, job := some j } })) ∧
  (∀ (s : State) (drain : Bool), RingInv s → MemInv s → s.uart.busy = false → s.uart.opened = true →
    s.cfg.sendbufTimeout ≠ 0#32 →
    let room := s.cfg.nTx - 1 - ringCount s.cfg.nTx s.uart.tx.head s.uart.tx.tail
    let pumped := if s.gie = false ∧ s.uart.txHold = none ∧ (s.uart.ctrl.txeIe = true ∨ 0 < room) then 1 else 0
    let n := room + pumped
    let bytes := s.uart.tx.bytes s.cfg.nTx ++ (List.range n).map (fun k =>
      Memory.read s.hbuf ((s.uart.oprBuf + k) % 2 ^ s.cfg.bufaw))
    let givesUp := fun i : Instr => ∃ ring : Ring,
      ring.tail = (s.uart.tx.tail + pumped) % s.cfg.nTx ∧ ring.head = (s.uart.tx.head + n) % s.cfg.nTx ∧
      ring.bytes s.cfg.nTx = bytes.drop pumped ∧
      (∀ a, (∀ k < n, a ≠ (s.uart.tx.head + k) % s.cfg.nTx) → Memory.read ring.buf a = Memory.read s.uart.tx.buf a) ∧
      exec i s = .next { s with
        uart := { s.uart with
          tx := ring
          txHold := if pumped = 1 then bytes.head? else s.uart.txHold
          ctrl := { s.uart.ctrl with txeIe := s.uart.ctrl.txeIe || decide (0 < n) }
          resStatus := s.cfg.st.txTimeout ++ BitVec.ofNat 16 n, job := none } }
    (n < s.uart.oprCount.toNat → 13 * n + 2 * (s.cfg.sendbufTimeout.toNat / s.cfg.pollQuantum) + 20 ≤ s.burst →
      givesUp (.uSendbuf drain)) ∧
    ((∀ k ≤ n, Memory.read s.hbuf ((s.uart.oprBuf + k) % 2 ^ s.cfg.bufaw) ≠ 0#8) →
      14 * n + 2 * (s.cfg.sendbufTimeout.toNat / s.cfg.pollQuantum) + 20 ≤ s.burst → givesUp (.uSendstr drain)))

/-- R167, R187, R195: with the ring full and interrupts disabled, `send` pumps the oldest byte to the transmitter itself and queues
its own in the slot that gives. -/
def Obligations.SendPumpsWhenInterruptsAreOff : Prop :=
  ∀ (s : State) (b : Byte), RingInv s → s.uart.busy = false → s.uart.opened = true → s.gie = false → s.uart.txHold = none →
    s.uart.ctrl.txeIe = true → (s.uart.tx.head + 1) % s.cfg.nTx = s.uart.tx.tail → 10 ≤ s.burst →
    exec (.uSend false b) s = .next { s with
      uart := { s.uart with
        txHold := some (Memory.read s.uart.tx.buf s.uart.tx.tail)
        tx := {
          buf := Memory.write s.uart.tx.buf s.uart.tx.head b
          head := s.uart.tx.tail
          tail := (s.uart.tx.tail + 1) % s.cfg.nTx }
        resStatus := s.cfg.st.ok ++ 1#16, job := none } }

/-- R188: `send(buffer, count, drain)` with room for all: the bytes of the buffer queued in order behind what was queued; payload
`count`; with `drain` = 1 it then goes on to the drain loop. -/
def Obligations.SendBufferResult : Prop :=
  ∀ s : State, RingInv s → MemInv s → s.uart.busy = false → s.uart.opened = true →
    ringCount s.cfg.nTx s.uart.tx.head s.uart.tx.tail + s.uart.oprCount.toNat < s.cfg.nTx →
    ∃ ring : Ring, ring.tail = s.uart.tx.tail ∧ ring.head = (s.uart.tx.head + s.uart.oprCount.toNat) % s.cfg.nTx ∧
      ring.bytes s.cfg.nTx = s.uart.tx.bytes s.cfg.nTx ++ (List.range s.uart.oprCount.toNat).map (fun k =>
        Memory.read s.hbuf ((s.uart.oprBuf + k) % 2 ^ s.cfg.bufaw)) ∧
      (∀ a, (∀ k < s.uart.oprCount.toNat, a ≠ (s.uart.tx.head + k) % s.cfg.nTx) →
        Memory.read ring.buf a = Memory.read s.uart.tx.buf a) ∧
      let queued : Uart := { s.uart with
        tx := ring, ctrl := { s.uart.ctrl with txeIe := s.uart.ctrl.txeIe || decide (s.uart.oprCount ≠ 0#16) } }
      (13 * s.uart.oprCount.toNat + 4 ≤ s.burst →
        exec (.uSendbuf false) s = .next { s with
          uart := { queued with resStatus := s.cfg.st.ok ++ s.uart.oprCount, job := none } }) ∧
      (13 * s.uart.oprCount.toNat + 3 = s.burst →
        ∃ j, j.op = .sendBuf true ∧ j.line = .flushOut1 ∧ j.i = s.uart.oprCount.toNat ∧
          exec (.uSendbuf true) s = .next { s with uart := { queued with busy := true, job := some j } })

/-- R189: `send(string, drain)` with room for all: the bytes before the terminator, at offset `n`, queued in order; the terminator is
not; payload `n` modulo 2^16. -/
def Obligations.SendStringResult : Prop :=
  ∀ (s : State) (n : Nat), RingInv s → MemInv s → s.uart.busy = false → s.uart.opened = true →
    (∀ k < n, Memory.read s.hbuf ((s.uart.oprBuf + k) % 2 ^ s.cfg.bufaw) ≠ 0#8) →
    Memory.read s.hbuf ((s.uart.oprBuf + n) % 2 ^ s.cfg.bufaw) = 0#8 →
    ringCount s.cfg.nTx s.uart.tx.head s.uart.tx.tail + n < s.cfg.nTx →
    ∃ ring : Ring, ring.tail = s.uart.tx.tail ∧ ring.head = (s.uart.tx.head + n) % s.cfg.nTx ∧
      ring.bytes s.cfg.nTx = s.uart.tx.bytes s.cfg.nTx ++ (List.range n).map (fun k =>
        Memory.read s.hbuf ((s.uart.oprBuf + k) % 2 ^ s.cfg.bufaw)) ∧
      (∀ a, (∀ k < n, a ≠ (s.uart.tx.head + k) % s.cfg.nTx) → Memory.read ring.buf a = Memory.read s.uart.tx.buf a) ∧
      let queued : Uart := { s.uart with
        tx := ring, ctrl := { s.uart.ctrl with txeIe := s.uart.ctrl.txeIe || decide (0 < n) } }
      (14 * n + 6 ≤ s.burst →
        exec (.uSendstr false) s = .next { s with
          uart := { queued with resStatus := s.cfg.st.ok ++ BitVec.ofNat 16 n, job := none } }) ∧
      (14 * n + 5 = s.burst →
        ∃ j, j.op = .sendStr true ∧ j.line = .flushOut1 ∧ j.i = n ∧
          exec (.uSendstr true) s = .next { s with uart := { queued with busy := true, job := some j } })

/-- R85, R190: `recv()`: with the ring empty the no-data status and nothing else changed, the latch included; else the oldest byte with
the flags of the latch, which it clears. -/
def Obligations.RecvResult : Prop :=
  ∀ s : State, s.uart.busy = false → s.uart.opened = true → 5 ≤ s.burst →
    (s.uart.rx.head = s.uart.rx.tail →
      exec .uRecv s = .next { s with uart := { s.uart with resStatus := s.cfg.st.noData ++ 0xFF00#16, job := none } }) ∧
    (s.uart.rx.head ≠ s.uart.rx.tail → s.uart.rx.tail < s.cfg.nRx →
      exec .uRecv s = .next { s with
        uart := { s.uart with
          rx := { s.uart.rx with tail := (s.uart.rx.tail + 1) % s.cfg.nRx }
          rxError := 0#8
          resStatus := s.cfg.st.ok ++ (s.uart.rxError ++ Memory.read s.uart.rx.buf s.uart.rx.tail)
          job := none } })

/-- R88, R191: `recv(buffer, count, timeout)` with `count` bytes waiting: they are stored in order, popped, and their flags returned;
every other byte of `HBUF` is as it was. -/
def Obligations.RecvBufferResult : Prop :=
  ∀ s : State, RingInv s → MemInv s → s.uart.busy = false → s.uart.opened = true →
    s.uart.oprCount.toNat ≤ ringCount s.cfg.nRx s.uart.rx.head s.uart.rx.tail →
    s.uart.oprCount.toNat ≤ 2 ^ s.cfg.bufaw → 9 * s.uart.oprCount.toNat + 3 ≤ s.burst →
    ∃ m : Memory, exec .uRecvbuf s = .next { s with
        hbuf := m
        uart := { s.uart with
          rx := { s.uart.rx with tail := (s.uart.rx.tail + s.uart.oprCount.toNat) % s.cfg.nRx }
          rxError := if s.uart.oprCount = 0#16 then s.uart.rxError else 0#8
          resStatus := s.cfg.st.ok ++ ((if s.uart.oprCount = 0#16 then 0#8 else s.uart.rxError) ++ 0#8)
          job := none } } ∧
      (∀ k < s.uart.oprCount.toNat,
        Memory.read m ((s.uart.oprBuf + k) % 2 ^ s.cfg.bufaw) =
          Memory.read s.uart.rx.buf ((s.uart.rx.tail + k) % s.cfg.nRx)) ∧
      (∀ a, (∀ k < s.uart.oprCount.toNat, a ≠ (s.uart.oprBuf + k) % 2 ^ s.cfg.bufaw) →
        Memory.read m a = Memory.read s.hbuf a)

/-- R88, R191: `recv(buffer, count, timeout)` with nothing waiting and nothing arriving gives up once its timeout is reached, at the
first empty poll when it is 0: `ST_OP_TIMEOUT` with `EF_TIMEOUT` set, the buffer untouched. With fewer than `count` bytes waiting it
stores and pops those first, and their flags are in the result too; the rest of the buffer is untouched. -/
def Obligations.RecvBufferTimesOut : Prop :=
  (∀ s : State, s.uart.busy = false → s.uart.opened = true → s.uart.rx.head = s.uart.rx.tail → s.uart.oprCount ≠ 0#16 →
    0 < s.cfg.pollQuantum → 6 * (s.uart.oprTimeout.toNat / s.cfg.pollQuantum + 2) + 1 ≤ s.burst →
    exec .uRecvbuf s = .next { s with
      uart := { s.uart with
        resStatus := s.cfg.st.opTimeout ++ (efBit s.cfg.ef.timeout ++ 0#8), job := none } }) ∧
  (∀ s : State, RingInv s → MemInv s → s.uart.busy = false → s.uart.opened = true →
    let n := ringCount s.cfg.nRx s.uart.rx.head s.uart.rx.tail
    0 < n → n < s.uart.oprCount.toNat → n ≤ 2 ^ s.cfg.bufaw →
    9 * n + 6 * (s.uart.oprTimeout.toNat / s.cfg.pollQuantum + 2) + 1 ≤ s.burst →
    ∃ m : Memory, exec .uRecvbuf s = .next { s with
        hbuf := m
        uart := { s.uart with
          rx := { s.uart.rx with tail := s.uart.rx.head }
          rxError := 0#8
          resStatus := s.cfg.st.opTimeout ++ ((s.uart.rxError ||| efBit s.cfg.ef.timeout) ++ 0#8), job := none } } ∧
      (∀ k < n, Memory.read m ((s.uart.oprBuf + k) % 2 ^ s.cfg.bufaw) =
        Memory.read s.uart.rx.buf ((s.uart.rx.tail + k) % s.cfg.nRx)) ∧
      (∀ a, (∀ k < n, a ≠ (s.uart.oprBuf + k) % 2 ^ s.cfg.bufaw) → Memory.read m a = Memory.read s.hbuf a))

/-- R50, R168, R223 (the writers table): what a UART command, run for any number of lines, leaves alone in the state. -/
def Obligations.UartFrame : Prop :=
  ∀ (i : Instr) (s t : State), i.isUart = true → exec i s = .next t →
    (t.uart.id = s.uart.id ∧ t.uart.cw = s.uart.cw ∧ t.uart.oprCount = s.uart.oprCount ∧ t.uart.oprBuf = s.uart.oprBuf ∧
      t.uart.oprValue = s.uart.oprValue ∧ t.uart.oprTimeout = s.uart.oprTimeout ∧ t.uart.wireIn = s.uart.wireIn ∧
      t.uart.wireOut = s.uart.wireOut ∧ t.uart.txShift = s.uart.txShift ∧ t.uart.rx.buf = s.uart.rx.buf ∧
      t.gie = s.gie ∧ t.sched = s.sched ∧ t.burst = s.burst ∧ t.drawn = s.drawn) ∧
    (i ∉ [.uOpen, .uClose] → t.uart.opened = s.uart.opened ∧ t.uart.ctrl.rxEn = s.uart.ctrl.rxEn ∧
      t.uart.ctrl.txEn = s.uart.ctrl.txEn ∧ t.uart.ctrl.rxIe = s.uart.ctrl.rxIe) ∧
    (i ≠ .uOpen → t.uart.baud = s.uart.baud ∧ t.uart.format = s.uart.format) ∧
    (i ≠ .uIsopen → t.uart.resValue = s.uart.resValue) ∧
    (i ≠ .uClose → t.uart.rx.head = s.uart.rx.head ∧ t.uart.rxHold = s.uart.rxHold) ∧
    (i ∉ [.uClose, .uFlush false, .uRecv, .uRecvbuf] →
      t.uart.rx.tail = s.uart.rx.tail ∧ t.uart.rxError = s.uart.rxError) ∧
    (i.isSend = false → t.uart.tx.head = s.uart.tx.head ∧ t.uart.tx.buf = s.uart.tx.buf) ∧
    (i.isSend = false → i ∉ [.uClose, .uFlush true] →
      t.uart.tx.tail = s.uart.tx.tail ∧ t.uart.txHold = s.uart.txHold ∧ t.uart.ctrl.txeIe = s.uart.ctrl.txeIe) ∧
    (i ≠ .uRecvbuf → t.hbuf = s.hbuf) ∧
    (i = .uRecvbuf → ∀ a, (∀ k < s.uart.oprCount.toNat, a ≠ (s.uart.oprBuf + k) % 2 ^ s.cfg.bufaw) →
      Memory.read t.hbuf a = Memory.read s.hbuf a) ∧
    (∀ drain b, i = .uSend drain b → ∀ a, a ≠ s.uart.tx.head →
      Memory.read t.uart.tx.buf a = Memory.read s.uart.tx.buf a) ∧
    (∀ drain, i = .uSendbuf drain → ∀ a, (∀ k < s.uart.oprCount.toNat, a ≠ (s.uart.tx.head + k) % s.cfg.nTx) →
      Memory.read t.uart.tx.buf a = Memory.read s.uart.tx.buf a) ∧
    (∀ drain, i = .uSendstr drain →
      ∀ a, (∀ k, (∀ m ≤ k, Memory.read s.hbuf ((s.uart.oprBuf + m) % 2 ^ s.cfg.bufaw) ≠ 0#8) →
        a ≠ (s.uart.tx.head + k) % s.cfg.nTx) →
      Memory.read t.uart.tx.buf a = Memory.read s.uart.tx.buf a)
end

