-- ==== Sys2Proof/Laws/Decode.lean ====
section
/-! SUPPORT. The fields of a command word put together by the encoder (spec 30_encoding.md R90): each comes back as it went in, and
a word is put together from its fields. -/

namespace Sys2Proof

/-- Two bit vectors joined, as a number. -/
theorem toNat_join {m n : Nat} (x : BitVec m) (y : BitVec n) : (x ++ y).toNat = x.toNat * 2 ^ n + y.toNat := by
  rw [BitVec.toNat_append, Nat.shiftLeft_eq, Nat.mul_comm, ← Nat.two_pow_add_eq_or_of_lt y.isLt, Nat.mul_comm]

/-- A command word as a number (R90). -/
theorem commandWord_toNat (opc : BitVec 8) (f : Bool) (addr : BitVec 7) (reg byte : Byte) :
    (commandWord opc f addr reg byte).toNat =
      opc.toNat * 2 ^ 24 + f.toNat * 2 ^ 23 + addr.toNat * 2 ^ 16 + reg.toNat * 2 ^ 8 + byte.toNat := by
  unfold commandWord
  rw [toNat_join, toNat_join, toNat_join, toNat_join]
  simp only [BitVec.toNat_ofBool]
  omega

theorem fieldOpc_toNat (w : Word) : (fieldOpc w).toNat = w.toNat / 2 ^ 24 % 2 ^ 8 := by
  simp [fieldOpc, BitVec.extractLsb'_toNat, Nat.shiftRight_eq_div_pow]

theorem fieldF_toNat (w : Word) : (fieldF w).toNat = w.toNat / 2 ^ 23 % 2 := by
  rw [fieldF, BitVec.getLsbD, Nat.toNat_testBit]

theorem fieldAddr_toNat (w : Word) : (fieldAddr w).toNat = w.toNat / 2 ^ 16 % 2 ^ 7 := by
  simp [fieldAddr, BitVec.extractLsb'_toNat, Nat.shiftRight_eq_div_pow]

theorem fieldReg_toNat (w : Word) : (fieldReg w).toNat = w.toNat / 2 ^ 8 % 2 ^ 8 := by
  simp [fieldReg, BitVec.extractLsb'_toNat, Nat.shiftRight_eq_div_pow]

theorem fieldByte_toNat (w : Word) : (fieldByte w).toNat = w.toNat % 2 ^ 8 := by
  simp [fieldByte, BitVec.extractLsb'_toNat]

section
variable (opc : BitVec 8) (f : Bool) (addr : BitVec 7) (reg byte : Byte)

@[simp] theorem fieldOpc_commandWord : fieldOpc (commandWord opc f addr reg byte) = opc := by
  apply BitVec.eq_of_toNat_eq
  rw [fieldOpc_toNat, commandWord_toNat]
  have := opc.isLt; have := addr.isLt; have := reg.isLt; have := byte.isLt; have := f.toNat_le
  omega

@[simp] theorem fieldF_commandWord : fieldF (commandWord opc f addr reg byte) = f := by
  have h : (fieldF (commandWord opc f addr reg byte)).toNat = f.toNat := by
    rw [fieldF_toNat, commandWord_toNat]
    have := addr.isLt; have := reg.isLt; have := byte.isLt; have := f.toNat_le
    omega
  revert h
  cases fieldF (commandWord opc f addr reg byte) <;> cases f <;> simp

@[simp] theorem fieldAddr_commandWord : fieldAddr (commandWord opc f addr reg byte) = addr := by
  apply BitVec.eq_of_toNat_eq
  rw [fieldAddr_toNat, commandWord_toNat]
  have := addr.isLt; have := reg.isLt; have := byte.isLt
  omega

@[simp] theorem fieldReg_commandWord : fieldReg (commandWord opc f addr reg byte) = reg := by
  apply BitVec.eq_of_toNat_eq
  rw [fieldReg_toNat, commandWord_toNat]
  have := reg.isLt; have := byte.isLt
  omega

@[simp] theorem fieldByte_commandWord : fieldByte (commandWord opc f addr reg byte) = byte := by
  apply BitVec.eq_of_toNat_eq
  rw [fieldByte_toNat, commandWord_toNat]
  have := byte.isLt
  omega

end

/-- A word is put together from its fields. -/
theorem commandWord_fields (w : Word) : commandWord (fieldOpc w) (fieldF w) (fieldAddr w) (fieldReg w) (fieldByte w) = w := by
  apply BitVec.eq_of_toNat_eq
  rw [commandWord_toNat, fieldOpc_toNat, fieldF_toNat, fieldAddr_toNat, fieldReg_toNat, fieldByte_toNat]
  have := w.isLt
  omega

end Sys2Proof
end

