-- ==== Sys2Proof/Laws/Memory.lean ====
section
/-! SUPPORT. The laws of a byte memory: read after write, and that every operation keeps the canonical form (spec 20_memory.md
R60, R64) and stays within its address space. -/

namespace Sys2Proof.Machine

namespace Memory

/-- Every listed address lies above `a`. -/
abbrev above (a : Nat) (m : Memory) : Prop := ∀ c ∈ m, a < c.1

theorem wf_nil : wf [] := by simp [wf]

theorem wf_cons {k : Nat} {b : Byte} {m : Memory} : wf ((k, b) :: m) ↔ above k m ∧ b ≠ 0#8 ∧ wf m := by
  simp only [wf, above, List.pairwise_cons, List.forall_mem_cons]
  tauto

theorem read_of_above {m : Memory} {a x : Nat} (h : above a m) (hx : x ≤ a) : read m x = 0#8 := by
  induction m with
  | nil => rfl
  | cons c m ih =>
    obtain ⟨k, b⟩ := c
    have hk : a < k := h (k, b) (by simp)
    have hne : k ≠ x := by omega
    simp only [read, hne, if_false]
    exact ih fun c hc => h c (by simp [hc])

/-! ## Erasing -/

theorem mem_of_mem_erase {m : Memory} {a : Nat} {c : Host.Cell} (h : c ∈ erase m a) : c ∈ m := by
  induction m with
  | nil => simp [erase] at h
  | cons d m ih =>
    obtain ⟨k, b⟩ := d
    by_cases hk : k = a
    · simp only [erase, hk, if_true] at h
      exact List.mem_cons_of_mem _ h
    · simp only [erase, hk, if_false, List.mem_cons] at h
      rcases h with h | h
      · simp [h]
      · exact List.mem_cons_of_mem _ (ih h)

theorem wf_erase {m : Memory} (a : Nat) (h : wf m) : wf (erase m a) := by
  induction m with
  | nil => simpa [erase] using h
  | cons d m ih =>
    obtain ⟨k, b⟩ := d
    obtain ⟨hab, hb, hm⟩ := wf_cons.1 h
    by_cases hk : k = a
    · simpa [erase, hk] using hm
    · simp only [erase, hk, if_false]
      exact wf_cons.2 ⟨fun c hc => hab c (mem_of_mem_erase hc), hb, ih hm⟩

theorem read_erase_same {m : Memory} (a : Nat) (h : wf m) : read (erase m a) a = 0#8 := by
  induction m with
  | nil => rfl
  | cons d m ih =>
    obtain ⟨k, b⟩ := d
    obtain ⟨hab, _, hm⟩ := wf_cons.1 h
    by_cases hk : k = a
    · subst hk
      simpa [erase] using read_of_above hab (le_refl k)
    · simp only [erase, hk, if_false, read]
      exact ih hm

theorem read_erase_other {m : Memory} {a x : Nat} (hx : x ≠ a) : read (erase m a) x = read m x := by
  induction m with
  | nil => rfl
  | cons d m ih =>
    obtain ⟨k, b⟩ := d
    by_cases hk : k = a
    · subst hk
      simp [erase, read, Ne.symm hx]
    · simp only [erase, hk, if_false, read, ih]

/-! ## Inserting -/

theorem mem_of_mem_insert {m : Memory} {a : Nat} {b : Byte} {c : Host.Cell} (h : c ∈ insert m a b) :
    c = (a, b) ∨ c ∈ m := by
  induction m with
  | nil => simpa [insert] using h
  | cons d m ih =>
    obtain ⟨k, e⟩ := d
    simp only [insert] at h
    split at h
    · simpa using h
    · split at h
      · rcases List.mem_cons.1 h with h | h
        · exact .inl h
        · exact .inr (List.mem_cons_of_mem _ h)
      · rcases List.mem_cons.1 h with h | h
        · exact .inr (by simp [h])
        · exact (ih h).imp id (List.mem_cons_of_mem _)

theorem wf_insert {m : Memory} (a : Nat) {b : Byte} (hb : b ≠ 0#8) (h : wf m) : wf (insert m a b) := by
  induction m with
  | nil => exact wf_cons.2 ⟨by simp [above], hb, h⟩
  | cons d m ih =>
    obtain ⟨k, e⟩ := d
    obtain ⟨hab, he, hm⟩ := wf_cons.1 h
    simp only [insert]
    split
    · next hlt =>
      refine wf_cons.2 ⟨?_, hb, h⟩
      intro c hc
      rcases List.mem_cons.1 hc with rfl | hc
      · exact hlt
      · exact Nat.lt_trans hlt (hab c hc)
    · split
      · next _ heq => exact wf_cons.2 ⟨heq ▸ hab, hb, hm⟩
      · refine wf_cons.2 ⟨?_, he, ih hm⟩
        intro c hc
        rcases mem_of_mem_insert hc with rfl | hc
        · show k < a
          omega
        · exact hab c hc

theorem read_insert_same (m : Memory) (a : Nat) (b : Byte) : read (insert m a b) a = b := by
  induction m with
  | nil => simp [insert, read]
  | cons d m ih =>
    obtain ⟨k, e⟩ := d
    simp only [insert]
    split
    · simp [read]
    · split
      · simp [read]
      · next hne =>
        have : k ≠ a := fun h => hne h.symm
        simp [read, this, ih]

theorem read_insert_other (m : Memory) {a x : Nat} (b : Byte) (hx : x ≠ a) : read (insert m a b) x = read m x := by
  induction m with
  | nil => simp [insert, read, Ne.symm hx]
  | cons d m ih =>
    obtain ⟨k, e⟩ := d
    simp only [insert]
    split
    · simp [read, Ne.symm hx]
    · split
      · next heq =>
        subst heq
        simp [read, Ne.symm hx]
      · simp [read, ih]

/-! ## Writing -/

/-- A write keeps the canonical form. -/
theorem wf_write {m : Memory} (a : Nat) (b : Byte) (h : wf m) : wf (write m a b) := by
  unfold write
  split
  · exact wf_erase a h
  · next hb => exact wf_insert a hb h

/-- A write stays within the space. -/
theorem within_write {m : Memory} {size a : Nat} (b : Byte) (h : within m size) (ha : a < size) :
    within (write m a b) size := by
  intro c hc
  unfold write at hc
  split at hc
  · exact h c (mem_of_mem_erase hc)
  · rcases mem_of_mem_insert hc with rfl | hc
    · exact ha
    · exact h c hc

/-- A read after a write to the same place gives the byte written. -/
theorem read_write_same {m : Memory} (a : Nat) (b : Byte) (h : wf m) : read (write m a b) a = b := by
  unfold write
  split
  · next hb => rw [read_erase_same a h, hb]
  · exact read_insert_same m a b

/-- A write leaves every other place alone. -/
theorem read_write_other {m : Memory} {a x : Nat} (b : Byte) (hx : x ≠ a) : read (write m a b) x = read m x := by
  unfold write
  split
  · exact read_erase_other hx
  · exact read_insert_other m b hx

/-- Two memories in canonical form that read the same everywhere are equal data. -/
theorem eq_of_read {m n : Memory} (hm : wf m) (hn : wf n) (h : ∀ a, read m a = read n a) : m = n := by
  induction m generalizing n with
  | nil =>
    cases n with
    | nil => rfl
    | cons d n =>
      obtain ⟨k, e⟩ := d
      have hk := h k
      simp [read] at hk
      exact absurd hk.symm (wf_cons.1 hn).2.1
  | cons c m ih =>
    obtain ⟨k, b⟩ := c
    obtain ⟨hab, hb, hm'⟩ := wf_cons.1 hm
    cases n with
    | nil =>
      have hk := h k
      simp [read] at hk
      exact absurd hk hb
    | cons d n =>
      obtain ⟨l, e⟩ := d
      obtain ⟨hal, he, hn'⟩ := wf_cons.1 hn
      have hkl : k = l := by
        rcases Nat.lt_trichotomy k l with hlt | heq | hgt
        · have hk := h k
          rw [read_of_above (m := (l, e) :: n) (a := k) (x := k) (by
            intro c hc
            rcases List.mem_cons.1 hc with rfl | hc
            · exact hlt
            · exact Nat.lt_trans hlt (hal c hc)) (le_refl k)] at hk
          simp [read] at hk
          exact absurd hk hb
        · exact heq
        · have hl := h l
          rw [read_of_above (m := (k, b) :: m) (a := l) (x := l) (by
            intro c hc
            rcases List.mem_cons.1 hc with rfl | hc
            · exact hgt
            · exact Nat.lt_trans hgt (hab c hc)) (le_refl l)] at hl
          simp [read] at hl
          exact absurd hl.symm he
      subst hkl
      have hbe : b = e := by simpa [read] using h k
      subst hbe
      congr 1
      refine ih hm' hn' fun a => ?_
      by_cases ha : a ≤ k
      · rw [read_of_above hab ha, read_of_above hal ha]
      · have hne : k ≠ a := by omega
        simpa [read, hne] using h a

end Memory

end Sys2Proof.Machine
end

