-- ==== Sys2Proof/Laws/State.lean ====
section
/-! SUPPORT. One lemma per field per update of the state, true by rfl, so that no proof unfolds a record update. -/

namespace Sys2Proof.Machine

/-! ## `mapI2c` -/

@[simp] theorem mapI2c_cfg (s : State) (f : I2c → I2c) : (s.mapI2c f).cfg = s.cfg := rfl
@[simp] theorem mapI2c_i2c (s : State) (f : I2c → I2c) : (s.mapI2c f).i2c = f s.i2c := rfl
@[simp] theorem mapI2c_uart (s : State) (f : I2c → I2c) : (s.mapI2c f).uart = s.uart := rfl
@[simp] theorem mapI2c_hbuf (s : State) (f : I2c → I2c) : (s.mapI2c f).hbuf = s.hbuf := rfl
@[simp] theorem mapI2c_gie (s : State) (f : I2c → I2c) : (s.mapI2c f).gie = s.gie := rfl
@[simp] theorem mapI2c_busyIn (s : State) (f : I2c → I2c) : (s.mapI2c f).busyIn = s.busyIn := rfl
@[simp] theorem mapI2c_xferIn (s : State) (f : I2c → I2c) : (s.mapI2c f).xferIn = s.xferIn := rfl
@[simp] theorem mapI2c_initIn (s : State) (f : I2c → I2c) : (s.mapI2c f).initIn = s.initIn := rfl
@[simp] theorem mapI2c_drawn (s : State) (f : I2c → I2c) : (s.mapI2c f).drawn = s.drawn := rfl
@[simp] theorem mapI2c_sched (s : State) (f : I2c → I2c) : (s.mapI2c f).sched = s.sched := rfl
@[simp] theorem mapI2c_burst (s : State) (f : I2c → I2c) : (s.mapI2c f).burst = s.burst := rfl

/-! ## `mapUart` -/

@[simp] theorem mapUart_cfg (s : State) (f : Uart → Uart) : (s.mapUart f).cfg = s.cfg := rfl
@[simp] theorem mapUart_i2c (s : State) (f : Uart → Uart) : (s.mapUart f).i2c = s.i2c := rfl
@[simp] theorem mapUart_uart (s : State) (f : Uart → Uart) : (s.mapUart f).uart = f s.uart := rfl
@[simp] theorem mapUart_hbuf (s : State) (f : Uart → Uart) : (s.mapUart f).hbuf = s.hbuf := rfl
@[simp] theorem mapUart_gie (s : State) (f : Uart → Uart) : (s.mapUart f).gie = s.gie := rfl
@[simp] theorem mapUart_busyIn (s : State) (f : Uart → Uart) : (s.mapUart f).busyIn = s.busyIn := rfl
@[simp] theorem mapUart_xferIn (s : State) (f : Uart → Uart) : (s.mapUart f).xferIn = s.xferIn := rfl
@[simp] theorem mapUart_initIn (s : State) (f : Uart → Uart) : (s.mapUart f).initIn = s.initIn := rfl
@[simp] theorem mapUart_drawn (s : State) (f : Uart → Uart) : (s.mapUart f).drawn = s.drawn := rfl
@[simp] theorem mapUart_sched (s : State) (f : Uart → Uart) : (s.mapUart f).sched = s.sched := rfl
@[simp] theorem mapUart_burst (s : State) (f : Uart → Uart) : (s.mapUart f).burst = s.burst := rfl

/-! ## `writeHbuf` -/

@[simp] theorem writeHbuf_cfg (s : State) (a : Nat) (b : Byte) : (s.writeHbuf a b).cfg = s.cfg := rfl
@[simp] theorem writeHbuf_i2c (s : State) (a : Nat) (b : Byte) : (s.writeHbuf a b).i2c = s.i2c := rfl
@[simp] theorem writeHbuf_uart (s : State) (a : Nat) (b : Byte) : (s.writeHbuf a b).uart = s.uart := rfl
@[simp] theorem writeHbuf_hbuf (s : State) (a : Nat) (b : Byte) : (s.writeHbuf a b).hbuf = Memory.write s.hbuf a b := rfl
@[simp] theorem writeHbuf_gie (s : State) (a : Nat) (b : Byte) : (s.writeHbuf a b).gie = s.gie := rfl
@[simp] theorem writeHbuf_busyIn (s : State) (a : Nat) (b : Byte) : (s.writeHbuf a b).busyIn = s.busyIn := rfl
@[simp] theorem writeHbuf_xferIn (s : State) (a : Nat) (b : Byte) : (s.writeHbuf a b).xferIn = s.xferIn := rfl
@[simp] theorem writeHbuf_initIn (s : State) (a : Nat) (b : Byte) : (s.writeHbuf a b).initIn = s.initIn := rfl
@[simp] theorem writeHbuf_drawn (s : State) (a : Nat) (b : Byte) : (s.writeHbuf a b).drawn = s.drawn := rfl
@[simp] theorem writeHbuf_sched (s : State) (a : Nat) (b : Byte) : (s.writeHbuf a b).sched = s.sched := rfl
@[simp] theorem writeHbuf_burst (s : State) (a : Nat) (b : Byte) : (s.writeHbuf a b).burst = s.burst := rfl

/-! ## `emit` -/

@[simp] theorem emit_cfg (s : State) (e : BusEvent) : (emit e s).cfg = s.cfg := rfl
@[simp] theorem emit_i2c (s : State) (e : BusEvent) : (emit e s).i2c = { s.i2c with trace := s.i2c.trace ++ [e] } := rfl
@[simp] theorem emit_uart (s : State) (e : BusEvent) : (emit e s).uart = s.uart := rfl
@[simp] theorem emit_hbuf (s : State) (e : BusEvent) : (emit e s).hbuf = s.hbuf := rfl
@[simp] theorem emit_gie (s : State) (e : BusEvent) : (emit e s).gie = s.gie := rfl
@[simp] theorem emit_busyIn (s : State) (e : BusEvent) : (emit e s).busyIn = s.busyIn := rfl
@[simp] theorem emit_xferIn (s : State) (e : BusEvent) : (emit e s).xferIn = s.xferIn := rfl
@[simp] theorem emit_initIn (s : State) (e : BusEvent) : (emit e s).initIn = s.initIn := rfl
@[simp] theorem emit_drawn (s : State) (e : BusEvent) : (emit e s).drawn = s.drawn := rfl
@[simp] theorem emit_sched (s : State) (e : BusEvent) : (emit e s).sched = s.sched := rfl
@[simp] theorem emit_burst (s : State) (e : BusEvent) : (emit e s).burst = s.burst := rfl

/-! ## `setFsm` -/

@[simp] theorem setFsm_cfg (s : State) (f : Fsm) : (setFsm f s).cfg = s.cfg := rfl
@[simp] theorem setFsm_i2c (s : State) (f : Fsm) : (setFsm f s).i2c = { s.i2c with fsm := f } := rfl
@[simp] theorem setFsm_uart (s : State) (f : Fsm) : (setFsm f s).uart = s.uart := rfl
@[simp] theorem setFsm_hbuf (s : State) (f : Fsm) : (setFsm f s).hbuf = s.hbuf := rfl
@[simp] theorem setFsm_gie (s : State) (f : Fsm) : (setFsm f s).gie = s.gie := rfl
@[simp] theorem setFsm_busyIn (s : State) (f : Fsm) : (setFsm f s).busyIn = s.busyIn := rfl
@[simp] theorem setFsm_xferIn (s : State) (f : Fsm) : (setFsm f s).xferIn = s.xferIn := rfl
@[simp] theorem setFsm_initIn (s : State) (f : Fsm) : (setFsm f s).initIn = s.initIn := rfl
@[simp] theorem setFsm_drawn (s : State) (f : Fsm) : (setFsm f s).drawn = s.drawn := rfl
@[simp] theorem setFsm_sched (s : State) (f : Fsm) : (setFsm f s).sched = s.sched := rfl
@[simp] theorem setFsm_burst (s : State) (f : Fsm) : (setFsm f s).burst = s.burst := rfl

/-! ## `i2cReturn` -/

@[simp] theorem i2cReturn_cfg (s : State) (st : Status) : (i2cReturn st s).cfg = s.cfg := rfl
@[simp] theorem i2cReturn_i2c (s : State) (st : Status) : (i2cReturn st s).i2c = { s.i2c with resStatus := st.word s.cfg, busy := false } := rfl
@[simp] theorem i2cReturn_uart (s : State) (st : Status) : (i2cReturn st s).uart = s.uart := rfl
@[simp] theorem i2cReturn_hbuf (s : State) (st : Status) : (i2cReturn st s).hbuf = s.hbuf := rfl
@[simp] theorem i2cReturn_gie (s : State) (st : Status) : (i2cReturn st s).gie = s.gie := rfl
@[simp] theorem i2cReturn_busyIn (s : State) (st : Status) : (i2cReturn st s).busyIn = s.busyIn := rfl
@[simp] theorem i2cReturn_xferIn (s : State) (st : Status) : (i2cReturn st s).xferIn = s.xferIn := rfl
@[simp] theorem i2cReturn_initIn (s : State) (st : Status) : (i2cReturn st s).initIn = s.initIn := rfl
@[simp] theorem i2cReturn_drawn (s : State) (st : Status) : (i2cReturn st s).drawn = s.drawn := rfl
@[simp] theorem i2cReturn_sched (s : State) (st : Status) : (i2cReturn st s).sched = s.sched := rfl
@[simp] theorem i2cReturn_burst (s : State) (st : Status) : (i2cReturn st s).burst = s.burst := rfl

/-! ## `uartReturn` -/

@[simp] theorem uartReturn_cfg (s : State) (st : Status) : (uartReturn st s).cfg = s.cfg := rfl
@[simp] theorem uartReturn_i2c (s : State) (st : Status) : (uartReturn st s).i2c = s.i2c := rfl
@[simp] theorem uartReturn_uart (s : State) (st : Status) : (uartReturn st s).uart = { s.uart with resStatus := st.word s.cfg, busy := false, job := none } := rfl
@[simp] theorem uartReturn_hbuf (s : State) (st : Status) : (uartReturn st s).hbuf = s.hbuf := rfl
@[simp] theorem uartReturn_gie (s : State) (st : Status) : (uartReturn st s).gie = s.gie := rfl
@[simp] theorem uartReturn_busyIn (s : State) (st : Status) : (uartReturn st s).busyIn = s.busyIn := rfl
@[simp] theorem uartReturn_xferIn (s : State) (st : Status) : (uartReturn st s).xferIn = s.xferIn := rfl
@[simp] theorem uartReturn_initIn (s : State) (st : Status) : (uartReturn st s).initIn = s.initIn := rfl
@[simp] theorem uartReturn_drawn (s : State) (st : Status) : (uartReturn st s).drawn = s.drawn := rfl
@[simp] theorem uartReturn_sched (s : State) (st : Status) : (uartReturn st s).sched = s.sched := rfl
@[simp] theorem uartReturn_burst (s : State) (st : Status) : (uartReturn st s).burst = s.burst := rfl

/-! ## `goto` -/

@[simp] theorem goto_cfg (s : State) (l : Line) (j : Job) : (goto l j s).cfg = s.cfg := rfl
@[simp] theorem goto_i2c (s : State) (l : Line) (j : Job) : (goto l j s).i2c = s.i2c := rfl
@[simp] theorem goto_uart (s : State) (l : Line) (j : Job) : (goto l j s).uart = { s.uart with job := some { j with line := l } } := rfl
@[simp] theorem goto_hbuf (s : State) (l : Line) (j : Job) : (goto l j s).hbuf = s.hbuf := rfl
@[simp] theorem goto_gie (s : State) (l : Line) (j : Job) : (goto l j s).gie = s.gie := rfl
@[simp] theorem goto_busyIn (s : State) (l : Line) (j : Job) : (goto l j s).busyIn = s.busyIn := rfl
@[simp] theorem goto_xferIn (s : State) (l : Line) (j : Job) : (goto l j s).xferIn = s.xferIn := rfl
@[simp] theorem goto_initIn (s : State) (l : Line) (j : Job) : (goto l j s).initIn = s.initIn := rfl
@[simp] theorem goto_drawn (s : State) (l : Line) (j : Job) : (goto l j s).drawn = s.drawn := rfl
@[simp] theorem goto_sched (s : State) (l : Line) (j : Job) : (goto l j s).sched = s.sched := rfl
@[simp] theorem goto_burst (s : State) (l : Line) (j : Job) : (goto l j s).burst = s.burst := rfl

/-! ## `enterInterrupt` -/

@[simp] theorem enterInterrupt_cfg (s : State) : (enterInterrupt s).cfg = s.cfg := rfl
@[simp] theorem enterInterrupt_i2c (s : State) : (enterInterrupt s).i2c = s.i2c := rfl
@[simp] theorem enterInterrupt_uart (s : State) : (enterInterrupt s).uart = s.uart := rfl
@[simp] theorem enterInterrupt_hbuf (s : State) : (enterInterrupt s).hbuf = s.hbuf := rfl
@[simp] theorem enterInterrupt_gie (s : State) : (enterInterrupt s).gie = false := rfl
@[simp] theorem enterInterrupt_busyIn (s : State) : (enterInterrupt s).busyIn = s.busyIn := rfl
@[simp] theorem enterInterrupt_xferIn (s : State) : (enterInterrupt s).xferIn = s.xferIn := rfl
@[simp] theorem enterInterrupt_initIn (s : State) : (enterInterrupt s).initIn = s.initIn := rfl
@[simp] theorem enterInterrupt_drawn (s : State) : (enterInterrupt s).drawn = s.drawn := rfl
@[simp] theorem enterInterrupt_sched (s : State) : (enterInterrupt s).sched = s.sched := rfl
@[simp] theorem enterInterrupt_burst (s : State) : (enterInterrupt s).burst = s.burst := rfl

/-! ## `returnFromInterrupt` -/

@[simp] theorem returnFromInterrupt_cfg (s : State) : (returnFromInterrupt s).cfg = s.cfg := rfl
@[simp] theorem returnFromInterrupt_i2c (s : State) : (returnFromInterrupt s).i2c = s.i2c := rfl
@[simp] theorem returnFromInterrupt_uart (s : State) : (returnFromInterrupt s).uart = s.uart := rfl
@[simp] theorem returnFromInterrupt_hbuf (s : State) : (returnFromInterrupt s).hbuf = s.hbuf := rfl
@[simp] theorem returnFromInterrupt_gie (s : State) : (returnFromInterrupt s).gie = true := rfl
@[simp] theorem returnFromInterrupt_busyIn (s : State) : (returnFromInterrupt s).busyIn = s.busyIn := rfl
@[simp] theorem returnFromInterrupt_xferIn (s : State) : (returnFromInterrupt s).xferIn = s.xferIn := rfl
@[simp] theorem returnFromInterrupt_initIn (s : State) : (returnFromInterrupt s).initIn = s.initIn := rfl
@[simp] theorem returnFromInterrupt_drawn (s : State) : (returnFromInterrupt s).drawn = s.drawn := rfl
@[simp] theorem returnFromInterrupt_sched (s : State) : (returnFromInterrupt s).sched = s.sched := rfl
@[simp] theorem returnFromInterrupt_burst (s : State) : (returnFromInterrupt s).burst = s.burst := rfl

/-! ## `atomically`: `GIE` is what it was (R72) -/

@[simp] theorem atomically_cfg (f : State → State) (s : State) : (atomically f s).cfg = (f { s with gie := false }).cfg := rfl
@[simp] theorem atomically_i2c (f : State → State) (s : State) : (atomically f s).i2c = (f { s with gie := false }).i2c := rfl
@[simp] theorem atomically_uart (f : State → State) (s : State) : (atomically f s).uart = (f { s with gie := false }).uart := rfl
@[simp] theorem atomically_hbuf (f : State → State) (s : State) : (atomically f s).hbuf = (f { s with gie := false }).hbuf := rfl
@[simp] theorem atomically_gie (f : State → State) (s : State) : (atomically f s).gie = s.gie := rfl
@[simp] theorem atomically_busyIn (f : State → State) (s : State) : (atomically f s).busyIn = (f { s with gie := false }).busyIn := rfl
@[simp] theorem atomically_xferIn (f : State → State) (s : State) : (atomically f s).xferIn = (f { s with gie := false }).xferIn := rfl
@[simp] theorem atomically_initIn (f : State → State) (s : State) : (atomically f s).initIn = (f { s with gie := false }).initIn := rfl
@[simp] theorem atomically_drawn (f : State → State) (s : State) : (atomically f s).drawn = (f { s with gie := false }).drawn := rfl
@[simp] theorem atomically_sched (f : State → State) (s : State) : (atomically f s).sched = (f { s with gie := false }).sched := rfl
@[simp] theorem atomically_burst (f : State → State) (s : State) : (atomically f s).burst = (f { s with gie := false }).burst := rfl

end Sys2Proof.Machine
end

