-- ==== Sys2Proof/Laws/Ops.lean ====
section
/-! SUPPORT. One lemma per shared operation, saying once everything it can do: sequencing, the environment's answers, the command
frames, the ring arithmetic (spec 42_uart_ring_and_handlers.md R160, R161), the peripheral. -/

namespace Sys2Proof.Machine

/-! ## Sequencing -/

@[simp] theorem andThen_next (s : State) (f : State → Out) : andThen (.next s) f = f s := rfl

@[simp] theorem andThen_fault (e : Fault) (f : State → Out) : andThen (.fault e) f = .fault e := rfl

@[simp] theorem andThen_refused (r : Refusal) (f : State → Out) : andThen (.refused r) f = .refused r := rfl

theorem andThen_eq_next {o : Out} {f : State → Out} {t : State} :
    andThen o f = .next t ↔ ∃ s, o = .next s ∧ f s = .next t := by
  cases o <;> simp

theorem andThen_eq_fault {o : Out} {f : State → Out} {e : Fault} :
    andThen o f = .fault e ↔ o = .fault e ∨ ∃ s, o = .next s ∧ f s = .fault e := by
  cases o <;> simp

theorem andThen_assoc (o : Out) (f g : State → Out) :
    andThen (andThen o f) g = andThen o fun s => andThen (f s) g := by
  cases o <;> rfl

/-! ## The environment's answers -/

@[simp] theorem askBusyClear_cons {s : State} {b : Bool} {rest : List Bool} (h : s.busyIn = b :: rest) :
    askBusyClear s = (b, { s with busyIn := rest }) := by simp [askBusyClear, h]

@[simp] theorem askXfer_cons {s : State} {r : Xfer} {rest : List Xfer} (h : s.xferIn = r :: rest) :
    askXfer s = (r, { s with xferIn := rest }) := by simp [askXfer, h]

@[simp] theorem askInitOk_cons {s : State} {b : Bool} {rest : List Bool} (h : s.initIn = b :: rest) :
    askInitOk s = (b, { s with initIn := rest }) := by simp [askInitOk, h]

/-- An answer of `env.busy_clear()` changes only the answers to come and the count of free values. -/
theorem askBusyClear_state (s : State) :
    ∃ l n, (askBusyClear s).2 = { s with busyIn := l, drawn := n } := by
  unfold askBusyClear
  split
  · exact ⟨_, s.drawn, rfl⟩
  · exact ⟨s.busyIn, _, rfl⟩

/-- An answer of `env.xfer()` changes only the answers to come and the count of free values. -/
theorem askXfer_state (s : State) :
    ∃ l n, (askXfer s).2 = { s with xferIn := l, drawn := n } := by
  unfold askXfer
  split
  · exact ⟨_, s.drawn, rfl⟩
  · exact ⟨s.xferIn, _, rfl⟩

/-- An answer of `env.init_ok()` changes only the answers to come and the count of free values. -/
theorem askInitOk_state (s : State) :
    ∃ l n, (askInitOk s).2 = { s with initIn := l, drawn := n } := by
  unfold askInitOk
  split
  · exact ⟨_, s.drawn, rfl⟩
  · exact ⟨s.initIn, _, rfl⟩

/-! ## Commands -/

/-- An I2C command that answers a next state was admitted, and that state is its operation's, returned (R96, R247). -/
theorem i2cCommand_eq_next {refusal : Option Refusal} {body : State → Status × State} {s t : State} :
    i2cCommand refusal body s = .next t ↔
      s.i2c.busy = false ∧ refusal = none ∧
      t = i2cReturn (body (s.mapI2c fun d => { d with busy := true })).1
        (body (s.mapI2c fun d => { d with busy := true })).2 := by
  unfold i2cCommand
  cases hb : s.i2c.busy <;> cases refusal <;> simp [eq_comm]

theorem i2cCommand_ne_fault {refusal : Option Refusal} {body : State → Status × State} {s : State} {e : Fault} :
    i2cCommand refusal body s ≠ .fault e := by
  unfold i2cCommand
  cases hb : s.i2c.busy <;> cases refusal <;> simp

/-- A UART command that does not answer with a refusal was admitted, and runs its first lines (R96, R180, R247). -/
theorem uartCommand_eq {refusal : Option Refusal} {op : UOp} {first : Line} {b : Byte} {s : State}
    (hb : s.uart.busy = false) (hr : refusal = none) :
    uartCommand refusal op first b s =
      runLines s.burst (s.mapUart fun u => { u with busy := true, job := some (jobAt op first b u) }) := by
  simp [uartCommand, hb, hr]

theorem uartCommand_eq_next {refusal : Option Refusal} {op : UOp} {first : Line} {b : Byte} {s t : State} :
    uartCommand refusal op first b s = .next t ↔
      s.uart.busy = false ∧ refusal = none ∧
      runLines s.burst (s.mapUart fun u => { u with busy := true, job := some (jobAt op first b u) }) = .next t := by
  unfold uartCommand
  cases hb : s.uart.busy <;> cases refusal <;> simp

@[simp] theorem needsI2cOpen_eq_none {s : State} : needsI2cOpen s = none ↔ s.i2c.opened = true := by
  cases h : s.i2c.opened <;> simp [needsI2cOpen, h]

@[simp] theorem needsUartOpen_eq_none {s : State} : needsUartOpen s = none ↔ s.uart.opened = true := by
  cases h : s.uart.opened <;> simp [needsUartOpen, h]

/-- An interrupt entry point that answers a next state was pending with `GIE` = 1, and `GIE` is 1 after it (R216, R219). -/
theorem takeInterrupt_eq_next {c : BitVec 1} {entry : State → Out} {s t : State} :
    takeInterrupt c entry s = .next t ↔
      s.gie = true ∧ causePending c s.uart = true ∧
      ∃ u, entry (enterInterrupt s) = .next u ∧ t = returnFromInterrupt u := by
  unfold takeInterrupt
  cases hg : s.gie <;> cases hp : causePending c s.uart <;> simp [andThen_eq_next]
  exact ⟨fun ⟨u, hu, h⟩ => ⟨u, hu, h.symm⟩, fun ⟨u, hu, h⟩ => ⟨u, hu, h.symm⟩⟩

/-! ## Lines -/

@[simp] theorem runLines_zero (s : State) : runLines 0 s = .next s := rfl

theorem runLines_none {s : State} (h : s.uart.job = none) (n : Nat) : runLines n s = .next s := by
  cases n <;> simp [runLines, h]

theorem runLines_some {s : State} {j : Job} (h : s.uart.job = some j) (n : Nat) :
    runLines (n + 1) s = andThen (lineStep j s) (runLines n) := by simp [runLines, h]

/-- What holds of a state and is kept by every line holds after any number of lines. -/
theorem runLines_induct (P : State → Prop)
    (keep : ∀ s t j, P s → s.uart.job = some j → lineStep j s = .next t → P t) :
    ∀ (n : Nat) {s t : State}, P s → runLines n s = .next t → P t
  | 0, s, t, hs, h => by
    obtain rfl : s = t := by simpa using h
    exact hs
  | n + 1, s, t, hs, h => by
    cases hj : s.uart.job with
    | none =>
      rw [runLines_none hj] at h
      obtain rfl : s = t := by simpa using h
      exact hs
    | some j =>
      rw [runLines_some hj, andThen_eq_next] at h
      obtain ⟨u, hu, hrest⟩ := h
      exact runLines_induct P keep n (keep s u j hs hj hu) hrest

/-! ## Ring arithmetic (R160, R161) -/

theorem ringNext_lt {n i : Nat} (hn : 0 < n) : ringNext n i < n := Nat.mod_lt _ hn

theorem ringCount_lt {n h t : Nat} (hn : 0 < n) : ringCount n h t < n := Nat.mod_lt _ hn

/-- `next` in closed form, for an index below the capacity. -/
theorem ringNext_eq {n i : Nat} (hi : i < n) : ringNext n i = if i + 1 = n then 0 else i + 1 := by
  unfold ringNext
  split
  · next h => rw [h, Nat.mod_self]
  · next h => exact Nat.mod_eq_of_lt (by omega)

/-- `count` in closed form, for indices below the capacity. -/
theorem ringCount_eq {n h t : Nat} (hh : h < n) (ht : t < n) : ringCount n h t = if t ≤ h then h - t else n + h - t := by
  unfold ringCount
  split
  · next hle =>
    rw [show n + h - t = h - t + n by omega, Nat.add_mod_right]
    exact Nat.mod_eq_of_lt (by omega)
  · next hgt => exact Nat.mod_eq_of_lt (by omega)

/-- The next head is the tail only when the ring is full; a consumer that moves the tail of a non-empty ring never moves it onto
the next head (R169). -/
theorem ringNext_ne_of_ne {n h t : Nat} (hh : h < n) (ht : t < n) (hne : h ≠ t) : ringNext n h ≠ ringNext n t := by
  rw [ringNext_eq hh, ringNext_eq ht]
  split <;> split <;> omega

/-! ## Slots -/

theorem slotRead_eq {n k : Nat} {r : Ring} {f : Byte → Out} (h : k < n) : slotRead n k r f = f (Memory.read r.buf k) := by
  simp [slotRead, h]

theorem slotWrite_eq {n k : Nat} {b : Byte} {r : Ring} {f : Ring → Out} (h : k < n) :
    slotWrite n k b r f = f { r with buf := Memory.write r.buf k b } := by simp [slotWrite, h]

theorem slotRead_eq_next {n k : Nat} {r : Ring} {f : Byte → Out} {t : State} :
    slotRead n k r f = .next t ↔ k < n ∧ f (Memory.read r.buf k) = .next t := by
  unfold slotRead
  split <;> simp_all

theorem slotWrite_eq_next {n k : Nat} {b : Byte} {r : Ring} {f : Ring → Out} {t : State} :
    slotWrite n k b r f = .next t ↔ k < n ∧ f { r with buf := Memory.write r.buf k b } = .next t := by
  unfold slotWrite
  split <;> simp_all

/-! ## The peripheral -/

@[simp] theorem readData_some {s : State} {b : Byte} {e : HwFlags} (h : s.uart.rxHold = some (b, e)) :
    readData s = (b, s.mapUart fun u => { u with rxHold := none }) := by simp [readData, h]

/-- A write of `DATA` that answers a next state found the hold stage empty and filled it (R41). -/
theorem writeData_eq_next {b : Byte} {s t : State} :
    writeData b s = .next t ↔ s.uart.txHold = none ∧ t = s.mapUart fun u => { u with txHold := some b } := by
  unfold writeData
  cases h : s.uart.txHold <;> simp [eq_comm]

/-- `HW_RX` is enabled, with its effect, or changes nothing (R40). -/
theorem hwRx_cases (b : Byte) (e : HwFlags) (s : State) :
    (s.uart.ctrl.rxEn = true ∧ s.uart.rxHold = none ∧
      hwRx b e s = s.mapUart fun u => { u with rxHold := some (b, e), wireIn := u.wireIn ++ [(b, e)] }) ∨
    hwRx b e s = s := by
  unfold hwRx
  split
  · next h =>
    simp only [Bool.and_eq_true, Option.isNone_iff_eq_none] at h
    exact .inl ⟨h.1, h.2, rfl⟩
  · exact .inr rfl

/-- `HW_TX_TAKE` is enabled, with its effect, or changes nothing (R42). -/
theorem hwTxTake_cases (s : State) :
    (∃ b, s.uart.txHold = some b ∧ s.uart.txShift = none ∧ s.uart.ctrl.txEn = true ∧
      hwTxTake s = s.mapUart fun u => { u with txShift := some b, txHold := none }) ∨
    hwTxTake s = s := by
  unfold hwTxTake
  split
  · next b h1 h2 =>
    split
    · next h3 => exact .inl ⟨b, h1, h2, h3, rfl⟩
    · exact .inr rfl
  · exact .inr rfl

/-- `HW_TX_DONE` is enabled, with its effect, or changes nothing (R42). -/
theorem hwTxDone_cases (s : State) :
    (∃ b, s.uart.txShift = some b ∧
      hwTxDone s = s.mapUart fun u => { u with wireOut := u.wireOut ++ [b], txShift := none }) ∨
    (s.uart.txShift = none ∧ hwTxDone s = s) := by
  unfold hwTxDone
  split
  · next b h => exact .inl ⟨b, h, rfl⟩
  · next h => exact .inr ⟨h, rfl⟩

end Sys2Proof.Machine
end

