-- ==== Sys2Proof/Laws/I2c.lean ====
section
/-! SUPPORT. What the I2C primitives and operations can do (spec 40_i2c_primitives.md R112 to R120, 41_i2c_operations.md R140 to
R145): what they leave alone, how the trace grows, and that the trace stays well formed. -/

namespace Sys2Proof.Machine

/-! ## What no I2C operation touches (R121, R231) -/

/-- Everything outside the I2C engine, the host buffer and the environment's answers is unchanged; so are the engine's identity,
command, operand and status registers; and the trace only grew (R30). -/
structure I2cKeeps (s t : State) : Prop where
  cfg : t.cfg = s.cfg
  uart : t.uart = s.uart
  gie : t.gie = s.gie
  sched : t.sched = s.sched
  burst : t.burst = s.burst
  id : t.i2c.id = s.i2c.id
  cw : t.i2c.cw = s.i2c.cw
  oprCount : t.i2c.oprCount = s.i2c.oprCount
  oprBuf : t.i2c.oprBuf = s.i2c.oprBuf
  oprValue : t.i2c.oprValue = s.i2c.oprValue
  resStatus : t.i2c.resStatus = s.i2c.resStatus
  busy : t.i2c.busy = s.i2c.busy
  trace : s.i2c.trace <+: t.i2c.trace

theorem I2cKeeps.refl (s : State) : I2cKeeps s s :=
  ⟨rfl, rfl, rfl, rfl, rfl, rfl, rfl, rfl, rfl, rfl, rfl, rfl, List.prefix_refl _⟩

theorem I2cKeeps.trans {s t u : State} (h : I2cKeeps s t) (k : I2cKeeps t u) : I2cKeeps s u :=
  ⟨k.cfg.trans h.cfg, k.uart.trans h.uart, k.gie.trans h.gie, k.sched.trans h.sched, k.burst.trans h.burst,
   k.id.trans h.id, k.cw.trans h.cw, k.oprCount.trans h.oprCount, k.oprBuf.trans h.oprBuf,
   k.oprValue.trans h.oprValue, k.resStatus.trans h.resStatus, k.busy.trans h.busy, h.trace.trans k.trace⟩

theorem keeps_askBusyClear (s : State) : I2cKeeps s (askBusyClear s).2 := by
  obtain ⟨l, n, h⟩ := askBusyClear_state s
  rw [h]
  exact ⟨rfl, rfl, rfl, rfl, rfl, rfl, rfl, rfl, rfl, rfl, rfl, rfl, List.prefix_refl _⟩

theorem keeps_askXfer (s : State) : I2cKeeps s (askXfer s).2 := by
  obtain ⟨l, n, h⟩ := askXfer_state s
  rw [h]
  exact ⟨rfl, rfl, rfl, rfl, rfl, rfl, rfl, rfl, rfl, rfl, rfl, rfl, List.prefix_refl _⟩

theorem keeps_askInitOk (s : State) : I2cKeeps s (askInitOk s).2 := by
  obtain ⟨l, n, h⟩ := askInitOk_state s
  rw [h]
  exact ⟨rfl, rfl, rfl, rfl, rfl, rfl, rfl, rfl, rfl, rfl, rfl, rfl, List.prefix_refl _⟩

theorem keeps_emit (e : BusEvent) (s : State) : I2cKeeps s (emit e s) :=
  ⟨rfl, rfl, rfl, rfl, rfl, rfl, rfl, rfl, rfl, rfl, rfl, rfl, ⟨[e], rfl⟩⟩

theorem keeps_setFsm (f : Fsm) (s : State) : I2cKeeps s (setFsm f s) :=
  ⟨rfl, rfl, rfl, rfl, rfl, rfl, rfl, rfl, rfl, rfl, rfl, rfl, List.prefix_refl _⟩

theorem keeps_writeSpace (sp : Space) (a : Nat) (b : Byte) (s : State) : I2cKeeps s (writeSpace sp a b s) := by
  cases sp <;> exact ⟨rfl, rfl, rfl, rfl, rfl, rfl, rfl, rfl, rfl, rfl, rfl, rfl, List.prefix_refl _⟩

theorem keeps_countDown (s : State) : I2cKeeps s (countDown s) :=
  ⟨rfl, rfl, rfl, rfl, rfl, rfl, rfl, rfl, rfl, rfl, rfl, rfl, List.prefix_refl _⟩

/-! ## The answers one by one -/

/-- `waitBusy` in one equation (R112). -/
theorem waitBusy_eq (s : State) :
    waitBusy s = (if (askBusyClear s).1 then okStatus 0#16 else ⟨.busTimeout, 0#16⟩, (askBusyClear s).2) := rfl

/-- `sendByte` in one equation (R115): the failing case also enters `Error`. -/
theorem sendByte_eq (b : Byte) (s : State) :
    sendByte b s =
      (if evalTx (askXfer s).1 = .ok then okStatus 1#16 else ⟨evalTx (askXfer s).1, 0#16⟩,
       if evalTx (askXfer s).1 = .ok then emit (.txb b .ok) (askXfer s).2
       else setFsm .error (emit (.txb b (resOf (evalTx (askXfer s).1))) (askXfer s).2)) := by
  unfold sendByte
  by_cases h : evalTx (askXfer s).1 = .ok <;> simp [h, resOf]

/-- `receiveByte` in one equation (R116). -/
theorem receiveByte_eq (ack : Bool) (s : State) :
    receiveByte ack s =
      (if evalRx (askXfer s).1 = .ok then okStatus (0#8 ++ (askXfer s).1.data) else ⟨evalRx (askXfer s).1, 0#16⟩,
       if evalRx (askXfer s).1 = .ok then emit (.rxb (askXfer s).1.data ack .ok) (askXfer s).2
       else setFsm .error (emit (.rxb (askXfer s).1.data ack (resOf (evalRx (askXfer s).1))) (askXfer s).2)) := by
  unfold receiveByte
  by_cases h : evalRx (askXfer s).1 = .ok <;> simp [h, resOf]

/-- The address byte in one equation (R113 lines 5 to 7). -/
theorem sendAddress_eq (addr : BitVec 7) (rw : Bool) (s : State) :
    sendAddress addr rw s =
      (if evalTx (askXfer s).1 = .ok then okStatus 0#16 else ⟨evalTx (askXfer s).1, 0#16⟩,
       if evalTx (askXfer s).1 = .ok then setFsm .transferringData (emit (.txa addr rw .ok) (askXfer s).2)
       else setFsm .error (emit (.txa addr rw (resOf (evalTx (askXfer s).1))) (askXfer s).2)) := by
  unfold sendAddress
  by_cases h : evalTx (askXfer s).1 = .ok <;> simp [h, resOf]

/-- `start` when its start condition goes well: the address byte follows (R113). -/
theorem start_ok {addr : BitVec 7} {rw : Bool} {s : State} (h : evalCond (askXfer (startBegun addr rw s)).1 = .ok) :
    start addr rw s = sendAddress addr rw (emit (.start (repeated s) .ok) (askXfer (startBegun addr rw s)).2) := by
  unfold start
  simp [h, resOf]

/-- `start` when its start condition fails: `Error`, and no address byte (R113). -/
theorem start_fail {addr : BitVec 7} {rw : Bool} {s : State} (h : evalCond (askXfer (startBegun addr rw s)).1 ≠ .ok) :
    start addr rw s =
      (⟨evalCond (askXfer (startBegun addr rw s)).1, 0#16⟩,
       setFsm .error (emit (.start (repeated s) (resOf (evalCond (askXfer (startBegun addr rw s)).1)))
         (askXfer (startBegun addr rw s)).2)) := by
  unfold start
  simp [h]

theorem keeps_waitBusy (s : State) : I2cKeeps s (waitBusy s).2 := keeps_askBusyClear s

theorem keeps_sendByte (b : Byte) (s : State) : I2cKeeps s (sendByte b s).2 := by
  rw [sendByte_eq]
  dsimp only
  split
  · exact (keeps_askXfer s).trans (keeps_emit _ _)
  · exact ((keeps_askXfer s).trans (keeps_emit _ _)).trans (keeps_setFsm _ _)

theorem keeps_receiveByte (ack : Bool) (s : State) : I2cKeeps s (receiveByte ack s).2 := by
  rw [receiveByte_eq]
  dsimp only
  split
  · exact (keeps_askXfer s).trans (keeps_emit _ _)
  · exact ((keeps_askXfer s).trans (keeps_emit _ _)).trans (keeps_setFsm _ _)

theorem keeps_startBegun (addr : BitVec 7) (rw : Bool) (s : State) : I2cKeeps s (startBegun addr rw s) :=
  ⟨rfl, rfl, rfl, rfl, rfl, rfl, rfl, rfl, rfl, rfl, rfl, rfl, List.prefix_refl _⟩

theorem keeps_sendAddress (addr : BitVec 7) (rw : Bool) (s : State) : I2cKeeps s (sendAddress addr rw s).2 := by
  rw [sendAddress_eq]
  dsimp only
  split <;> exact ((keeps_askXfer s).trans (keeps_emit _ _)).trans (keeps_setFsm _ _)

theorem keeps_start (addr : BitVec 7) (rw : Bool) (s : State) : I2cKeeps s (start addr rw s).2 := by
  have h1 := fun r => ((keeps_startBegun addr rw s).trans (keeps_askXfer _)).trans (keeps_emit (.start (repeated s) r) _)
  by_cases h : evalCond (askXfer (startBegun addr rw s)).1 = .ok
  · rw [start_ok h]
    exact (h1 _).trans (keeps_sendAddress _ _ _)
  · rw [start_fail h]
    exact (h1 _).trans (keeps_setFsm _ _)

theorem keeps_stop (s : State) : I2cKeeps s (stop s).2 :=
  ((keeps_setFsm _ s).trans (keeps_emit _ _)).trans (keeps_setFsm _ _)

theorem keeps_abort (c : StClass) (n : BitVec 16) (s : State) : I2cKeeps s (abort c n s).2 := by
  unfold abort
  dsimp only
  split
  · exact I2cKeeps.refl s
  · exact keeps_stop s

/-- A sequence keeps what its first primitive and its continuation keep. -/
theorem keeps_orAbort {s : State} {n : BitVec 16} {r : Status × State} {go : Status → State → Status × State}
    (hr : I2cKeeps s r.2) (hgo : ∀ st t, I2cKeeps t (go st t).2) : I2cKeeps s (orAbort n r go).2 := by
  unfold orAbort
  split
  · exact hr.trans (hgo _ _)
  · exact hr.trans (keeps_abort _ _ _)

theorem keeps_sendLoop (sp : Space) (buf : Nat) : ∀ (rem n : Nat) (s : State), I2cKeeps s (sendLoop sp buf rem n s).2
  | 0, _, s => keeps_stop s
  | rem + 1, n, s =>
    keeps_orAbort (keeps_sendByte _ s) fun _ t => (keeps_countDown t).trans (keeps_sendLoop sp buf rem (n + 1) _)

theorem keeps_receiveLoop (sp : Space) (buf : Nat) (stopComm : Bool) :
    ∀ (rem n : Nat) (s : State), I2cKeeps s (receiveLoop sp buf stopComm rem n s).2
  | 0, _, s => by
    cases stopComm
    · exact I2cKeeps.refl s
    · exact keeps_stop s
  | rem + 1, n, s =>
    keeps_orAbort (keeps_receiveByte _ s) fun _ t =>
      ((keeps_writeSpace _ _ _ t).trans (keeps_countDown _)).trans
        (keeps_receiveLoop sp buf stopComm rem (n + 1) _)

theorem keeps_writeBuffer (sp : Space) (addr : BitVec 7) (reg : Byte) (buf : Nat) (count : BitVec 16) (s : State) :
    I2cKeeps s (writeBuffer sp addr reg buf count s).2 := by
  refine keeps_orAbort ?_ fun _ t => keeps_orAbort (keeps_start _ _ t) fun _ t =>
    keeps_orAbort (keeps_sendByte _ t) fun _ t => keeps_sendLoop _ _ _ _ t
  exact (⟨rfl, rfl, rfl, rfl, rfl, rfl, rfl, rfl, rfl, rfl, rfl, rfl, List.prefix_refl _⟩ :
    I2cKeeps s (s.mapI2c fun d => { d with tAddr := addr, tReg := reg, tDir := false, tRem := count })).trans
    (keeps_waitBusy _)

theorem keeps_readBuffer (sp : Space) (addr : BitVec 7) (reg : Byte) (buf : Nat) (count : BitVec 16) (s : State) :
    I2cKeeps s (readBuffer sp addr reg buf count s).2 := by
  refine keeps_orAbort ?_ fun _ t => keeps_orAbort (keeps_start _ _ t) fun _ t =>
    keeps_orAbort (keeps_sendByte _ t) fun _ t => keeps_orAbort (keeps_start _ _ t) fun _ t =>
    keeps_receiveLoop _ _ _ _ _ t
  exact (⟨rfl, rfl, rfl, rfl, rfl, rfl, rfl, rfl, rfl, rfl, rfl, rfl, List.prefix_refl _⟩ :
    I2cKeeps s (s.mapI2c fun d => { d with tAddr := addr, tReg := reg, tRem := count })).trans (keeps_waitBusy _)

theorem keeps_readRaw (addr : BitVec 7) (buf : Nat) (count : BitVec 16) (stopComm : Bool) (s : State) :
    I2cKeeps s (readRaw addr buf count stopComm s).2 := by
  refine keeps_orAbort ?_ fun _ t => keeps_orAbort (keeps_start _ _ t) fun _ t => keeps_receiveLoop _ _ _ _ _ t
  exact (⟨rfl, rfl, rfl, rfl, rfl, rfl, rfl, rfl, rfl, rfl, rfl, rfl, List.prefix_refl _⟩ :
    I2cKeeps s (s.mapI2c fun d => { d with tAddr := addr, tRem := count })).trans (keeps_waitBusy _)

theorem keeps_scanLoop : ∀ (k a n : Nat) (s : State), I2cKeeps s (scanLoop k a n s).2
  | 0, _, _, s => I2cKeeps.refl s
  | k + 1, a, n, s =>
    keeps_orAbort (keeps_waitBusy s) fun _ t => by
      have h := (keeps_start (BitVec.ofNat 7 a) false t).trans (keeps_stop _)
      dsimp only
      split
      · exact h.trans (keeps_scanLoop k (a + 1) (n + 1) _)
      · split
        · exact h.trans (keeps_scanLoop k (a + 1) n _)
        · exact h

theorem keeps_typedResult (size : Byte) (st : Status) (s : State) : I2cKeeps s (typedResult size st s) := by
  unfold typedResult
  split <;> exact ⟨rfl, rfl, rfl, rfl, rfl, rfl, rfl, rfl, rfl, rfl, rfl, rfl, List.prefix_refl _⟩

theorem keeps_writeTyped (addr : BitVec 7) (reg size : Byte) (s : State) :
    I2cKeeps s (writeTyped addr reg size s).2 :=
  (⟨rfl, rfl, rfl, rfl, rfl, rfl, rfl, rfl, rfl, rfl, rfl, rfl, List.prefix_refl _⟩ : I2cKeeps s (s.mapI2c fun d =>
    { d with scratch := stageTyped s.cfg.wireOrder size.toNat d.oprValue size.toNat d.scratch })).trans
    (keeps_writeBuffer _ _ _ _ _ _)

theorem keeps_readTyped (addr : BitVec 7) (reg size : Byte) (s : State) :
    I2cKeeps s (readTyped addr reg size s).2 :=
  (keeps_readBuffer _ _ _ _ _ s).trans (keeps_typedResult _ _ _)

theorem keeps_i2cOpen (s : State) : I2cKeeps s (i2cOpen s).2 := by
  unfold i2cOpen
  split
  · exact I2cKeeps.refl s
  · dsimp only
    split
    · exact ((keeps_askInitOk s).trans (keeps_emit _ _)).trans
        ⟨rfl, rfl, rfl, rfl, rfl, rfl, rfl, rfl, rfl, rfl, rfl, rfl, List.prefix_refl _⟩
    · exact keeps_askInitOk s

theorem keeps_i2cClose (s : State) : I2cKeeps s (i2cClose s).2 := by
  unfold i2cClose
  split
  · exact (keeps_emit _ s).trans ⟨rfl, rfl, rfl, rfl, rfl, rfl, rfl, rfl, rfl, rfl, rfl, rfl, List.prefix_refl _⟩
  · exact I2cKeeps.refl s

theorem keeps_i2cReset (s : State) : I2cKeeps s (i2cReset s).2 := (keeps_i2cClose s).trans (keeps_i2cOpen _)

/-! ## The trace (R120) -/

theorem readTrace_snoc (l : List BusEvent) (e : BusEvent) :
    readTrace (l ++ [e]) = (readTrace l).bind fun t => traceStep t e := by
  simp [readTrace, List.foldl_append]

end Sys2Proof.Machine
end

