-- ==== Sys2Proof/Laws/PerInstr.lean ====
section
/-! SUPPORT. One statement per instruction: its encoding lies in its row of spec/opcode_table.json. -/

namespace Sys2Proof.Laws

/-- A row of spec/opcode_table.json: its format (`CW32` of one of the two engines, or `IRQ`), `match` and `mask`. -/
inductive Row where
  | i2c (fixed mask : Word)
  | uart (fixed mask : Word)
  | irq (fixed : BitVec 1)
deriving DecidableEq, Repr

/-- What is presented lies in the row: the right engine, and the row's fixed bits as the table has them. -/
def Row.holds : Row → Presented → Prop
  | .i2c fixed mask, .i2cCommand w => w &&& mask = fixed
  | .uart fixed mask, .uartCommand w => w &&& mask = fixed
  | .irq fixed, .cause c => c = fixed
  | _, _ => False

/-- The row of each instruction, `match` and `mask` copied from the table. -/
def opcodeRow : Instr → Row
  | .i2cOpen => .i2c 0x01000000#32 0xFFFFFFFF#32
  | .i2cClose => .i2c 0x02000000#32 0xFFFFFFFF#32
  | .i2cIsopen => .i2c 0x03000000#32 0xFFFFFFFF#32
  | .i2cReset => .i2c 0x04000000#32 0xFFFFFFFF#32
  | .i2cScan => .i2c 0x05000000#32 0xFFFFFFFF#32
  | .i2cWrite _ _ => .i2c 0x06000000#32 0xFF8000FF#32
  | .i2cRead _ _ => .i2c 0x07000000#32 0xFF8000FF#32
  | .i2cReadraw _ _ => .i2c 0x08000000#32 0xFF00FFFF#32
  | .i2cWritet _ _ _ => .i2c 0x09000000#32 0xFF800000#32
  | .i2cReadt _ _ _ => .i2c 0x0A000000#32 0xFF800000#32
  | .i2cWaitbusy => .i2c 0x10000000#32 0xFFFFFFFF#32
  | .i2cStart _ _ => .i2c 0x11000000#32 0xFF00FFFF#32
  | .i2cStop => .i2c 0x12000000#32 0xFFFFFFFF#32
  | .i2cSendb _ => .i2c 0x13000000#32 0xFFFFFF00#32
  | .i2cRecvb _ => .i2c 0x14000000#32 0xFF7FFFFF#32
  | .uOpen => .uart 0x21000000#32 0xFFFFFFFF#32
  | .uClose => .uart 0x22000000#32 0xFFFFFFFF#32
  | .uIsopen => .uart 0x23000000#32 0xFFFFFFFF#32
  | .uAvail => .uart 0x24000000#32 0xFFFFFFFF#32
  | .uFlush _ => .uart 0x25000000#32 0xFF7FFFFF#32
  | .uSend _ _ => .uart 0x26000000#32 0xFF7FFF00#32
  | .uSendbuf _ => .uart 0x27000000#32 0xFF7FFFFF#32
  | .uSendstr _ => .uart 0x28000000#32 0xFF7FFFFF#32
  | .uRecv => .uart 0x29000000#32 0xFFFFFFFF#32
  | .uRecvbuf => .uart 0x2A000000#32 0xFFFFFFFF#32
  | .onRx => .irq 0#1
  | .onTxe => .irq 1#1

/-- The encoding of the instruction lies in its row (R92, R95). -/
def OpcodeRow.Statement (i : Instr) : Prop := (opcodeRow i).holds (encode i)

/-- A command word, masked: every field masked by itself. -/
theorem commandWord_and (opc mo : BitVec 8) (f mf : Bool) (addr ma : BitVec 7) (reg byte mr mb : Byte) :
    commandWord opc f addr reg byte &&& commandWord mo mf ma mr mb =
      commandWord (opc &&& mo) (f && mf) (addr &&& ma) (reg &&& mr) (byte &&& mb) := by
  have hf : BitVec.ofBool f &&& BitVec.ofBool mf = BitVec.ofBool (f && mf) := by cases f <;> cases mf <;> rfl
  unfold commandWord
  rw [BitVec.and_append, BitVec.and_append, BitVec.and_append, BitVec.and_append, hf]

/-! ## One lemma per constructor -/

theorem OpcodeRow.i2cOpen : OpcodeRow.Statement .i2cOpen := rfl

theorem OpcodeRow.i2cClose : OpcodeRow.Statement .i2cClose := rfl

theorem OpcodeRow.i2cIsopen : OpcodeRow.Statement .i2cIsopen := rfl

theorem OpcodeRow.i2cReset : OpcodeRow.Statement .i2cReset := rfl

theorem OpcodeRow.i2cScan : OpcodeRow.Statement .i2cScan := rfl

theorem OpcodeRow.i2cWrite (addr : BitVec 7) (reg : Byte) : OpcodeRow.Statement (.i2cWrite addr reg) :=
  (commandWord_and _ 0xFF#8 _ true _ 0#7 _ _ 0#8 0xFF#8).trans (by simp [commandWord])

theorem OpcodeRow.i2cRead (addr : BitVec 7) (reg : Byte) : OpcodeRow.Statement (.i2cRead addr reg) :=
  (commandWord_and _ 0xFF#8 _ true _ 0#7 _ _ 0#8 0xFF#8).trans (by simp [commandWord])

theorem OpcodeRow.i2cReadraw (stopComm : Bool) (addr : BitVec 7) : OpcodeRow.Statement (.i2cReadraw stopComm addr) :=
  (commandWord_and _ 0xFF#8 _ false _ 0#7 _ _ 0xFF#8 0xFF#8).trans (by simp [commandWord])

theorem OpcodeRow.i2cWritet (addr : BitVec 7) (reg size : Byte) : OpcodeRow.Statement (.i2cWritet addr reg size) :=
  (commandWord_and _ 0xFF#8 _ true _ 0#7 _ _ 0#8 0#8).trans (by simp [commandWord])

theorem OpcodeRow.i2cReadt (addr : BitVec 7) (reg size : Byte) : OpcodeRow.Statement (.i2cReadt addr reg size) :=
  (commandWord_and _ 0xFF#8 _ true _ 0#7 _ _ 0#8 0#8).trans (by simp [commandWord])

theorem OpcodeRow.i2cWaitbusy : OpcodeRow.Statement .i2cWaitbusy := rfl

theorem OpcodeRow.i2cStart (rw : Bool) (addr : BitVec 7) : OpcodeRow.Statement (.i2cStart rw addr) :=
  (commandWord_and _ 0xFF#8 _ false _ 0#7 _ _ 0xFF#8 0xFF#8).trans (by simp [commandWord])

theorem OpcodeRow.i2cStop : OpcodeRow.Statement .i2cStop := rfl

theorem OpcodeRow.i2cSendb (byte : Byte) : OpcodeRow.Statement (.i2cSendb byte) :=
  (commandWord_and _ 0xFF#8 _ true _ 0x7F#7 _ _ 0xFF#8 0#8).trans (by simp [commandWord])

theorem OpcodeRow.i2cRecvb (ack : Bool) : OpcodeRow.Statement (.i2cRecvb ack) :=
  (commandWord_and _ 0xFF#8 _ false _ 0x7F#7 _ _ 0xFF#8 0xFF#8).trans (by simp [commandWord])

theorem OpcodeRow.uOpen : OpcodeRow.Statement .uOpen := rfl

theorem OpcodeRow.uClose : OpcodeRow.Statement .uClose := rfl

theorem OpcodeRow.uIsopen : OpcodeRow.Statement .uIsopen := rfl

theorem OpcodeRow.uAvail : OpcodeRow.Statement .uAvail := rfl

theorem OpcodeRow.uFlush (outbound : Bool) : OpcodeRow.Statement (.uFlush outbound) :=
  (commandWord_and _ 0xFF#8 _ false _ 0x7F#7 _ _ 0xFF#8 0xFF#8).trans (by simp [commandWord])

theorem OpcodeRow.uSend (drain : Bool) (byte : Byte) : OpcodeRow.Statement (.uSend drain byte) :=
  (commandWord_and _ 0xFF#8 _ false _ 0x7F#7 _ _ 0xFF#8 0#8).trans (by simp [commandWord])

theorem OpcodeRow.uSendbuf (drain : Bool) : OpcodeRow.Statement (.uSendbuf drain) :=
  (commandWord_and _ 0xFF#8 _ false _ 0x7F#7 _ _ 0xFF#8 0xFF#8).trans (by simp [commandWord])

theorem OpcodeRow.uSendstr (drain : Bool) : OpcodeRow.Statement (.uSendstr drain) :=
  (commandWord_and _ 0xFF#8 _ false _ 0x7F#7 _ _ 0xFF#8 0xFF#8).trans (by simp [commandWord])

theorem OpcodeRow.uRecv : OpcodeRow.Statement .uRecv := rfl

theorem OpcodeRow.uRecvbuf : OpcodeRow.Statement .uRecvbuf := rfl

theorem OpcodeRow.onRx : OpcodeRow.Statement .onRx := rfl

theorem OpcodeRow.onTxe : OpcodeRow.Statement .onTxe := rfl

end Sys2Proof.Laws
end

