-- ==== Sys2Proof/Laws/Uart.lean ====
section
/-! SUPPORT. What the interrupt entry points, the manual pump and the lines of the mainline operations can do (spec
42_uart_ring_and_handlers.md R165 to R168, 43_uart_operations.md R182 to R191), and what no line touches (10_state.md R50). -/

namespace Sys2Proof.Machine

/-! ## The entry points -/

/-- on-receive, when it answers a next state: the byte stored and the head advanced, or the byte dropped and the overflow flag set
(R165); in both cases `DATA` is read and the latch assigned. -/
theorem onReceive_eq_next {s t : State} :
    onReceive s = .next t ↔
      (ringNext s.cfg.nRx s.uart.rx.head ≠ s.uart.rx.tail ∧ s.uart.rx.head < s.cfg.nRx ∧
        t = (readData s).2.mapUart fun u =>
          { u with
            rx := { s.uart.rx with
              buf := Memory.write s.uart.rx.buf s.uart.rx.head (readData s).1, head := ringNext s.cfg.nRx s.uart.rx.head }
            rxError := hwLatch s.cfg.ef (statErrors s.uart) }) ∨
      (ringNext s.cfg.nRx s.uart.rx.head = s.uart.rx.tail ∧
        t = (readData s).2.mapUart fun u =>
          { u with rxError := hwLatch s.cfg.ef (statErrors s.uart) ||| efBit s.cfg.ef.overflow }) := by
  have hc : (readData s).2.cfg = s.cfg := by unfold readData; split <;> rfl
  have hr : (readData s).2.uart.rx = s.uart.rx := by unfold readData; split <;> rfl
  unfold onReceive
  simp only [hc, hr, ne_eq, ite_not]
  by_cases h : ringNext s.cfg.nRx s.uart.rx.head = s.uart.rx.tail
  · simp [h, eq_comm]
  · simp only [h, ↓reduceIte, slotWrite_eq_next, Host.Outcome.next.injEq, not_false_eq_true, true_and, false_and, or_false]
    exact and_congr_right fun _ => eq_comm

/-- on-transmit-empty, when it answers a next state: only its interrupt switched off, or the oldest byte moved to `DATA` and the
interrupt switched off when that was the last (R166). -/
theorem onTransmitEmpty_eq_next {s t : State} :
    onTransmitEmpty s = .next t ↔
      (s.uart.tx.head = s.uart.tx.tail ∧ t = clearTxeIe s) ∨
      (s.uart.tx.head ≠ s.uart.tx.tail ∧ s.uart.tx.tail < s.cfg.nTx ∧ s.uart.txHold = none ∧
        t = s.mapUart fun u =>
          { u with
            tx := { u.tx with tail := ringNext s.cfg.nTx u.tx.tail }
            txHold := some (Memory.read u.tx.buf u.tx.tail)
            ctrl := { u.ctrl with
              txeIe := if u.tx.head = ringNext s.cfg.nTx u.tx.tail then false else u.ctrl.txeIe } }) := by
  unfold onTransmitEmpty
  by_cases h : s.uart.tx.head = s.uart.tx.tail
  · simp [Ring.isEmpty, h, eq_comm]
  · simp only [Ring.isEmpty, beq_iff_eq, h, ↓reduceIte, false_and, false_or, ne_eq, not_false_eq_true, true_and,
      slotRead_eq_next, andThen_eq_next, writeData_eq_next]
    refine and_congr_right fun _ => ?_
    constructor
    · rintro ⟨_, ⟨h1, rfl⟩, h2⟩
      refine ⟨h1, ?_⟩
      simp only [mapUart_uart, Host.Outcome.next.injEq] at h2
      rw [← h2]
      by_cases hl : s.uart.tx.head = ringNext s.cfg.nTx s.uart.tx.tail
      · simp [hl, clearTxeIe, State.mapUart]
      · simp [hl, State.mapUart]
    · rintro ⟨h1, rfl⟩
      refine ⟨_, ⟨h1, rfl⟩, ?_⟩
      by_cases hl : s.uart.tx.head = ringNext s.cfg.nTx s.uart.tx.tail
      · simp [hl, clearTxeIe, State.mapUart]
      · simp [hl, State.mapUart]

/-- The pump is the entry point exactly when the interrupt would be taken were `GIE` 1; else it does nothing (R167). -/
theorem pump_eq (s : State) :
    pump s = if s.gie = false ∧ txePending s.uart = true then onTransmitEmpty s else .next s := by
  unfold pump
  cases s.gie <;> cases txePending s.uart <;> simp

/-! ## What no line touches -/

/-- Everything outside the UART controller and the host buffer is unchanged; so are the controller's identity, command and operand
registers, the wire traces, the shift stage and the slots of the receive ring (R50). -/
structure UartKeeps (s t : State) : Prop where
  cfg : t.cfg = s.cfg
  i2c : t.i2c = s.i2c
  gie : t.gie = s.gie
  busyIn : t.busyIn = s.busyIn
  xferIn : t.xferIn = s.xferIn
  initIn : t.initIn = s.initIn
  drawn : t.drawn = s.drawn
  sched : t.sched = s.sched
  burst : t.burst = s.burst
  id : t.uart.id = s.uart.id
  cw : t.uart.cw = s.uart.cw
  oprCount : t.uart.oprCount = s.uart.oprCount
  oprBuf : t.uart.oprBuf = s.uart.oprBuf
  oprValue : t.uart.oprValue = s.uart.oprValue
  oprTimeout : t.uart.oprTimeout = s.uart.oprTimeout
  wireIn : t.uart.wireIn = s.uart.wireIn
  wireOut : t.uart.wireOut = s.uart.wireOut
  txShift : t.uart.txShift = s.uart.txShift
  rxBuf : t.uart.rx.buf = s.uart.rx.buf

theorem UartKeeps.refl (s : State) : UartKeeps s s :=
  ⟨rfl, rfl, rfl, rfl, rfl, rfl, rfl, rfl, rfl, rfl, rfl, rfl, rfl, rfl, rfl, rfl, rfl, rfl, rfl⟩

theorem UartKeeps.trans {s t u : State} (h : UartKeeps s t) (k : UartKeeps t u) : UartKeeps s u :=
  ⟨k.cfg.trans h.cfg, k.i2c.trans h.i2c, k.gie.trans h.gie, k.busyIn.trans h.busyIn, k.xferIn.trans h.xferIn,
   k.initIn.trans h.initIn, k.drawn.trans h.drawn, k.sched.trans h.sched, k.burst.trans h.burst, k.id.trans h.id,
   k.cw.trans h.cw, k.oprCount.trans h.oprCount, k.oprBuf.trans h.oprBuf, k.oprValue.trans h.oprValue,
   k.oprTimeout.trans h.oprTimeout, k.wireIn.trans h.wireIn, k.wireOut.trans h.wireOut, k.txShift.trans h.txShift,
   k.rxBuf.trans h.rxBuf⟩

/-- A change of the controller that respects what no line touches. -/
theorem keeps_mapUart {f : Uart → Uart} (s : State)
    (h : ∀ u : Uart, (f u).id = u.id ∧ (f u).cw = u.cw ∧ (f u).oprCount = u.oprCount ∧ (f u).oprBuf = u.oprBuf ∧
      (f u).oprValue = u.oprValue ∧ (f u).oprTimeout = u.oprTimeout ∧ (f u).wireIn = u.wireIn ∧
      (f u).wireOut = u.wireOut ∧ (f u).txShift = u.txShift ∧ (f u).rx.buf = u.rx.buf) : UartKeeps s (s.mapUart f) := by
  obtain ⟨h1, h2, h3, h4, h5, h6, h7, h8, h9, h10⟩ := h s.uart
  exact ⟨rfl, rfl, rfl, rfl, rfl, rfl, rfl, rfl, rfl, h1, h2, h3, h4, h5, h6, h7, h8, h9, h10⟩

theorem keeps_goto (l : Line) (j : Job) (s : State) : UartKeeps s (goto l j s) :=
  keeps_mapUart s fun _ => ⟨rfl, rfl, rfl, rfl, rfl, rfl, rfl, rfl, rfl, rfl⟩

theorem keeps_uartReturn (st : Status) (s : State) : UartKeeps s (uartReturn st s) :=
  keeps_mapUart s fun _ => ⟨rfl, rfl, rfl, rfl, rfl, rfl, rfl, rfl, rfl, rfl⟩

theorem keeps_writeHbuf (a : Nat) (b : Byte) (s : State) : UartKeeps s (s.writeHbuf a b) :=
  ⟨rfl, rfl, rfl, rfl, rfl, rfl, rfl, rfl, rfl, rfl, rfl, rfl, rfl, rfl, rfl, rfl, rfl, rfl, rfl⟩

theorem keeps_onTransmitEmpty {s t : State} (h : onTransmitEmpty s = .next t) : UartKeeps s t := by
  rcases onTransmitEmpty_eq_next.1 h with ⟨-, rfl⟩ | ⟨-, -, -, rfl⟩ <;>
    exact keeps_mapUart s fun _ => ⟨rfl, rfl, rfl, rfl, rfl, rfl, rfl, rfl, rfl, rfl⟩

theorem keeps_pump {s t : State} (h : pump s = .next t) : UartKeeps s t := by
  rw [pump_eq] at h
  split at h
  · exact keeps_onTransmitEmpty h
  · obtain rfl : s = t := by simpa using h
    exact UartKeeps.refl s

/-- A critical section around a change that respects what no line touches (R72). -/
theorem keeps_atomically {f : State → State} (s : State) (h : ∀ t, UartKeeps t (f t)) : UartKeeps s (atomically f s) := by
  have k := h { s with gie := false }
  exact ⟨k.cfg, k.i2c, rfl, k.busyIn, k.xferIn, k.initIn, k.drawn, k.sched, k.burst, k.id, k.cw, k.oprCount, k.oprBuf,
    k.oprValue, k.oprTimeout, k.wireIn, k.wireOut, k.txShift, k.rxBuf⟩

/-- An outcome, when a next state, keeps what no line touches. -/
abbrev KeepsTo (s : State) (o : Out) : Prop := ∀ t, o = .next t → UartKeeps s t

theorem keepsTo_next {s t : State} (h : UartKeeps s t) : KeepsTo s (.next t) := by
  rintro _ ⟨⟩
  exact h

theorem keepsTo_proceed (l : Line) (j : Job) (s : State) : KeepsTo s (proceed l j s) := keepsTo_next (keeps_goto l j s)

theorem keepsTo_finish (st : Status) (s : State) : KeepsTo s (finish st s) := keepsTo_next (keeps_uartReturn st s)

theorem keepsTo_of {s u : State} {o : Out} (h : UartKeeps s u) (k : KeepsTo u o) : KeepsTo s o :=
  fun t ht => h.trans (k t ht)

theorem keepsTo_andThen {s : State} {o : Out} {f : State → Out} (h : KeepsTo s o) (k : ∀ t, KeepsTo t (f t)) :
    KeepsTo s (andThen o f) := by
  intro t ht
  obtain ⟨u, hu, hf⟩ := andThen_eq_next.1 ht
  exact (h u hu).trans (k u t hf)

theorem keepsTo_flushOutReturn (j : Job) (s : State) : KeepsTo s (flushOutReturn j s) := by
  unfold flushOutReturn
  split <;> first | exact keepsTo_proceed _ _ s | exact keepsTo_finish _ s

theorem keepsTo_sendReturn (st : Status) (j : Job) (s : State) : KeepsTo s (sendReturn st j s) := by
  unfold sendReturn
  split <;> first | exact keepsTo_proceed _ _ s | exact keepsTo_finish _ s

theorem keepsTo_recvReturn (st : Status) (j : Job) (s : State) : KeepsTo s (recvReturn st j s) := by
  unfold recvReturn
  split <;> first | exact keepsTo_proceed _ _ s | exact keepsTo_finish _ s

theorem keepsTo_ite {s : State} {c : Prop} [Decidable c] {a b : Out} (ha : KeepsTo s a) (hb : KeepsTo s b) :
    KeepsTo s (if c then a else b) := by
  split <;> assumption

theorem keepsTo_sendWait (j : Job) (s : State) : KeepsTo s (sendWait j s) :=
  keepsTo_andThen (fun _ h => keeps_pump h) fun t =>
    keepsTo_ite (keepsTo_sendReturn _ j t) (keepsTo_proceed _ _ t)

theorem keepsTo_change {f : Uart → Uart} (l : Line) (j : Job) (s : State)
    (h : ∀ u : Uart, (f u).id = u.id ∧ (f u).cw = u.cw ∧ (f u).oprCount = u.oprCount ∧ (f u).oprBuf = u.oprBuf ∧
      (f u).oprValue = u.oprValue ∧ (f u).oprTimeout = u.oprTimeout ∧ (f u).wireIn = u.wireIn ∧
      (f u).wireOut = u.wireOut ∧ (f u).txShift = u.txShift ∧ (f u).rx.buf = u.rx.buf) : KeepsTo s (change f l j s) :=
  keepsTo_of (keeps_mapUart s h) (keepsTo_proceed l j _)

theorem keepsTo_sendStore (j : Job) (s : State) : KeepsTo s (sendStore j s) := by
  intro t h
  refine keepsTo_change _ j s ?_ t (slotWrite_eq_next.1 h).2
  exact fun _ => ⟨rfl, rfl, rfl, rfl, rfl, rfl, rfl, rfl, rfl, rfl⟩

theorem keepsTo_recvRead (j : Job) (s : State) : KeepsTo s (recvRead j s) := fun t h =>
  keepsTo_proceed _ _ s t (slotRead_eq_next.1 h).2

theorem keepsTo_atomically {f : Uart → Uart} (l : Line) (j : Job) (s : State)
    (h : ∀ u : Uart, (f u).id = u.id ∧ (f u).cw = u.cw ∧ (f u).oprCount = u.oprCount ∧ (f u).oprBuf = u.oprBuf ∧
      (f u).oprValue = u.oprValue ∧ (f u).oprTimeout = u.oprTimeout ∧ (f u).wireIn = u.wireIn ∧
      (f u).wireOut = u.wireOut ∧ (f u).txShift = u.txShift ∧ (f u).rx.buf = u.rx.buf) :
    KeepsTo s (proceed l j (atomically (fun t => t.mapUart f) s)) :=
  keepsTo_of (keeps_atomically s fun t => keeps_mapUart t h) (keepsTo_proceed l j _)

/-- No line touches what `UartKeeps` names. -/
theorem keepsTo_lineStep (j : Job) (s : State) : KeepsTo s (lineStep j s) := by
  unfold lineStep
  split <;> first
    | exact keepsTo_proceed _ _ s
    | exact keepsTo_finish _ s
    | exact keepsTo_ite (keepsTo_finish _ s) (keepsTo_proceed _ _ s)
    | exact keepsTo_ite (keepsTo_proceed _ _ s) (keepsTo_finish _ s)
    | exact keepsTo_ite (keepsTo_proceed _ _ s) (keepsTo_proceed _ _ s)
    | exact keepsTo_ite (keepsTo_recvReturn _ j s) (keepsTo_proceed _ _ s)
    | exact keepsTo_change _ j s fun _ => ⟨rfl, rfl, rfl, rfl, rfl, rfl, rfl, rfl, rfl, rfl⟩
    | exact keepsTo_atomically _ _ s fun _ => ⟨rfl, rfl, rfl, rfl, rfl, rfl, rfl, rfl, rfl, rfl⟩
    | exact keepsTo_andThen (fun _ h => keeps_pump h) fun t => keepsTo_proceed _ j t
    | exact keepsTo_flushOutReturn j s
    | exact keepsTo_sendWait j s
    | exact keepsTo_sendStore j s
    | exact keepsTo_sendReturn _ j s
    | exact keepsTo_recvRead j s
    | exact keepsTo_recvReturn _ j s
    | exact keepsTo_of (keeps_writeHbuf _ _ s) (keepsTo_proceed _ _ _)

/-- Nor do any number of lines. -/
theorem keepsTo_runLines (n : Nat) (s : State) : KeepsTo s (runLines n s) := fun _ h =>
  runLines_induct (UartKeeps s) (fun u t j hu _ ht => hu.trans (keepsTo_lineStep j u t ht)) n (UartKeeps.refl s) h

/-- A UART command that answers a next state touches none of it (R121, R168). -/
theorem keepsTo_uartCommand (refusal : Option Refusal) (op : UOp) (first : Line) (b : Byte) (s : State) :
    KeepsTo s (uartCommand refusal op first b s) := by
  intro t h
  refine keepsTo_of (keeps_mapUart s ?_) (keepsTo_runLines _ _) t (uartCommand_eq_next.1 h).2.2
  exact fun _ => ⟨rfl, rfl, rfl, rfl, rfl, rfl, rfl, rfl, rfl, rfl⟩

end Sys2Proof.Machine
end

