-- ==== Sys2Proof/Tests/Slice0.lean ====
section
/-! SUPPORT. Tests of single steps, each expected result from spec/95_test_vectors.md (the vector is named) or worked out by hand
from the rule named; and for each statement with hypotheses a witness that meets them. -/

namespace Sys2Proof.Tests

open Sys2Proof Sys2Proof.Machine

/-! ## Helpers -/

/-- A view of the next state, if the outcome is one. -/
def view {α : Type} (o : Out) (f : State → α) : Option α :=
  match o with
  | .next t => some (f t)
  | _ => none

/-- The reason, if the outcome is a refusal. -/
def refusal (o : Out) : Option Refusal :=
  match o with
  | .refused r => some r
  | _ => none

/-- Why a word is refused, if it is. -/
def rejected (p : Presented) : Option DecodeError :=
  match decode p with
  | .error e => some e
  | .ok _ => none

/-- `OK` of the vectors. -/
def xOk : Xfer := ⟨true, false, true, 0#8⟩

/-- `NK` of the vectors. -/
def xNk : Xfer := ⟨true, false, false, 0#8⟩

/-- `ER` of the vectors. -/
def xEr : Xfer := ⟨true, true, false, 0#8⟩

/-- `TO` of the vectors. -/
def xTo : Xfer := ⟨false, false, false, 0#8⟩

/-- `D(b)` of the vectors. -/
def xD (b : Byte) : Xfer := ⟨true, false, false, b⟩

/-- The start state of the vectors 2.2 and 2.3: the device open, the protocol state and the direction as given, the answers given. -/
def dev (f : Fsm) (dir : Bool) (n : BitVec 16) (busy : List Bool) (xs : List Xfer) : State :=
  { State.resetWith {} true with
    i2c := { opened := true, fsm := f, tDir := dir, oprBuf := 0x100, oprCount := n }
    hbuf := [(0x100, 0xAA#8), (0x101, 0xBB#8), (0x102, 0xCC#8)]
    busyIn := busy
    xferIn := xs }

/-- A port as the vectors 2.5 and 2.6 have it: open, `N_RX` = `N_TX` = 4; a command runs up to 64 lines in its step. -/
def port (g : Bool) (u : Uart) : State :=
  { State.resetWith { nRx := 4, nTx := 4 } g with uart := { u with opened := true }, burst := 64 }

/-- `CTRL` of an open port with the transmit interrupt as given. -/
def ctrlOn (txe : Bool) : Ctrl := { rxEn := true, rxIe := true, txEn := true, txeIe := txe }

/-! ## Which instructions exist (R93, R94): each check of `Instr.wf` refuses an ill-formed term -/

theorem test_wf_refuses_size_0 : (Instr.i2cReadt 0x48#7 0#8 0#8).wf = false := by decide
theorem test_wf_refuses_size_3 : (Instr.i2cWritet 0x48#7 1#8 3#8).wf = false := by decide
theorem test_wf_accepts_size_8 : (Instr.i2cReadt 0x48#7 0#8 8#8).wf = true := by decide

/-! ## Decoding: every constructor from a word of the spec (E8 to E16, the rows of R92 and R95) -/

theorem test_decode_i2c_public :
    decode (.i2cCommand 0x01000000#32) = .ok .i2cOpen ∧ decode (.i2cCommand 0x02000000#32) = .ok .i2cClose ∧
    decode (.i2cCommand 0x03000000#32) = .ok .i2cIsopen ∧ decode (.i2cCommand 0x04000000#32) = .ok .i2cReset ∧
    decode (.i2cCommand 0x05000000#32) = .ok .i2cScan ∧
    decode (.i2cCommand 0x06501000#32) = .ok (.i2cWrite 0x50#7 0x10#8) ∧
    decode (.i2cCommand 0x077FFF00#32) = .ok (.i2cRead 0x7F#7 0xFF#8) ∧
    decode (.i2cCommand 0x08D00000#32) = .ok (.i2cReadraw true 0x50#7) ∧
    decode (.i2cCommand 0x08500000#32) = .ok (.i2cReadraw false 0x50#7) ∧
    decode (.i2cCommand 0x09480102#32) = .ok (.i2cWritet 0x48#7 1#8 2#8) ∧
    decode (.i2cCommand 0x0A480008#32) = .ok (.i2cReadt 0x48#7 0#8 8#8) :=
  ⟨rfl, rfl, rfl, rfl, rfl, rfl, rfl, rfl, rfl, rfl, rfl⟩

theorem test_decode_i2c_primitives :
    decode (.i2cCommand 0x10000000#32) = .ok .i2cWaitbusy ∧ decode (.i2cCommand 0x11D00000#32) = .ok (.i2cStart true 0x50#7) ∧
    decode (.i2cCommand 0x11500000#32) = .ok (.i2cStart false 0x50#7) ∧ decode (.i2cCommand 0x12000000#32) = .ok .i2cStop ∧
    decode (.i2cCommand 0x130000AA#32) = .ok (.i2cSendb 0xAA#8) ∧ decode (.i2cCommand 0x14800000#32) = .ok (.i2cRecvb true) ∧
    decode (.i2cCommand 0x14000000#32) = .ok (.i2cRecvb false) :=
  ⟨rfl, rfl, rfl, rfl, rfl, rfl, rfl⟩

theorem test_decode_uart :
    decode (.uartCommand 0x21000000#32) = .ok .uOpen ∧ decode (.uartCommand 0x22000000#32) = .ok .uClose ∧
    decode (.uartCommand 0x23000000#32) = .ok .uIsopen ∧ decode (.uartCommand 0x24000000#32) = .ok .uAvail ∧
    decode (.uartCommand 0x25800000#32) = .ok (.uFlush true) ∧ decode (.uartCommand 0x25000000#32) = .ok (.uFlush false) ∧
    decode (.uartCommand 0x26000068#32) = .ok (.uSend false 0x68#8) ∧
    decode (.uartCommand 0x26800068#32) = .ok (.uSend true 0x68#8) ∧ decode (.uartCommand 0x27800000#32) = .ok (.uSendbuf true) ∧
    decode (.uartCommand 0x28000000#32) = .ok (.uSendstr false) ∧ decode (.uartCommand 0x29000000#32) = .ok .uRecv ∧
    decode (.uartCommand 0x2A000000#32) = .ok .uRecvbuf :=
  ⟨rfl, rfl, rfl, rfl, rfl, rfl, rfl, rfl, rfl, rfl, rfl, rfl⟩

theorem test_decode_causes : decode (.cause 0#1) = .ok .onRx ∧ decode (.cause 1#1) = .ok .onTxe := ⟨rfl, rfl⟩

/-- E17: the reserved words of an I2C engine, each for its reason. -/
theorem test_reserved_i2c :
    [0x00000000#32, 0x0B000000#32, 0x15000000#32].map (fun w => rejected (.i2cCommand w)) =
      List.replicate 3 (some .unknownOpc) ∧
    rejected (.i2cCommand 0x21000000#32) = some .otherEngine ∧
    [0x06D01000#32, 0x06501001#32, 0x13000100#32, 0x05000001#32].map (fun w => rejected (.i2cCommand w)) =
      List.replicate 4 (some .unusedField) ∧
    [0x09480103#32, 0x09480100#32].map (fun w => rejected (.i2cCommand w)) = List.replicate 2 (some .badSize) := by decide

/-- E18: the reserved words of a UART controller. -/
theorem test_reserved_uart :
    rejected (.uartCommand 0x06501000#32) = some .otherEngine ∧ rejected (.uartCommand 0x2B000000#32) = some .unknownOpc ∧
    [0x29800000#32, 0x26010068#32].map (fun w => rejected (.uartCommand w)) = List.replicate 2 (some .unusedField) := by decide

/-- The rows of spec/opcode_table.json by their `match`: the words with a size of 0 are reserved (R93). -/
theorem test_table_words :
    decodeTableWord 32 0x06000000 = some (.i2cWrite 0#7 0#8) ∧ decodeTableWord 32 0x26000000 = some (.uSend false 0#8) ∧
    decodeTableWord 8 0 = some .onRx ∧ decodeTableWord 8 1 = some .onTxe ∧ decodeTableWord 32 0x09000000 = none ∧
    decodeTableWord 32 0x09000004 = some (.i2cWritet 0#7 0#8 4#8) := by decide

/-! ## Encodings (E1 to E7) -/

theorem test_status_word :
    Status.word {} ⟨.nack, 3#16⟩ = 0x00010003#32 ∧ Status.word {} ⟨.ok, 128#16⟩ = 0x00000080#32 ∧
    Status.word {} ⟨.noData, 0xFF00#16⟩ = 0x0006FF00#32 := by decide

theorem test_address_byte :
    [0x00#7, 0x50#7, 0x68#7, 0x7F#7].map (addressByte · false) = [0x00#8, 0xA0#8, 0xD0#8, 0xFE#8] ∧
    [0x00#7, 0x50#7, 0x68#7, 0x7F#7].map (addressByte · true) = [0x01#8, 0xA1#8, 0xD1#8, 0xFF#8] := by decide

/-- R24: the coding of the protocol state. -/
theorem test_fsm_code :
    [Fsm.closed, .idle, .addressing, .transferringData, .stopping, .error].map Fsm.code =
      [0#3, 1#3, 2#3, 3#3, 4#3, 5#3] := by decide

/-! ## I2C primitives (A1 to A23) -/

theorem test_waitbusy_A1_A2 :
    view (exec .i2cWaitbusy (dev .idle false 0#16 [true] [])) (·.i2c.resStatus) = some 0x00000000#32 ∧
    view (exec .i2cWaitbusy (dev .idle false 0#16 [false] [])) (·.i2c.resStatus) = some 0x00020000#32 := by decide

theorem test_start_A4_nack :
    view (exec (.i2cStart false 0x50#7) (dev .idle false 0#16 [] [xOk, xNk])) (fun t =>
      (t.i2c.trace, t.i2c.fsm, t.i2c.resStatus)) =
    some ([.start false .ok, .txa 0x50#7 false .nack], .error, 0x00010000#32) := by decide

theorem test_start_A8_repeated :
    view (exec (.i2cStart true 0x50#7) (dev .transferringData false 0#16 [] [xOk, xOk])) (fun t =>
      (t.i2c.trace, t.i2c.fsm, t.i2c.resStatus)) =
    some ([.start true .ok, .txa 0x50#7 true .ok], .transferringData, 0#32) := by decide

theorem test_sendb_A12_A13_priority :
    view (exec (.i2cSendb 0xAA#8) (dev .transferringData false 0#16 [] [⟨true, true, false, 0#8⟩])) (fun t =>
      (t.i2c.trace, t.i2c.fsm, t.i2c.resStatus)) = some ([.txb 0xAA#8 .err], .error, 0x00030000#32) ∧
    view (exec (.i2cSendb 0xAA#8) (dev .transferringData false 0#16 [] [⟨false, true, false, 0#8⟩])) (·.i2c.resStatus) =
      some 0x00020000#32 := by decide

theorem test_sendb_A10_A22_A23 :
    view (exec (.i2cSendb 0xAA#8) (dev .transferringData false 0#16 [] [xOk])) (·.i2c.resStatus) = some 1#32 ∧
    refusal (exec (.i2cSendb 0xAA#8) (dev .idle false 0#16 [] [xOk])) = some .notAdmitted ∧
    refusal (exec (.i2cSendb 0xAA#8) (dev .transferringData true 0#16 [] [xOk])) = some .notAdmitted := by decide

theorem test_recvb_A15_ignores_ack :
    view (exec (.i2cRecvb false) (dev .transferringData true 0#16 [] [xD 0x33#8])) (fun t =>
      (t.i2c.trace, t.i2c.fsm, t.i2c.resStatus)) = some ([.rxb 0x33#8 false .ok], .transferringData, 0x33#32) := by decide

theorem test_recvb_A16_timeout :
    view (exec (.i2cRecvb true) (dev .transferringData true 0#16 [] [xTo])) (fun t => (t.i2c.fsm, t.i2c.resStatus)) =
    some (.error, 0x00020000#32) := by decide

theorem test_stop_A18 :
    view (exec .i2cStop (dev .error false 0#16 [] [])) (fun t => (t.i2c.trace, t.i2c.fsm, t.i2c.resStatus)) =
    some ([.stop], .idle, 0#32) := by decide

theorem test_reset_A20 :
    view (exec .i2cReset { dev .error false 0#16 [] [] with initIn := [true] }) (fun t =>
      (t.i2c.trace, t.i2c.fsm, t.i2c.opened, t.i2c.resStatus)) = some ([.cfgDeinit, .cfgInit], .idle, true, 0#32) := by decide

theorem test_reset_A21 :
    view (exec .i2cReset { dev .idle false 0#16 [] [] with initIn := [false] }) (fun t =>
      (t.i2c.trace, t.i2c.fsm, t.i2c.opened, t.i2c.resStatus)) = some ([.cfgDeinit], .closed, false, 0x00030000#32) := by decide

/-! ## I2C operations (B1 to B35) -/

theorem test_write_B2 :
    view (exec (.i2cWrite 0x50#7 0x10#8) (dev .idle false 3#16 [true] [xOk, xOk, xOk, xOk, xNk])) (fun t =>
      (t.i2c.trace, t.i2c.fsm, t.i2c.resStatus)) =
    some ([.start false .ok, .txa 0x50#7 false .ok, .txb 0x10#8 .ok, .txb 0xAA#8 .ok, .txb 0xBB#8 .nack, .stop],
      .idle, 0x00010001#32) := by decide

theorem test_write_B8_wraps :
    view (exec (.i2cWrite 0x50#7 0x10#8) { dev .idle false 2#16 [true] [xOk, xOk, xOk, xOk, xOk] with
      i2c := { opened := true, fsm := .idle, oprBuf := 0xFFFF, oprCount := 2#16 }
      hbuf := [(0, 2#8), (0xFFFF, 1#8)] }) (fun t => (t.i2c.trace, t.i2c.resStatus)) =
    some ([.start false .ok, .txa 0x50#7 false .ok, .txb 0x10#8 .ok, .txb 1#8 .ok, .txb 2#8 .ok, .stop], 2#32) := by decide

theorem test_read_B10 :
    view (exec (.i2cRead 0x50#7 0x10#8)
      (dev .idle false 3#16 [true] [xOk, xOk, xOk, xOk, xOk, xD 0x11#8, xD 0x22#8, xD 0x33#8])) (fun t =>
      (t.i2c.trace, t.hbuf, t.i2c.resStatus)) =
    some ([.start false .ok, .txa 0x50#7 false .ok, .txb 0x10#8 .ok, .start true .ok, .txa 0x50#7 true .ok,
        .rxb 0x11#8 true .ok, .rxb 0x22#8 true .ok, .rxb 0x33#8 false .ok, .stop],
      [(0x100, 0x11#8), (0x101, 0x22#8), (0x102, 0x33#8)], 3#32) := by decide

theorem test_read_B12_partial :
    view (exec (.i2cRead 0x50#7 0x10#8)
      (dev .idle false 3#16 [true] [xOk, xOk, xOk, xOk, xOk, xD 0x11#8, xEr])) (fun t =>
      (t.hbuf, t.i2c.fsm, t.i2c.resStatus)) =
    some ([(0x100, 0x11#8), (0x101, 0xBB#8), (0x102, 0xCC#8)], .idle, 0x00030001#32) := by decide

theorem test_readraw_B15_deferred :
    view (exec (.i2cReadraw false 0x50#7) (dev .idle false 2#16 [true] [xOk, xOk, xD 0x11#8, xD 0x22#8])) (fun t =>
      (t.i2c.trace, t.i2c.fsm, t.i2c.resStatus)) =
    some ([.start false .ok, .txa 0x50#7 true .ok, .rxb 0x11#8 true .ok, .rxb 0x22#8 false .ok],
      .transferringData, 2#32) := by decide

theorem test_readraw_B16_failure_stops :
    view (exec (.i2cReadraw false 0x50#7) (dev .idle false 2#16 [true] [xOk, xNk])) (fun t =>
      (t.i2c.trace, t.i2c.fsm, t.i2c.resStatus)) =
    some ([.start false .ok, .txa 0x50#7 true .nack, .stop], .idle, 0x00010000#32) := by decide

theorem test_close_B19_no_stop :
    view (exec .i2cClose (dev .transferringData true 0#16 [] [])) (fun t =>
      (t.i2c.trace, t.i2c.fsm, t.i2c.opened)) = some ([.cfgDeinit], .closed, false) := by decide

/-- B22 on the range 0 to 3: the scan ends at the bus error at address 3. -/
theorem test_scan_B22 :
    view (exec .i2cScan { dev .idle false 0#16 [true, true, true, true] [xOk, xNk, xOk, xOk, xOk, xNk, xOk, xEr] with
      cfg := { scanHi := 5 } }) (fun t => (t.i2c.resStatus, t.i2c.trace.length, t.i2c.trace.getLast?)) =
    some (0x00030001#32, 12, some .stop) := by decide

theorem test_writet_B26_orders :
    view (exec (.i2cWritet 0x48#7 2#8 4#8) { dev .idle false 0#16 [true] (List.replicate 7 xOk) with
      i2c := { opened := true, fsm := .idle, oprValue := 0xDEADBEEF#64 } }) (fun t => (t.i2c.scratch, t.i2c.resStatus)) =
      some ([(0, 0xDE#8), (1, 0xAD#8), (2, 0xBE#8), (3, 0xEF#8)], 4#32) ∧
    view (exec (.i2cWritet 0x48#7 2#8 4#8) { dev .idle false 0#16 [true] (List.replicate 7 xOk) with
      cfg := { wireOrder := .little }
      i2c := { opened := true, fsm := .idle, oprValue := 0xDEADBEEF#64 } }) (·.i2c.scratch) =
      some [(0, 0xEF#8), (1, 0xBE#8), (2, 0xAD#8), (3, 0xDE#8)] := by decide

theorem test_readt_B30_orders :
    view (exec (.i2cReadt 0x48#7 0#8 4#8)
      (dev .idle false 0#16 [true] ([xOk, xOk, xOk, xOk, xOk] ++ [xD 1#8, xD 2#8, xD 3#8, xD 4#8]))) (fun t =>
      (t.i2c.resValue, t.i2c.resStatus)) = some (0x01020304#64, 4#32) ∧
    view (exec (.i2cReadt 0x48#7 0#8 4#8)
      { dev .idle false 0#16 [true] ([xOk, xOk, xOk, xOk, xOk] ++ [xD 1#8, xD 2#8, xD 3#8, xD 4#8]) with
        cfg := { wireOrder := .little } }) (·.i2c.resValue) = some 0x04030201#64 := by decide

theorem test_open_B33 :
    view (exec .i2cOpen { State.reset with initIn := [false] }) (fun t =>
      (t.i2c.trace, t.i2c.fsm, t.i2c.opened, t.i2c.resStatus)) = some ([], .closed, false, 0x00030000#32) := by decide

theorem test_isopen_B34_B35 :
    view (exec .i2cIsopen (dev .idle false 0#16 [] [])) (fun t => (t.i2c.resValue, t.i2c.resStatus)) = some (1#64, 0#32) ∧
    refusal (exec (.i2cWrite 0x50#7 0x10#8) State.reset) = some .notOpen := by decide

/-! ## Rings (R-2, R-3, R-10) -/

theorem test_ring_arithmetic :
    ringCount 8 2 6 = 4 ∧ ringNext 8 7 = 0 ∧ ringCount 8 7 0 = 7 ∧ ringCount 200 150 10 = 140 := by decide

/-! ## Interrupt entry points and the pump (H1 to H13) -/

theorem test_onrx_H2_full :
    view (exec .onRx (port true { rx := ⟨3, 0, []⟩, ctrl := ctrlOn false, rxHold := some (0x55#8, { fe := true }) })) (fun t =>
      (t.uart.rx, t.uart.rxError, t.uart.rxHold, t.gie)) = some (⟨3, 0, []⟩, 0x09#8, none, true) := by decide

theorem test_onrx_H5_wraps :
    view (exec .onRx (port true
      { rx := ⟨3, 1, []⟩, ctrl := ctrlOn false, rxError := 1#8, rxHold := some (0x43#8, {}) })) (fun t =>
      (t.uart.rx, t.uart.rxError)) = some (⟨0, 1, [(3, 0x43#8)]⟩, 0#8) := by decide

theorem test_ontxe_H7_last :
    view (exec .onTxe (port true { tx := ⟨2, 1, [(1, 0x68#8)]⟩, ctrl := ctrlOn true })) (fun t =>
      (t.uart.txHold, t.uart.tx.tail, t.uart.ctrl.txeIe)) = some (some 0x68#8, 2, false) := by decide

theorem test_ontxe_H8_empty :
    view (exec .onTxe (port true { tx := ⟨2, 2, []⟩, ctrl := ctrlOn true })) (fun t =>
      (t.uart.txHold, t.uart.tx.tail, t.uart.ctrl.txeIe)) = some (none, 2, false) := by decide

theorem test_pump_H10_H13 :
    view (pump (port true { tx := ⟨3, 1, [(1, 0x68#8)]⟩, ctrl := ctrlOn true })) (·.uart.tx.tail) = some 1 ∧
    view (pump (port false { tx := ⟨3, 1, [(1, 0x68#8)]⟩, ctrl := ctrlOn true })) (fun t =>
      (t.uart.txHold, t.uart.tx.tail, t.uart.ctrl.txeIe)) = some (some 0x68#8, 2, true) := by decide

/-! ## UART operations (U1 to U21) -/

theorem test_avail_U1 :
    view (exec .uAvail { port true { rx := ⟨2, 6, []⟩ } with cfg := { nRx := 8 } }) (·.uart.resStatus) = some 4#32 := by decide

theorem test_recv_U3_flags :
    view (exec .uRecv (port true { rx := ⟨3, 0, [(0, 0x41#8)]⟩, rxError := 9#8 })) (fun t =>
      (t.uart.resStatus, t.uart.rx.tail, t.uart.rxError)) = some (0x00000941#32, 1, 0#8) := by decide

theorem test_recv_U4_empty :
    view (exec .uRecv (port true { rxError := 8#8 })) (fun t => (t.uart.resStatus, t.uart.rxError)) =
    some (0x0006FF00#32, 8#8) := by decide

/-- U6 with three empty polls (`timeout` = 20): the stored byte, the accumulated flags, the timeout flag. -/
theorem test_recvbuf_U6 :
    view (exec .uRecvbuf (port false
      { rx := ⟨1, 0, [(0, 0x41#8)]⟩, rxError := 2#8, oprBuf := 0x300, oprCount := 3#16, oprTimeout := 20#32 })) (fun t =>
      (t.uart.resStatus, t.hbuf, t.uart.rx.tail)) = some (0x00051200#32, [(0x300, 0x41#8)], 1) := by decide

theorem test_recvbuf_U7 :
    view (exec .uRecvbuf (port true
      { rx := ⟨2, 0, [(0, 0x68#8), (1, 0x69#8)]⟩, oprBuf := 0x300, oprCount := 2#16 })) (fun t =>
      (t.uart.resStatus, t.hbuf)) = some (0#32, [(0x300, 0x68#8), (0x301, 0x69#8)]) := by decide

theorem test_send_U11_timeout :
    view (exec (.uSend false 4#8) (port false
      { tx := ⟨3, 0, []⟩, ctrl := ctrlOn true, txHold := some 9#8, oprTimeout := 50#32 })) (fun t =>
      (t.uart.resStatus, t.uart.tx, t.uart.busy)) = some (0x00040000#32, ⟨3, 0, []⟩, false) := by decide

theorem test_send_U12_pumps :
    view (exec (.uSend false 4#8) (port false { tx := ⟨3, 0, [(0, 1#8)]⟩, ctrl := ctrlOn true, oprTimeout := 50#32 })) (fun t =>
      (t.uart.resStatus, t.uart.tx, t.uart.txHold)) =
    some (1#32, ⟨0, 1, [(0, 1#8), (3, 4#8)]⟩, some 1#8) := by decide

/-- U14 with `SENDBUF_TIMEOUT` = 20: four bytes accepted, the fifth times out. -/
theorem test_sendbuf_U14 :
    view (exec (.uSendbuf false) { port false { oprBuf := 0, oprCount := 5#16, ctrl := ctrlOn false } with
      cfg := { nRx := 4, nTx := 4, sendbufTimeout := 20#32 }
      hbuf := [(0, 1#8), (1, 2#8), (2, 3#8), (3, 4#8), (4, 5#8)]
      burst := 80 }) (fun t => (t.uart.resStatus, t.uart.tx.head, t.uart.tx.tail, t.uart.txHold)) =
    some (0x00040004#32, 0, 1, some 1#8) := by decide

theorem test_sendstr_U15 :
    view (exec (.uSendstr false) { port true {} with hbuf := [(0, 0x4F#8), (1, 0x4B#8)] }) (fun t =>
      (t.uart.resStatus, t.uart.tx)) = some (2#32, ⟨2, 0, [(0, 0x4F#8), (1, 0x4B#8)]⟩) := by decide

theorem test_sendstr_U16 : view (exec (.uSendstr true) (port true {})) (·.uart.resStatus) = some 0#32 := by decide

theorem test_flush_U17_U18 :
    view (exec (.uFlush false) (port true { rx := ⟨3, 2, []⟩, rxError := 4#8 })) (fun t =>
      (t.uart.rx.head, t.uart.rx.tail, t.uart.rxError)) = some (3, 3, 0#8) ∧
    view (exec (.uFlush true) (port true {})) (·.uart.resStatus) = some 0#32 := by decide

/-- U19: a drain with a byte in the shift stage is still in progress after the command's lines. -/
theorem test_flush_U19_waits :
    view (exec (.uFlush true) (port true { txShift := some 0x41#8 })) (·.uart.busy) = some true := by decide

theorem test_close_U20 :
    view (exec .uClose (port true { rx := ⟨3, 1, []⟩, rxError := 1#8, ctrl := ctrlOn false })) (fun t =>
      (t.uart.rx, t.uart.rxError, t.uart.ctrl, t.uart.opened)) = some (⟨0, 0, []⟩, 0#8, {}, false) := by decide

theorem test_avail_U21 : refusal (exec .uAvail State.reset) = some .notOpen := by decide

/-- R182: `open` from reset, and R184: `isOpen` after reset. -/
theorem test_uopen_uisopen :
    view (exec .uOpen { State.reset with burst := 5 }) (fun t => (t.uart.ctrl, t.uart.opened, t.uart.resStatus)) = some (ctrlOn false, true, 0#32) ∧
    view (exec .uIsopen { State.reset with burst := 2 }) (·.uart.resValue) = some 0#64 := by decide

/-- R10, R45: from reset a command is only issued; its lines are moves of their own. -/
theorem test_issue_is_no_line :
    view (step (State.reset.withFetchWord 32 0x21000000)) (fun t => (t.uart.busy, t.uart.job.map (·.line), t.uart.opened)) =
    some (true, some .open1, false) := by decide

/-! ## The step -/

/-- The host's view of a row: the next step after `withFetchWord` runs the instruction. -/
theorem test_with_fetch_word :
    view (step (State.reset.withFetchWord 32 0x03000000)) (fun t => (t.i2c.cw, t.i2c.resStatus)) = some (0x03000000#32, 0#32) ∧
    view (step (State.reset.withFetchWord 8 0)) (fun t => (t.uart.rxHold, t.uart.rx.head)) = some (none, 1) ∧
    refusal (step (State.reset.withFetchWord 32 0x05000000)) = some .notOpen := by decide

/-! ## Witnesses: a state and operands that meet the hypotheses of each statement, together -/

/-- A statement about the operation in progress need only be looked at for that one. -/
theorem of_job {u : Uart} {j₀ : Job} {P : Job → Prop} (h : u.job = some j₀) (hp : P j₀) : ∀ j, u.job = some j → P j := by
  intro j hj
  obtain rfl : j₀ = j := Option.some.inj (h.symm.trans hj)
  exact hp

/-- A port in the middle of a `send` (line 5), with one byte queued and one received. -/
def sending : State :=
  port true
    { rx := ⟨1, 0, [(0, 0x41#8)]⟩, tx := ⟨1, 0, [(0, 0x68#8)]⟩, ctrl := ctrlOn true, busy := true
      job := some { op := .send false, line := .send5, byte := 0x69#8, nx := 2 } }

/-- R170, R216: on-transmit-empty falls between lines 6 and 7 of a `send`, which is still in progress there afterwards. -/
theorem test_entry_point_between_lines_6_and_7 :
    view (step { port true { tx := ⟨1, 0, [(0, 0x68#8)]⟩, ctrl := ctrlOn true, busy := true
                             job := some { op := .send false, line := .send7 } } with
      sched := [.present (.cause 1#1), .mainline] }) (fun t =>
      (t.uart.tx.tail, t.uart.txHold, t.uart.ctrl.txeIe, t.uart.job.map (·.line))) =
    some (1, some 0x68#8, false, some .send7) := by decide

/-- R120 (a): nothing comes between a `START` and its `TXA`. -/
theorem test_trace_refuses_init_between_start_and_address :
    traceWf [.start false .ok, .cfgInit, .txa 0x50#7 false .ok] = false ∧
    traceWf [.cfgInit, .start false .ok, .txa 0x50#7 false .ok, .txb 1#8 .ok, .stop] = true := by decide

theorem witness_DecodeOfEncodeIsTheInstruction : (Instr.i2cReadt 0x7F#7 0xFF#8 8#8).wf = true := by decide

theorem witness_OnlyEncodingsDecode : decode (.i2cCommand 0x0A7FFF08#32) = .ok (.i2cReadt 0x7F#7 0xFF#8 8#8) := rfl

theorem witness_StepRunsWhatIsPresented :
    ({ State.reset with sched := [.present (.i2cCommand 0x03000000#32)] }.sched = .present (.i2cCommand 0x03000000#32) :: [] ∧
      decode (.i2cCommand 0x03000000#32) = .ok .i2cIsopen) ∧
    ({ State.reset with sched := [.present (.uartCommand 0x23000000#32)] }.sched =
        .present (.uartCommand 0x23000000#32) :: [] ∧ decode (.uartCommand 0x23000000#32) = .ok .uIsopen) ∧
    { State.reset with sched := [.present (.cause 0#1)] }.sched = .present (.cause 0#1) :: [] ∧
    { State.reset with sched := [.present (.cause 1#1)] }.sched = .present (.cause 1#1) :: [] :=
  ⟨⟨rfl, rfl⟩, ⟨rfl, rfl⟩, rfl, rfl⟩

theorem witness_ReservedWordsAreRefused :
    (∀ i : Instr, i.wf = true → encode i ≠ .i2cCommand 0x0B000000#32) ∧
    (∀ i : Instr, i.wf = true → encode i ≠ .uartCommand 0x2B000000#32) ∧
    typedSizeOk 3#8 = false ∧ State.reset.i2c.busy = false := by
  refine ⟨fun i _ h => ?_, fun i _ h => ?_, rfl, rfl⟩
  all_goals
    cases i <;> first
      | exact Presented.noConfusion h
      | (have k := congrArg fieldOpc (Presented.i2cCommand.inj h)
         rw [fieldOpc_commandWord] at k
         exact absurd k (by decide))
      | (have k := congrArg fieldOpc (Presented.uartCommand.inj h)
         rw [fieldOpc_commandWord] at k
         exact absurd k (by decide))

theorem witness_LinesAreSteps :
    (State.reset.uart.busy = false ∧ State.reset.burst = 0) ∧
    ((port true {}).uart.busy = false ∧ (port true {}).uart.opened = true ∧
      { port true {} with burst := 0 }.burst = 0) ∧
    { sending with sched := [.mainline] }.sched = .mainline :: [] ∧
    { sending with sched := [.setBurst 7] }.sched = .setBurst 7 :: [] ∧ sending.sched = [] := by decide

theorem witness_ParametersStayAndTracesGrow : ∃ t, step sending = .next t := ⟨_, rfl⟩

theorem witness_StepKeepsMemoryCanonical : sending.cfg.wf ∧ MemInv sending ∧ ∃ t, step sending = .next t :=
  ⟨by decide, by decide, _, rfl⟩

theorem ringInv_sending : RingInv sending :=
  ⟨by decide, by decide, by decide, by decide, by decide, of_job rfl (fun _ => rfl), of_job rfl (by decide),
    of_job rfl (by decide)⟩

theorem witness_StepKeepsRingIndices :
    RingInv sending ∧ (∀ w rest, sending.sched ≠ .present (.uartCommand w) :: rest) ∧ ∃ t, step sending = .next t :=
  ⟨ringInv_sending, fun _ _ h => (by cases h), _, rfl⟩

theorem witness_StepKeepsLatchFlags :
    let s := { sending with uart := { sending.uart with rxError := 0x0F#8 } }
    LatchInv s ∧ ∃ t, step s = .next t :=
  ⟨⟨by decide, of_job rfl ⟨by decide, by decide, by decide⟩⟩, _, rfl⟩

/-- The clauses of StepKeepsLatchFlags about a `recv` that returns. -/
theorem witness_StepKeepsLatchFlags_returns :
    ∀ j ∈ [{ op := .recv, line := .recv5, flags := 0x0F#8 }, { op := .recvBuf, line := .recvBuf9, acc := 0x0F#8 },
      ({ op := .recvBuf, line := .recvBuf5, acc := 0x0F#8, timeout := 0#32 } : Job)],
      let s := port true { busy := true, job := some j }
      LatchInv s ∧ s.uart.job = some j ∧ (j.op = .recv ∧ j.line = .recv5 ∨ j.line = .recvBuf9 ∨
        j.line = .recvBuf5 ∧ j.timeout.toNat ≤ j.waited) := by
  simp only [List.forall_mem_cons, List.not_mem_nil, false_implies, implies_true, and_true]
  refine ⟨⟨⟨by decide, of_job rfl (by decide)⟩, rfl, by decide⟩, ⟨⟨by decide, of_job rfl (by decide)⟩, rfl, by decide⟩,
    ⟨by decide, of_job rfl (by decide)⟩, rfl, by decide⟩

theorem witness_StepKeepsTraceWellFormed :
    let s := { dev .transferringData false 0#16 [] [xOk] with
      sched := [.present (.i2cCommand 0x130000AA#32)]
      i2c := { opened := true, fsm := .transferringData, trace := [.cfgInit, .start false .ok, .txa 0x50#7 false .ok] } }
    I2cInv s ∧ ∃ t, step s = .next t := ⟨by decide, _, rfl⟩

theorem witness_StepKeepsPortInvariant : PortInv sending ∧ ∃ t, step sending = .next t :=
  ⟨⟨rfl, of_job rfl (by decide), by decide, by decide, of_job rfl (by decide), of_job rfl (fun _ => rfl),
    of_job rfl (by decide), of_job rfl (by decide), by decide, by decide⟩, _, rfl⟩

theorem witness_StepKeepsTransmitOrder : RingInv sending ∧ MemInv sending ∧ ∃ t, step sending = .next t :=
  ⟨ringInv_sending, by decide, _, rfl⟩

theorem witness_StepKeepsReceiveOrder : RingInv sending ∧ MemInv sending ∧ ∃ t, step sending = .next t :=
  ⟨ringInv_sending, by decide, _, rfl⟩

theorem witness_NoStepFaults : RingInv sending := ringInv_sending

theorem witness_OnlyTheEnvironmentMovesGie : (∀ b rest, sending.sched ≠ .setGie b :: rest) ∧ ∃ t, step sending = .next t :=
  ⟨fun _ _ h => (by cases h), _, rfl⟩

theorem witness_I2cCommandsTouchNoUart : Instr.i2cIsopen.isI2c = true ∧ ∃ t, exec .i2cIsopen State.reset = .next t :=
  ⟨rfl, _, rfl⟩

theorem witness_UartTouchesNoI2c : Instr.uOpen.isI2c = false ∧ ∃ t, exec .uOpen State.reset = .next t := ⟨rfl, _, rfl⟩

theorem witness_WhatIsNotAdmittedIsRefused :
    (Instr.i2cScan.isI2c = true ∧ { State.reset with i2c := { busy := true } }.i2c.busy = true) ∧
    (Instr.uRecv.isUart = true ∧ sending.uart.busy = true) ∧
    (Instr.i2cScan.wf = true ∧ Instr.i2cScan.anyDevice = false ∧ State.reset.i2c.busy = false ∧
      State.reset.i2c.opened = false) ∧
    (Instr.uRecv.isUart = true ∧ Instr.uRecv.anyPort = false ∧ State.reset.uart.busy = false ∧
      State.reset.uart.opened = false) ∧
    (let s := dev .stopping false 0#16 [] []
     s.i2c.busy = false ∧ s.i2c.opened = true ∧ s.i2c.fsm ≠ .idle ∧ s.i2c.fsm ≠ .transferringData ∧ s.i2c.fsm ≠ .error ∧
      ¬ (s.i2c.fsm = .transferringData ∧ s.i2c.tDir = false) ∧ ¬ (s.i2c.fsm = .transferringData ∧ s.i2c.tDir = true)) ∧
    State.reset.uart.rxHold = none ∧ State.reset.uart.ctrl.txeIe = false := by decide

theorem witness_BusActionOutcome :
    xTo.done = false ∧ (xEr.done = true ∧ xEr.err = true) ∧ xNk.done = true ∧ xNk.err = false := by decide

theorem witness_WaitBusyAndStopResult :
    let s := dev .error false 0#16 [false] []
    s.i2c.busy = false ∧ s.i2c.opened = true ∧ s.busyIn = false :: [] ∧ s.i2c.fsm = .error := by decide

theorem witness_StartResult :
    (let s := dev .error false 0#16 [] [xTo]
     s.i2c.busy = false ∧ s.i2c.opened = true ∧ s.i2c.fsm = .error ∧ s.xferIn = xTo :: [] ∧ evalCond xTo ≠ .ok) ∧
    (let s := dev .idle false 0#16 [] [xOk, xNk]
     s.i2c.busy = false ∧ s.i2c.opened = true ∧ s.i2c.fsm = .idle ∧ s.xferIn = xOk :: [xNk] ∧ evalCond xOk = .ok ∧
      [xNk] = xNk :: []) := by decide

theorem witness_SendByteResult :
    let s := dev .transferringData false 0#16 [] [xNk]
    s.i2c.busy = false ∧ s.i2c.opened = true ∧ s.i2c.fsm = .transferringData ∧ s.i2c.tDir = false ∧ s.xferIn = xNk :: [] := by
  decide

theorem witness_ReceiveByteResult :
    let s := dev .transferringData true 0#16 [] [xD 0xFF#8]
    s.i2c.busy = false ∧ s.i2c.opened = true ∧ s.i2c.fsm = .transferringData ∧ s.i2c.tDir = true ∧
      s.xferIn = xD 0xFF#8 :: [] := by decide

theorem witness_I2cOpenAndCloseResult :
    ((dev .idle false 0#16 [] []).i2c.busy = false ∧ (dev .idle false 0#16 [] []).i2c.opened = true) ∧
    (State.reset.i2c.busy = false ∧ State.reset.i2c.opened = false) ∧
    { State.reset with initIn := [true] }.initIn = true :: [] ∧ { State.reset with initIn := [false] }.initIn = false :: [] := by
  decide

theorem witness_IsOpenResult :
    State.reset.i2c.busy = false ∧ State.reset.uart.busy = false ∧ 2 ≤ { State.reset with burst := 2 }.burst := by decide

theorem witness_I2cResetResult :
    let s := { dev .error false 0#16 [] [] with initIn := [false] }
    s.i2c.busy = false ∧ s.initIn = false :: [] := by decide

theorem witness_TransfersReturn :
    let s := dev .transferringData true 3#16 [] []
    s.i2c.busy = false ∧ s.i2c.opened = true ∧ typedSizeOk 8#8 = true ∧ (8#8).toNat = 8 ∧ s.i2c.oprCount.toNat = 3 := by decide

theorem witness_ScanReturns :
    let s := dev .transferringData true 3#16 [] []
    s.cfg.wf ∧ s.i2c.busy = false ∧ s.i2c.opened = true := by decide

theorem witness_ScanCountsAcknowledgements :
    let s := { dev .idle false 0#16 [true, true] [xOk, xNk, xOk, xOk] with cfg := { scanLo := 126 } }
    let probes := [(xOk, xNk), (xOk, xOk)]
    s.cfg.wf ∧ s.i2c.busy = false ∧ s.i2c.opened = true ∧ s.i2c.fsm = .idle ∧
    probes.length = s.cfg.scanHi + 1 - s.cfg.scanLo ∧
    (∀ p ∈ probes, evalCond p.1 = .ok ∧ (evalTx p.2 = .ok ∨ evalTx p.2 = .nack)) ∧
    s.busyIn = List.replicate probes.length true ++ [] ∧ s.xferIn = probes.flatMap (fun p => [p.1, p.2]) ++ [] := by decide

/-- The clauses of ScanCountsAcknowledgements about a scan that ends early, at its first and at its last probe. -/
theorem witness_ScanCountsAcknowledgements_failing :
    (let s := { dev .idle false 0#16 [false] [] with cfg := { scanLo := 126 } }
     s.cfg.wf ∧ s.i2c.fsm = .idle ∧ ([] : List (Xfer × Xfer)).length < s.cfg.scanHi + 1 - s.cfg.scanLo ∧
      s.busyIn = List.replicate 0 true ++ false :: []) ∧
    (let s := { dev .idle false 0#16 [true, true] [xOk, xNk, xTo] with cfg := { scanLo := 126 } }
     [(xOk, xNk)].length < s.cfg.scanHi + 1 - s.cfg.scanLo ∧ s.busyIn = List.replicate 1 true ++ true :: [] ∧
      s.xferIn = [(xOk, xNk)].flatMap (fun p => [p.1, p.2]) ++ xTo :: [] ∧ evalCond xTo ≠ .ok) ∧
    (let s := { dev .idle false 0#16 [true, true] [xOk, xOk, xOk, xEr] with cfg := { scanLo := 126 } }
     [(xOk, xOk)].length < s.cfg.scanHi + 1 - s.cfg.scanLo ∧ s.busyIn = List.replicate 1 true ++ true :: [] ∧
      s.xferIn = [(xOk, xOk)].flatMap (fun p => [p.1, p.2]) ++ xOk :: xEr :: [] ∧ evalCond xOk = .ok ∧ evalTx xEr ≠ .ok ∧
      evalTx xEr ≠ .nack) := by decide

theorem witness_WriteResult :
    let s := dev .error false 2#16 [true] [xOk, xOk, xOk, xOk, xOk]
    let data := [xOk, xOk]
    s.i2c.busy = false ∧ s.i2c.opened = true ∧ s.busyIn = true :: [] ∧ s.xferIn = xOk :: xOk :: xOk :: data ++ [] ∧
    data.length = s.i2c.oprCount.toNat ∧ evalCond xOk = .ok ∧ evalTx xOk = .ok ∧ (∀ r ∈ data, evalTx r = .ok) := by decide

/-- A start that fails, for a device whose bus is held, and a last data byte that fails; write and write<T>. -/
theorem witness_WriteStopsAtFirstError :
    (let s := dev .error false 2#16 [true] [xTo]
     s.i2c.busy = false ∧ s.i2c.opened = true ∧ s.busyIn = true :: [] ∧
      failsAt (writeActions true 0x50#7 0x10#8 ((List.range s.i2c.oprCount.toNat).map fun k =>
        Memory.read s.hbuf ((s.i2c.oprBuf + k) % 2 ^ s.cfg.bufaw))) [] (.start true) s.xferIn [] xTo []) ∧
    (let s := dev .idle false 2#16 [true] [xOk, xOk, xOk, xOk, xNk]
     failsAt (writeActions false 0x50#7 0x10#8 ((List.range s.i2c.oprCount.toNat).map fun k =>
        Memory.read s.hbuf ((s.i2c.oprBuf + k) % 2 ^ s.cfg.bufaw)))
      [.start false, .address 0x50#7 false, .send 0x10#8, .send 0xAA#8] (.send 0xBB#8) s.xferIn [xOk, xOk, xOk, xOk] xNk []) ∧
    (let s := dev .idle false 0#16 [true] [xOk, xOk, xNk]
     typedSizeOk 1#8 = true ∧ s.i2c.scratch.wf ∧
      failsAt (writeActions false 0x50#7 0x10#8 [0#8]) [.start false, .address 0x50#7 false] (.send 0x10#8) s.xferIn
        [xOk, xOk] xNk []) := by
  refine ⟨⟨rfl, rfl, rfl, ⟨_, rfl⟩, by decide⟩, ⟨⟨_, rfl⟩, by decide⟩, rfl, by decide, ⟨_, rfl⟩, by decide⟩

theorem witness_ReadResult :
    let s := dev .idle false 2#16 [true] [xOk, xOk, xOk, xOk, xOk, xD 1#8, xD 0#8]
    let data := [xD 1#8, xD 0#8]
    s.i2c.busy = false ∧ s.i2c.opened = true ∧ s.busyIn = true :: [] ∧ s.hbuf.wf ∧
    s.xferIn = xOk :: xOk :: xOk :: xOk :: xOk :: data ++ [] ∧ data.length = s.i2c.oprCount.toNat ∧
    data.length ≤ 2 ^ s.cfg.bufaw ∧ evalCond xOk = .ok ∧ evalTx xOk = .ok ∧ (∀ r ∈ data, evalRx r = .ok) := by decide

theorem witness_RawReadResult :
    let s := dev .transferringData true 2#16 [true] [xOk, xOk, xD 1#8, xD 0#8]
    let data := [xD 1#8, xD 0#8]
    s.i2c.busy = false ∧ s.i2c.opened = true ∧ s.busyIn = true :: [] ∧ s.hbuf.wf ∧
    s.xferIn = xOk :: xOk :: data ++ [] ∧ data.length = s.i2c.oprCount.toNat ∧
    data.length ≤ 2 ^ s.cfg.bufaw ∧ evalCond xOk = .ok ∧ evalTx xOk = .ok ∧ (∀ r ∈ data, evalRx r = .ok) := by decide

/-- The clauses of ReadResult, RawReadResult and TypedReadResult about a read that fails: at the second start, at the last data
byte, at the first data byte. -/
theorem witness_ReadResult_failing :
    (let s := dev .idle false 2#16 [true] [xOk, xOk, xOk, xEr]
     failsAt (readActions false 0x50#7 0x10#8 s.i2c.oprCount.toNat)
      [.start false, .address 0x50#7 false, .send 0x10#8] (.start true) s.xferIn [xOk, xOk, xOk] xEr []) ∧
    (let s := dev .transferringData true 2#16 [true] [xOk, xOk, xD 1#8, xTo]
     failsAt (rawActions true 0x50#7 s.i2c.oprCount.toNat) [.start true, .address 0x50#7 true, .receive true]
      (.receive false) s.xferIn [xOk, xOk, xD 1#8] xTo []) ∧
    (let s := dev .idle false 0#16 [true] (List.replicate 5 xOk ++ [xTo])
     failsAt (readActions false 0x50#7 0x10#8 1)
      [.start false, .address 0x50#7 false, .send 0x10#8, .start true, .address 0x50#7 true] (.receive false) s.xferIn
      (List.replicate 5 xOk) xTo []) := by
  refine ⟨⟨⟨_, rfl⟩, by decide⟩, ⟨⟨_, rfl⟩, by decide⟩, ⟨_, rfl⟩, by decide⟩

theorem witness_TypedWriteResult :
    let s := dev .idle false 0#16 [true] (List.replicate 11 xOk)
    let data := List.replicate 8 xOk
    s.i2c.busy = false ∧ s.i2c.opened = true ∧ s.i2c.scratch.wf ∧ typedSizeOk 8#8 = true ∧ s.busyIn = true :: [] ∧
    s.xferIn = xOk :: xOk :: xOk :: data ++ [] ∧ data.length = (8#8).toNat ∧ evalCond xOk = .ok ∧ evalTx xOk = .ok ∧
    (∀ r ∈ data, evalTx r = .ok) := by decide

theorem witness_TypedReadResult :
    let data := [xD 0x80#8]
    let s := dev .idle false 0#16 [true] (List.replicate 5 xOk ++ data)
    s.i2c.busy = false ∧ s.i2c.opened = true ∧ s.i2c.scratch.wf ∧ typedSizeOk 1#8 = true ∧ s.busyIn = true :: [] ∧
    s.xferIn = xOk :: xOk :: xOk :: xOk :: xOk :: data ++ [] ∧ data.length = (1#8).toNat ∧ evalCond xOk = .ok ∧
    evalTx xOk = .ok ∧ (∀ r ∈ data, evalRx r = .ok) := by decide

theorem witness_BusyTimeoutPaysOwedStop :
    let s := dev .transferringData true 0#16 [false] []
    s.cfg.wf ∧ s.i2c.busy = false ∧ s.i2c.opened = true ∧ s.busyIn = false :: [] ∧ s.i2c.fsm = .transferringData ∧
      typedSizeOk 8#8 = true := by decide

theorem witness_I2cFrame :
    Instr.i2cWaitbusy.isI2c = true ∧ ∃ t, exec .i2cWaitbusy (dev .idle false 0#16 [true] []) = .next t := ⟨rfl, _, rfl⟩

theorem witness_RingArithmetic : 2 ≤ 2 ∧ 1 < 2 ∧ 0 < 2 ∧ ringNext 2 0 ≠ 0 ∧ 1 ≠ 0 := by decide

theorem witness_OnReceiveResult :
    (let s := port true { rx := ⟨2, 0, []⟩, ctrl := ctrlOn false, rxHold := some (0x55#8, { fe := true }) }
     s.gie = true ∧ s.uart.rxHold = some (0x55#8, { fe := true }) ∧ s.uart.ctrl.rxIe = true ∧ s.uart.rx.head < s.cfg.nRx ∧
      (s.uart.rx.head + 1) % s.cfg.nRx ≠ s.uart.rx.tail) ∧
    (let s := port true { rx := ⟨3, 0, []⟩, ctrl := ctrlOn false, rxHold := some (0x55#8, { fe := true }) }
     s.gie = true ∧ s.uart.rxHold = some (0x55#8, { fe := true }) ∧ s.uart.ctrl.rxIe = true ∧ s.uart.rx.head < s.cfg.nRx ∧
      (s.uart.rx.head + 1) % s.cfg.nRx = s.uart.rx.tail) := by decide

theorem witness_OnTransmitEmptyResult :
    (let s := port true { tx := ⟨3, 3, []⟩, ctrl := ctrlOn true }
     s.gie = true ∧ s.uart.txHold = none ∧ s.uart.ctrl.txeIe = true ∧ s.uart.tx.tail < s.cfg.nTx ∧
      s.uart.tx.head = s.uart.tx.tail) ∧
    (let s := port true { tx := ⟨0, 3, []⟩, ctrl := ctrlOn true }
     s.gie = true ∧ s.uart.txHold = none ∧ s.uart.ctrl.txeIe = true ∧ s.uart.tx.tail < s.cfg.nTx ∧
      s.uart.tx.head ≠ s.uart.tx.tail) := by decide

theorem witness_EntryPointsCommute :
    let s := { sending with uart := { sending.uart with rxHold := some (1#8, {}) } }
    RingInv s ∧ s.gie = true ∧ rxPending s.uart = true ∧ txePending s.uart = true :=
  ⟨⟨by decide, by decide, by decide, by decide, by decide, of_job rfl (fun _ => rfl), of_job rfl (by decide),
    of_job rfl (by decide)⟩, by decide, by decide, by decide⟩

theorem witness_PumpIsTheInterrupt :
    ({ sending with gie := false }.gie = false ∧ txePending { sending with gie := false }.uart = true) ∧ sending.gie = true := by
  decide

/-- The last byte of a buffer that wraps is in it and the next is not; a string's terminator is in its buffer and the byte after it
is not. -/
theorem witness_PeripheralAndHostMoves :
    (∃ rest, { sending with sched := [.hwRx 1#8 {}] }.sched = .hwRx 1#8 {} :: rest) ∧
    { sending with sched := [.setGie false] }.sched = .setGie false :: [] ∧
    (let j : Job := { op := .recvBuf, line := .recvBuf1, buf := 0xFFFF, count := 2#16 }
     let s := { State.reset with sched := [.hostRead 0], uart := { busy := true, job := some j } }
     s.uart.job = some j ∧ inBuffer s j 0 ∧ s.sched = .hostRead 0 :: [] ∧ 1 < 2 ^ s.cfg.bufaw ∧ ¬ inBuffer s j 1) ∧
    (let j : Job := { op := .sendStr true, line := .sendStr1, buf := 0xFFFF }
     let s := { State.reset with
       sched := [.hostWrite 0 1#8], hbuf := [(0xFFFF, 0x4F#8)], uart := { busy := true, job := some j } }
     s.uart.job = some j ∧ inBuffer s j 0 ∧ s.sched = .hostWrite 0 1#8 :: [] ∧ ¬ inBuffer s j 1) := by
  refine ⟨⟨[], rfl⟩, rfl, ⟨rfl, ⟨1, by decide, by decide, .inl ⟨.inr rfl, by decide⟩⟩, rfl, by decide, ?_⟩,
    rfl, ⟨1, by decide, by decide, .inr ⟨⟨true, rfl⟩, fun m h => ?_⟩⟩, rfl, ?_⟩
  · rintro ⟨k, hk, ha, ⟨-, hc⟩ | ⟨⟨_, h⟩, -⟩⟩
    · simp [State.reset, State.resetWith] at hk ha hc
      omega
    · cases h
  · obtain rfl : m = 0 := by omega
    decide
  · rintro ⟨k, hk, ha, ⟨⟨_, h⟩ | h, -⟩ | ⟨-, hz⟩⟩
    · cases h
    · cases h
    · simp only [State.reset, State.resetWith] at hk ha
      exact hz 1 (by omega) (by decide)

theorem witness_UartOpenResult :
    State.reset.uart.busy = false ∧ 5 ≤ { State.reset with burst := 5 }.burst ∧ State.reset.uart.opened = false ∧ (port true {}).uart.opened = true := by
  decide

theorem witness_UartCloseResult :
    (State.reset.uart.busy = false ∧ 7 ≤ { State.reset with burst := 7 }.burst ∧ State.reset.uart.opened = false) ∧
    (let s := { port true { tx := ⟨3, 3, []⟩ } with burst := 7 }
     s.uart.busy = false ∧ 7 ≤ s.burst ∧ s.uart.opened = true ∧ s.uart.tx.head = s.uart.tx.tail ∧ s.uart.txHold = none ∧
      s.uart.txShift = none) := by decide

theorem witness_AvailableResult :
    let s := { port true { rx := ⟨0, 1, []⟩ } with burst := 3 }
    s.uart.busy = false ∧ s.uart.opened = true ∧ 3 ≤ s.burst := by decide

theorem witness_FlushResult :
    let s := { port true {} with burst := 2 }
    s.uart.busy = false ∧ s.uart.opened = true ∧ 2 ≤ s.burst ∧ s.uart.tx.head = s.uart.tx.tail ∧ s.uart.txHold = none ∧
      s.uart.txShift = none := by decide

theorem witness_DrainEndsWhenIdle :
    ∀ op ∈ [UOp.flush true, .send true, .sendBuf true, .sendStr true, .closing],
      let j : Job := { op := op, line := .flushOut1 }
      let s := port true { busy := true, job := some j }
      s.uart.job = some j ∧ j.line = .flushOut1 ∧ s.uart.tx.head = s.uart.tx.tail ∧ s.uart.txHold = none ∧
        s.uart.txShift = none := by decide

/-- The drain loop with a byte queued, with one held, with one being shifted. -/
theorem witness_DrainEndsWhenIdle_waiting :
    let j : Job := { op := .flush true, line := .flushOut1 }
    let s := port true { busy := true, job := some j, tx := ⟨3, 2, []⟩ }
    s.uart.job = some j ∧ j.line = .flushOut1 ∧ s.uart.tx.head ≠ s.uart.tx.tail ∧ RingInv s ∧
      (port true { busy := true, job := some j, txHold := some 1#8 }).uart.txHold ≠ none ∧
      (port true { busy := true, job := some j, txShift := some 1#8 }).uart.txShift ≠ none :=
  ⟨rfl, rfl, by decide, ⟨by decide, by decide, by decide, by decide, by decide, of_job rfl (by decide), of_job rfl (by decide),
    of_job rfl (by decide)⟩, by decide, by decide⟩

/-- R186, the rule's own example: `GIE` = 0, two bytes queued: one iteration pumps the older byte and the loop goes on. -/
theorem test_drain_pumps_and_goes_on :
    view (runLines 2 (port false { tx := ⟨2, 0, [(0, 0x41#8), (1, 0x42#8)]⟩, ctrl := ctrlOn true, busy := true
                                   job := some { op := .flush true, line := .flushOut1 } })) (fun t =>
      (t.uart.tx.tail, t.uart.txHold, t.uart.busy, t.uart.job.map (·.line))) =
    some (1, some 0x41#8, true, some .flushOut1) := by decide

theorem witness_SendResult :
    let s := port true { tx := ⟨3, 1, []⟩ }
    s.uart.busy = false ∧ s.uart.opened = true ∧ s.uart.tx.head < s.cfg.nTx ∧
      (s.uart.tx.head + 1) % s.cfg.nTx ≠ s.uart.tx.tail ∧ 8 ≤ { s with burst := 8 }.burst ∧ { s with burst := 7 }.burst = 7 := by
  decide

theorem witness_SendOnStuckRing :
    let s := { port true { tx := ⟨3, 0, []⟩, oprTimeout := 50#32 } with burst := 16 }
    s.uart.busy = false ∧ s.uart.opened = true ∧ (s.uart.tx.head + 1) % s.cfg.nTx = s.uart.tx.tail ∧
      0 < s.cfg.pollQuantum ∧ s.gie = true ∧ s.uart.oprTimeout ≠ 0#32 ∧
      2 * (s.uart.oprTimeout.toNat / s.cfg.pollQuantum + 3) ≤ s.burst ∧
      { s.uart with oprTimeout := 0#32 }.oprTimeout = 0#32 := by decide

/-- A port with a full transmit ring, no operation in progress and interrupts disabled. -/
def fullPort : State := port false { tx := ⟨3, 0, [(0, 1#8)]⟩, ctrl := ctrlOn true }

theorem ringInv_port {g : Bool} {u : Uart} (hr : u.rx.head < 4 ∧ u.rx.tail < 4) (ht : u.tx.head < 4 ∧ u.tx.tail < 4)
    (hj : u.job = none) : RingInv (port g u) :=
  ⟨(by decide : Config.wf { nRx := 4, nTx := 4 }), hr.1, hr.2, ht.1, ht.2, fun j h => by simp [port, hj] at h, fun j h => by simp [port, hj] at h,
    fun j h => by simp [port, hj] at h⟩

/-- The clauses of SendOnStuckRing about the buffer and string forms: with room for one byte and nobody to take any, and with the pump
making room for one more. -/
theorem witness_SendOnStuckRing_forms :
    (let s := { port true { tx := ⟨3, 1, []⟩, txHold := some 9#8, oprCount := 2#16 } with
       cfg := { nRx := 4, nTx := 4, sendbufTimeout := 20#32 }, hbuf := [(0, 1#8), (1, 2#8)] }
     MemInv s ∧ s.uart.busy = false ∧ s.uart.opened = true ∧ s.cfg.sendbufTimeout ≠ 0#32 ∧
      s.cfg.nTx - 1 - ringCount s.cfg.nTx s.uart.tx.head s.uart.tx.tail = 1 ∧
      ¬ (s.gie = false ∧ s.uart.txHold = none) ∧ 1 < s.uart.oprCount.toNat ∧
      (∀ k ≤ 1, Memory.read s.hbuf ((s.uart.oprBuf + k) % 2 ^ s.cfg.bufaw) ≠ 0#8) ∧
      14 * 1 + 2 * (s.cfg.sendbufTimeout.toNat / s.cfg.pollQuantum) + 20 ≤ s.burst) ∧
    (let s := { port false { oprCount := 5#16 } with
       cfg := { nRx := 4, nTx := 4, sendbufTimeout := 20#32 }, burst := 76 }
     s.cfg.nTx - 1 - ringCount s.cfg.nTx s.uart.tx.head s.uart.tx.tail = 3 ∧ s.gie = false ∧ s.uart.txHold = none ∧
      3 + 1 < s.uart.oprCount.toNat ∧
      13 * (3 + 1) + 2 * (s.cfg.sendbufTimeout.toNat / s.cfg.pollQuantum) + 20 ≤ s.burst) := by decide

theorem ringInv_stuck :
    RingInv { port true { tx := ⟨3, 1, []⟩, txHold := some 9#8, oprCount := 2#16 } with
      cfg := { nRx := 4, nTx := 4, sendbufTimeout := 20#32 } } :=
  ⟨by decide, by decide, by decide, by decide, by decide, fun _ h => (by cases h), fun _ h => (by cases h),
    fun _ h => (by cases h)⟩

theorem witness_SendPumpsWhenInterruptsAreOff :
    RingInv fullPort ∧ fullPort.uart.busy = false ∧ fullPort.uart.opened = true ∧ fullPort.gie = false ∧
      fullPort.uart.txHold = none ∧ fullPort.uart.ctrl.txeIe = true ∧
      (fullPort.uart.tx.head + 1) % fullPort.cfg.nTx = fullPort.uart.tx.tail ∧ 10 ≤ fullPort.burst :=
  ⟨ringInv_port (by decide) (by decide) rfl, by decide⟩

theorem witness_SendBufferResult :
    let s := { port true { tx := ⟨3, 2, []⟩, oprCount := 2#16, oprBuf := 0xFFFF } with hbuf := [(0, 2#8), (0xFFFF, 1#8)] }
    RingInv s ∧ MemInv s ∧ s.uart.busy = false ∧ s.uart.opened = true ∧
      ringCount s.cfg.nTx s.uart.tx.head s.uart.tx.tail + s.uart.oprCount.toNat < s.cfg.nTx ∧
      13 * s.uart.oprCount.toNat + 4 ≤ s.burst ∧ 13 * s.uart.oprCount.toNat + 3 = { s with burst := 29 }.burst :=
  ⟨ringInv_port (g := true) (u := { tx := ⟨3, 2, []⟩, oprCount := 2#16, oprBuf := 0xFFFF }) (by decide) (by decide) rfl, by decide,
    by decide⟩

theorem witness_SendStringResult :
    let s := { port true { tx := ⟨3, 2, []⟩, oprBuf := 0xFFFE } with hbuf := [(0xFFFE, 2#8), (0xFFFF, 1#8)] }
    RingInv s ∧ MemInv s ∧ s.uart.busy = false ∧ s.uart.opened = true ∧
      (∀ k < 2, Memory.read s.hbuf ((s.uart.oprBuf + k) % 2 ^ s.cfg.bufaw) ≠ 0#8) ∧
      Memory.read s.hbuf ((s.uart.oprBuf + 2) % 2 ^ s.cfg.bufaw) = 0#8 ∧
      ringCount s.cfg.nTx s.uart.tx.head s.uart.tx.tail + 2 < s.cfg.nTx ∧ 14 * 2 + 6 ≤ s.burst ∧
      14 * 2 + 5 = { s with burst := 33 }.burst :=
  ⟨ringInv_port (g := true) (u := { tx := ⟨3, 2, []⟩, oprBuf := 0xFFFE }) (by decide) (by decide) rfl, by decide, by decide⟩

theorem witness_RecvResult :
    (let s := { port true { rx := ⟨3, 3, []⟩ } with burst := 5 }
     s.uart.busy = false ∧ s.uart.opened = true ∧ 5 ≤ s.burst ∧ s.uart.rx.head = s.uart.rx.tail) ∧
    (let s := { port true { rx := ⟨0, 3, []⟩ } with burst := 5 }
     s.uart.busy = false ∧ s.uart.opened = true ∧ 5 ≤ s.burst ∧ s.uart.rx.head ≠ s.uart.rx.tail ∧
      s.uart.rx.tail < s.cfg.nRx) := by decide

theorem witness_RecvBufferResult :
    let s := { port true { rx := ⟨1, 3, [(3, 1#8)]⟩, oprCount := 2#16, oprBuf := 0xFFFF } with burst := 21 }
    RingInv s ∧ MemInv s ∧ s.uart.busy = false ∧ s.uart.opened = true ∧
      s.uart.oprCount.toNat ≤ ringCount s.cfg.nRx s.uart.rx.head s.uart.rx.tail ∧
      s.uart.oprCount.toNat ≤ 2 ^ s.cfg.bufaw ∧ 9 * s.uart.oprCount.toNat + 3 ≤ s.burst :=
  ⟨ringInv_port (g := true) (u := { rx := ⟨1, 3, [(3, 1#8)]⟩, oprCount := 2#16, oprBuf := 0xFFFF }) (by decide) (by decide) rfl,
    by decide, by decide⟩

theorem witness_RecvBufferTimesOut :
    let s := { port true { rx := ⟨3, 3, []⟩, oprCount := 1#16, oprTimeout := 0#32 } with burst := 13 }
    s.uart.busy = false ∧ s.uart.opened = true ∧ s.uart.rx.head = s.uart.rx.tail ∧ s.uart.oprCount ≠ 0#16 ∧
      0 < s.cfg.pollQuantum ∧ 6 * (s.uart.oprTimeout.toNat / s.cfg.pollQuantum + 2) + 1 ≤ s.burst := by decide

/-- The clause of RecvBufferTimesOut about a partial receipt: one byte waiting, two asked for, no waiting. -/
theorem witness_RecvBufferTimesOut_partial :
    let s := { port true { rx := ⟨0, 3, [(3, 1#8)]⟩, oprCount := 2#16, oprBuf := 0xFFFF } with burst := 22 }
    RingInv s ∧ MemInv s ∧ s.uart.busy = false ∧ s.uart.opened = true ∧
      ringCount s.cfg.nRx s.uart.rx.head s.uart.rx.tail = 1 ∧ 1 < s.uart.oprCount.toNat ∧ 1 ≤ 2 ^ s.cfg.bufaw ∧
      9 * 1 + 6 * (s.uart.oprTimeout.toNat / s.cfg.pollQuantum + 2) + 1 ≤ s.burst :=
  ⟨ringInv_port (g := true) (u := { rx := ⟨0, 3, [(3, 1#8)]⟩, oprCount := 2#16, oprBuf := 0xFFFF }) (by decide) (by decide) rfl,
    by decide, by decide⟩

theorem witness_UartFrame : Instr.uRecv.isUart = true ∧ ∃ t, exec .uRecv (port true {}) = .next t := ⟨rfl, _, rfl⟩

end Sys2Proof.Tests
end

section
/-! SUPPORT. One move of the schedule, the lines of a UART operation as steps, and the bytes of the host buffer that an operation in
progress owns (spec 00_scope.md R10, R13; 10_state.md R40, R42; 20_memory.md R67, R68); from them the statements LinesAreSteps
and PeripheralAndHostMoves. -/

namespace Sys2Proof.Machine

/-! ## One move of the schedule (R10, R11) -/

/-- A move that presents nothing is taken off the schedule and carried out. -/
theorem step_eq_move {s : State} {e : Event} {rest : List Event} (h : s.sched = e :: rest)
    (he : ∀ p, e ≠ .present p) : step s = move e { s with sched := rest } := by
  cases e with
  | present p => exact absurd rfl (he p)
  | _ => simp only [step, h]

theorem step_of_sched_nil {s : State} (h : s.sched = []) : step s = mainlineStep s := by
  simp only [step, h]

/-! ## Lines and steps (R10, R45) -/

theorem andThen_congr {o : Out} {f g : State → Out} (h : ∀ t, o = .next t → f t = g t) : andThen o f = andThen o g := by
  cases o with
  | next t => exact h t rfl
  | fault e => rfl
  | refused r => rfl

/-- The first line is a mainline move, and with no operation in progress neither changes anything. -/
theorem runLines_succ (n : Nat) (s : State) : runLines (n + 1) s = andThen (mainlineStep s) (runLines n) := by
  cases hj : s.uart.job with
  | none => simp [mainlineStep, hj, runLines_none hj]
  | some j => simp [mainlineStep, hj, runLines_some hj]

theorem runLines_one (s : State) : runLines 1 s = mainlineStep s := by
  rw [runLines_succ]
  cases mainlineStep s <;> rfl

/-- A mainline move takes nothing off the schedule and puts nothing on it. -/
theorem mainlineStep_sched {s t : State} (h : mainlineStep s = .next t) : t.sched = s.sched :=
  (keepsTo_runLines 1 s t (runLines_one s ▸ h)).sched

theorem run_succ (n : Nat) (s : State) :
    Host.Core.run core (n + 1) s = andThen (step s) (Host.Core.run core n) := by
  refine (Host.Core.run.eq_2 core s n).trans ?_
  change _ = andThen (core.step s) _
  cases core.step s <;> rfl

/-- With an empty schedule the machine's run is the run of the lines. -/
theorem run_eq_runLines (n : Nat) : ∀ s : State, s.sched = [] → Host.Core.run core n s = runLines n s := by
  induction n with
  | zero => exact fun _ _ => rfl
  | succ n ih =>
    intro s h
    rw [run_succ, runLines_succ, step_of_sched_nil h]
    exact andThen_congr fun t ht => ih t ((mainlineStep_sched ht).trans h)

/-- Line by line, an admitted UART command is only issued (R74, R96). -/
theorem uartCommand_of_burst_zero {refusal : Option Refusal} {op : UOp} {first : Line} {b : Byte} {s : State}
    (hb : s.uart.busy = false) (h0 : s.burst = 0) (hr : refusal = none) :
    uartCommand refusal op first b s =
      .next (s.mapUart fun u => { u with busy := true, job := some (jobAt op first b u) }) := by
  rw [uartCommand_eq hb hr, h0, runLines_zero]

/-! ## The abstract peripheral (R40, R42) -/

theorem hwRx_eq (b : Byte) (e : HwFlags) (s : State) :
    hwRx b e s = { s with
      uart := if s.uart.ctrl.rxEn = true ∧ s.uart.rxHold = none then
        { s.uart with rxHold := some (b, e), wireIn := s.uart.wireIn ++ [(b, e)] } else s.uart } := by
  by_cases h : s.uart.ctrl.rxEn = true ∧ s.uart.rxHold = none <;> simp [hwRx, State.mapUart, h]

theorem hwTxTake_eq (s : State) :
    hwTxTake s = { s with
      uart := if s.uart.ctrl.txEn = true ∧ s.uart.txHold ≠ none ∧ s.uart.txShift = none then
        { s.uart with txShift := s.uart.txHold, txHold := none } else s.uart } := by
  cases hh : s.uart.txHold with
  | none => simp [hwTxTake, hh]
  | some b =>
    cases hs : s.uart.txShift with
    | some c => simp [hwTxTake, hh, hs]
    | none => cases hen : s.uart.ctrl.txEn <;> simp [hwTxTake, State.mapUart, hh, hs, hen]

theorem hwTxDone_eq (s : State) :
    hwTxDone s = { s with
      uart := { s.uart with wireOut := s.uart.wireOut ++ s.uart.txShift.toList, txShift := none } } := by
  cases hs : s.uart.txShift with
  | none =>
    simp only [hwTxDone, hs, Option.toList_none, List.append_nil]
    rw [← hs]
  | some b => simp [hwTxDone, State.mapUart, hs]

/-! ## The buffer of the operation in progress (R67, R68) -/

/-- Taking `buf` away again, in a space of `n` bytes that wraps. -/
theorem add_add_sub_mod {n buf : Nat} (hn : 0 < n) (x : Nat) : (buf + x + (n - buf % n)) % n = x % n := by
  have hlt : buf % n < n := Nat.mod_lt _ hn
  have hbuf : n * (buf / n) + buf % n = buf := Nat.div_add_mod buf n
  have hsum : buf + x + (n - buf % n) = x + n * (buf / n + 1) := by
    rw [Nat.mul_succ]
    omega
  rw [hsum, Nat.add_mul_mod_self_left]

/-- In a space of `n` bytes that wraps, each address is at exactly one offset from a buffer's base. -/
theorem exists_offset_iff {n buf a : Nat} {P : Nat → Prop} (ha : a < n) :
    (∃ k < n, a = (buf + k) % n ∧ P k) ↔ P ((a + n - buf % n) % n) := by
  have hn : 0 < n := by omega
  rw [Nat.add_sub_assoc (Nat.mod_lt buf hn).le]
  constructor
  · rintro ⟨k, hk, rfl, hP⟩
    rwa [Nat.mod_add_mod, add_add_sub_mod hn, Nat.mod_eq_of_lt hk]
  · intro hP
    refine ⟨_, Nat.mod_lt _ hn, ?_, hP⟩
    rw [Nat.add_mod_mod, ← Nat.add_assoc, add_add_sub_mod hn, Nat.mod_eq_of_lt ha]

theorem noZeroBefore_eq_true {c : Config} {m : Memory} {buf : Nat} : ∀ {k : Nat},
    noZeroBefore c m buf k = true ↔ ∀ i < k, Memory.read m ((buf + i) % 2 ^ c.bufaw) ≠ 0#8
  | 0 => by simp [noZeroBefore]
  | k + 1 => by
    rw [Nat.forall_lt_succ_right, ← noZeroBefore_eq_true]
    simp [noZeroBefore, effAddr, hbufSize]

theorem jobOwns_eq_true {s : State} {j : Job} {a : Nat} (ha : a < 2 ^ s.cfg.bufaw) :
    jobOwns s j a = true ↔ inBuffer s j a := by
  refine .trans ?_ (exists_offset_iff (n := hbufSize s.cfg) ha).symm
  cases hop : j.op <;> simp [jobOwns, hop, noZeroBefore_eq_true]

theorem inBuffer_lt {s : State} {j : Job} {a : Nat} (h : inBuffer s j a) : a < 2 ^ s.cfg.bufaw := by
  obtain ⟨k, -, rfl, -⟩ := h
  exact Nat.mod_lt _ (Nat.two_pow_pos _)

theorem owned_of_inBuffer {s : State} {j : Job} {a : Nat} (hj : s.uart.job = some j) (hin : inBuffer s j a) :
    owned s a = true := by
  simpa only [owned, hj] using (jobOwns_eq_true (inBuffer_lt hin)).2 hin

theorem owned_of_not_inBuffer {s : State} {a : Nat} (ha : a < 2 ^ s.cfg.bufaw)
    (hfree : ∀ j, s.uart.job = some j → ¬ inBuffer s j a) : owned s a = false := by
  cases hj : s.uart.job with
  | none => simp only [owned, hj]
  | some j =>
    simp only [owned, hj]
    exact Bool.eq_false_iff.2 fun h => hfree j hj ((jobOwns_eq_true ha).1 h)

/-! ## The host's accesses (R68) -/

theorem hostAccess_of_not_inBuffer {s : State} {a : Nat} (ha : a < 2 ^ s.cfg.bufaw)
    (hfree : ∀ j, s.uart.job = some j → ¬ inBuffer s j a) :
    (∀ b, hostWrite a b s = .next (s.writeHbuf a b)) ∧ hostRead a s = .next s := by
  simp [hostWrite, hostRead, hbufSize, Nat.mod_eq_of_lt ha, owned_of_not_inBuffer ha hfree]

theorem hostAccess_of_inBuffer {s : State} {j : Job} {a : Nat} (hj : s.uart.job = some j) (hin : inBuffer s j a) :
    (∀ b, hostWrite a b s = .refused .bufferOwned) ∧ hostRead a s = .refused .bufferOwned := by
  simp [hostWrite, hostRead, hbufSize, Nat.mod_eq_of_lt (inBuffer_lt hin), owned_of_inBuffer hj hin]

/-! ## The statements -/

/-- Settles O6: an admitted command with `burst` = 0 is only issued; a mainline move is one line; and with an empty schedule the run of
the machine is the run of the lines, by induction on their number. -/
theorem linesAreSteps : Obligations.LinesAreSteps := by
  unfold Obligations.LinesAreSteps
  refine ⟨fun s hb h0 => ⟨⟨?_, ?_, ?_⟩, fun ho => ?_⟩, fun s rest h => ?_, fun s rest n h => ?_, run_eq_runLines⟩
  · exact uartCommand_of_burst_zero hb h0 rfl
  · exact uartCommand_of_burst_zero hb h0 rfl
  · exact uartCommand_of_burst_zero hb h0 rfl
  · have hr := needsUartOpen_eq_none.2 ho
    refine ⟨?_, ?_, ?_, fun drain b => ?_, fun drain => ⟨?_, ?_⟩, ?_, ?_⟩ <;>
      exact uartCommand_of_burst_zero hb h0 hr
  · exact (step_eq_move h nofun).trans (runLines_one _).symm
  · exact step_eq_move h nofun

/-- Settles O46: each move is taken off the schedule and carried out; the peripheral's have an effect where they are enabled, and a
host access is refused exactly where the operation in progress owns the byte. -/
theorem peripheralAndHostMoves : Obligations.PeripheralAndHostMoves := by
  unfold Obligations.PeripheralAndHostMoves
  intro s rest
  refine ⟨fun b e h => ?_, fun h => ?_, fun h => ?_, fun v h => step_eq_move h nofun, fun v h => step_eq_move h nofun,
    fun v h => step_eq_move h nofun, fun v h => step_eq_move h nofun, fun v h => step_eq_move h nofun,
    fun v h => step_eq_move h nofun, fun v h => step_eq_move h nofun, fun b h => step_eq_move h nofun,
    fun a ha hfree => ?_, fun a j hj hin => ?_⟩
  · exact (step_eq_move h nofun).trans (congrArg _ (hwRx_eq b e { s with sched := rest }))
  · exact (step_eq_move h nofun).trans (congrArg _ (hwTxTake_eq { s with sched := rest }))
  · exact (step_eq_move h nofun).trans (congrArg _ (hwTxDone_eq { s with sched := rest }))
  · obtain ⟨hwrite, hread⟩ := hostAccess_of_not_inBuffer (s := { s with sched := rest }) ha hfree
    exact ⟨fun b h => (step_eq_move h nofun).trans (hwrite b), fun h => (step_eq_move h nofun).trans hread⟩
  · obtain ⟨hwrite, hread⟩ := hostAccess_of_inBuffer (s := { s with sched := rest }) hj hin
    exact ⟨fun b h => (step_eq_move h nofun).trans (hwrite b), fun h => (step_eq_move h nofun).trans hread⟩

end Sys2Proof.Machine

end

section
/-! SUPPORT. What an outcome ensures: the rules for outcomes, for the lines of an operation, for the returns of the shared
routines, and for on-transmit-empty and the pump (spec 42_uart_ring_and_handlers.md R166, R167). -/

namespace Sys2Proof.Machine

/-! ## What an outcome ensures -/

/-- The outcome is a next state with `P`, or a refusal; a fault only if `F`. With `F` = `True` this is partial correctness, with
`F` = `False` it also excludes faults. -/
def Ensures (F : Prop) (P : State → Prop) : Out → Prop
  | .next t => P t
  | .fault _ => F
  | .refused _ => True

section
variable {F : Prop} {P Q : State → Prop}

@[simp] theorem ensures_next {t : State} : Ensures F P (.next t) ↔ P t := Iff.rfl

@[simp] theorem ensures_refused {r : Refusal} : Ensures F P (.refused r) ↔ True := Iff.rfl

@[simp] theorem ensures_fault {e : Fault} : Ensures F P (.fault e) ↔ F := Iff.rfl

theorem ensures_partial {o : Out} : Ensures True P o ↔ ∀ t, o = .next t → P t := by
  cases o <;> simp

theorem ensures_total {o : Out} : Ensures False P o ↔ (∀ e, o ≠ .fault e) ∧ ∀ t, o = .next t → P t := by
  cases o <;> simp

theorem Ensures.mono {o : Out} (h : Ensures F P o) (hPQ : ∀ t, P t → Q t) : Ensures F Q o := by
  cases o with
  | next t => exact hPQ t h
  | fault e => exact h
  | refused r => trivial

theorem Ensures.apply {o : Out} {t : State} (h : Ensures F P o) (ho : o = .next t) : P t := by
  subst ho
  exact h

@[simp] theorem ensures_andThen {o : Out} {f : State → Out} :
    Ensures F P (andThen o f) ↔ Ensures F (fun u => Ensures F P (f u)) o := by
  cases o <;> rfl

@[simp] theorem ensures_ite {c : Prop} [Decidable c] {a b : Out} :
    Ensures F P (if c then a else b) ↔ (c → Ensures F P a) ∧ (¬ c → Ensures F P b) := by
  split <;> simp [*]

@[simp] theorem ensures_proceed {l : Line} {j : Job} {s : State} : Ensures F P (proceed l j s) ↔ P (goto l j s) := Iff.rfl

@[simp] theorem ensures_finish {st : Status} {s : State} : Ensures F P (finish st s) ↔ P (uartReturn st s) := Iff.rfl

@[simp] theorem ensures_change {f : Uart → Uart} {l : Line} {j : Job} {s : State} :
    Ensures F P (change f l j s) ↔ P (goto l j (s.mapUart f)) := Iff.rfl

@[simp] theorem ensures_slotRead {n k : Nat} {r : Ring} {f : Byte → Out} :
    Ensures F P (slotRead n k r f) ↔ (k < n → Ensures F P (f (Memory.read r.buf k))) ∧ (¬ k < n → F) := by
  simp only [slotRead, ensures_ite, ensures_fault]

@[simp] theorem ensures_slotWrite {n k : Nat} {b : Byte} {r : Ring} {f : Ring → Out} :
    Ensures F P (slotWrite n k b r f) ↔
      (k < n → Ensures F P (f { r with buf := Memory.write r.buf k b })) ∧ (¬ k < n → F) := by
  simp only [slotWrite, ensures_ite, ensures_fault]

/-- A property that every line of an operation in progress ensures again is ensured by any number of lines. -/
theorem ensures_runLines (keep : ∀ s j, P s → s.uart.job = some j → Ensures F P (lineStep j s)) :
    ∀ (n : Nat) {s : State}, P s → Ensures F P (runLines n s)
  | 0, _, hs => hs
  | n + 1, s, hs => by
    cases hj : s.uart.job with
    | none => rw [runLines_none hj]; exact hs
    | some j =>
      rw [runLines_some hj, ensures_andThen]
      exact (keep s j hs hj).mono fun t ht => ensures_runLines keep n ht

end

/-! ## Where the shared routines return to -/

section
variable {F : Prop} {P : State → Prop} {j : Job} {s : State}

/-- `flush_out()` returns to the host only from the outbound `flush` itself. -/
theorem ensures_flushOutReturn :
    Ensures F P (flushOutReturn j s) ↔
      (j.op = .closing → P (goto .close3 j s)) ∧ ((∃ d, j.op = .send d) → P (goto .send9 j s)) ∧
      ((∃ d, j.op = .sendBuf d) → P (goto .sendBuf8 j s)) ∧ ((∃ d, j.op = .sendStr d) → P (goto .sendStr9 j s)) ∧
      (j.op ≠ .closing → (∀ d, j.op ≠ .send d) → (∀ d, j.op ≠ .sendBuf d) → (∀ d, j.op ≠ .sendStr d) →
        P (uartReturn (okStatus 0#16) s)) := by
  unfold flushOutReturn
  cases j.op <;> simp

theorem ensures_sendReturn {st : Status} :
    Ensures F P (sendReturn st j s) ↔
      ((∃ d, j.op = .sendBuf d) → P (goto .sendBuf5 { j with ret := st } s)) ∧
      ((∃ d, j.op = .sendStr d) → P (goto .sendStr6 { j with ret := st } s)) ∧
      ((∀ d, j.op ≠ .sendBuf d) → (∀ d, j.op ≠ .sendStr d) → P (uartReturn st s)) := by
  unfold sendReturn
  cases j.op <;> simp

theorem ensures_recvReturn {st : Status} :
    Ensures F P (recvReturn st j s) ↔
      (j.op = .recvBuf → P (goto .recvBuf4 { j with ret := st } s)) ∧ (j.op ≠ .recvBuf → P (uartReturn st s)) := by
  unfold recvReturn
  cases j.op <;> simp

end

/-! ## The entry points and the pump -/

section
variable {F : Prop} {P : State → Prop} {s : State}

/-- The state after on-transmit-empty has moved the oldest byte of a non-empty ring to `DATA` (R166). -/
def popTx (s : State) : State :=
  s.mapUart fun u =>
    { u with
      tx := { u.tx with tail := ringNext s.cfg.nTx u.tx.tail }
      txHold := some (Memory.read u.tx.buf u.tx.tail)
      ctrl := { u.ctrl with txeIe := if u.tx.head = ringNext s.cfg.nTx u.tx.tail then false else u.ctrl.txeIe } }

/-- on-transmit-empty from a state whose `DATA` is free: its interrupt switched off, or one byte popped (R166). -/
theorem ensures_onTransmitEmpty (hhold : s.uart.txHold = none) :
    Ensures F P (onTransmitEmpty s) ↔
      (s.uart.tx.head = s.uart.tx.tail → P (clearTxeIe s)) ∧
      (s.uart.tx.head ≠ s.uart.tx.tail →
        (s.uart.tx.tail < s.cfg.nTx → P (popTx s)) ∧ (¬ s.uart.tx.tail < s.cfg.nTx → F)) := by
  have hnext := @onTransmitEmpty_eq_next s
  unfold onTransmitEmpty at hnext ⊢
  by_cases he : s.uart.tx.head = s.uart.tx.tail
  · simp [Ring.isEmpty, he]
  · by_cases ht : s.uart.tx.tail < s.cfg.nTx
    · have hpop := (@hnext (popTx s)).2 (.inr ⟨he, ht, hhold, rfl⟩)
      rw [hpop]
      simp [he, ht]
    · simp [Ring.isEmpty, he, ht]

/-- The pump leaves a state as it is, or does as on-transmit-empty (R167). -/
theorem ensures_pump (hidle : P s) (hempty : s.uart.tx.head = s.uart.tx.tail → P (clearTxeIe s))
    (hpop : s.uart.tx.head ≠ s.uart.tx.tail → s.uart.txHold = none →
      (s.uart.tx.tail < s.cfg.nTx → P (popTx s)) ∧ (¬ s.uart.tx.tail < s.cfg.nTx → F)) :
    Ensures F P (pump s) := by
  rw [pump_eq]
  split
  · next h =>
    have hhold : s.uart.txHold = none := by
      have := h.2
      simp only [txePending, statTxe, Bool.and_eq_true, Option.isNone_iff_eq_none] at this
      exact this.1
    exact (ensures_onTransmitEmpty hhold).2 ⟨hempty, fun he => hpop he hhold⟩
  · exact hidle

end
end Sys2Proof.Machine
end

section
/-! SUPPORT. What one step can be (spec 00_scope.md R10, R11, R13). -/

namespace Sys2Proof.Machine

/-! ## What decodes for which engine (R92) -/

theorem eq_of_legal {u : Uses} {w : Word} {i k : Instr} (h : legal u w i = .ok k) : i = k := by
  unfold legal at h
  split at h <;> cases h
  rfl

theorem eq_of_legalTyped {w : Word} {i k : Instr} (h : legalTyped w i = .ok k) : i = k := by
  unfold legalTyped at h
  split at h
  · cases h
  · split at h <;> cases h
    rfl

/-- A word that decodes for the I2C engine is one of its commands. -/
theorem isI2c_of_decodeI2c {w : Word} {i : Instr} (h : decodeI2c w = .ok i) : i.isI2c = true := by
  unfold decodeI2c at h
  split at h
  case h_16 => split at h <;> cases h
  all_goals first
    | (cases eq_of_legal h; rfl)
    | (cases eq_of_legalTyped h; rfl)

/-- A word that decodes for the UART controller is one of its commands. -/
theorem isUart_of_decodeUart {w : Word} {i : Instr} (h : decodeUart w = .ok i) : i.isUart = true := by
  unfold decodeUart at h
  split at h
  case h_11 => split at h <;> cases h
  all_goals
    cases eq_of_legal h
    rfl

/-! ## The step -/

/-- The state with the next move taken off the schedule. -/
def State.taken (s : State) : State := { s with sched := s.sched.tail }

/-- At most the host moved (R13, R27, R68), or the schedule's choice of `burst`: operand registers and `HBUF` may have changed. -/
structure HostMoved (s t : State) : Prop where
  cfg : t.cfg = s.cfg
  gie : t.gie = s.gie
  i2c : ∃ n a v, t.i2c = { s.i2c with oprCount := n, oprBuf := a, oprValue := v }
  uart : ∃ n a v w, t.uart = { s.uart with oprCount := n, oprBuf := a, oprValue := v, oprTimeout := w }

/-- What a step from `s` with the outcome `o` can be: one constructor per kind of agent and move. -/
inductive StepKind (s : State) (o : Out) : Prop where
  | refused (r : Refusal) (h : o = .refused r)
  | host (t : State) (ht : HostMoved s t) (h : o = .next t)
  | setGie (b : Bool) (rest : List Event) (hs : s.sched = .setGie b :: rest) (h : o = .next { s.taken with gie := b })
  | i2cCommand (w : Word) (i : Instr) (hi : i.isI2c = true) (h : o = exec i (s.taken.mapI2c fun d => { d with cw := w }))
  | uartCommand (w : Word) (rest : List Event) (hs : s.sched = .present (.uartCommand w) :: rest) (i : Instr)
      (hi : i.isUart = true) (h : o = exec i (s.taken.mapUart fun u => { u with cw := w }))
  | onRx (h : o = execOnRx s.taken)
  | onTxe (h : o = execOnTxe s.taken)
  | line (j : Job) (hj : s.uart.job = some j) (h : o = lineStep j s.taken)
  | hwRx (b : Byte) (e : HwFlags) (h : o = .next (hwRx b e s.taken))
  | hwTxTake (h : o = .next (hwTxTake s.taken))
  | hwTxDone (h : o = .next (hwTxDone s.taken))

/-- A step that leaves the state as it is but for the schedule. -/
theorem StepKind.idle {s : State} {o : Out} (h : o = .next s.taken) : StepKind s o :=
  .host s.taken ⟨rfl, rfl, ⟨_, _, _, rfl⟩, ⟨_, _, _, _, rfl⟩⟩ h

theorem stepKind_mainline (s : State) : StepKind s (mainlineStep s.taken) := by
  cases hj : s.uart.job with
  | none => exact .idle (by simp [mainlineStep, State.taken, hj])
  | some j => exact .line j hj (by simp [mainlineStep, State.taken, hj])

theorem stepKind_present {s : State} {p : Presented} {rest : List Event} (hs : s.sched = .present p :: rest) :
    StepKind s (runFetched (fetch p s.taken)) := by
  cases p with
  | i2cCommand w =>
    cases hd : decodeI2c w with
    | ok i => exact .i2cCommand w i (isI2c_of_decodeI2c hd) (by simp only [fetch, hd, runFetched])
    | error e => exact .refused (.reservedWord e) (by simp only [fetch, hd, runFetched])
  | uartCommand w =>
    cases hd : decodeUart w with
    | ok i => exact .uartCommand w rest hs i (isUart_of_decodeUart hd) (by simp only [fetch, hd, runFetched])
    | error e => exact .refused (.reservedWord e) (by simp only [fetch, hd, runFetched])
  | cause c =>
    by_cases hp : (s.taken.gie && causePending c s.taken.uart) = true
    · by_cases hc : c = 0#1
      · exact .onRx (by simp only [fetch, if_pos hp, decodeCause, if_pos hc, runFetched, exec])
      · exact .onTxe (by simp only [fetch, if_pos hp, decodeCause, if_neg hc, runFetched, exec])
    · exact .idle (by simp only [fetch, hp, runFetched]; rfl)

theorem stepKind_move {s : State} {e : Event} {rest : List Event} (hs : s.sched = e :: rest) (he : ∀ p, e ≠ .present p) :
    StepKind s (move e s.taken) := by
  cases e with
  | present p => exact absurd rfl (he p)
  | setCount g v =>
    refine .host (setCount g v s.taken) ?_ rfl
    cases g <;> exact ⟨rfl, rfl, ⟨_, _, _, rfl⟩, ⟨_, _, _, _, rfl⟩⟩
  | setBuf g v =>
    refine .host (setBuf g v s.taken) ?_ rfl
    cases g <;> exact ⟨rfl, rfl, ⟨_, _, _, rfl⟩, ⟨_, _, _, _, rfl⟩⟩
  | setValue g v =>
    refine .host (setValue g v s.taken) ?_ rfl
    cases g <;> exact ⟨rfl, rfl, ⟨_, _, _, rfl⟩, ⟨_, _, _, _, rfl⟩⟩
  | setTimeout v => exact .host (setTimeout v s.taken) ⟨rfl, rfl, ⟨_, _, _, rfl⟩, ⟨_, _, _, _, rfl⟩⟩ rfl
  | hostWrite a b =>
    by_cases ho : owned s.taken (a % hbufSize s.taken.cfg) = true
    · exact .refused .bufferOwned (by simp only [move, hostWrite, ho, if_true])
    · exact .host (s.taken.writeHbuf (a % hbufSize s.taken.cfg) b) ⟨rfl, rfl, ⟨_, _, _, rfl⟩, ⟨_, _, _, _, rfl⟩⟩
        (by simp only [move, hostWrite, ho]; rfl)
  | hostRead a =>
    by_cases ho : owned s.taken (a % hbufSize s.taken.cfg) = true
    · exact .refused .bufferOwned (by simp only [move, hostRead, ho, if_true])
    · exact .idle (by simp only [move, hostRead, ho]; rfl)
  | mainline => exact stepKind_mainline s
  | hwRx b f => exact .hwRx b f rfl
  | hwTxTake => exact .hwTxTake rfl
  | hwTxDone => exact .hwTxDone rfl
  | setGie b => exact .setGie b rest hs rfl
  | setBurst n => exact .host { s.taken with burst := n } ⟨rfl, rfl, ⟨_, _, _, rfl⟩, ⟨_, _, _, _, rfl⟩⟩ rfl

/-- Everything one step can be. -/
theorem stepKind_step (s : State) : StepKind s (step s) := by
  cases hs : s.sched with
  | nil =>
    have htaken : s.taken = s := by simp only [State.taken, hs, List.tail_nil]; rw [← hs]
    rw [step_of_sched_nil hs]
    simpa only [htaken] using stepKind_mainline s
  | cons e rest =>
    have htaken : { s with sched := rest } = s.taken := by simp only [State.taken, hs, List.tail_cons]
    by_cases he : ∃ p, e = .present p
    · obtain ⟨p, rfl⟩ := he
      simpa only [step, hs, htaken] using stepKind_present hs
    · rw [step_eq_move hs (not_exists.1 he), htaken]
      exact stepKind_move hs (not_exists.1 he)

/-! ## What the commands of each engine leave alone (R121, R231) -/

/-- An I2C instruction is a command whose operation keeps what no I2C operation touches. -/
theorem exec_i2c_eq {i : Instr} (hi : i.isI2c = true) (s : State) :
    ∃ refusal body, exec i s = i2cCommand refusal body s ∧ ∀ t, I2cKeeps t (body t).2 := by
  cases i with
  | i2cOpen => exact ⟨none, i2cOpen, rfl, keeps_i2cOpen⟩
  | i2cClose => exact ⟨none, i2cClose, rfl, keeps_i2cClose⟩
  | i2cIsopen =>
    exact ⟨none, i2cIsOpen, rfl, fun _ => ⟨rfl, rfl, rfl, rfl, rfl, rfl, rfl, rfl, rfl, rfl, rfl, rfl, List.prefix_refl _⟩⟩
  | i2cReset => exact ⟨none, i2cReset, rfl, keeps_i2cReset⟩
  | i2cScan => exact ⟨_, _, rfl, fun t => keeps_scanLoop _ _ _ t⟩
  | i2cWrite addr reg => exact ⟨_, _, rfl, keeps_writeBuffer _ _ _ _ _⟩
  | i2cRead addr reg => exact ⟨_, _, rfl, keeps_readBuffer _ _ _ _ _⟩
  | i2cReadraw stopComm addr => exact ⟨_, _, rfl, keeps_readRaw _ _ _ _⟩
  | i2cWritet addr reg size => exact ⟨_, _, rfl, keeps_writeTyped _ _ _⟩
  | i2cReadt addr reg size => exact ⟨_, _, rfl, keeps_readTyped _ _ _⟩
  | i2cWaitbusy => exact ⟨_, _, rfl, keeps_waitBusy⟩
  | i2cStart rw addr => exact ⟨_, _, rfl, keeps_start _ _⟩
  | i2cStop => exact ⟨_, _, rfl, keeps_stop⟩
  | i2cSendb byte => exact ⟨_, _, rfl, keeps_sendByte _⟩
  | i2cRecvb ack => exact ⟨_, _, rfl, keeps_receiveByte _⟩
  | uOpen | uClose | uIsopen | uAvail | uFlush | uSend | uSendbuf | uSendstr | uRecv | uRecvbuf | onRx | onTxe => cases hi

/-- So it answers with its operation between issue and return. -/
theorem exec_i2c_eq_next {i : Instr} {s t : State} (hi : i.isI2c = true) (h : exec i s = .next t) :
    ∃ st u, I2cKeeps (s.mapI2c fun d => { d with busy := true }) u ∧ t = i2cReturn st u := by
  obtain ⟨refusal, body, heq, hkeeps⟩ := exec_i2c_eq hi s
  exact ⟨_, _, hkeeps _, (i2cCommand_eq_next.1 (heq ▸ h)).2.2⟩

theorem exec_i2c_ne_fault {i : Instr} {s : State} {e : Fault} (hi : i.isI2c = true) : exec i s ≠ .fault e := by
  obtain ⟨refusal, body, heq, -⟩ := exec_i2c_eq hi s
  exact heq ▸ i2cCommand_ne_fault

/-! ## The UART commands by name (R92, R180) -/

/-- The operation a UART command runs; `I2C` instructions and entry points run none. -/
def uartOp : Instr → Option UOp
  | .uOpen => some .opening
  | .uClose => some .closing
  | .uIsopen => some .isOpen
  | .uAvail => some .available
  | .uFlush outbound => some (.flush outbound)
  | .uSend drain _ => some (.send drain)
  | .uSendbuf drain => some (.sendBuf drain)
  | .uSendstr drain => some (.sendStr drain)
  | .uRecv => some .recv
  | .uRecvbuf => some .recvBuf
  | _ => none

/-- The first line of each operation (R182 to R191). -/
def UOp.firstLine : UOp → Line
  | .opening => .open1
  | .closing => .close1
  | .isOpen => .isOpen1
  | .available => .avail1
  | .flush outbound => if outbound then .flushOut1 else .flushIn1
  | .send _ => .send1
  | .sendBuf _ => .sendBuf1
  | .sendStr _ => .sendStr1
  | .recv => .recv1
  | .recvBuf => .recvBuf1

/-- No operation begins at one of these lines, at which an operation has found or changed something. -/
theorem firstLine_notMem (op : UOp) :
    op.firstLine ∉ [.open2, .open3, .open4, .close2, .close3, .close4, .close5, .flushOut2, .flushOut3, .send3, .send4,
      .send5, .send6, .recv2, .recv3] := by
  cases op with
  | flush outbound => cases outbound <;> simp [UOp.firstLine]
  | _ => simp [UOp.firstLine]

/-- The operations admitted on a port that is not open (R180). -/
abbrev UOp.anyPort (op : UOp) : Prop := op ∈ [.opening, .closing, .isOpen]

/-- The operation `op` issued (R74, R96). -/
def issue (op : UOp) (b : Byte) (s : State) : State :=
  s.mapUart fun u => { u with busy := true, job := some (jobAt op op.firstLine b u) }

/-- A UART instruction issues its operation at its first line. -/
theorem exec_uart_eq {i : Instr} (hi : i.isUart = true) (s : State) :
    ∃ op b, uartOp i = some op ∧
      exec i s = uartCommand (if op.anyPort then none else needsUartOpen s) op op.firstLine b s := by
  cases i with
  | uSend drain byte => exact ⟨.send drain, byte, rfl, rfl⟩
  | uOpen | uClose | uIsopen | uAvail | uFlush | uSendbuf | uSendstr | uRecv | uRecvbuf => exact ⟨_, 0#8, rfl, rfl⟩
  | _ => cases hi

/-- So it is refused, or the port was idle, and open where it has to be, and lines run from the issue on. -/
theorem ensures_exec_uart {F : Prop} {P : State → Prop} {i : Instr} {s : State} (hi : i.isUart = true)
    (h : ∀ op b, uartOp i = some op → s.uart.busy = false → (¬ op.anyPort → s.uart.opened = true) →
      Ensures F P (runLines s.burst (issue op b s))) :
    Ensures F P (exec i s) := by
  obtain ⟨op, b, hop, heq⟩ := exec_uart_eq hi s
  rw [heq]
  unfold uartCommand
  split
  · trivial
  · next hbusy =>
    split
    · trivial
    · next hadmit =>
      refine h op b hop (Bool.not_eq_true _ ▸ hbusy) fun hany => ?_
      simpa only [if_neg hany, needsUartOpen_eq_none] using hadmit

end Sys2Proof.Machine
end

section
/-! SUPPORT. What every step keeps that needs no invariant: the parameters and traces, `GIE`, and each engine's independence of
the other (spec 10_state.md R44, R49; 20_memory.md R72; 60_exceptions.md R231); and the state at reset (70_reset_and_hazards.md
R240). -/

namespace Sys2Proof.Machine

/-! ## The entry points as steps -/

/-- The state after on-receive has stored the waiting byte `b` with the flags `e` (R165). -/
def pushRx (b : Byte) (e : HwFlags) (s : State) : State :=
  s.mapUart fun u =>
    { u with
      rxHold := none
      rx := { u.rx with buf := Memory.write u.rx.buf u.rx.head b, head := ringNext s.cfg.nRx u.rx.head }
      rxError := hwLatch s.cfg.ef e }

/-- The state after on-receive has dropped a waiting byte with the flags `e` (R165). -/
def dropRx (e : HwFlags) (s : State) : State :=
  s.mapUart fun u => { u with rxHold := none, rxError := hwLatch s.cfg.ef e ||| efBit s.cfg.ef.overflow }

section
variable {F : Prop} {P : State → Prop} {s : State}

/-- Interrupt entry and return around an entry point leave `GIE` at 1, where it was (R216, R218, R219). -/
theorem ensures_takeInterrupt {c : BitVec 1} {entry : State → Out}
    (h : s.gie = true → causePending c s.uart = true →
      Ensures F (fun u => P { u with gie := s.gie }) (entry (enterInterrupt s))) :
    Ensures F P (takeInterrupt c entry s) := by
  unfold takeInterrupt
  rw [ensures_ite]
  refine ⟨fun hp => ?_, fun _ => trivial⟩
  rw [Bool.and_eq_true] at hp
  rw [ensures_andThen]
  simpa only [ensures_next, returnFromInterrupt, hp.1] using h hp.1 hp.2

/-- `ON_RX`: the waiting byte stored when the ring has room, else dropped (R165). -/
theorem ensures_execOnRx
    (hstore : ∀ b e, s.uart.rxHold = some (b, e) → s.uart.ctrl.rxIe = true →
      ringNext s.cfg.nRx s.uart.rx.head ≠ s.uart.rx.tail →
      (s.uart.rx.head < s.cfg.nRx → P (pushRx b e s)) ∧ (¬ s.uart.rx.head < s.cfg.nRx → F))
    (hdrop : ∀ b e, s.uart.rxHold = some (b, e) → s.uart.ctrl.rxIe = true → P (dropRx e s)) :
    Ensures F P (execOnRx s) := by
  refine ensures_takeInterrupt fun _ hp => ?_
  obtain ⟨hrxc, hie⟩ : statRxc s.uart = true ∧ s.uart.ctrl.rxIe = true := by
    simpa only [causePending, if_true, rxPending, Bool.and_eq_true] using hp
  obtain ⟨⟨b, e⟩, hhold⟩ := Option.isSome_iff_exists.1 hrxc
  have hread := readData_some (s := enterInterrupt s) hhold
  simp only [onReceive, hread, ensures_ite, ensures_slotWrite, ensures_next, mapUart_cfg, mapUart_uart, enterInterrupt_cfg,
    enterInterrupt_uart, statErrors, hhold]
  exact ⟨fun hroom => hstore b e hhold hie hroom, fun _ => hdrop b e hhold hie⟩

/-- `ON_TXE`: its interrupt switched off, or one byte moved to `DATA` (R166). -/
theorem ensures_execOnTxe
    (hempty : s.uart.tx.head = s.uart.tx.tail → P (clearTxeIe s))
    (hpop : s.uart.tx.head ≠ s.uart.tx.tail → s.uart.txHold = none → s.uart.ctrl.txeIe = true →
      (s.uart.tx.tail < s.cfg.nTx → P (popTx s)) ∧ (¬ s.uart.tx.tail < s.cfg.nTx → F)) :
    Ensures F P (execOnTxe s) := by
  refine ensures_takeInterrupt fun _ hp => ?_
  obtain ⟨htxe, hie⟩ : statTxe s.uart = true ∧ s.uart.ctrl.txeIe = true := by
    simpa [causePending, txePending] using hp
  have hhold : s.uart.txHold = none := Option.isNone_iff_eq_none.1 htxe
  refine (ensures_onTransmitEmpty (s := enterInterrupt s) hhold).2 ⟨hempty, fun hne => hpop hne hhold hie⟩

end

/-! ## Moves that change nothing but the controller -/

theorem mapUart_id (s : State) : s.mapUart id = s := rfl

theorem execOnRx_eq_mapUart {s t : State} (h : execOnRx s = .next t) : ∃ f, t = s.mapUart f :=
  (ensures_execOnRx (F := True) (P := fun t => ∃ f, t = s.mapUart f)
    (fun _ _ _ _ _ => ⟨fun _ => ⟨_, rfl⟩, fun _ => trivial⟩)
    fun _ _ _ _ => ⟨_, rfl⟩).apply h

theorem execOnTxe_eq_mapUart {s t : State} (h : execOnTxe s = .next t) : ∃ f, t = s.mapUart f :=
  (ensures_execOnTxe (F := True) (P := fun t => ∃ f, t = s.mapUart f) (fun _ => ⟨_, rfl⟩)
    fun _ _ _ => ⟨fun _ => ⟨_, rfl⟩, fun _ => trivial⟩).apply h

theorem hwRx_eq_mapUart (b : Byte) (e : HwFlags) (s : State) : ∃ f, hwRx b e s = s.mapUart f := by
  rcases hwRx_cases b e s with ⟨-, -, h⟩ | h
  · exact ⟨_, h⟩
  · exact ⟨id, h⟩

theorem hwTxTake_eq_mapUart (s : State) : ∃ f, hwTxTake s = s.mapUart f := by
  rcases hwTxTake_cases s with ⟨b, -, -, -, h⟩ | h
  · exact ⟨_, h⟩
  · exact ⟨id, h⟩

theorem hwTxDone_eq_mapUart (s : State) : ∃ f, hwTxDone s = s.mapUart f := by
  rcases hwTxDone_cases s with ⟨b, -, h⟩ | ⟨-, h⟩
  · exact ⟨_, h⟩
  · exact ⟨id, h⟩

/-! ## What a step keeps of the parameters, the identities and the traces (R21, R30, R43, R49) -/

/-- The parameters and the identities are as they were, and the three traces have at most grown. -/
structure TracesGrow (s t : State) : Prop where
  cfg : t.cfg = s.cfg
  i2cId : t.i2c.id = s.i2c.id
  uartId : t.uart.id = s.uart.id
  trace : s.i2c.trace <+: t.i2c.trace
  wireIn : s.uart.wireIn <+: t.uart.wireIn
  wireOut : s.uart.wireOut <+: t.uart.wireOut

theorem tracesGrow_refl (s : State) : TracesGrow s s :=
  ⟨rfl, rfl, rfl, List.prefix_refl _, List.prefix_refl _, List.prefix_refl _⟩

theorem I2cKeeps.tracesGrow {s t : State} (h : I2cKeeps s t) : TracesGrow s t :=
  ⟨h.cfg, h.id, congrArg (·.id) h.uart, h.trace, h.uart ▸ List.prefix_refl _, h.uart ▸ List.prefix_refl _⟩

theorem UartKeeps.tracesGrow {s t : State} (h : UartKeeps s t) : TracesGrow s t :=
  ⟨h.cfg, congrArg (·.id) h.i2c, h.id, h.i2c ▸ List.prefix_refl _, h.wireIn ▸ List.prefix_refl _,
    h.wireOut ▸ List.prefix_refl _⟩

theorem HostMoved.tracesGrow {s t : State} (h : HostMoved s t) : TracesGrow s t := by
  obtain ⟨hcfg, -, ⟨n, a, v, hi2c⟩, ⟨m, b, w, x, huart⟩⟩ := h
  refine ⟨hcfg, ?_, ?_, ?_, ?_, ?_⟩ <;> simp [hi2c, huart]

/-- A change of the controller that leaves its identity and the wire traces alone. -/
theorem tracesGrow_mapUart {s : State} {f : Uart → Uart} (hid : (f s.uart).id = s.uart.id)
    (hin : s.uart.wireIn <+: (f s.uart).wireIn) (hout : s.uart.wireOut <+: (f s.uart).wireOut) :
    TracesGrow s (s.mapUart f) :=
  ⟨rfl, rfl, hid, List.prefix_refl _, hin, hout⟩

theorem tracesGrow_hwRx (b : Byte) (e : HwFlags) (s : State) : TracesGrow s (hwRx b e s) := by
  rcases hwRx_cases b e s with ⟨-, -, h⟩ | h <;> rw [h]
  · exact tracesGrow_mapUart rfl (List.prefix_append _ _) (List.prefix_refl _)
  · exact tracesGrow_refl s

theorem tracesGrow_hwTxTake (s : State) : TracesGrow s (hwTxTake s) := by
  rcases hwTxTake_cases s with ⟨b, -, -, -, h⟩ | h <;> rw [h]
  · exact tracesGrow_mapUart rfl (List.prefix_refl _) (List.prefix_refl _)
  · exact tracesGrow_refl s

theorem tracesGrow_hwTxDone (s : State) : TracesGrow s (hwTxDone s) := by
  rcases hwTxDone_cases s with ⟨b, -, h⟩ | ⟨-, h⟩ <;> rw [h]
  · exact tracesGrow_mapUart rfl (List.prefix_refl _) (List.prefix_append _ _)
  · exact tracesGrow_refl s

theorem tracesGrow_exec_i2c {i : Instr} {s t : State} (hi : i.isI2c = true) (h : exec i s = .next t) : TracesGrow s t := by
  obtain ⟨st, u, hkeeps, rfl⟩ := exec_i2c_eq_next hi h
  have hgrow := hkeeps.tracesGrow
  exact ⟨hgrow.cfg, hgrow.i2cId, hgrow.uartId, hgrow.trace, hgrow.wireIn, hgrow.wireOut⟩

theorem tracesGrow_exec_uart {i : Instr} {s t : State} (hi : i.isUart = true) (h : exec i s = .next t) : TracesGrow s t := by
  obtain ⟨op, b, -, heq⟩ := exec_uart_eq hi s
  exact (keepsTo_uartCommand _ _ _ _ s t (heq ▸ h)).tracesGrow

theorem tracesGrow_execOnRx (s : State) : Ensures True (TracesGrow s) (execOnRx s) :=
  ensures_execOnRx
    (fun _ _ _ _ _ => ⟨fun _ => tracesGrow_mapUart rfl (List.prefix_refl _) (List.prefix_refl _), fun _ => trivial⟩)
    fun _ _ _ _ => tracesGrow_mapUart rfl (List.prefix_refl _) (List.prefix_refl _)

theorem tracesGrow_execOnTxe (s : State) : Ensures True (TracesGrow s) (execOnTxe s) :=
  ensures_execOnTxe (fun _ => tracesGrow_mapUart rfl (List.prefix_refl _) (List.prefix_refl _))
    fun _ _ _ => ⟨fun _ => tracesGrow_mapUart rfl (List.prefix_refl _) (List.prefix_refl _), fun _ => trivial⟩

/-- Settles O9: an I2C command and a UART command keep what their engines' operations keep; of the other moves only those of the
peripheral touch a wire trace, and they append to it. -/
theorem parametersStayAndTracesGrow : Obligations.ParametersStayAndTracesGrow := by
  unfold Obligations.ParametersStayAndTracesGrow
  intro s t hstep
  suffices h : TracesGrow s.taken t from ⟨h.cfg, h.i2cId, h.uartId, h.trace, h.wireIn, h.wireOut⟩
  cases stepKind_step s with
  | refused r h => cases h.symm.trans hstep
  | host u hu h =>
    cases h.symm.trans hstep
    have hgrow := hu.tracesGrow
    exact ⟨hgrow.cfg, hgrow.i2cId, hgrow.uartId, hgrow.trace, hgrow.wireIn, hgrow.wireOut⟩
  | setGie b rest hs h =>
    cases h.symm.trans hstep
    exact ⟨rfl, rfl, rfl, List.prefix_refl _, List.prefix_refl _, List.prefix_refl _⟩
  | i2cCommand w i hi h =>
    have hgrow := tracesGrow_exec_i2c hi (h.symm.trans hstep)
    exact ⟨hgrow.cfg, hgrow.i2cId, hgrow.uartId, hgrow.trace, hgrow.wireIn, hgrow.wireOut⟩
  | uartCommand w rest hs i hi h =>
    have hgrow := tracesGrow_exec_uart hi (h.symm.trans hstep)
    exact ⟨hgrow.cfg, hgrow.i2cId, hgrow.uartId, hgrow.trace, hgrow.wireIn, hgrow.wireOut⟩
  | onRx h => exact (tracesGrow_execOnRx s.taken).apply (h.symm.trans hstep)
  | onTxe h => exact (tracesGrow_execOnTxe s.taken).apply (h.symm.trans hstep)
  | line j hj h => exact (keepsTo_lineStep j s.taken t (h.symm.trans hstep)).tracesGrow
  | hwRx b e h => cases h.symm.trans hstep; exact tracesGrow_hwRx b e s.taken
  | hwTxTake h => cases h.symm.trans hstep; exact tracesGrow_hwTxTake s.taken
  | hwTxDone h => cases h.symm.trans hstep; exact tracesGrow_hwTxDone s.taken

/-! ## `GIE` (R72, R218, R219) -/

/-- Settles O18: of all the moves only the environment's own writes `GIE`; an entry point runs only while it is 1 and leaves it
so. -/
theorem onlyTheEnvironmentMovesGie : Obligations.OnlyTheEnvironmentMovesGie := by
  unfold Obligations.OnlyTheEnvironmentMovesGie
  intro s t hsched hstep
  have gie_of {u : State} (h : ∃ f, u = s.taken.mapUart f) : u.gie = s.gie := by
    obtain ⟨f, rfl⟩ := h
    rfl
  cases stepKind_step s with
  | refused r h => cases h.symm.trans hstep
  | host u hu h => cases h.symm.trans hstep; exact hu.gie
  | setGie b rest hs h => exact absurd hs (hsched b rest)
  | i2cCommand w i hi h =>
    obtain ⟨st, u, hkeeps, rfl⟩ := exec_i2c_eq_next hi (h.symm.trans hstep)
    exact hkeeps.gie
  | uartCommand w rest hs i hi h =>
    obtain ⟨op, b, -, heq⟩ := exec_uart_eq hi (s.taken.mapUart fun u => { u with cw := w })
    exact (keepsTo_uartCommand _ _ _ _ _ t (heq.symm.trans (h.symm.trans hstep))).gie
  | onRx h => exact gie_of (execOnRx_eq_mapUart (h.symm.trans hstep))
  | onTxe h => exact gie_of (execOnTxe_eq_mapUart (h.symm.trans hstep))
  | line j hj h => exact (keepsTo_lineStep j s.taken t (h.symm.trans hstep)).gie
  | hwRx b e h => cases h.symm.trans hstep; exact gie_of (hwRx_eq_mapUart b e s.taken)
  | hwTxTake h => cases h.symm.trans hstep; exact gie_of (hwTxTake_eq_mapUart s.taken)
  | hwTxDone h => cases h.symm.trans hstep; exact gie_of (hwTxDone_eq_mapUart s.taken)

/-! ## The two engines (R121, R231) -/

/-- Settles O19: an I2C command is an operation that keeps all of it, between issue and return. -/
theorem i2cCommandsTouchNoUart : Obligations.I2cCommandsTouchNoUart := by
  unfold Obligations.I2cCommandsTouchNoUart
  intro i s t hi h
  obtain ⟨st, u, hk, rfl⟩ := exec_i2c_eq_next hi h
  exact ⟨hk.uart, hk.gie, hk.sched, hk.burst, hk.cw, hk.oprCount, hk.oprBuf, hk.oprValue⟩

/-- Settles O20: what is no I2C command is a UART command, whose lines keep all of it, or an entry point. -/
theorem uartTouchesNoI2c : Obligations.UartTouchesNoI2c := by
  unfold Obligations.UartTouchesNoI2c
  intro i s t hi h
  by_cases hu : i.isUart = true
  · obtain ⟨op, b, -, heq⟩ := exec_uart_eq hu s
    have hk := keepsTo_uartCommand _ _ _ _ s t (heq ▸ h)
    exact ⟨hk.i2c, hk.busyIn, hk.xferIn, hk.initIn⟩
  · cases i with
    | onRx =>
      obtain ⟨f, rfl⟩ := execOnRx_eq_mapUart h
      exact ⟨rfl, rfl, rfl, rfl⟩
    | onTxe =>
      obtain ⟨f, rfl⟩ := execOnTxe_eq_mapUart h
      exact ⟨rfl, rfl, rfl, rfl⟩
    | uOpen | uClose | uIsopen | uAvail | uFlush | uSend | uSendbuf | uSendstr | uRecv | uRecvbuf => exact absurd rfl hu
    | _ => cases hi

/-! ## Reset (R48, R240) -/

/-- Settles O8: with no operation in progress, empty memories and rings and a quiet port, nothing is left to check but that an
index 0 lies below a capacity of at least 2. -/
theorem invariantsHoldAtReset : Obligations.InvariantsHoldAtReset := by
  unfold Obligations.InvariantsHoldAtReset
  intro c g
  refine ⟨?_, ?_, ?_, ?_, fun hc => ?_⟩
  · simp [State.resetWith, MemInv, Memory.wf]
  · simp [State.resetWith, I2cInv, readTrace, traceExpected]
  · simp [State.resetWith, LatchInv, flagsOnly]
  · simp [State.resetWith, PortInv, portQuiet, atLine]
  · obtain ⟨⟨hrx, -⟩, ⟨htx, -⟩, -⟩ := id hc
    have hrx : 0 < c.nRx := by omega
    have htx : 0 < c.nTx := by omega
    have hjob : (State.resetWith c g).uart.job = none := rfl
    refine ⟨hc, hrx, hrx, htx, htx, ?_, ?_, ?_⟩ <;> simp only [hjob, reduceCtorEq, false_implies, implies_true]
end Sys2Proof.Machine
end

section
/-! SUPPORT. The ring invariant (spec 10_state.md R38; 42_uart_ring_and_handlers.md R169): every step keeps it, moves the
indices only as R169 allows, and ends in no fault (R41, R76). -/

namespace Sys2Proof.Machine

/-- The clauses of the ring invariant about the parameters and the indices. -/
abbrev RingBounds (s : State) : Prop :=
  s.cfg.wf ∧ s.uart.rx.head < s.cfg.nRx ∧ s.uart.rx.tail < s.cfg.nRx ∧ s.uart.tx.head < s.cfg.nTx ∧
  s.uart.tx.tail < s.cfg.nTx

/-- The clauses about an operation at a line: the next head a `send` holds and the room it has found, the byte a `recv()` has
found. -/
abbrev RingLine (s : State) (k : Job) : Prop :=
  (k.line ∈ [.send3, .send4, .send5, .send6] → k.nx = ringNext s.cfg.nTx s.uart.tx.head) ∧
  (k.line ∈ [.send5, .send6] → k.nx ≠ s.uart.tx.tail) ∧
  (k.line ∈ [.recv2, .recv3] → s.uart.rx.head ≠ s.uart.rx.tail)

theorem ringInv_iff {s : State} : RingInv s ↔ RingBounds s ∧ ∀ j, s.uart.job = some j → RingLine s j := by
  constructor
  · rintro ⟨hc, h1, h2, h3, h4, hnx, hroom, hbyte⟩
    exact ⟨⟨hc, h1, h2, h3, h4⟩, fun j hj => ⟨hnx j hj, hroom j hj, hbyte j hj⟩⟩
  · rintro ⟨⟨hc, h1, h2, h3, h4⟩, hline⟩
    exact ⟨hc, h1, h2, h3, h4, fun j hj => (hline j hj).1, fun j hj => (hline j hj).2.1, fun j hj => (hline j hj).2.2⟩

/-- From `s` to `t` the indices have moved as one step of one agent may move them, and are in range. -/
structure RingsMove (s t : State) : Prop where
  bounds : RingBounds t
  tx : ringMoved s.cfg.nTx s.uart.tx t.uart.tx
  rx : ringMoved s.cfg.nRx s.uart.rx t.uart.rx ∨
    (atLine s.uart .flushIn1 = true ∧ t.uart.rx.head = s.uart.rx.head ∧ t.uart.rx.tail = s.uart.rx.head) ∨
    (atLine s.uart .close3 = true ∧ t.uart.rx.head = 0 ∧ t.uart.rx.tail = 0)

/-- And the operation in progress agrees with them: the ring invariant holds again. -/
structure RingStep (s t : State) : Prop extends RingsMove s t where
  line : ∀ j, t.uart.job = some j → RingLine t j

theorem RingStep.inv {s t : State} (h : RingStep s t) : RingInv t := ringInv_iff.2 ⟨h.bounds, h.line⟩

theorem ringMoved_of_eq {n : Nat} {r r' : Ring} (hh : r'.head = r.head) (ht : r'.tail = r.tail) : ringMoved n r r' :=
  .inl ⟨hh, ht⟩

/-! ## Moves that leave the operation in progress where it is -/

/-- No index moves. -/
theorem ringStep_of_kept {s u : State} (h : RingInv s) (hcfg : u.cfg = s.cfg) (hrh : u.uart.rx.head = s.uart.rx.head)
    (hrt : u.uart.rx.tail = s.uart.rx.tail) (hth : u.uart.tx.head = s.uart.tx.head)
    (htt : u.uart.tx.tail = s.uart.tx.tail) (hjob : u.uart.job = s.uart.job) : RingStep s u := by
  obtain ⟨hbounds, hline⟩ := ringInv_iff.1 h
  refine ⟨⟨?_, ringMoved_of_eq hth htt, .inl (ringMoved_of_eq hrh hrt)⟩, ?_⟩
  · simpa only [RingBounds, hcfg, hrh, hrt, hth, htt] using hbounds
  · simpa only [RingLine, hcfg, hrh, hrt, hth, htt, hjob] using hline

theorem ringStep_refl {s : State} (h : RingInv s) : RingStep s s := ringStep_of_kept h rfl rfl rfl rfl rfl rfl

/-- A pop of the transmit ring: a tail that moves off a head does not reach the next head, so a `send` that has found room still
has it (R169). -/
theorem ringStep_popTx {s : State} (h : RingInv s) (hne : s.uart.tx.head ≠ s.uart.tx.tail) : RingStep s (popTx s) := by
  obtain ⟨⟨hc, hrh, hrt, hth, htt⟩, hline⟩ := ringInv_iff.1 h
  refine ⟨⟨⟨hc, hrh, hrt, hth, ringNext_lt (Nat.zero_lt_of_lt htt)⟩, .inr (.inr ⟨hne, rfl, rfl⟩),
    .inl (ringMoved_of_eq rfl rfl)⟩, fun j hj => ?_⟩
  obtain ⟨hnx, -, hbyte⟩ := hline j hj
  refine ⟨hnx, fun hl => ?_, hbyte⟩
  rw [hnx (List.mem_cons_of_mem _ (List.mem_cons_of_mem _ hl))]
  exact ringNext_ne_of_ne hth htt hne

theorem ringStep_clearTxeIe {s : State} (h : RingInv s) : RingStep s (clearTxeIe s) :=
  ringStep_of_kept h rfl rfl rfl rfl rfl rfl

/-- A push into the receive ring: it was not full, so a `recv()` that has found a byte still has one (R169). -/
theorem ringStep_pushRx {s : State} {b : Byte} {e : HwFlags} (h : RingInv s)
    (hroom : ringNext s.cfg.nRx s.uart.rx.head ≠ s.uart.rx.tail) : RingStep s (pushRx b e s) := by
  obtain ⟨⟨hc, hrh, hrt, hth, htt⟩, hline⟩ := ringInv_iff.1 h
  refine ⟨⟨⟨hc, ringNext_lt (Nat.zero_lt_of_lt hrh), hrt, hth, htt⟩, ringMoved_of_eq rfl rfl,
    .inl (.inr (.inl ⟨hroom, rfl, rfl⟩))⟩, fun j hj => ?_⟩
  obtain ⟨hnx, hfound, -⟩ := hline j hj
  exact ⟨hnx, hfound, fun _ => hroom⟩

/-- The pump takes a step of the rings, faults never, and leaves the transmit head alone. -/
theorem ringStep_pump {s : State} (h : RingInv s) :
    Ensures False (fun u => RingStep s u ∧ u.cfg = s.cfg ∧ u.uart.tx.head = s.uart.tx.head) (pump s) := by
  obtain ⟨⟨-, -, -, -, htt⟩, -⟩ := ringInv_iff.1 h
  exact ensures_pump ⟨ringStep_refl h, rfl, rfl⟩ (fun _ => ⟨ringStep_clearTxeIe h, rfl, rfl⟩)
    fun hne _ => ⟨fun _ => ⟨ringStep_popTx h hne, rfl, rfl⟩, absurd htt⟩

theorem ringStep_execOnRx {s : State} (h : RingInv s) : Ensures False (RingStep s) (execOnRx s) := by
  obtain ⟨⟨-, hrh, -⟩, -⟩ := ringInv_iff.1 h
  exact ensures_execOnRx (fun b e _ _ hroom => ⟨fun _ => ringStep_pushRx h hroom, absurd hrh⟩)
    fun b e _ _ => ringStep_of_kept h rfl rfl rfl rfl rfl rfl

theorem ringStep_execOnTxe {s : State} (h : RingInv s) : Ensures False (RingStep s) (execOnTxe s) := by
  obtain ⟨⟨-, -, -, -, htt⟩, -⟩ := ringInv_iff.1 h
  exact ensures_execOnTxe (fun _ => ringStep_clearTxeIe h) fun hne _ _ => ⟨fun _ => ringStep_popTx h hne, absurd htt⟩

theorem ringStep_hwRx {s : State} (b : Byte) (e : HwFlags) (h : RingInv s) : RingStep s (hwRx b e s) := by
  rcases hwRx_cases b e s with ⟨-, -, heq⟩ | heq <;> rw [heq] <;> exact ringStep_of_kept h rfl rfl rfl rfl rfl rfl

theorem ringStep_hwTxTake {s : State} (h : RingInv s) : RingStep s (hwTxTake s) := by
  rcases hwTxTake_cases s with ⟨b, -, -, -, heq⟩ | heq <;> rw [heq] <;> exact ringStep_of_kept h rfl rfl rfl rfl rfl rfl

theorem ringStep_hwTxDone {s : State} (h : RingInv s) : RingStep s (hwTxDone s) := by
  rcases hwTxDone_cases s with ⟨b, -, heq⟩ | ⟨-, heq⟩ <;> rw [heq] <;> exact ringStep_of_kept h rfl rfl rfl rfl rfl rfl

/-! ## The lines -/

/-- The operation goes on at a line whose clauses hold. -/
theorem RingsMove.goto {s u : State} {l : Line} {k : Job} (h : RingsMove s u) (hk : RingLine u { k with line := l }) :
    RingStep s (goto l k u) := by
  refine ⟨⟨h.bounds, h.tx, h.rx⟩, fun j hj => ?_⟩
  obtain rfl : { k with line := l } = j := Option.some.inj hj
  exact hk

theorem RingsMove.uartReturn {s u : State} {st : Status} (h : RingsMove s u) : RingStep s (uartReturn st u) :=
  ⟨⟨h.bounds, h.tx, h.rx⟩, fun j hj => by cases hj⟩

/-- No index moves, and the operation goes on. -/
theorem ringStep_goto_of_kept {s u : State} {l : Line} {k : Job} (h : RingInv s) (hcfg : u.cfg = s.cfg)
    (hrh : u.uart.rx.head = s.uart.rx.head) (hrt : u.uart.rx.tail = s.uart.rx.tail)
    (hth : u.uart.tx.head = s.uart.tx.head) (htt : u.uart.tx.tail = s.uart.tx.tail) (hjob : u.uart.job = s.uart.job)
    (hk : RingLine u { k with line := l }) : RingStep s (goto l k u) :=
  (ringStep_of_kept h hcfg hrh hrt hth htt hjob).goto hk

/-- Every line takes a step of the rings and faults never. -/
theorem ringStep_lineStep {s : State} {j : Job} (h : RingInv s) (hj : s.uart.job = some j) :
    Ensures False (RingStep s) (lineStep j s) := by
  obtain ⟨⟨hc, hrh, hrt, hth, htt⟩, hline⟩ := ringInv_iff.1 h
  obtain ⟨hnx, hroom, hbyte⟩ := hline j hj
  have hat (l : Line) (hl : j.line = l) : atLine s.uart l = true := by simp [atLine, hj, hl]
  have hs : RingsMove s s := (ringStep_refl h).toRingsMove
  cases hl : j.line with
  | open2 | open3 | open4 | close4 | isOpen1 | send7 | recv4 | recvBuf8 =>
    simp only [lineStep, hl]
    refine ringStep_goto_of_kept h rfl rfl rfl rfl rfl rfl ?_
    simp [RingLine]
  | close3 =>
    simp only [lineStep, hl]
    exact RingsMove.goto ⟨⟨hc, Nat.zero_lt_of_lt hrh, Nat.zero_lt_of_lt hrh, hth, htt⟩, ringMoved_of_eq rfl rfl,
      .inr (.inr ⟨hat _ hl, rfl, rfl⟩)⟩ (by simp [RingLine])
  | flushIn1 =>
    simp only [lineStep, hl]
    exact RingsMove.goto ⟨⟨hc, hrh, hrh, hth, htt⟩, ringMoved_of_eq rfl rfl, .inr (.inl ⟨hat _ hl, rfl, rfl⟩)⟩
      (by simp [RingLine])
  | flushOut2 =>
    simp only [lineStep, hl, ensures_andThen]
    exact (ringStep_pump h).mono fun u ⟨hu, _, _⟩ => hu.goto (by simp [RingLine])
  | send3 =>
    have hnx := hnx (by simp [hl])
    simp only [lineStep, hl, ensures_ite, ensures_proceed]
    exact ⟨fun _ => hs.goto (by simp [RingLine, hnx]), fun h => hs.goto (by simpa [RingLine, hnx] using h)⟩
  | send4 =>
    have hnx := hnx (by simp [hl])
    simp only [lineStep, hl, sendWait, ensures_andThen]
    refine (ringStep_pump h).mono fun u ⟨hu, hcfg, hhead⟩ => ?_
    have hwait : RingStep s (goto .send3 (wait u.cfg j) u) := hu.goto (by simp [RingLine, wait, hcfg, hhead, hnx])
    simp [ensures_sendReturn, hu.uartReturn, RingsMove.goto, RingLine, hwait, hu.toRingsMove]
  | send5 =>
    have hnx := hnx (by simp [hl])
    have hroom := hroom (by simp [hl])
    simp only [lineStep, hl, sendStore, ensures_slotWrite, ensures_change]
    refine ⟨fun _ => ringStep_goto_of_kept h rfl rfl rfl rfl rfl rfl ?_, absurd hth⟩
    simpa [RingLine, hnx] using hnx ▸ hroom
  | send6 =>
    have hnx := hnx (by simp [hl])
    have hroom := hroom (by simp [hl])
    simp only [lineStep, hl, ensures_change]
    exact RingsMove.goto ⟨⟨hc, hrh, hrt, hnx ▸ ringNext_lt (Nat.zero_lt_of_lt hth), htt⟩,
      .inr (.inl ⟨hnx ▸ hroom, hnx, rfl⟩), .inl (ringMoved_of_eq rfl rfl)⟩ (by simp [RingLine])
  | recv1 =>
    simp only [lineStep, hl, ensures_ite, ensures_recvReturn, ensures_proceed, Ring.isEmpty, beq_iff_eq]
    refine ⟨fun _ => ⟨fun _ => hs.goto (by simp [RingLine]), fun _ => hs.uartReturn⟩, fun hne => hs.goto ?_⟩
    simp [RingLine, hne]
  | recv2 =>
    have hbyte := hbyte (by simp [hl])
    simp only [lineStep, hl, recvRead, ensures_slotRead, ensures_proceed]
    exact ⟨fun _ => hs.goto (by simp [RingLine, hbyte]), absurd hrt⟩
  | recv3 =>
    have hbyte := hbyte (by simp [hl])
    simp only [lineStep, hl, ensures_change]
    exact RingsMove.goto ⟨⟨hc, hrh, ringNext_lt (Nat.zero_lt_of_lt hrh), hth, htt⟩, ringMoved_of_eq rfl rfl,
      .inl (.inr (.inr ⟨hbyte, rfl, rfl⟩))⟩ (by simp [RingLine])
  | _ =>
    simp [lineStep, hl, RingsMove.goto, RingsMove.uartReturn, RingLine, hs, ensures_flushOutReturn, ensures_sendReturn,
      ensures_recvReturn]

/-! ## The step -/

/-- A UART command is issued at a line no clause speaks of. -/
theorem ringStep_issue {s : State} (op : UOp) (b : Byte) (h : RingInv s) : RingStep s (issue op b s) := by
  refine ⟨⟨(ringInv_iff.1 h).1, ringMoved_of_eq rfl rfl, .inl (ringMoved_of_eq rfl rfl)⟩, fun j hj => ?_⟩
  obtain rfl : jobAt op op.firstLine b s.uart = j := Option.some.inj hj
  have hfirst := firstLine_notMem op
  simp only [List.mem_cons, not_or] at hfirst
  simp [RingLine, jobAt, hfirst]

/-- Every step but the lines of a UART command run with its issue is a step of the rings. -/
theorem ringStep_step {s : State} (h : RingInv s)
    (hone : s.burst = 0 ∨ ∀ w rest, s.sched ≠ .present (.uartCommand w) :: rest) :
    Ensures False (RingStep s.taken) (step s) := by
  have h' : RingInv s.taken := h
  cases stepKind_step s with
  | refused r ho => rw [ho]; trivial
  | host u hu ho =>
    rw [ho]
    obtain ⟨hcfg, -, -, ⟨n, a, v, w, huart⟩⟩ := hu
    exact ringStep_of_kept h' hcfg (by rw [huart]; rfl) (by rw [huart]; rfl) (by rw [huart]; rfl) (by rw [huart]; rfl)
      (by rw [huart]; rfl)
  | setGie b rest hs ho => rw [ho]; exact ringStep_of_kept h' rfl rfl rfl rfl rfl rfl
  | i2cCommand w i hi ho =>
    rw [ho, ensures_total]
    refine ⟨fun e => exec_i2c_ne_fault hi, fun u hu => ?_⟩
    obtain ⟨st, v, hkeeps, rfl⟩ := exec_i2c_eq_next hi hu
    have hcfg : (i2cReturn st v).cfg = s.taken.cfg := hkeeps.cfg
    have huart : (i2cReturn st v).uart = s.taken.uart := hkeeps.uart
    exact ringStep_of_kept h' hcfg (by rw [huart]) (by rw [huart]) (by rw [huart]) (by rw [huart]) (by rw [huart])
  | uartCommand w rest hs i hi ho =>
    rw [ho]
    have hburst : s.burst = 0 := hone.resolve_right fun hno => hno w rest hs
    refine ensures_exec_uart hi fun op b _ _ _ => ?_
    have hrun : (s.taken.mapUart fun u => { u with cw := w }).burst = 0 := hburst
    rw [hrun, runLines_zero]
    have := ringStep_issue (s := s.taken.mapUart fun u => { u with cw := w }) op b h
    exact ⟨⟨this.bounds, this.tx, this.rx⟩, this.line⟩
  | onRx ho => rw [ho]; exact ringStep_execOnRx h'
  | onTxe ho => rw [ho]; exact ringStep_execOnTxe h'
  | line j hj ho => rw [ho]; exact ringStep_lineStep h' hj
  | hwRx b e ho => rw [ho]; exact ringStep_hwRx b e h'
  | hwTxTake ho => rw [ho]; exact ringStep_hwTxTake h'
  | hwTxDone ho => rw [ho]; exact ringStep_hwTxDone h'

/-- Every step keeps the ring invariant and ends in no fault. -/
theorem ringInv_step {s : State} (h : RingInv s) : Ensures False RingInv (step s) := by
  by_cases hcmd : ∃ w rest, s.sched = .present (.uartCommand w) :: rest
  · obtain ⟨w, rest, hs⟩ := hcmd
    have hline (u : State) (j : Job) (hu : RingInv u) (hj : u.uart.job = some j) : Ensures False RingInv (lineStep j u) :=
      (ringStep_lineStep hu hj).mono fun _ ht => ht.inv
    have hcw : RingInv ({ s with sched := rest }.mapUart fun u => { u with cw := w }) := h
    simp only [step, hs, fetch]
    cases hd : decodeUart w with
    | error e => trivial
    | ok i =>
      exact ensures_exec_uart (isUart_of_decodeUart hd) fun op b _ _ _ =>
        ensures_runLines hline _ (ringStep_issue op b hcw).inv
  · simp only [not_exists] at hcmd
    exact (ringStep_step h (.inr hcmd)).mono fun _ ht => ht.inv

/-- Settles O11: a step of one agent is a step of the rings, and a UART command is one followed by its lines, each of them one. -/
theorem stepKeepsRingIndices : Obligations.StepKeepsRingIndices := by
  unfold Obligations.StepKeepsRingIndices
  refine ⟨fun s t h ht => (ringInv_step h).apply ht, fun s t h hone ht => ?_⟩
  have hstep : RingStep s.taken t := (ringStep_step h hone).apply ht
  exact ⟨hstep.tx, hstep.rx⟩

/-- Settles O17: a fault comes from a slot index out of range or from a `DATA` that is occupied, and the ring invariant with the
condition under which on-transmit-empty runs excludes both. -/
theorem noStepFaults : Obligations.NoStepFaults := by
  unfold Obligations.NoStepFaults
  exact fun s e h => (ensures_total.1 (ringInv_step h)).1 e

end Sys2Proof.Machine
end

section
/-! SUPPORT. The port invariant, first part (spec 10_state.md R45; 42_uart_ring_and_handlers.md R170; 60_exceptions.md R222;
70_reset_and_hazards.md R243): the lines of one operation, the invariant by line, and what the peripheral, the entry points and
the lines on an open port keep. -/

namespace Sys2Proof.Machine

/-! ## The lines of one operation -/

/-- If the operation `j` is still in progress in `t`, it runs the same command with the same buffer, at a line of that command. -/
def Continues (j : Job) (t : State) : Prop :=
  ∀ k, t.uart.job = some k → k.op = j.op ∧ k.buf = j.buf ∧ k.count = j.count ∧ lineOf j.op k.line = true

theorem continues_goto {j k : Job} {l : Line} {u : State} (hop : k.op = j.op) (hbuf : k.buf = j.buf)
    (hcount : k.count = j.count) (hl : lineOf j.op l = true) : Continues j (goto l k u) := by
  intro m hm
  obtain rfl : { k with line := l } = m := Option.some.inj hm
  exact ⟨hop, hbuf, hcount, hl⟩

theorem continues_uartReturn {j : Job} {st : Status} {u : State} : Continues j (uartReturn st u) := fun k hk => by cases hk

theorem ensures_pump_of_forall {P : State → Prop} {s : State} (h : ∀ t, P t) : Ensures True P (pump s) := by
  exact ensures_partial.2 fun t _ => h t

/-- Every line leads to a line of the same command, or returns. -/
theorem continues_lineStep {s : State} {j : Job} (h : lineOf j.op j.line = true) :
    Ensures True (Continues j) (lineStep j s) := by
  cases hop : j.op with
  | opening | closing | isOpen | available | recv | recvBuf =>
    simp only [hop, lineOf, List.mem_cons, List.not_mem_nil, or_false, decide_eq_true_eq] at h
    casesm* _ ∨ _ <;>
      simp [lineStep, *, continues_goto, continues_uartReturn, lineOf, ensures_flushOutReturn, ensures_recvReturn,
        ensures_pump_of_forall, recvRead, readClear, recvStore, wait]
  | flush outbound =>
    cases outbound <;>
      simp only [hop, lineOf, if_true, Bool.false_eq_true, if_false, List.mem_cons, List.not_mem_nil, or_false,
        decide_eq_true_eq] at h <;>
      casesm* _ ∨ _ <;>
      simp [lineStep, *, continues_goto, continues_uartReturn, lineOf, ensures_flushOutReturn, ensures_pump_of_forall]
  | send drain | sendBuf drain | sendStr drain =>
    simp only [hop, lineOf, List.mem_cons, List.not_mem_nil, or_false, decide_eq_true_eq, Bool.or_eq_true,
      Bool.and_eq_true] at h
    casesm* _ ∨ _, _ ∧ _ <;>
      simp +contextual [lineStep, *, continues_goto, continues_uartReturn, lineOf, ensures_flushOutReturn,
        ensures_sendReturn, ensures_pump_of_forall, sendWait, wait, sendStore, sendDrains, bufferDrains]

/-! ## The port invariant, by the line the operation in progress is at -/

/-- Nothing is queued or in the transmitter. -/
abbrev txIdle (u : Uart) : Prop := u.tx.head = u.tx.tail ∧ u.txHold = none ∧ u.txShift = none

/-- A queued byte is backed by an enabled interrupt (R170). -/
def Backed (u : Uart) : Prop := u.tx.head ≠ u.tx.tail → u.ctrl.txeIe = true

/-- The port invariant of a controller with no operation in progress. -/
abbrev PortFree (u : Uart) : Prop := (u.opened = false → portQuiet u) ∧ (u.opened = true → Backed u)

/-- The port invariant of a controller whose operation in progress, of the command `op`, is at the line `l`. -/
abbrev PortAt (u : Uart) (op : UOp) (l : Line) : Prop :=
  lineOf op l = true ∧
  (u.opened = false → l ≠ .open4 → portQuiet u) ∧
  (u.opened = false → txIdle u) ∧
  (l ∈ [.open2, .open3, .open4, .close5] → u.opened = false) ∧
  (op ∉ [.opening, .closing, .isOpen] → u.opened = true) ∧
  (l ∈ [.close2, .close3, .close4, .flushOut1, .flushOut2, .flushOut3] → u.opened = true) ∧
  (op = .closing → l ∈ [.flushOut3, .close3, .close4] → txIdle u) ∧
  (l = .close4 → portQuiet u) ∧
  (u.opened = true → l ≠ .send7 → Backed u)

theorem portInv_of_job_none {s : State} (hjob : s.uart.job = none) :
    PortInv s ↔ s.uart.busy = false ∧ PortFree s.uart := by
  simp only [PortInv, PortFree, Backed, atLine, hjob, Option.any_none, Option.isSome_none, reduceCtorEq, false_implies,
    implies_true, true_implies, true_and, Bool.false_eq_true]
  constructor
  · rintro ⟨hbusy, hquiet, -, hback⟩
    exact ⟨hbusy, hquiet, hback⟩
  · rintro ⟨hbusy, hquiet, hback⟩
    refine ⟨hbusy, hquiet, fun ho => ?_, hback⟩
    obtain ⟨-, -, -, -, hidle⟩ := hquiet ho
    exact hidle

theorem portInv_of_job_some {s : State} {j : Job} (hjob : s.uart.job = some j) :
    PortInv s ↔ s.uart.busy = true ∧ PortAt s.uart j.op j.line := by
  simp only [PortInv, PortAt, Backed, atLine, hjob, Option.any_some, Option.isSome_some, Option.some.injEq, forall_eq',
    beq_eq_false_iff_ne, beq_iff_eq]
  have hcomm : (s.uart.opened = true → s.uart.tx.head ≠ s.uart.tx.tail → j.line ≠ .send7 → s.uart.ctrl.txeIe = true) ↔
      (s.uart.opened = true → j.line ≠ .send7 → s.uart.tx.head ≠ s.uart.tx.tail → s.uart.ctrl.txeIe = true) :=
    ⟨fun h a b c => h a c b, fun h a b c => h a c b⟩
  rw [hcomm]

theorem portInv_goto {u : State} {l : Line} {k : Job} (hbusy : u.uart.busy = true) (h : PortAt u.uart k.op l) :
    PortInv (goto l k u) :=
  (portInv_of_job_some rfl).2 ⟨hbusy, h⟩

theorem portInv_uartReturn {u : State} {st : Status} (h : PortFree u.uart) : PortInv (uartReturn st u) :=
  (portInv_of_job_none rfl).2 ⟨rfl, h⟩

/-! ## Moves that leave the operation in progress where it is -/

theorem portInv_of_move {s t : State} (h : PortInv s) (hjob : t.uart.job = s.uart.job) (hbusy : t.uart.busy = s.uart.busy)
    (hopened : t.uart.opened = s.uart.opened) (hquiet : portQuiet s.uart → portQuiet t.uart)
    (hidle : txIdle s.uart → txIdle t.uart) (hback : Backed s.uart → Backed t.uart) : PortInv t := by
  cases hj : s.uart.job with
  | none =>
    obtain ⟨hb, hq, hbk⟩ := (portInv_of_job_none hj).1 h
    refine (portInv_of_job_none (hjob.trans hj)).2 ⟨hbusy.trans hb, ?_, ?_⟩ <;> rw [hopened]
    · exact fun ho => hquiet (hq ho)
    · exact fun ho => hback (hbk ho)
  | some j =>
    obtain ⟨hb, hown, hq, hi, hclosed, hsession, hopen, hclosing, hq4, hbk⟩ := (portInv_of_job_some hj).1 h
    refine (portInv_of_job_some (hjob.trans hj)).2 ⟨hbusy.trans hb, hown, ?_⟩
    rw [hopened]
    exact ⟨fun ho hl => hquiet (hq ho hl), fun ho => hidle (hi ho), hclosed, hsession, hopen,
      fun hop hl => hidle (hclosing hop hl), fun hl => hquiet (hq4 hl), fun ho hl => hback (hbk ho hl)⟩

theorem portInv_clearTxeIe {s : State} (h : PortInv s) (hempty : s.uart.tx.head = s.uart.tx.tail) :
    PortInv (clearTxeIe s) := by
  refine portInv_of_move h rfl rfl rfl (fun ⟨hctrl, hrest⟩ => ⟨?_, hrest⟩) id fun _ hne => absurd hempty hne
  simp [clearTxeIe, hctrl]

theorem backed_popTx {s : State} (h : Backed s.uart) (hne : s.uart.tx.head ≠ s.uart.tx.tail) : Backed (popTx s).uart := by
  intro hmore
  have hmore : s.uart.tx.head ≠ ringNext s.cfg.nTx s.uart.tx.tail := hmore
  simp [popTx, hmore, h hne]

theorem portInv_popTx {s : State} (h : PortInv s) (hne : s.uart.tx.head ≠ s.uart.tx.tail) : PortInv (popTx s) :=
  portInv_of_move h rfl rfl rfl (fun ⟨_, _, _, _, hempty, _⟩ => absurd hempty hne) (fun ⟨hempty, _⟩ => absurd hempty hne)
    fun hback => backed_popTx hback hne

theorem portInv_execOnTxe {s : State} (h : PortInv s) : Ensures True PortInv (execOnTxe s) :=
  ensures_execOnTxe (portInv_clearTxeIe h) fun hne _ _ => ⟨fun _ => portInv_popTx h hne, fun _ => trivial⟩

/-- A quiet port has its receive interrupt disabled. -/
theorem portInv_execOnRx {s : State} (h : PortInv s) : Ensures True PortInv (execOnRx s) := by
  have hloud (hie : s.uart.ctrl.rxIe = true) : ¬ portQuiet s.uart := fun ⟨hctrl, _⟩ => by simp [hctrl] at hie
  exact ensures_execOnRx
    (fun _ _ _ hie _ => ⟨fun _ => portInv_of_move h rfl rfl rfl (fun hq => absurd hq (hloud hie)) id id, fun _ => trivial⟩)
    fun _ _ _ hie => portInv_of_move h rfl rfl rfl (fun hq => absurd hq (hloud hie)) id id

/-- A quiet port has its receiver disabled. -/
theorem portInv_hwRx {s : State} (b : Byte) (e : HwFlags) (h : PortInv s) : PortInv (hwRx b e s) := by
  rcases hwRx_cases b e s with ⟨hen, -, heq⟩ | heq <;> rw [heq]
  · refine portInv_of_move h rfl rfl rfl (fun ⟨hctrl, _⟩ => ?_) id id
    simp [hctrl] at hen
  · exact h

/-- A transmitter that takes a byte is not idle. -/
theorem portInv_hwTxTake {s : State} (h : PortInv s) : PortInv (hwTxTake s) := by
  rcases hwTxTake_cases s with ⟨b, hhold, -, -, heq⟩ | heq <;> rw [heq]
  · refine portInv_of_move h rfl rfl rfl (fun ⟨_, _, _, _, _, hnone, _⟩ => ?_) (fun ⟨_, hnone, _⟩ => ?_) id <;>
      simp [hhold] at hnone
  · exact h

/-- Nor is one that ends a byte. -/
theorem portInv_hwTxDone {s : State} (h : PortInv s) : PortInv (hwTxDone s) := by
  rcases hwTxDone_cases s with ⟨b, hshift, heq⟩ | ⟨-, heq⟩ <;> rw [heq]
  · refine portInv_of_move h rfl rfl rfl (fun ⟨_, _, _, _, _, _, hnone⟩ => ?_) (fun ⟨_, _, hnone⟩ => ?_) id <;>
      simp [hshift] at hnone
  · exact h

/-! ## The lines of an operation that needs the port open -/

/-- The port is open, and a queued byte is backed by an enabled interrupt except at line 7 of a `send`. -/
structure Session (t : State) : Prop where
  opened : t.uart.opened = true
  busy : t.uart.busy = t.uart.job.isSome
  backed : atLine t.uart .send7 = false → Backed t.uart

theorem session_goto {u : State} {l : Line} {k : Job} (hopened : u.uart.opened = true) (hbusy : u.uart.busy = true)
    (hback : l ≠ .send7 → Backed u.uart) : Session (goto l k u) :=
  ⟨hopened, hbusy, fun hl => hback (by simpa [atLine] using hl)⟩

theorem session_uartReturn {u : State} {st : Status} (hopened : u.uart.opened = true) (hback : Backed u.uart) :
    Session (uartReturn st u) :=
  ⟨hopened, rfl, fun _ => hback⟩

/-- No line of `open`, `close` and `isOpen` belongs to another command. -/
theorem not_lineOf_session {op : UOp} (hop : ¬ op.anyPort) {l : Line}
    (hl : l ∈ [.open1, .open2, .open3, .open4, .open5, .close1, .close2, .close3, .close4, .close5, .isOpen1, .isOpen2]) :
    lineOf op l = false := by
  simp only [List.mem_cons, List.not_mem_nil, or_false] at hl
  cases op with
  | opening | closing | isOpen => simp [UOp.anyPort] at hop
  | flush outbound => cases outbound <;> casesm* _ ∨ _ <;> subst l <;> rfl
  | send drain | sendBuf drain | sendStr drain => cases drain <;> casesm* _ ∨ _ <;> subst l <;> rfl
  | available | recv | recvBuf => casesm* _ ∨ _ <;> subst l <;> rfl

theorem session_lineStep {s : State} {j : Job} (h : Session s) (hj : s.uart.job = some j) (hown : lineOf j.op j.line = true)
    (hop : ¬ j.op.anyPort) : Ensures True Session (lineStep j s) := by
  obtain ⟨hopened, hbusy, hback⟩ := h
  rw [hj, Option.isSome_some] at hbusy
  have hback (hl : j.line ≠ .send7) : Backed s.uart := hback (by simpa [atLine, hj] using hl)
  have hpump (hl : j.line ≠ .send7) :
      Ensures True (fun u => u.uart.opened = true ∧ u.uart.busy = true ∧ Backed u.uart) (pump s) :=
    ensures_pump ⟨hopened, hbusy, hback hl⟩ (fun hempty => ⟨hopened, hbusy, fun hne => absurd hempty hne⟩)
      fun hne _ => ⟨fun _ => ⟨hopened, hbusy, backed_popTx (hback hl) hne⟩, fun _ => trivial⟩
  cases hl : j.line with
  | open1 | open2 | open3 | open4 | open5 | close1 | close2 | close3 | close4 | close5 | isOpen1 | isOpen2 =>
    exact absurd hown (by simp [hl, not_lineOf_session hop])
  | send6 =>
    simp only [lineStep, hl, ensures_change]
    exact session_goto hopened hbusy fun hne => absurd rfl hne
  | send7 =>
    simp only [lineStep, hl, ensures_proceed]
    exact session_goto hopened hbusy fun _ _ => rfl
  | send4 =>
    simp only [lineStep, hl, sendWait, ensures_andThen]
    refine (hpump (by simp [hl])).mono fun u ⟨ho, hb, hbk⟩ => ?_
    simp [ensures_sendReturn, session_goto, session_uartReturn, ho, hb, hbk]
  | flushOut2 =>
    simp only [lineStep, hl, ensures_andThen, ensures_proceed]
    exact (hpump (by simp [hl])).mono fun u ⟨ho, hb, hbk⟩ => session_goto ho hb fun _ => hbk
  | send5 =>
    simp only [lineStep, hl, sendStore, ensures_slotWrite]
    exact ⟨fun _ => session_goto hopened hbusy fun _ => hback (by simp [hl]), fun _ => trivial⟩
  | flushIn1 | recv3 | recv4 | recvBuf8 =>
    simp only [lineStep, hl]
    exact session_goto hopened hbusy fun _ => hback (by simp [hl])
  | _ =>
    have hback := hback (by simp [hl])
    simp [lineStep, hl, session_goto, session_uartReturn, hopened, hbusy, hback, ensures_flushOutReturn,
        ensures_sendReturn, ensures_recvReturn, recvRead]

/-- So the port invariant holds again, the operation being at one of its own lines. -/
theorem portInv_of_session {j : Job} {t : State} (h : Session t) (hnext : Continues j t) (hop : ¬ j.op.anyPort) :
    PortInv t := by
  have hopened := h.opened
  cases hj : t.uart.job with
  | none =>
    refine (portInv_of_job_none hj).2 ⟨by rw [h.busy, hj]; rfl, by simp [hopened], fun _ => h.backed (by simp [atLine, hj])⟩
  | some k =>
    obtain ⟨hkop, -, -, hown⟩ := hnext k hj
    have hother {l : Line} (hl : l ∈ [.open1, .open2, .open3, .open4, .open5, .close1, .close2, .close3, .close4, .close5,
        .isOpen1, .isOpen2]) : k.line ≠ l := by
      rintro rfl
      simp [not_lineOf_session hop hl] at hown
    rw [← hkop] at hown hop
    refine (portInv_of_job_some hj).2 ⟨by rw [h.busy, hj]; rfl, hown, by simp [hopened], by simp [hopened], fun hl => ?_,
      fun _ => hopened, fun _ => hopened, fun hcl => ?_, fun hl => absurd hl (hother (by simp)),
      fun _ hl => h.backed (by simpa [atLine, hj] using hl)⟩
    · simp [hother] at hl
    · simp [hcl] at hop

end Sys2Proof.Machine
end

section
/-! SUPPORT. The port invariant, second part (spec 43_uart_operations.md R182, R183, R184): the lines of `open`, `close` and
`isOpen`, and the step. -/

namespace Sys2Proof.Machine

/-! ## The lines of `open`, `close` and `isOpen` -/

section
variable {s : State} {j : Job} (h : PortInv s) (hj : s.uart.job = some j)
include h hj

/-- R182: quiet until line 3 enables the receiver, open after line 4. -/
theorem portInv_opening (hop : j.op = .opening) : Ensures True PortInv (lineStep j s) := by
  obtain ⟨hbusy, hown, hquiet, hidle, hclosed, -, -, -, -, hback⟩ := (portInv_of_job_some hj).1 h
  simp only [hop, lineOf, List.mem_cons, List.not_mem_nil, or_false, decide_eq_true_eq] at hown
  rcases hown with hl | hl | hl | hl | hl
  · -- line 1
    simp only [lineStep, hl, ensures_ite, ensures_finish, ensures_proceed]
    refine ⟨fun ho => portInv_uartReturn ⟨by simp [ho], fun ho => hback ho (by simp [hl])⟩, fun ho => portInv_goto hbusy ?_⟩
    have ho : s.uart.opened = false := by simpa using ho
    have hq := hquiet ho (by simp [hl])
    simp [PortAt, portQuiet, txIdle, hop, lineOf, ho, hq]
  · -- line 2
    simp only [lineStep, hl, ensures_change]
    have ho := hclosed (by simp [hl])
    have hq := hquiet ho (by simp [hl])
    refine portInv_goto hbusy ?_
    simp [PortAt, portQuiet, txIdle, hop, lineOf, ho, hq]
  · -- line 3
    simp only [lineStep, hl, ensures_change]
    have ho := hclosed (by simp [hl])
    have hi := hidle ho
    refine portInv_goto hbusy ?_
    simp [PortAt, txIdle, hop, lineOf, enableReceive, ho, hi]
  · -- line 4
    simp only [lineStep, hl, ensures_change]
    have hi := hidle (hclosed (by simp [hl]))
    refine portInv_goto hbusy ?_
    simp [PortAt, hop, lineOf, Backed, hi]
  · -- line 5
    simp only [lineStep, hl, ensures_finish]
    exact portInv_uartReturn ⟨fun ho => hquiet ho (by simp [hl]), fun ho => hback ho (by simp [hl])⟩

/-- R183: open until line 4; drained when `flush_out()` returns, quiet from line 3 on. -/
theorem portInv_closing (hop : j.op = .closing) : Ensures True PortInv (lineStep j s) := by
  obtain ⟨hbusy, hown, hquiet, -, -, -, hopen, hclosing, hquiet4, hback⟩ := (portInv_of_job_some hj).1 h
  have hdrained := hclosing hop
  simp only [hop, lineOf, List.mem_cons, List.not_mem_nil, or_false, decide_eq_true_eq] at hown
  rcases hown with hl | hl | hl | hl | hl | hl | hl | hl
  · -- line 1
    simp only [lineStep, hl, ensures_ite, ensures_finish, ensures_proceed]
    refine ⟨fun ho => portInv_goto hbusy ?_, fun _ => portInv_uartReturn
      ⟨fun ho => hquiet ho (by simp [hl]), fun ho => hback ho (by simp [hl])⟩⟩
    have hb := hback ho (by simp [hl])
    simp [PortAt, hop, lineOf, ho, hb]
  · -- line 2
    simp only [lineStep, hl, ensures_proceed]
    have ho := hopen (by simp [hl])
    have hb := hback ho (by simp [hl])
    refine portInv_goto hbusy ?_
    simp [PortAt, hop, lineOf, ho, hb]
  · -- line 3
    simp only [lineStep, hl, ensures_proceed]
    have ho := hopen (by simp [hl])
    have hi := hdrained (by simp [hl])
    refine portInv_goto hbusy ?_
    simp [PortAt, portQuiet, txIdle, hop, lineOf, tearDown, disableReceiver, Backed, ho, hi]
  · -- line 4
    simp only [lineStep, hl, ensures_change]
    have hq := hquiet4 hl
    refine portInv_goto hbusy ?_
    simp [PortAt, portQuiet, txIdle, hop, lineOf, hq]
  · -- line 5
    simp only [lineStep, hl, ensures_finish]
    exact portInv_uartReturn ⟨fun ho => hquiet ho (by simp [hl]), fun ho => hback ho (by simp [hl])⟩
  · -- `flush_out()` line 1
    simp only [lineStep, hl, ensures_ite, ensures_proceed]
    have ho := hopen (by simp [hl])
    have hb := hback ho (by simp [hl])
    refine ⟨fun hd => portInv_goto hbusy ?_, fun _ => portInv_goto hbusy ?_⟩
    · have hi : txIdle s.uart := by simpa [drained, Ring.isEmpty, statTxc] using hd
      simp [PortAt, txIdle, hop, lineOf, ho, hi, hb]
    · simp [PortAt, hop, lineOf, ho, hb]
  · -- `flush_out()` line 2: the pump leaves the operation at its line
    simp only [lineStep, hl, ensures_andThen, ensures_proceed]
    have hpump : Ensures True (fun u => PortInv u ∧ u.uart.job = some j) (pump s) :=
      ensures_pump ⟨h, hj⟩ (fun hempty => ⟨portInv_clearTxeIe h hempty, hj⟩)
        fun hne _ => ⟨fun _ => ⟨portInv_popTx h hne, hj⟩, fun _ => trivial⟩
    refine hpump.mono fun u ⟨hu, hju⟩ => ?_
    obtain ⟨hbusy, -, -, -, -, -, hopen, -, -, hback⟩ := (portInv_of_job_some hju).1 hu
    have ho := hopen (by simp [hl])
    have hb := hback ho (by simp [hl])
    refine portInv_goto hbusy ?_
    simp [PortAt, hop, lineOf, ho, hb]
  · -- `flush_out()` line 3
    simp only [lineStep, hl, flushOutReturn, hop, ensures_proceed]
    have ho := hopen (by simp [hl])
    have hb := hback ho (by simp [hl])
    have hi := hdrained (by simp [hl])
    refine portInv_goto hbusy ?_
    simp [PortAt, txIdle, hop, lineOf, ho, hi, hb]

/-- R184: `isOpen` only reads the flag. -/
theorem portInv_isOpen (hop : j.op = .isOpen) : Ensures True PortInv (lineStep j s) := by
  obtain ⟨hbusy, hown, hquiet, hidle, -, -, -, -, -, hback⟩ := (portInv_of_job_some hj).1 h
  simp only [hop, lineOf, List.mem_cons, List.not_mem_nil, or_false, decide_eq_true_eq] at hown
  have hquiet (ho : s.uart.opened = false) : portQuiet s.uart := hquiet ho (by rcases hown with hl | hl <;> simp [hl])
  have hback (ho : s.uart.opened = true) : Backed s.uart := hback ho (by rcases hown with hl | hl <;> simp [hl])
  rcases hown with hl | hl
  · -- line 1
    simp only [lineStep, hl, ensures_change]
    exact portInv_goto hbusy ⟨by simp [hop, lineOf], fun ho _ => hquiet ho, hidle, by simp, by simp [hop], by simp,
      by simp, by simp, fun ho _ => hback ho⟩
  · -- line 2
    simp only [lineStep, hl, ensures_finish]
    exact portInv_uartReturn ⟨hquiet, hback⟩

/-- Every line of the operation in progress keeps the port invariant. -/
theorem portInv_lineStep : Ensures True PortInv (lineStep j s) := by
  obtain ⟨hbusy, hown, -, -, -, hsession, -, -, -, hback⟩ := (portInv_of_job_some hj).1 h
  by_cases hop : j.op.anyPort
  · rcases (by simpa [UOp.anyPort] using hop : j.op = .opening ∨ j.op = .closing ∨ j.op = .isOpen) with hop | hop | hop
    · exact portInv_opening h hj hop
    · exact portInv_closing h hj hop
    · exact portInv_isOpen h hj hop
  · have hs : Session s :=
      ⟨hsession hop, by rw [hbusy, hj]; rfl, fun hl => hback (hsession hop) (by simpa [atLine, hj] using hl)⟩
    have hsession := ensures_partial.1 (session_lineStep hs hj hown hop)
    exact ensures_partial.2 fun t ht => portInv_of_session (hsession t ht) ((continues_lineStep hown).apply ht) hop

end

/-! ## The step -/

theorem lineOf_firstLine (op : UOp) : lineOf op op.firstLine = true := by
  cases op with
  | flush outbound => cases outbound <;> rfl
  | send drain | sendBuf drain | sendStr drain => cases drain <;> rfl
  | _ => rfl

/-- A UART command is issued at the first line of its operation, on an open port where it needs one. -/
theorem portInv_issue {s : State} {op : UOp} {b : Byte} (h : PortInv s) (hidle : s.uart.busy = false)
    (hopen : ¬ op.anyPort → s.uart.opened = true) : PortInv (issue op b s) := by
  have hjob : s.uart.job = none := by simpa [hidle] using h.1
  obtain ⟨-, hquiet, hback⟩ := (portInv_of_job_none hjob).1 h
  have htx (ho : s.uart.opened = false) : txIdle s.uart := by
    obtain ⟨-, -, -, -, htx⟩ := hquiet ho
    exact htx
  have hfirst := firstLine_notMem op
  simp only [List.mem_cons, not_or] at hfirst
  refine (portInv_of_job_some (j := jobAt op op.firstLine b s.uart) rfl).2 ⟨rfl, lineOf_firstLine op, fun ho _ => hquiet ho,
    htx, ?_, hopen, fun hl => hopen fun hany => ?_, ?_, ?_, fun ho _ => hback ho⟩
  · simp [jobAt, hfirst]
  · rcases (by simpa [UOp.anyPort] using hany : op = .opening ∨ op = .closing ∨ op = .isOpen) with rfl | rfl | rfl <;>
      simp [jobAt, UOp.firstLine] at hl
  · simp [jobAt, hfirst]
  · simp [jobAt, hfirst]

theorem portInv_exec_uart {i : Instr} {s : State} (hi : i.isUart = true) (h : PortInv s) :
    Ensures True PortInv (exec i s) :=
  ensures_exec_uart hi fun _ _ _ hidle hopen =>
    ensures_runLines (fun _ _ hu hj => portInv_lineStep hu hj) _ (portInv_issue h hidle hopen)

/-- Settles O14: by the agent that moves; a UART command is its issue followed by its lines. -/
theorem stepKeepsPortInvariant : Obligations.StepKeepsPortInvariant := by
  unfold Obligations.StepKeepsPortInvariant
  intro s t h hstep
  have h' : PortInv s.taken := h
  cases stepKind_step s with
  | refused r ho => cases ho.symm.trans hstep
  | host u hu ho =>
    cases ho.symm.trans hstep
    obtain ⟨-, -, -, ⟨n, a, v, w, huart⟩⟩ := hu
    exact portInv_of_move h (by rw [huart]) (by rw [huart]) (by rw [huart]) (by rw [huart]; exact id)
      (by rw [huart]; exact id) (by rw [huart]; exact id)
  | setGie b rest hs ho => cases ho.symm.trans hstep; exact h
  | i2cCommand w i hi ho =>
    obtain ⟨st, u, hkeeps, rfl⟩ := exec_i2c_eq_next hi (ho.symm.trans hstep)
    have huart : (i2cReturn st u).uart = s.uart := hkeeps.uart
    simpa only [PortInv, huart] using h
  | uartCommand w rest hs i hi ho =>
    have hcw : PortInv (s.taken.mapUart fun u => { u with cw := w }) := portInv_of_move h' rfl rfl rfl id id id
    exact (portInv_exec_uart hi hcw).apply (ho.symm.trans hstep)
  | onRx ho => exact (portInv_execOnRx h').apply (ho.symm.trans hstep)
  | onTxe ho => exact (portInv_execOnTxe h').apply (ho.symm.trans hstep)
  | line j hj ho => exact (portInv_lineStep h' hj).apply (ho.symm.trans hstep)
  | hwRx b e ho => cases ho.symm.trans hstep; exact portInv_hwRx b e h'
  | hwTxTake ho => cases ho.symm.trans hstep; exact portInv_hwTxTake h'
  | hwTxDone ho => cases ho.symm.trans hstep; exact portInv_hwTxDone h'

end Sys2Proof.Machine
end

section
/-! SUPPORT. What the I2C operations leave alone (spec 10_state.md R20 to R23; 41_i2c_operations.md R134 to R137, R144):
everything but the bus, and the bytes a read stores. -/

namespace Sys2Proof.Machine

/-! ## What an I2C operation leaves alone but for the bytes it stores (R20, R22, R23, R144) -/

/-- The parameters, `I2C.open`, `RES_VALUE`, the initialisation answers and both memories are unchanged. -/
structure BusKeeps (s t : State) : Prop where
  cfg : t.cfg = s.cfg
  opened : t.i2c.opened = s.i2c.opened
  resValue : t.i2c.resValue = s.i2c.resValue
  initIn : t.initIn = s.initIn
  scratch : t.i2c.scratch = s.i2c.scratch
  hbuf : t.hbuf = s.hbuf

theorem BusKeeps.refl (s : State) : BusKeeps s s := ⟨rfl, rfl, rfl, rfl, rfl, rfl⟩

theorem BusKeeps.trans {s t u : State} (h : BusKeeps s t) (k : BusKeeps t u) : BusKeeps s u :=
  ⟨k.cfg.trans h.cfg, k.opened.trans h.opened, k.resValue.trans h.resValue, k.initIn.trans h.initIn,
    k.scratch.trans h.scratch, k.hbuf.trans h.hbuf⟩

theorem busKeeps_mapI2c {f : I2c → I2c} (s : State) (hopened : (f s.i2c).opened = s.i2c.opened)
    (hvalue : (f s.i2c).resValue = s.i2c.resValue) (hscratch : (f s.i2c).scratch = s.i2c.scratch) :
    BusKeeps s (s.mapI2c f) :=
  ⟨rfl, hopened, hvalue, rfl, hscratch, rfl⟩

theorem busKeeps_emit (e : BusEvent) (s : State) : BusKeeps s (emit e s) := busKeeps_mapI2c s rfl rfl rfl

theorem busKeeps_setFsm (f : Fsm) (s : State) : BusKeeps s (setFsm f s) := busKeeps_mapI2c s rfl rfl rfl

theorem busKeeps_countDown (s : State) : BusKeeps s (countDown s) := busKeeps_mapI2c s rfl rfl rfl

theorem busKeeps_askXfer (s : State) : BusKeeps s (askXfer s).2 := by
  obtain ⟨l, n, h⟩ := askXfer_state s
  rw [h]
  exact ⟨rfl, rfl, rfl, rfl, rfl, rfl⟩

theorem busKeeps_waitBusy (s : State) : BusKeeps s (waitBusy s).2 := by
  obtain ⟨l, n, h⟩ := askBusyClear_state s
  rw [waitBusy_eq, h]
  exact ⟨rfl, rfl, rfl, rfl, rfl, rfl⟩

theorem busKeeps_sendByte (b : Byte) (s : State) : BusKeeps s (sendByte b s).2 := by
  rw [sendByte_eq]
  dsimp only
  split <;> exact (busKeeps_askXfer s).trans ⟨rfl, rfl, rfl, rfl, rfl, rfl⟩

theorem busKeeps_receiveByte (ack : Bool) (s : State) : BusKeeps s (receiveByte ack s).2 := by
  rw [receiveByte_eq]
  dsimp only
  split <;> exact (busKeeps_askXfer s).trans ⟨rfl, rfl, rfl, rfl, rfl, rfl⟩

theorem busKeeps_sendAddress (addr : BitVec 7) (rw : Bool) (s : State) : BusKeeps s (sendAddress addr rw s).2 := by
  rw [sendAddress_eq]
  dsimp only
  split <;> exact (busKeeps_askXfer s).trans ⟨rfl, rfl, rfl, rfl, rfl, rfl⟩

theorem busKeeps_start (addr : BitVec 7) (rw : Bool) (s : State) : BusKeeps s (start addr rw s).2 := by
  have hbegun : BusKeeps s (startBegun addr rw s) := busKeeps_mapI2c s rfl rfl rfl
  have hasked := hbegun.trans (busKeeps_askXfer _)
  by_cases h : evalCond (askXfer (startBegun addr rw s)).1 = .ok
  · rw [start_ok h]
    exact (hasked.trans (busKeeps_emit _ _)).trans (busKeeps_sendAddress addr rw _)
  · rw [start_fail h]
    exact (hasked.trans (busKeeps_emit _ _)).trans (busKeeps_setFsm _ _)

theorem busKeeps_stop (s : State) : BusKeeps s (stop s).2 := ⟨rfl, rfl, rfl, rfl, rfl, rfl⟩

theorem busKeeps_abort (c : StClass) (n : BitVec 16) (s : State) : BusKeeps s (abort c n s).2 := by
  unfold abort
  dsimp only
  split
  · exact BusKeeps.refl s
  · exact busKeeps_stop s

/-- A primitive in a composite operation: what holds of the operation that goes on and of the one that aborts. -/
theorem orAbort_cases {P : Status × State → Prop} {n : BitVec 16} {r : Status × State} {go : Status → State → Status × State}
    (hgo : r.1.cls = .ok → P (go r.1 r.2)) (habort : r.1.cls ≠ .ok → P (abort r.1.cls n r.2)) : P (orAbort n r go) := by
  unfold orAbort
  split
  · next h => exact hgo h
  · next h => exact habort h

theorem busKeeps_orAbort {s : State} {n : BitVec 16} {r : Status × State} {go : Status → State → Status × State}
    (hr : BusKeeps s r.2) (hgo : ∀ st t, BusKeeps t (go st t).2) : BusKeeps s (orAbort n r go).2 :=
  orAbort_cases (P := fun q => BusKeeps s q.2) (fun _ => hr.trans (hgo _ _)) fun _ => hr.trans (busKeeps_abort _ _ _)

theorem busKeeps_sendLoop (sp : Space) (buf : Nat) : ∀ (rem n : Nat) (s : State), BusKeeps s (sendLoop sp buf rem n s).2
  | 0, _, s => busKeeps_stop s
  | rem + 1, n, s =>
    busKeeps_orAbort (busKeeps_sendByte _ s) fun _ t =>
      (busKeeps_countDown t).trans (busKeeps_sendLoop sp buf rem (n + 1) _)

theorem busKeeps_writeBuffer (sp : Space) (addr : BitVec 7) (reg : Byte) (buf : Nat) (count : BitVec 16) (s : State) :
    BusKeeps s (writeBuffer sp addr reg buf count s).2 :=
  busKeeps_orAbort ((busKeeps_mapI2c s rfl rfl rfl).trans (busKeeps_waitBusy _)) fun _ t =>
    busKeeps_orAbort (busKeeps_start _ _ t) fun _ t =>
    busKeeps_orAbort (busKeeps_sendByte _ t) fun _ t => busKeeps_sendLoop _ _ _ _ t

theorem busKeeps_scanLoop : ∀ (k a n : Nat) (s : State), BusKeeps s (scanLoop k a n s).2
  | 0, _, _, s => BusKeeps.refl s
  | k + 1, a, n, s =>
    busKeeps_orAbort (busKeeps_waitBusy s) fun _ t => by
      have h := (busKeeps_start (BitVec.ofNat 7 a) false t).trans (busKeeps_stop _)
      dsimp only
      split
      · exact h.trans (busKeeps_scanLoop k (a + 1) (n + 1) _)
      · split
        · exact h.trans (busKeeps_scanLoop k (a + 1) n _)
        · exact h

/-! ## The bytes a read stores (R144) -/

/-- Bytes have been stored in the space `sp` at most at the addresses `A`; the rest is as `BusKeeps` has it. -/
structure StoresAt (sp : Space) (A : Nat → Prop) (s t : State) : Prop where
  cfg : t.cfg = s.cfg
  opened : t.i2c.opened = s.i2c.opened
  resValue : t.i2c.resValue = s.i2c.resValue
  initIn : t.initIn = s.initIn
  scratch : sp = .hbuf → t.i2c.scratch = s.i2c.scratch
  hbuf : sp = .scr → t.hbuf = s.hbuf
  bytes : ∀ a, ¬ A a → readSpace sp a t = readSpace sp a s

theorem BusKeeps.storesAt {s t : State} (h : BusKeeps s t) (sp : Space) (A : Nat → Prop) : StoresAt sp A s t :=
  ⟨h.cfg, h.opened, h.resValue, h.initIn, fun _ => h.scratch, fun _ => h.hbuf, fun a _ => by
    cases sp <;> simp only [readSpace, h.hbuf, h.scratch]⟩

theorem StoresAt.trans {sp : Space} {A : Nat → Prop} {s t u : State} (h : StoresAt sp A s t) (k : StoresAt sp A t u) :
    StoresAt sp A s u :=
  ⟨k.cfg.trans h.cfg, k.opened.trans h.opened, k.resValue.trans h.resValue, k.initIn.trans h.initIn,
    fun hsp => (k.scratch hsp).trans (h.scratch hsp), fun hsp => (k.hbuf hsp).trans (h.hbuf hsp),
    fun a ha => (k.bytes a ha).trans (h.bytes a ha)⟩

theorem storesAt_writeSpace (sp : Space) {A : Nat → Prop} {a : Nat} (b : Byte) (s : State) (ha : A a) :
    StoresAt sp A s (writeSpace sp a b s) := by
  have hother (m : Memory) (x : Nat) (hx : ¬ A x) : Memory.read (Memory.write m a b) x = Memory.read m x :=
    Memory.read_write_other b fun h => hx (h ▸ ha)
  cases sp with
  | hbuf => exact ⟨rfl, rfl, rfl, rfl, fun _ => rfl, nofun, hother s.hbuf⟩
  | scr => exact ⟨rfl, rfl, rfl, rfl, nofun, fun _ => rfl, hother s.i2c.scratch⟩

/-- The addresses of the bytes of a buffer from offset `n` up to `k`. -/
def bufferCells (c : Config) (sp : Space) (buf n k : Nat) (a : Nat) : Prop := ∃ i, n ≤ i ∧ i < k ∧ a = effAddr c sp buf i

/-- A read that has stored the bytes of its buffer from offset `n` up to some `k`, at most `m`, and returns `k` as its payload. -/
def StoredCount (sp : Space) (buf n m : Nat) (s : State) (r : Status × State) : Prop :=
  ∃ k, n ≤ k ∧ k ≤ m ∧ r.1.payload = BitVec.ofNat 16 k ∧ StoresAt sp (bufferCells s.cfg sp buf n k) s r.2

section
variable {sp : Space} {buf n m : Nat} {s t : State} {r : Status × State}

/-- Nothing stored. -/
theorem storedCount_of_busKeeps (hnm : n ≤ m) (hpay : r.1.payload = BitVec.ofNat 16 n) (h : BusKeeps s r.2) :
    StoredCount sp buf n m s r :=
  ⟨n, le_refl n, hnm, hpay, h.storesAt _ _⟩

/-- Nothing stored, and then a read. -/
theorem StoredCount.after (h : StoredCount sp buf n m t r) (hst : BusKeeps s t) : StoredCount sp buf n m s r := by
  obtain ⟨k, hnk, hkm, hpay, hstores⟩ := h
  exact ⟨k, hnk, hkm, hpay, (hst.storesAt _ _).trans (hst.cfg ▸ hstores)⟩

/-- One byte stored, and then the rest of the read. -/
theorem StoredCount.afterByte {b : Byte} (h : StoredCount sp buf (n + 1) m (writeSpace sp (effAddr s.cfg sp buf n) b s) r) :
    StoredCount sp buf n m s r := by
  obtain ⟨k, hnk, hkm, hpay, hstores⟩ := h
  have hcell : bufferCells s.cfg sp buf n k (effAddr s.cfg sp buf n) := ⟨n, le_refl n, hnk, rfl⟩
  have hbyte := storesAt_writeSpace sp b s hcell
  refine ⟨k, by omega, hkm, hpay, hbyte.trans ?_⟩
  rw [hbyte.cfg] at hstores
  exact ⟨hstores.cfg, hstores.opened, hstores.resValue, hstores.initIn, hstores.scratch, hstores.hbuf,
    fun a ha => hstores.bytes a fun ⟨i, hni, hik, hai⟩ => ha ⟨i, by omega, hik, hai⟩⟩

/-- A primitive, and then the rest of a read; if the primitive fails nothing is stored from here on. -/
theorem storedCount_orAbort {go : Status → State → Status × State} (hnm : n ≤ m) (hr : BusKeeps s r.2)
    (hgo : ∀ st t, StoredCount sp buf n m t (go st t)) : StoredCount sp buf n m s (orAbort (BitVec.ofNat 16 n) r go) :=
  orAbort_cases (P := StoredCount sp buf n m s) (fun _ => (hgo _ _).after hr) fun _ =>
    storedCount_of_busKeeps hnm rfl (hr.trans (busKeeps_abort _ _ _))

end

theorem storedCount_receiveLoop (sp : Space) (buf : Nat) (stopComm : Bool) :
    ∀ (rem n : Nat) (s : State), StoredCount sp buf n (n + rem) s (receiveLoop sp buf stopComm rem n s)
  | 0, n, s => by
    refine storedCount_of_busKeeps (le_refl n) rfl ?_
    cases stopComm
    · exact BusKeeps.refl s
    · exact busKeeps_stop s
  | rem + 1, n, s =>
    storedCount_orAbort (by omega) (busKeeps_receiveByte _ s) fun _ t =>
      .afterByte
        (.after (Nat.add_right_comm n 1 rem ▸ storedCount_receiveLoop sp buf stopComm rem (n + 1) _) (busKeeps_countDown _))

theorem storedCount_readBuffer (sp : Space) (addr : BitVec 7) (reg : Byte) (buf : Nat) (count : BitVec 16) (s : State) :
    StoredCount sp buf 0 count.toNat s (readBuffer sp addr reg buf count s) :=
  storedCount_orAbort (Nat.zero_le _) ((busKeeps_mapI2c s rfl rfl rfl).trans (busKeeps_waitBusy _)) fun _ t =>
    storedCount_orAbort (Nat.zero_le _) (busKeeps_start _ _ t) fun _ t =>
    storedCount_orAbort (Nat.zero_le _) (busKeeps_sendByte _ t) fun _ t =>
    storedCount_orAbort (Nat.zero_le _) (busKeeps_start _ _ t) fun _ t =>
    by simpa only [Nat.zero_add] using storedCount_receiveLoop sp buf true count.toNat 0 t

theorem storedCount_readRaw (addr : BitVec 7) (buf : Nat) (count : BitVec 16) (stopComm : Bool) (s : State) :
    StoredCount .hbuf buf 0 count.toNat s (readRaw addr buf count stopComm s) :=
  storedCount_orAbort (Nat.zero_le _) ((busKeeps_mapI2c s rfl rfl rfl).trans (busKeeps_waitBusy _)) fun _ t =>
    storedCount_orAbort (Nat.zero_le _) (busKeeps_start _ _ t) fun _ t =>
    by simpa only [Nat.zero_add] using storedCount_receiveLoop .hbuf buf stopComm count.toNat 0 t

end Sys2Proof.Machine
end

section
/-! SUPPORT. The frame of every I2C command (spec 10_state.md R22 to R28; 41_i2c_operations.md R131, R132, R138, R139). -/

namespace Sys2Proof.Machine

/-! ## The transaction registers (R26) -/

/-- The transaction registers are unchanged. -/
abbrev TxnKeeps (d e : I2c) : Prop := e.tAddr = d.tAddr ∧ e.tReg = d.tReg ∧ e.tDir = d.tDir ∧ e.tRem = d.tRem

theorem askXfer_i2c (s : State) : (askXfer s).2.i2c = s.i2c := by
  obtain ⟨l, n, h⟩ := askXfer_state s
  rw [h]

theorem waitBusy_i2c (s : State) : (waitBusy s).2.i2c = s.i2c := by
  obtain ⟨l, n, h⟩ := askBusyClear_state s
  rw [waitBusy_eq, h]

theorem txnKeeps_sendByte (b : Byte) (s : State) : TxnKeeps s.i2c (sendByte b s).2.i2c := by
  rw [sendByte_eq]
  dsimp only
  split <;> simp [TxnKeeps, askXfer_i2c]

theorem txnKeeps_receiveByte (ack : Bool) (s : State) : TxnKeeps s.i2c (receiveByte ack s).2.i2c := by
  rw [receiveByte_eq]
  dsimp only
  split <;> simp [TxnKeeps, askXfer_i2c]

/-! ## Bring-up and tear-down (R117, R131, R132) -/

/-- `open`, `close` and `reset` leave `RES_VALUE`, both memories and the transaction registers alone. -/
structure BringUpKeeps (s t : State) : Prop where
  resValue : t.i2c.resValue = s.i2c.resValue
  scratch : t.i2c.scratch = s.i2c.scratch
  hbuf : t.hbuf = s.hbuf
  txn : TxnKeeps s.i2c t.i2c

theorem bringUpKeeps_i2cClose (s : State) : BringUpKeeps s (i2cClose s).2 := by
  unfold i2cClose
  split <;> exact ⟨rfl, rfl, rfl, rfl, rfl, rfl, rfl⟩

theorem bringUpKeeps_i2cOpen (s : State) : BringUpKeeps s (i2cOpen s).2 := by
  unfold i2cOpen
  split
  · exact ⟨rfl, rfl, rfl, rfl, rfl, rfl, rfl⟩
  · obtain ⟨l, n, h⟩ := askInitOk_state s
    simp only [h]
    split <;> exact ⟨rfl, rfl, rfl, rfl, rfl, rfl, rfl⟩

theorem bringUpKeeps_i2cReset (s : State) : BringUpKeeps s (i2cReset s).2 := by
  obtain ⟨hv, hs, hb, ha, hr, hd, hn⟩ := bringUpKeeps_i2cClose s
  obtain ⟨kv, ks, kb, ka, kr, kd, kn⟩ := bringUpKeeps_i2cOpen (i2cClose s).2
  exact ⟨kv.trans hv, ks.trans hs, kb.trans hb, ka.trans ha, kr.trans hr, kd.trans hd, kn.trans hn⟩

/-! ## The typed operations (R138, R139) -/

/-- Staging `n` bytes of a value writes cells below `n` only. -/
theorem read_stageTyped (o : WireOrder) (size : Nat) (v : BitVec 64) (m : Memory) {a : Nat} :
    ∀ {n : Nat}, n ≤ a → Memory.read (stageTyped o size v n m) a = Memory.read m a
  | 0, _ => rfl
  | n + 1, h => by
    rw [stageTyped, Memory.read_write_other _ (by omega)]
    exact read_stageTyped o size v m (by omega)

/-- The result of a typed read goes to `RES_VALUE` and nowhere else. -/
theorem typedResult_eq (size : Byte) (st : Status) (s : State) :
    ∃ v n, typedResult size st s = { s with i2c := { s.i2c with resValue := v }, drawn := n } := by
  unfold typedResult
  split
  · exact ⟨gatherTyped s.cfg.wireOrder size.toNat s.i2c.scratch size.toNat, s.drawn, rfl⟩
  · exact ⟨Config.freeResValue s.drawn, s.drawn + 1, rfl⟩

/-! ## The frame -/

/-- The payload of the status word. -/
theorem payload_word (c : Config) (st : Status) : (st.word c).extractLsb' 0 16 = st.payload := by
  rw [Status.word, BitVec.extractLsb'_append_eq_of_add_le (by decide), BitVec.extractLsb'_eq_self]

/-- What a read to the host's buffer leaves of it, by the payload it returns. -/
theorem hbuf_of_storedCount {s : State} {buf : Nat} {count : BitVec 16} {st : Status} {u : State}
    (h : StoredCount .hbuf buf 0 count.toNat s (st, u)) {a : Nat}
    (ha : ∀ k < ((i2cReturn st u).i2c.resStatus.extractLsb' 0 16).toNat, a ≠ (buf + k) % 2 ^ s.cfg.bufaw) :
    Memory.read u.hbuf a = Memory.read s.hbuf a := by
  obtain ⟨k, -, hk, hpay, hstores⟩ := h
  refine hstores.bytes a fun ⟨i, _, hi, hai⟩ => ha i ?_ hai
  have hpay : st.payload = BitVec.ofNat 16 k := hpay
  rw [i2cReturn_i2c, payload_word, hpay, BitVec.toNat_ofNat, Nat.mod_eq_of_lt (by omega)]
  exact hi

/-- The state in which the operation of an admitted command begins (R96). -/
abbrev begun (s : State) : State := s.mapI2c fun d => { d with busy := true }

/-- It ends with what its operation answers, returned. -/
theorem eq_i2cReturn {refusal : Option Refusal} (body : State → Status × State) {s t : State}
    (h : i2cCommand refusal body s = .next t) : ∃ r, r = body (begun s) ∧ t = i2cReturn r.1 r.2 :=
  ⟨_, rfl, (i2cCommand_eq_next.1 h).2.2⟩

/-- Settles O40: command by command, from what its operation leaves alone. -/
theorem i2cFrame : Obligations.I2cFrame := by
  unfold Obligations.I2cFrame
  intro i s t hi h
  cases i with
  | i2cOpen =>
    obtain ⟨r, hr, rfl⟩ := eq_i2cReturn (refusal := none) i2cOpen h
    have hk : BringUpKeeps (begun s) r.2 := hr ▸ bringUpKeeps_i2cOpen (begun s)
    exact ⟨by simp, fun _ _ => hk.resValue, fun _ _ => hk.scratch, by simp, fun _ _ => hk.hbuf, by simp, fun _ => hk.txn,
      by simp⟩
  | i2cClose =>
    obtain ⟨r, hr, rfl⟩ := eq_i2cReturn (refusal := none) i2cClose h
    have hk : BringUpKeeps (begun s) r.2 := hr ▸ bringUpKeeps_i2cClose (begun s)
    exact ⟨by simp, fun _ _ => hk.resValue, fun _ _ => hk.scratch, by simp, fun _ _ => hk.hbuf, by simp, fun _ => hk.txn,
      by simp⟩
  | i2cReset =>
    obtain ⟨r, hr, rfl⟩ := eq_i2cReturn (refusal := none) i2cReset h
    have hk : BringUpKeeps (begun s) r.2 := hr ▸ bringUpKeeps_i2cReset (begun s)
    exact ⟨by simp, fun _ _ => hk.resValue, fun _ _ => hk.scratch, by simp, fun _ _ => hk.hbuf, by simp, fun _ => hk.txn,
      by simp⟩
  | i2cIsopen =>
    obtain ⟨r, rfl, rfl⟩ := eq_i2cReturn (refusal := none) i2cIsOpen h
    exact ⟨fun _ => ⟨rfl, rfl⟩, by simp, fun _ _ => rfl, by simp, fun _ _ => rfl, by simp, fun _ => ⟨rfl, rfl, rfl, rfl⟩,
      fun _ => ⟨rfl, rfl⟩⟩
  | i2cScan =>
    obtain ⟨r, hr, rfl⟩ := eq_i2cReturn scan h
    have hk : BusKeeps (begun s) r.2 := hr ▸ busKeeps_scanLoop _ _ _ _
    exact ⟨fun _ => ⟨hk.opened, hk.initIn⟩, fun _ _ => hk.resValue, fun _ _ => hk.scratch, by simp, fun _ _ => hk.hbuf,
      by simp, by simp, by simp⟩
  | i2cWrite addr reg =>
    obtain ⟨r, hr, rfl⟩ := eq_i2cReturn (writeBuffer .hbuf addr reg s.i2c.oprBuf s.i2c.oprCount) h
    have hk : BusKeeps (begun s) r.2 := hr ▸ busKeeps_writeBuffer .hbuf addr reg s.i2c.oprBuf s.i2c.oprCount _
    exact ⟨fun _ => ⟨hk.opened, hk.initIn⟩, fun _ _ => hk.resValue, fun _ _ => hk.scratch, by simp, fun _ _ => hk.hbuf,
      by simp, by simp, by simp⟩
  | i2cStart rw addr =>
    obtain ⟨r, hr, rfl⟩ := eq_i2cReturn (start addr rw) h
    have hk : BusKeeps (begun s) r.2 := hr ▸ busKeeps_start addr rw _
    exact ⟨fun _ => ⟨hk.opened, hk.initIn⟩, fun _ _ => hk.resValue, fun _ _ => hk.scratch, by simp, fun _ _ => hk.hbuf,
      by simp, by simp, by simp⟩
  | i2cWaitbusy =>
    obtain ⟨r, hr, rfl⟩ := eq_i2cReturn waitBusy h
    have hk : BusKeeps (begun s) r.2 := hr ▸ busKeeps_waitBusy _
    have hd : r.2.i2c = (begun s).i2c := hr ▸ waitBusy_i2c _
    exact ⟨fun _ => ⟨hk.opened, hk.initIn⟩, fun _ _ => hk.resValue, fun _ _ => hk.scratch, by simp, fun _ _ => hk.hbuf,
      by simp, by simp [hd], by simp [hd]⟩
  | i2cStop =>
    obtain ⟨r, hr, rfl⟩ := eq_i2cReturn stop h
    have hk : BusKeeps (begun s) r.2 := hr ▸ busKeeps_stop _
    have htxn : TxnKeeps (begun s).i2c r.2.i2c := hr ▸ ⟨rfl, rfl, rfl, rfl⟩
    exact ⟨fun _ => ⟨hk.opened, hk.initIn⟩, fun _ _ => hk.resValue, fun _ _ => hk.scratch, by simp, fun _ _ => hk.hbuf,
      by simp, fun _ => htxn, by simp⟩
  | i2cSendb b =>
    obtain ⟨r, hr, rfl⟩ := eq_i2cReturn (sendByte b) h
    have hk : BusKeeps (begun s) r.2 := hr ▸ busKeeps_sendByte b _
    have htxn : TxnKeeps (begun s).i2c r.2.i2c := hr ▸ txnKeeps_sendByte b _
    exact ⟨fun _ => ⟨hk.opened, hk.initIn⟩, fun _ _ => hk.resValue, fun _ _ => hk.scratch, by simp, fun _ _ => hk.hbuf,
      by simp, fun _ => htxn, by simp⟩
  | i2cRecvb ack =>
    obtain ⟨r, hr, rfl⟩ := eq_i2cReturn (receiveByte ack) h
    have hk : BusKeeps (begun s) r.2 := hr ▸ busKeeps_receiveByte ack _
    have htxn : TxnKeeps (begun s).i2c r.2.i2c := hr ▸ txnKeeps_receiveByte ack _
    exact ⟨fun _ => ⟨hk.opened, hk.initIn⟩, fun _ _ => hk.resValue, fun _ _ => hk.scratch, by simp, fun _ _ => hk.hbuf,
      by simp, fun _ => htxn, by simp⟩
  | i2cRead addr reg =>
    obtain ⟨r, hr, rfl⟩ := eq_i2cReturn (readBuffer .hbuf addr reg s.i2c.oprBuf s.i2c.oprCount) h
    have hcount : StoredCount .hbuf s.i2c.oprBuf 0 s.i2c.oprCount.toNat (begun s) r := hr ▸ storedCount_readBuffer ..
    have hbytes {a : Nat} := hbuf_of_storedCount hcount (a := a)
    obtain ⟨k, -, -, -, hk⟩ := hcount
    exact ⟨fun _ => ⟨hk.opened, hk.initIn⟩, fun _ _ => hk.resValue, fun _ _ => hk.scratch rfl, by simp, by simp,
      fun _ a ha => hbytes ha, by simp, by simp⟩
  | i2cReadraw stopComm addr =>
    obtain ⟨r, hr, rfl⟩ := eq_i2cReturn (readRaw addr s.i2c.oprBuf s.i2c.oprCount stopComm) h
    have hcount : StoredCount .hbuf s.i2c.oprBuf 0 s.i2c.oprCount.toNat (begun s) r := hr ▸ storedCount_readRaw ..
    have hbytes {a : Nat} := hbuf_of_storedCount hcount (a := a)
    obtain ⟨k, -, -, -, hk⟩ := hcount
    exact ⟨fun _ => ⟨hk.opened, hk.initIn⟩, fun _ _ => hk.resValue, fun _ _ => hk.scratch rfl, by simp, by simp,
      fun _ a ha => hbytes ha, by simp, by simp⟩
  | i2cWritet addr reg size =>
    obtain ⟨r, hr, rfl⟩ := eq_i2cReturn (writeTyped addr reg size) h
    have hk : BusKeeps ((begun s).mapI2c fun d =>
        { d with scratch := stageTyped s.cfg.wireOrder size.toNat d.oprValue size.toNat d.scratch }) r.2 :=
      hr ▸ busKeeps_writeBuffer ..
    refine ⟨fun _ => ⟨hk.opened, hk.initIn⟩, fun _ _ => hk.resValue, by simp, fun addr' reg' size' hsize a ha => ?_,
      fun _ _ => hk.hbuf, by simp, by simp, by simp⟩
    obtain ⟨rfl, rfl, rfl⟩ : addr = addr' ∧ reg = reg' ∧ size = size' := by simpa using hsize
    exact (congrArg (Memory.read · a) hk.scratch).trans (read_stageTyped _ _ _ _ ha)
  | i2cReadt addr reg size =>
    obtain ⟨r, hr, rfl⟩ := eq_i2cReturn (readTyped addr reg size) h
    obtain ⟨k, -, hkm, -, hk⟩ := storedCount_readBuffer .scr addr reg 0 (size.setWidth 16) (begun s)
    obtain ⟨v, n, htyped⟩ := typedResult_eq size (readBuffer .scr addr reg 0 (size.setWidth 16) (begun s)).1
      (readBuffer .scr addr reg 0 (size.setWidth 16) (begun s)).2
    have hr : r.2 = _ := (congrArg Prod.snd hr).trans htyped
    simp only [i2cReturn_i2c, i2cReturn_initIn, i2cReturn_hbuf, hr]
    generalize (readBuffer .scr addr reg 0 (size.setWidth 16) (begun s)).2 = u at hk
    refine ⟨fun _ => ⟨hk.opened, hk.initIn⟩, by simp, by simp, fun addr' reg' size' hsize a ha => ?_,
      fun _ _ => hk.hbuf rfl, by simp, by simp, by simp⟩
    obtain ⟨rfl, rfl, rfl⟩ : addr = addr' ∧ reg = reg' ∧ size = size' := by simpa using hsize
    refine hk.bytes a fun ⟨x, _, hx, hax⟩ => ?_
    have hax : a = 0 + x := hax
    have hsize : (size.setWidth 16).toNat = size.toNat := by simp; omega
    omega
  | uOpen | uClose | uIsopen | uAvail | uFlush | uSend | uSendbuf | uSendstr | uRecv | uRecvbuf | onRx | onTxe => cases hi

end Sys2Proof.Machine
end

section
/-! SUPPORT. The raw read, answer by answer (spec 41_i2c_operations.md R137, R140 to R142, R144): the receive loop on a list of
answers, the bytes it has stored, and the two ends it comes to. -/

namespace Sys2Proof.Machine

/-! ## The primitives, answer by answer (R112, R113, R116) -/

theorem waitBusy_clear {s : State} {bs : List Bool} (h : s.busyIn = true :: bs) :
    waitBusy s = (okStatus 0#16, { s with busyIn := bs }) := by
  rw [waitBusy_eq, askBusyClear_cons h]
  rfl

section
variable {s : State} {r r1 r2 : Xfer} {rest : List Xfer} {addr : BitVec 7} {rw ack : Bool}

theorem start_good (h : s.xferIn = r1 :: r2 :: rest) (h1 : evalCond r1 = .ok) (h2 : evalTx r2 = .ok) :
    start addr rw s = (okStatus 0#16, { s with
      xferIn := rest
      i2c := { s.i2c with
        fsm := .transferringData, tAddr := addr, tDir := rw
        trace := s.i2c.trace ++ [.start (repeated s) .ok, .txa addr rw .ok] } }) := by
  simp [start, sendAddress, startBegun, askXfer, h, h1, h2, resOf, emit, setFsm, State.mapI2c]

/-- A start condition that fails (R113 lines 3 and 4). -/
theorem start_bad (h : s.xferIn = r1 :: rest) (h1 : evalCond r1 ≠ .ok) :
    start addr rw s = (⟨evalCond r1, 0#16⟩, { s with
      xferIn := rest
      i2c := { s.i2c with
        fsm := .error, tAddr := addr, tDir := rw
        trace := s.i2c.trace ++ [.start (repeated s) (resOf (evalCond r1))] } }) := by
  simp [start, startBegun, askXfer, h, h1, emit, setFsm, State.mapI2c]

/-- An address byte that fails (R113 lines 6 and 7). -/
theorem start_badAddress (h : s.xferIn = r1 :: r2 :: rest) (h1 : evalCond r1 = .ok) (h2 : evalTx r2 ≠ .ok) :
    start addr rw s = (⟨evalTx r2, 0#16⟩, { s with
      xferIn := rest
      i2c := { s.i2c with
        fsm := .error, tAddr := addr, tDir := rw
        trace := s.i2c.trace ++ [.start (repeated s) .ok, .txa addr rw (resOf (evalTx r2))] } }) := by
  simp [start, sendAddress, startBegun, askXfer, h, h1, h2, resOf, emit, setFsm, State.mapI2c]

theorem receiveByte_good (h : s.xferIn = r :: rest) (hr : evalRx r = .ok) :
    receiveByte ack s = (okStatus (0#8 ++ r.data), emit (.rxb r.data ack .ok) { s with xferIn := rest }) := by
  simp [receiveByte, askXfer, h, hr, resOf]

theorem receiveByte_bad (h : s.xferIn = r :: rest) (hr : evalRx r ≠ .ok) :
    receiveByte ack s =
      (⟨evalRx r, 0#16⟩, setFsm .error (emit (.rxb r.data ack (resOf (evalRx r))) { s with xferIn := rest })) := by
  simp [receiveByte, askXfer, h, hr]

end

theorem orAbort_ok {n : BitVec 16} {r : Status × State} {go : Status → State → Status × State} (h : r.1.cls = .ok) :
    orAbort n r go = go r.1 r.2 := if_pos h

theorem orAbort_fail {n : BitVec 16} {r : Status × State} {go : Status → State → Status × State} (h : r.1.cls ≠ .ok) :
    orAbort n r go = abort r.1.cls n r.2 := if_neg h

theorem abort_of_error {c : StClass} {n : BitVec 16} {s : State} (h : s.i2c.fsm = .error) :
    abort c n s = (⟨c, n⟩, (stop s).2) := by
  simp [abort, h]

/-! ## The data bytes of a read (R136, R137) -/

theorem receiveActions_succ (c : Nat) : receiveActions (c + 1) = .receive (decide (0 < c)) :: receiveActions c := by
  simp [receiveActions, List.range_succ_eq_map]

theorem length_receiveActions (c : Nat) : (receiveActions c).length = c := by
  simp [receiveActions]

/-- The state after the receive actions `pre` with the good answers `good`, the first byte stored at offset `n`. -/
def received (sp : Space) (buf : Nat) : Nat → List BusAction → List Xfer → State → State
  | n, a :: pre, r :: good, s =>
    received sp buf (n + 1) pre good
      (countDown (writeSpace sp (effAddr s.cfg sp buf n) r.data (emit (a.event r) { s with xferIn := s.xferIn.tail })))
  | _, _, _, s => s

theorem setWidth_zero_append (b : Byte) : (0#8 ++ b).setWidth 8 = b := by
  apply BitVec.eq_of_toNat_eq
  rw [BitVec.toNat_setWidth, toNat_join]
  have hlt : b.toNat < 256 := b.isLt
  simpa using hlt

theorem writeSpace_xferIn (sp : Space) (a : Nat) (b : Byte) (s : State) : (writeSpace sp a b s).xferIn = s.xferIn := by
  cases sp <;> rfl

/-- While its answers are good the loop goes on. -/
theorem receiveLoop_received {sp : Space} {buf : Nat} {stopComm : Bool} {rest : List Xfer} {post : List BusAction} :
    ∀ {pre : List BusAction} {good : List Xfer} {n : Nat} {s : State},
      receiveActions (pre.length + post.length) = pre ++ post → s.xferIn = good ++ rest → good.length = pre.length →
      (∀ p ∈ pre.zip good, p.1.outcome p.2 = .ok) →
      receiveLoop sp buf stopComm (pre.length + post.length) n s =
        receiveLoop sp buf stopComm post.length (n + pre.length) (received sp buf n pre good s)
  | [], good, n, s, _, _, _, _ => by simp [received]
  | a :: pre, [], n, s, _, _, hlen, _ => by simp at hlen
  | a :: pre, r :: good, n, s, hacts, hx, hlen, hok => by
    have hsucc : (a :: pre).length + post.length = (pre.length + post.length) + 1 := by simp only [List.length_cons]; omega
    rw [hsucc, receiveActions_succ, List.cons_append, List.cons.injEq] at hacts
    obtain ⟨rfl, hacts⟩ := hacts
    simp only [List.zip_cons_cons, List.forall_mem_cons] at hok
    obtain ⟨hr, hok⟩ := hok
    have hr : evalRx r = .ok := hr
    rw [hsucc, receiveLoop, receiveByte_good hx hr, orAbort_ok rfl, receiveLoop_received hacts (rest := rest) (good := good) ?_
      (by simpa using hlen) hok]
    · simp [received, BusAction.event, hr, hx, resOf, okStatus, setWidth_zero_append, Nat.add_assoc, Nat.add_comm 1]
    · simp [countDown, writeSpace_xferIn]

/-- The bytes `bytes` written to the memory `m` one by one, the first at offset `n` of the buffer (R67). -/
def storeAll (c : Config) (buf : Nat) : Nat → List Byte → Memory → Memory
  | _, [], m => m
  | n, b :: bytes, m => storeAll c buf (n + 1) bytes (Memory.write m ((buf + n) % 2 ^ c.bufaw) b)

theorem received_hbuf {buf : Nat} {rest : List Xfer} : ∀ {pre : List BusAction} {good : List Xfer} {n : Nat} {s : State},
    s.xferIn = good ++ rest → good.length = pre.length →
    received .hbuf buf n pre good s = { s with
      xferIn := rest
      hbuf := storeAll s.cfg buf n (good.map (·.data)) s.hbuf
      i2c := { s.i2c with
        tRem := s.i2c.tRem - BitVec.ofNat 16 good.length
        trace := s.i2c.trace ++ List.zipWith BusAction.event pre good } }
  | [], [], n, s, hx, _ => by
    have hx : s.xferIn = rest := hx
    simp [received, storeAll, ← hx]
  | [], r :: good, _, _, _, hlen => by simp at hlen
  | a :: pre, [], _, _, _, hlen => by simp at hlen
  | a :: pre, r :: good, n, s, hx, hlen => by
    rw [received, received_hbuf (rest := rest) (by simp [countDown, writeSpace_xferIn, hx]) (by simpa using hlen)]
    have hcount : s.i2c.tRem - 1#16 - BitVec.ofNat 16 good.length = s.i2c.tRem - BitVec.ofNat 16 (r :: good).length := by
      rw [List.length_cons, Nat.add_comm, BitVec.ofNat_add, sub_sub]
    simp [countDown, writeSpace, storeAll, State.mapI2c, State.writeHbuf, emit, effAddr, hbufSize, hcount]

/-- Bytes outside the buffer are as they were. -/
theorem read_storeAll_other {c : Config} {buf a : Nat} : ∀ {bytes : List Byte} {n : Nat} {m : Memory},
    (∀ k < bytes.length, a ≠ (buf + (n + k)) % 2 ^ c.bufaw) → Memory.read (storeAll c buf n bytes m) a = Memory.read m a
  | [], _, _, _ => rfl
  | b :: bytes, n, m, h => by
    have hfirst : a ≠ (buf + n) % 2 ^ c.bufaw := h 0 (by simp)
    rw [storeAll, read_storeAll_other, Memory.read_write_other b hfirst]
    intro k hk
    rw [Nat.add_assoc, Nat.add_comm 1]
    exact h (k + 1) (by simpa using hk)

/-- No two bytes of a buffer that fits in the space share an address. -/
theorem offset_ne {n buf i k : Nat} (hik : i < k) (hk : k < i + n) : (buf + i) % n ≠ (buf + k) % n := by
  intro h
  have hdvd : n ∣ k - i := by
    have := (Nat.modEq_iff_dvd' (by omega : buf + i ≤ buf + k)).1 h
    rwa [Nat.add_sub_add_left] at this
  exact absurd (Nat.le_of_dvd (by omega) hdvd) (by omega)

/-- In a buffer that fits in the space each byte is where it was stored. -/
theorem read_storeAll {c : Config} {buf : Nat} : ∀ {bytes : List Byte} {n : Nat} {m : Memory} {k : Nat} (hk : k < bytes.length),
    m.wf → bytes.length ≤ 2 ^ c.bufaw → Memory.read (storeAll c buf n bytes m) ((buf + (n + k)) % 2 ^ c.bufaw) = bytes[k]
  | [], _, _, _, hk, _, _ => by simp at hk
  | b :: bytes, n, m, 0, _, hm, hlen => by
    rw [storeAll, read_storeAll_other, Nat.add_zero, Memory.read_write_same _ _ hm, List.getElem_cons_zero]
    intro k hk
    rw [List.length_cons] at hlen
    exact offset_ne (by omega) (by omega)
  | b :: bytes, n, m, k + 1, hk, hm, hlen => by
    rw [List.length_cons] at hk hlen
    have ih := read_storeAll (c := c) (buf := buf) (n := n + 1) (Nat.lt_of_succ_lt_succ hk)
      (Memory.wf_write ((buf + n) % 2 ^ c.bufaw) b hm) (by omega)
    rwa [Nat.add_assoc, Nat.add_comm 1] at ih

/-! ## The raw read (R137) -/

/-- An admitted command runs its operation from issue to return (R96). -/
theorem i2cCommand_admitted {refusal : Option Refusal} {body : State → Status × State} {s : State}
    (hbusy : s.i2c.busy = false) (hadmit : refusal = none) :
    i2cCommand refusal body s = .next (i2cReturn (body (begun s)).1 (body (begun s)).2) :=
  i2cCommand_eq_next.2 ⟨hbusy, hadmit, rfl⟩

/-- The state in which the start of a raw read is issued: the bus is free, the transaction begun. -/
def rawBegun (addr : BitVec 7) (count : BitVec 16) (bs : List Bool) (s : State) : State :=
  { s with busyIn := bs, i2c := { s.i2c with tAddr := addr, tRem := count, busy := true } }

/-- A raw read of an open engine on a free bus: the start, then the data bytes. -/
theorem exec_i2cReadraw {s : State} {stopComm : Bool} {addr : BitVec 7} {bs : List Bool} {r : Status × State}
    (hbusy : s.i2c.busy = false) (hopened : s.i2c.opened = true) (hfree : s.busyIn = true :: bs)
    (hr : orAbort 0#16 (start addr true (rawBegun addr s.i2c.oprCount bs s)) (fun _ t =>
      receiveLoop .hbuf s.i2c.oprBuf stopComm s.i2c.oprCount.toNat 0 t) = r) :
    exec (.i2cReadraw stopComm addr) s = .next (i2cReturn r.1 r.2) := by
  have hbody : readRaw addr s.i2c.oprBuf s.i2c.oprCount stopComm (begun s) = r := by
    unfold readRaw
    rw [waitBusy_clear (s := State.mapI2c _ (begun s)) (bs := bs) hfree, orAbort_ok rfl]
    exact hr
  refine (i2cCommand_admitted hbusy (needsI2cOpen_eq_none.2 hopened)).trans ?_
  rw [hbody]

/-- The start condition of an operation that finds the engine in the protocol state `f`: is it a repeated one? -/
abbrev repeatedFrom (f : Fsm) : Bool := decide (f = .transferringData ∨ f = .error)

theorem repeated_eq (s : State) : repeated s = repeatedFrom s.i2c.fsm := by
  cases h : s.i2c.fsm <;> simp [repeated, h]

/-- The state after a good start of a raw read, with the answers `rest` still to come. -/
def rawStarted (addr : BitVec 7) (count : BitVec 16) (bs : List Bool) (rest : List Xfer) (s : State) : State :=
  { s with
    busyIn := bs
    xferIn := rest
    i2c := { s.i2c with
      fsm := .transferringData, tAddr := addr, tDir := true, tRem := count, busy := true
      trace := s.i2c.trace ++ [.start (repeatedFrom s.i2c.fsm) .ok, .txa addr true .ok] } }

theorem start_rawBegun {s : State} {addr : BitVec 7} {count : BitVec 16} {bs : List Bool} {r1 r2 : Xfer} {rest : List Xfer}
    (hx : s.xferIn = r1 :: r2 :: rest) (h1 : evalCond r1 = .ok) (h2 : evalTx r2 = .ok) :
    start addr true (rawBegun addr count bs s) = (okStatus 0#16, rawStarted addr count bs rest s) := by
  rw [start_good (s := rawBegun addr count bs s) hx h1 h2, repeated_eq]
  rfl

theorem exec_i2cReadraw_started {s : State} {stopComm : Bool} {addr : BitVec 7} {r1 r2 : Xfer} {rest : List Xfer}
    {bs : List Bool} {r : Status × State} (hbusy : s.i2c.busy = false) (hopened : s.i2c.opened = true)
    (hfree : s.busyIn = true :: bs) (hx : s.xferIn = r1 :: r2 :: rest) (h1 : evalCond r1 = .ok) (h2 : evalTx r2 = .ok)
    (hr : receiveLoop .hbuf s.i2c.oprBuf stopComm s.i2c.oprCount.toNat 0 (rawStarted addr s.i2c.oprCount bs rest s) = r) :
    exec (.i2cReadraw stopComm addr) s = .next (i2cReturn r.1 r.2) := by
  refine exec_i2cReadraw hbusy hopened hfree ?_
  rw [start_rawBegun hx h1 h2, orAbort_ok rfl]
  exact hr

/-- The data bytes `data` received by a raw read with good answers. -/
def rawReceived (addr : BitVec 7) (bs : List Bool) (pre : List BusAction) (data rest : List Xfer) (s : State) : State :=
  { s with
    busyIn := bs
    xferIn := rest
    hbuf := storeAll s.cfg s.i2c.oprBuf 0 (data.map (·.data)) s.hbuf
    i2c := { s.i2c with
      fsm := .transferringData, tAddr := addr, tDir := true, busy := true
      tRem := s.i2c.oprCount - BitVec.ofNat 16 data.length
      trace := s.i2c.trace ++ ([.start (repeatedFrom s.i2c.fsm) .ok, .txa addr true .ok] ++
        List.zipWith BusAction.event pre data) } }

theorem receiveLoop_rawStarted {s : State} {stopComm : Bool} {addr : BitVec 7} {data rest : List Xfer} {bs : List Bool}
    {pre post : List BusAction} (hacts : receiveActions s.i2c.oprCount.toNat = pre ++ post) (hlen : data.length = pre.length)
    (hok : ∀ p ∈ pre.zip data, p.1.outcome p.2 = .ok) :
    receiveLoop .hbuf s.i2c.oprBuf stopComm s.i2c.oprCount.toNat 0 (rawStarted addr s.i2c.oprCount bs (data ++ rest) s) =
      receiveLoop .hbuf s.i2c.oprBuf stopComm post.length data.length (rawReceived addr bs pre data rest s) := by
  have hcount : s.i2c.oprCount.toNat = pre.length + post.length := by
    rw [← List.length_append, ← hacts, length_receiveActions]
  rw [hcount] at hacts ⊢
  rw [receiveLoop_received (good := data) (rest := rest) hacts rfl hlen hok, received_hbuf (rest := rest) rfl hlen, Nat.zero_add,
    hlen]
  simp [rawStarted, rawReceived, hlen]

/-- All answers good. -/
theorem rawRead_good {s : State} {stopComm : Bool} {addr : BitVec 7} {r1 r2 : Xfer} {data rest : List Xfer} {bs : List Bool}
    (hbusy : s.i2c.busy = false) (hopened : s.i2c.opened = true) (hfree : s.busyIn = true :: bs)
    (hx : s.xferIn = r1 :: r2 :: (data ++ rest)) (hlen : data.length = s.i2c.oprCount.toNat)
    (h1 : evalCond r1 = .ok) (h2 : evalTx r2 = .ok)
    (hok : ∀ p ∈ (receiveActions s.i2c.oprCount.toNat).zip data, p.1.outcome p.2 = .ok) :
    exec (.i2cReadraw stopComm addr) s = .next { s with
      busyIn := bs
      xferIn := rest
      hbuf := storeAll s.cfg s.i2c.oprBuf 0 (data.map (·.data)) s.hbuf
      i2c := { s.i2c with
        fsm := if stopComm then .idle else .transferringData
        tAddr := addr, tDir := true, tRem := 0#16
        trace := s.i2c.trace ++ [.start (repeatedFrom s.i2c.fsm) .ok, .txa addr true .ok] ++
          List.zipWith BusAction.event (receiveActions s.i2c.oprCount.toNat) data ++ (if stopComm then [.stop] else [])
        resStatus := s.cfg.st.ok ++ s.i2c.oprCount } } := by
  rw [exec_i2cReadraw_started hbusy hopened hfree hx h1 h2
    (receiveLoop_rawStarted (post := []) (List.append_nil _).symm (hlen.trans (length_receiveActions _).symm) hok)]
  cases stopComm <;>
    simp [receiveLoop, rawReceived, stop, i2cReturn, State.mapI2c, Status.word, StClass.code, okStatus, hlen, hbusy]

/-- A start that fails ends the raw read with nothing received (R140, R141). -/
theorem exec_i2cReadraw_of_start_bad {s u : State} {stopComm : Bool} {addr : BitVec 7} {bs : List Bool} {c : StClass}
    (hbusy : s.i2c.busy = false) (hopened : s.i2c.opened = true) (hfree : s.busyIn = true :: bs)
    (hstart : start addr true (rawBegun addr s.i2c.oprCount bs s) = (⟨c, 0#16⟩, u)) (hc : c ≠ .ok)
    (hfsm : u.i2c.fsm = .error) :
    exec (.i2cReadraw stopComm addr) s = .next (i2cReturn ⟨c, 0#16⟩ (stop u).2) := by
  refine exec_i2cReadraw (r := (⟨c, 0#16⟩, (stop u).2)) hbusy hopened hfree ?_
  rw [hstart, orAbort_fail hc, abort_of_error hfsm]

/-- The action at a position of a read's data bytes: all but the last are answered with ACK (R136 lines 6 and 7). -/
theorem eq_receive_of_receiveActions {count : Nat} {pre post : List BusAction} {a : BusAction}
    (h : receiveActions count = pre ++ a :: post) : a = .receive (decide (0 < post.length)) := by
  have hcount : count = pre.length + (post.length + 1) := by
    rw [← length_receiveActions count, h, List.length_append, List.length_cons]
  have hget := congrArg (·[pre.length]?) h
  simp only [receiveActions, List.getElem?_map, List.getElem?_append_right (le_refl _), Nat.sub_self,
    List.getElem?_cons_zero] at hget
  rw [List.getElem?_range (by omega)] at hget
  simp only [Option.map_some, Option.some.injEq] at hget
  rw [← hget, hcount]
  congr 2
  simp

/-- A data byte that fails ends the read there. -/
theorem receiveLoop_bad {sp : Space} {buf : Nat} {stopComm : Bool} {rem n : Nat} {s : State} {bad : Xfer} {rest : List Xfer}
    (hx : s.xferIn = bad :: rest) (hbad : evalRx bad ≠ .ok) :
    receiveLoop sp buf stopComm (rem + 1) n s =
      (⟨evalRx bad, BitVec.ofNat 16 n⟩, (stop (setFsm .error
        (emit ((BusAction.receive (decide (0 < rem))).event bad) { s with xferIn := rest }))).2) := by
  rw [receiveLoop, receiveByte_bad hx hbad, orAbort_fail hbad, abort_of_error rfl]
  rfl

/-- The start or a data byte fails: the raw read stops there (R140, R141, R142). -/
theorem rawRead_bad {s : State} {stopComm : Bool} {addr : BitVec 7} {pre : List BusAction} {a : BusAction}
    {good : List Xfer} {bad : Xfer} {rest : List Xfer} {bs : List Bool}
    (hbusy : s.i2c.busy = false) (hopened : s.i2c.opened = true) (hfree : s.busyIn = true :: bs)
    (hfails : failsAt (rawActions (repeatedFrom s.i2c.fsm) addr s.i2c.oprCount.toNat) pre a s.xferIn good bad rest) :
    ∃ t, exec (.i2cReadraw stopComm addr) s = .next t ∧ stoppedAt s t pre a good bad rest (good.drop 2).length ∧
      t.hbuf = storeAll s.cfg s.i2c.oprBuf 0 ((good.drop 2).map (·.data)) s.hbuf := by
  obtain ⟨⟨post, hacts⟩, hx, hlen, hok, hbad⟩ := hfails
  simp only [rawActions, List.cons_append, List.nil_append] at hacts
  match pre, good, hlen with
  | [], [], _ =>
    obtain ⟨rfl, -⟩ := List.cons.inj hacts
    have hbad : evalCond bad ≠ .ok := hbad
    have hstart := start_bad (s := rawBegun addr s.i2c.oprCount bs s) (addr := addr) (rw := true) (rest := rest) hx hbad
    refine ⟨_, exec_i2cReadraw_of_start_bad hbusy hopened hfree hstart hbad rfl, ⟨?_, rfl, rfl, rfl, ?_⟩, rfl⟩
    · rfl
    · simp [stop, rawBegun, repeated_eq, BusAction.event]
  | [p], [r], _ =>
    simp only [List.cons_append, List.nil_append, List.cons.injEq] at hacts
    obtain ⟨rfl, rfl, -⟩ := hacts
    have hr : evalCond r = .ok := hok (.start (repeatedFrom s.i2c.fsm), r) (by simp)
    have hbad : evalTx bad ≠ .ok := hbad
    have hstart := start_badAddress (s := rawBegun addr s.i2c.oprCount bs s) (addr := addr) (rw := true) (rest := rest) hx hr
      hbad
    refine ⟨_, exec_i2cReadraw_of_start_bad hbusy hopened hfree hstart hbad rfl, ⟨?_, rfl, rfl, rfl, ?_⟩, rfl⟩
    · rfl
    · simp [stop, rawBegun, repeated_eq, BusAction.event, hr, resOf]
  | p :: q :: pre, r1 :: r2 :: data, hlen =>
    simp only [List.cons_append, List.cons.injEq] at hacts
    obtain ⟨rfl, rfl, hacts⟩ := hacts
    simp only [List.zip_cons_cons, List.forall_mem_cons] at hok
    obtain ⟨h1, h2, hok⟩ := hok
    have h1 : evalCond r1 = .ok := h1
    have h2 : evalTx r2 = .ok := h2
    obtain rfl := eq_receive_of_receiveActions hacts
    have hbad : evalRx bad ≠ .ok := hbad
    have hloop := receiveLoop_rawStarted (stopComm := stopComm) (addr := addr) (rest := bad :: rest) (bs := bs) hacts
      (by simpa using hlen) hok
    rw [List.length_cons, receiveLoop_bad (rest := rest) rfl hbad] at hloop
    refine ⟨_, exec_i2cReadraw_started hbusy hopened hfree hx h1 h2 hloop, ⟨?_, rfl, rfl, rfl, ?_⟩, rfl⟩
    · rfl
    · simp [stop, rawReceived, BusAction.event, h1, h2, resOf]

/-- The events of data bytes that went well. -/
theorem zipWith_receiveActions {data : List Xfer} (h : ∀ r ∈ data, evalRx r = .ok) :
    List.zipWith BusAction.event (receiveActions data.length) data =
      data.zipIdx.map (fun p => .rxb p.1.data (decide (p.2 + 1 < data.length)) .ok) := by
  apply List.ext_getElem
  · simp [length_receiveActions]
  · intro k hk _
    have hk : k < data.length := by simpa [length_receiveActions] using hk
    simp [receiveActions, BusAction.event, h _ (List.getElem_mem hk), resOf]

theorem outcome_of_mem_receiveActions {c : Nat} {a : BusAction} (h : a ∈ receiveActions c) (r : Xfer) :
    a.outcome r = evalRx r := by
  obtain ⟨k, -, rfl⟩ := List.mem_map.1 h
  rfl

/-- The buffer of a read: the received bytes where they fit, and every other byte as it was (R67). -/
theorem read_storeAll_xfers (c : Config) (buf : Nat) (data : List Xfer) {m : Memory} (hm : m.wf) :
    (data.length ≤ 2 ^ c.bufaw → ∀ k (h : k < data.length),
      Memory.read (storeAll c buf 0 (data.map (·.data)) m) ((buf + k) % 2 ^ c.bufaw) = (data[k]).data) ∧
    (∀ a, (∀ k < data.length, a ≠ (buf + k) % 2 ^ c.bufaw) →
      Memory.read (storeAll c buf 0 (data.map (·.data)) m) a = Memory.read m a) := by
  refine ⟨fun hfits k hk => ?_, fun a ha => ?_⟩
  · have hstored := read_storeAll (c := c) (buf := buf) (bytes := data.map (·.data)) (n := 0) (m := m) (k := k)
      (by simpa using hk) hm (by simpa using hfits)
    simpa using hstored
  · exact read_storeAll_other (by simpa using ha)

/-- Settles O36: a good start leads to the data bytes, each stored at its address; the first failure, if any, ends it. -/
theorem rawReadResult : Obligations.RawReadResult := by
  unfold Obligations.RawReadResult
  refine ⟨fun s stopComm addr r1 r2 data rest bs hbusy hopened hfree hwf hx hlen hfits h1 h2 hdata => ?_,
    fun s stopComm addr pre a good bad rest bs hbusy hopened hfree hwf hfails => ?_⟩
  · have hok : ∀ p ∈ (receiveActions s.i2c.oprCount.toNat).zip data, p.1.outcome p.2 = .ok := by
      rintro ⟨a, r⟩ hp
      obtain ⟨ha, hr⟩ := List.of_mem_zip hp
      rw [outcome_of_mem_receiveActions ha]
      exact hdata r hr
    obtain ⟨hstored, hother⟩ := read_storeAll_xfers s.cfg s.i2c.oprBuf data hwf
    refine ⟨storeAll s.cfg s.i2c.oprBuf 0 (data.map (·.data)) s.hbuf, ?_, hstored hfits, hother⟩
    rw [rawRead_good hbusy hopened hfree hx hlen h1 h2 hok, ← hlen, zipWith_receiveActions hdata]
  · obtain ⟨t, hexec, hstopped, hhbuf⟩ := rawRead_bad (stopComm := stopComm) hbusy hopened hfree hfails
    obtain ⟨hstored, hother⟩ := read_storeAll_xfers s.cfg s.i2c.oprBuf (good.drop 2) hwf
    rw [← hhbuf] at hstored hother
    exact ⟨t, hexec, hstopped, hstored, hother⟩

end Sys2Proof.Machine
end

section
/-! SUPPORT. What a UART command leaves alone (spec 10_state.md R33, R37; 43_uart_operations.md R180 to R191): the fields that
no line of an operation writes, and the bytes that no line stores. -/

namespace Sys2Proof.Machine

/-! ## The fields an operation writes -/

/-- The three `send` forms. -/
def UOp.isSend : UOp → Bool
  | .send _ | .sendBuf _ | .sendStr _ => true
  | _ => false

/-- From `s` to `t` only the registers, indices and memories have changed that a line of the operation `op` writes. -/
def OpKeeps (op : UOp) (s t : State) : Prop :=
  (op ∉ [.opening, .closing] → t.uart.opened = s.uart.opened ∧ t.uart.ctrl.rxEn = s.uart.ctrl.rxEn ∧
    t.uart.ctrl.txEn = s.uart.ctrl.txEn ∧ t.uart.ctrl.rxIe = s.uart.ctrl.rxIe) ∧
  (op ≠ .opening → t.uart.baud = s.uart.baud ∧ t.uart.format = s.uart.format) ∧
  (op ≠ .isOpen → t.uart.resValue = s.uart.resValue) ∧
  (op ≠ .closing → t.uart.rx.head = s.uart.rx.head ∧ t.uart.rxHold = s.uart.rxHold) ∧
  (op ∉ [.closing, .flush false, .recv, .recvBuf] →
    t.uart.rx.tail = s.uart.rx.tail ∧ t.uart.rxError = s.uart.rxError) ∧
  (op.isSend = false → t.uart.tx.head = s.uart.tx.head ∧ t.uart.tx.buf = s.uart.tx.buf) ∧
  (op.isSend = false → op ∉ [.closing, .flush true] →
    t.uart.tx.tail = s.uart.tx.tail ∧ t.uart.txHold = s.uart.txHold ∧ t.uart.ctrl.txeIe = s.uart.ctrl.txeIe) ∧
  (op ≠ .recvBuf → t.hbuf = s.hbuf)

theorem opKeeps_refl (op : UOp) (s : State) : OpKeeps op s s := by simp [OpKeeps]

theorem opKeeps_goto (op : UOp) (l : Line) (j : Job) (s : State) : OpKeeps op s (goto l j s) := opKeeps_refl op s

theorem opKeeps_uartReturn (op : UOp) (st : Status) (s : State) : OpKeeps op s (uartReturn st s) := opKeeps_refl op s

theorem OpKeeps.trans {op : UOp} {s t u : State} (h : OpKeeps op s t) (k : OpKeeps op t u) : OpKeeps op s u := by
  obtain ⟨h1, h2, h3, h4, h5, h6, h7, h8⟩ := h
  obtain ⟨k1, k2, k3, k4, k5, k6, k7, k8⟩ := k
  refine ⟨fun a => ?_, fun a => ?_, fun a => ?_, fun a => ?_, fun a => ?_, fun a => ?_, fun a b => ?_, fun a => ?_⟩
  · simp only [k1 a, h1 a, and_self]
  · simp only [k2 a, h2 a, and_self]
  · simp only [k3 a, h3 a]
  · simp only [k4 a, h4 a, and_self]
  · simp only [k5 a, h5 a, and_self]
  · simp only [k6 a, h6 a, and_self]
  · simp only [k7 a b, h7 a b, and_self]
  · simp only [k8 a, h8 a]

section
variable {op : UOp}

theorem eq_opening_of_lineOf {l : Line} (h : lineOf op l = true) (hl : l ∈ [.open2, .open3, .open4]) : op = .opening := by
  simp only [List.mem_cons, List.not_mem_nil, or_false] at hl
  cases op <;> casesm* _ ∨ _ <;> subst l <;> simp [lineOf] at h ⊢

theorem eq_closing_of_lineOf {l : Line} (h : lineOf op l = true) (hl : l ∈ [.close3, .close4]) : op = .closing := by
  simp only [List.mem_cons, List.not_mem_nil, or_false] at hl
  cases op <;> casesm* _ ∨ _ <;> subst l <;> simp [lineOf] at h ⊢

theorem eq_isOpen_of_lineOf (h : lineOf op .isOpen1 = true) : op = .isOpen := by
  cases op <;> simp [lineOf] at h ⊢

theorem eq_flush_of_lineOf (h : lineOf op .flushIn1 = true) : op = .flush false := by
  cases op <;> simp [lineOf] at h ⊢
  exact h

theorem isSend_of_lineOf {l : Line} (h : lineOf op l = true) (hl : l ∈ [.send4, .send5, .send6, .send7]) :
    op.isSend = true := by
  simp only [List.mem_cons, List.not_mem_nil, or_false] at hl
  cases op <;> casesm* _ ∨ _ <;> subst l <;> simp [lineOf, UOp.isSend] at h ⊢

theorem pumps_of_lineOf (h : lineOf op .flushOut2 = true) : op.isSend = true ∨ op ∈ [.closing, .flush true] := by
  cases op <;> simp [lineOf, UOp.isSend] at h ⊢
  exact h

theorem receives_of_lineOf {l : Line} (h : lineOf op l = true) (hl : l ∈ [.recv3, .recv4]) : op ∈ [.recv, .recvBuf] := by
  simp only [List.mem_cons, List.not_mem_nil, or_false] at hl
  cases op <;> casesm* _ ∨ _ <;> subst l <;> simp [lineOf] at h ⊢

theorem eq_recvBuf_of_lineOf (h : lineOf op .recvBuf8 = true) : op = .recvBuf := by
  cases op <;> simp [lineOf] at h ⊢

end

/-- The pump writes the transmit tail, the hold stage and the transmit interrupt enable. -/
theorem opKeeps_pump {op : UOp} {s : State} (h : op.isSend = true ∨ op ∈ [.closing, .flush true]) :
    Ensures True (OpKeeps op s) (pump s) := by
  have hwrites : op.isSend = false → op ∉ [.closing, .flush true] → False := by
    rintro hs hm
    simp [hs, hm] at h
  refine ensures_pump (opKeeps_refl op s) (fun _ => ?_) fun _ _ => ⟨fun _ => ?_, fun _ => trivial⟩ <;>
    exact ⟨by simp [clearTxeIe, popTx], by simp [clearTxeIe, popTx], by simp [clearTxeIe, popTx],
      by simp [clearTxeIe, popTx], by simp [clearTxeIe, popTx], by simp [clearTxeIe, popTx],
      fun a b => (hwrites a b).elim, by simp [clearTxeIe, popTx]⟩

/-- A line writes only what its command may write. -/
theorem opKeeps_lineStep {s : State} {j : Job} (hown : lineOf j.op j.line = true) :
    Ensures True (OpKeeps j.op s) (lineStep j s) := by
  cases hl : j.line with
  | open2 | open3 | open4 =>
    have hop := eq_opening_of_lineOf hown (by simp [hl])
    simp [lineStep, hl, OpKeeps, hop, UOp.isSend, enableReceive]
  | close3 | close4 =>
    have hop := eq_closing_of_lineOf hown (by simp [hl])
    simp [lineStep, hl, OpKeeps, hop, UOp.isSend, tearDown, disableReceiver]
  | isOpen1 =>
    have hop := eq_isOpen_of_lineOf (hl ▸ hown)
    simp [lineStep, hl, OpKeeps, hop]
  | flushIn1 =>
    have hop := eq_flush_of_lineOf (hl ▸ hown)
    simp [lineStep, hl, OpKeeps, hop, discardInput]
  | flushOut2 =>
    simp only [lineStep, hl, ensures_andThen]
    exact opKeeps_pump (pumps_of_lineOf (hl ▸ hown))
  | send4 =>
    simp only [lineStep, hl, sendWait, ensures_andThen]
    refine (opKeeps_pump (.inl (isSend_of_lineOf hown (by simp [hl])))).mono fun u hu => ?_
    simp only [ensures_ite, ensures_sendReturn, ensures_proceed]
    exact ⟨fun _ => ⟨fun _ => hu, fun _ => hu, fun _ _ => hu⟩, fun _ => hu⟩
  | send5 | send6 | send7 =>
    have hop := isSend_of_lineOf hown (by simp [hl])
    simp [lineStep, hl, OpKeeps, hop, sendStore, setTxeIe]
  | recv3 | recv4 =>
    have hop := receives_of_lineOf hown (by simp [hl])
    simp only [List.mem_cons, List.not_mem_nil, or_false] at hop
    simp [lineStep, hl, OpKeeps, hop, readClear]
  | recvBuf8 =>
    have hop := eq_recvBuf_of_lineOf (hl ▸ hown)
    simp [lineStep, hl, OpKeeps, hop, recvStore]
  | _ =>
    simp [lineStep, hl, ensures_flushOutReturn, ensures_sendReturn, ensures_recvReturn, recvRead, opKeeps_goto,
      opKeeps_uartReturn]

/-! ## The lines of one command from its issue on -/

/-- `u` lies on a run of the operation `op` issued in `s`: every line since has kept what no line of it writes, and one that is
still to run is a line of `op` with the operands sampled at issue (R74). -/
structure RunFrom (op : UOp) (s u : State) : Prop where
  keeps : UartKeeps s u
  opKeeps : OpKeeps op s u
  job : ∀ j, u.uart.job = some j →
    j.op = op ∧ j.buf = s.uart.oprBuf ∧ j.count = s.uart.oprCount ∧ lineOf op j.line = true

theorem runFrom_issue (op : UOp) (b : Byte) (s : State) : RunFrom op s (issue op b s) := by
  refine ⟨keeps_mapUart s fun _ => ⟨rfl, rfl, rfl, rfl, rfl, rfl, rfl, rfl, rfl, rfl⟩, opKeeps_refl op s, fun j hj => ?_⟩
  obtain rfl : jobAt op op.firstLine b s.uart = j := Option.some.inj hj
  exact ⟨rfl, rfl, rfl, lineOf_firstLine op⟩

theorem runFrom_lineStep {op : UOp} {s u : State} {j : Job} (h : RunFrom op s u) (hj : u.uart.job = some j) :
    Ensures True (RunFrom op s) (lineStep j u) := by
  obtain ⟨rfl, hbuf, hcount, hown⟩ := h.job j hj
  refine ensures_partial.2 fun t ht => ⟨h.keeps.trans (keepsTo_lineStep j u t ht),
    h.opKeeps.trans ((opKeeps_lineStep hown).apply ht), fun k hk => ?_⟩
  obtain ⟨hkop, hkbuf, hkcount, hkown⟩ := (continues_lineStep hown).apply ht k hk
  exact ⟨hkop, hkbuf.trans hbuf, hkcount.trans hcount, hkown⟩

/-- A property that holds at issue and that every line of the operation ensures again holds of what a UART command answers. -/
theorem ensures_runLines_issue {Q : State → Prop} {op : UOp} {b : Byte} {s : State} (hissue : Q (issue op b s))
    (keep : ∀ u j, RunFrom op s u → u.uart.job = some j → Q u → Ensures True Q (lineStep j u)) (n : Nat) :
    Ensures True (fun t => RunFrom op s t ∧ Q t) (runLines n (issue op b s)) := by
  refine ensures_runLines (fun u j hu hj => ?_) n ⟨runFrom_issue op b s, hissue⟩
  obtain ⟨hrun, hq⟩ := hu
  exact ensures_partial.2 fun t ht => ⟨(runFrom_lineStep hrun hj).apply ht, (keep u j hrun hj hq).apply ht⟩

/-! ## The bytes `recv(buffer, count, timeout)` stores (R191) -/

/-- `a` is no address of the buffer at `OPR_BUF` of `OPR_COUNT` bytes. -/
def OutsideBuffer (s : State) (a : Nat) : Prop :=
  ∀ k < s.uart.oprCount.toNat, a ≠ (s.uart.oprBuf + k) % 2 ^ s.cfg.bufaw

/-- Inside the loop of R191 the counter is below the count, and nothing has been stored at `a`. -/
def StoredByRecv (s : State) (a : Nat) (u : State) : Prop :=
  (∀ j, u.uart.job = some j →
    j.line ∈ [.recvBuf3, .recvBuf4, .recvBuf8, .recv1, .recv2, .recv3, .recv4, .recv5] → j.i < j.count.toNat) ∧
  Memory.read u.hbuf a = Memory.read s.hbuf a

theorem storedByRecv_goto {s u : State} {a : Nat} {l : Line} {k : Job} (hread : Memory.read u.hbuf a = Memory.read s.hbuf a)
    (hi : l ∈ [.recvBuf3, .recvBuf4, .recvBuf8, .recv1, .recv2, .recv3, .recv4, .recv5] → k.i < k.count.toNat) :
    StoredByRecv s a (goto l k u) := by
  refine ⟨fun m hm => ?_, hread⟩
  obtain rfl : { k with line := l } = m := Option.some.inj hm
  exact hi

theorem storedByRecv_uartReturn {s u : State} {a : Nat} {st : Status}
    (hread : Memory.read u.hbuf a = Memory.read s.hbuf a) : StoredByRecv s a (uartReturn st u) :=
  ⟨fun j hj => (by cases hj), hread⟩

theorem storedByRecv_issue (b : Byte) (s : State) (a : Nat) : StoredByRecv s a (issue .recvBuf b s) := by
  refine ⟨fun j hj => ?_, rfl⟩
  obtain rfl : jobAt .recvBuf .recvBuf1 b s.uart = j := Option.some.inj hj
  simp [jobAt]

/-- Every line keeps this: line 8 stores within the buffer, since line 2 has compared the counter. -/
theorem storedByRecv_lineStep {s u : State} {j : Job} {a : Nat} (ha : OutsideBuffer s a) (hrun : RunFrom .recvBuf s u)
    (hj : u.uart.job = some j) (h : StoredByRecv s a u) : Ensures True (StoredByRecv s a) (lineStep j u) := by
  obtain ⟨hop, hbuf, hcount, hown⟩ := hrun.job j hj
  obtain ⟨hi, hread⟩ := h
  replace hi := hi j hj
  cases hl : j.line with
  | recvBuf8 =>
    have hi := hi (by simp [hl])
    simp only [lineStep, hl, recvStore, ensures_proceed]
    refine storedByRecv_goto ?_ (by simp)
    have hne : a ≠ effAddr u.cfg .hbuf j.buf j.i := by
      rw [hbuf, hrun.keeps.cfg]
      exact ha j.i (hcount ▸ hi)
    exact (Memory.read_write_other _ hne).trans hread
  | recvBuf2 =>
    simp only [lineStep, hl, ensures_ite, ensures_proceed]
    exact ⟨fun hlt => storedByRecv_goto hread fun _ => hlt, fun _ => storedByRecv_goto hread (by simp)⟩
  | recvBuf3 | recvBuf4 | recv1 | recv2 | recv3 | recv4 | recv5 =>
    have hi := hi (by simp [hl])
    simp [lineStep, hl, ensures_recvReturn, recvRead, readClear, storedByRecv_goto, storedByRecv_uartReturn, hread, hi]
  | recvBuf1 | recvBuf5 | recvBuf6 | recvBuf9 =>
    simp [lineStep, hl, storedByRecv_goto, storedByRecv_uartReturn, hread]
  | _ => simp [lineOf, hl] at hown

end Sys2Proof.Machine
end

section
/-! SUPPORT. The slots the `send` forms store in (spec 43_uart_operations.md R187, R188, R189), and the frame of every UART
command. -/

namespace Sys2Proof.Machine

/-! ## The slots from a head on -/

/-- The slot `k` pushes after the one at which the transmit head stands in `s`. -/
def txSlot (s : State) (k : Nat) : Nat := (ringNext s.cfg.nTx)^[k] s.uart.tx.head

@[simp] theorem txSlot_zero (s : State) : txSlot s 0 = s.uart.tx.head := rfl

theorem txSlot_succ (s : State) (k : Nat) : txSlot s (k + 1) = ringNext s.cfg.nTx (txSlot s k) :=
  Function.iterate_succ_apply' _ k _

theorem txSlot_mod (s : State) (k : Nat) : txSlot s k % s.cfg.nTx = (s.uart.tx.head + k) % s.cfg.nTx := by
  induction k with
  | zero => rfl
  | succ k ih => rw [txSlot_succ, ringNext, Nat.mod_mod, Nat.add_mod, ih, ← Nat.add_mod, Nat.add_assoc]

theorem txSlot_eq_of_lt {s : State} {k : Nat} (h : txSlot s k < s.cfg.nTx) :
    txSlot s k = (s.uart.tx.head + k) % s.cfg.nTx := by
  rw [← txSlot_mod, Nat.mod_eq_of_lt h]

/-! ## The bytes a `send` form queues -/

/-- The byte at offset `k` is one the operation `op` issued in `s` sends: the only one, one of the count, one that is not the
terminator. -/
def Sends (op : UOp) (s : State) (k : Nat) : Prop :=
  match op with
  | .send _ => k = 0
  | .sendBuf _ => k < s.uart.oprCount.toNat
  | .sendStr _ => Memory.read s.hbuf ((s.uart.oprBuf + k) % 2 ^ s.cfg.bufaw) ≠ 0#8
  | _ => False

/-- How many bytes the operation `j` has pushed when it is at its line: the loop counter, and one more from line 7 of the
single-byte `send` on until the counter moves. -/
def sent (j : Job) : Nat :=
  match j.line with
  | .sendBuf1 | .sendStr1 => 0
  | .send7 | .send8 | .send9 | .sendBuf6 | .sendStr7 => j.i + 1
  | .sendBuf5 | .sendStr6 => if j.ret.cls = .ok then j.i + 1 else j.i
  | .flushOut1 | .flushOut2 | .flushOut3 =>
    match j.op with
    | .send _ => j.i + 1
    | _ => j.i
  | _ => j.i

/-- `a` is none of the slots that the bytes of `op` go to. -/
def OutsideSlots (op : UOp) (s : State) (a : Nat) : Prop :=
  ∀ k, (∀ m ≤ k, Sends op s m) → txSlot s k < s.cfg.nTx → a ≠ txSlot s k

/-- What the operation `op`, issued in `s` and now at the line of `j` in `u`, has pushed and is about to push. -/
structure SendAt (op : UOp) (s : State) (head : Nat) (j : Job) : Prop where
  head_eq : head = txSlot s (sent j)
  before : ∀ m < sent j, Sends op s m
  current : j.line ∈ [.sendBuf3, .sendBuf4, .sendStr5, .send1, .send2, .send3, .send4, .send5, .send6] → Sends op s j.i
  next : j.line ∈ [.send3, .send4, .send5, .send6] → j.nx = ringNext s.cfg.nTx head
  byte : j.line = .sendStr4 → j.byte = Memory.read s.hbuf ((s.uart.oprBuf + j.i) % 2 ^ s.cfg.bufaw)

/-- The operation has pushed the first bytes of what it sends, and nothing has been stored in the slot `a`. -/
def StoredBySend (op : UOp) (s : State) (a : Nat) (u : State) : Prop :=
  (∀ j, u.uart.job = some j → SendAt op s u.uart.tx.head j) ∧ Memory.read u.uart.tx.buf a = Memory.read s.uart.tx.buf a

theorem sendAt_iff {op : UOp} {s : State} {head : Nat} {j : Job} :
    SendAt op s head j ↔ head = txSlot s (sent j) ∧ (∀ m < sent j, Sends op s m) ∧
      (j.line ∈ [.sendBuf3, .sendBuf4, .sendStr5, .send1, .send2, .send3, .send4, .send5, .send6] → Sends op s j.i) ∧
      (j.line ∈ [.send3, .send4, .send5, .send6] → j.nx = ringNext s.cfg.nTx head) ∧
      (j.line = .sendStr4 → j.byte = Memory.read s.hbuf ((s.uart.oprBuf + j.i) % 2 ^ s.cfg.bufaw)) :=
  ⟨fun ⟨a, b, c, d, e⟩ => ⟨a, b, c, d, e⟩, fun ⟨a, b, c, d, e⟩ => ⟨a, b, c, d, e⟩⟩

theorem storedBySend_goto_iff {op : UOp} {s u : State} {a : Nat} {l : Line} {k : Job} :
    StoredBySend op s a (goto l k u) ↔
      Memory.read u.uart.tx.buf a = Memory.read s.uart.tx.buf a ∧ SendAt op s u.uart.tx.head { k with line := l } := by
  constructor
  · rintro ⟨hat, hread⟩
    exact ⟨hread, hat _ rfl⟩
  · rintro ⟨hread, hat⟩
    refine ⟨fun m hm => ?_, hread⟩
    obtain rfl : { k with line := l } = m := Option.some.inj hm
    exact hat

theorem storedBySend_uartReturn {op : UOp} {s u : State} {a : Nat} {st : Status}
    (hread : Memory.read u.uart.tx.buf a = Memory.read s.uart.tx.buf a) : StoredBySend op s a (uartReturn st u) :=
  ⟨fun j hj => (by cases hj), hread⟩

/-- The pump takes from the transmit ring and stores nothing in it (R167). -/
theorem ensures_pump_tx (u : State) :
    Ensures True (fun v => v.uart.tx.head = u.uart.tx.head ∧ v.uart.tx.buf = u.uart.tx.buf) (pump u) :=
  ensures_pump ⟨rfl, rfl⟩ (fun _ => ⟨rfl, rfl⟩) fun _ _ => ⟨fun _ => ⟨rfl, rfl⟩, fun _ => trivial⟩

/-- Every line of a `send` form keeps this: a store goes to the slot of the byte it has chosen (line 5), a push moves the head
by one (line 6), the pump touches neither, and the loop goes on only after `ST_OK`. -/
theorem storedBySend_lineStep {s u : State} {j : Job} {op : UOp} {a : Nat} (hsend : op.isSend = true)
    (ha : OutsideSlots op s a) (hrun : RunFrom op s u) (hj : u.uart.job = some j) (h : StoredBySend op s a u) :
    Ensures True (StoredBySend op s a) (lineStep j u) := by
  obtain ⟨hop, hbuf, hcount, hown⟩ := hrun.job j hj
  obtain ⟨hat, hread⟩ := h
  obtain ⟨hhead, hbefore, hcurrent, hnext, hbyte⟩ := hat j hj
  have hcfg := hrun.keeps.cfg
  cases hl : j.line with
  | send5 =>
    have hcurrent := hcurrent (by simp [hl])
    have hnext := hnext (by simp [hl])
    simp only [sent, hl] at hhead hbefore
    simp only [lineStep, hl, sendStore, ensures_slotWrite, ensures_change]
    refine ⟨fun hlt => storedBySend_goto_iff.2 ⟨?_, hhead, hbefore, fun _ => hcurrent, fun _ => hnext, by simp⟩,
      fun _ => trivial⟩
    rw [hhead, hcfg] at hlt
    have hne : a ≠ txSlot s j.i := ha j.i (fun m hm => hm.lt_or_eq.elim (hbefore m) (· ▸ hcurrent)) hlt
    simpa [hhead, Memory.read_write_other _ hne] using hread
  | send6 =>
    have hcurrent := hcurrent (by simp [hl])
    have hnext := hnext (by simp [hl])
    simp only [sent, hl] at hhead hbefore
    simp only [lineStep, hl, ensures_change]
    refine storedBySend_goto_iff.2 ⟨hread, ?_, fun m hm => ?_, by simp, by simp, by simp⟩
    · rw [sent, txSlot_succ, ← hhead]
      exact hnext
    · exact (Nat.lt_succ_iff_lt_or_eq.1 hm).elim (hbefore m) (· ▸ hcurrent)
  | send4 =>
    have hcurrent := hcurrent (by simp [hl])
    have hnext := hnext (by simp [hl])
    simp only [sent, hl] at hhead hbefore
    simp only [lineStep, hl, sendWait, ensures_andThen]
    refine (ensures_pump_tx u).mono fun v ⟨hvhead, hvbuf⟩ => ?_
    have hread : Memory.read v.uart.tx.buf a = Memory.read s.uart.tx.buf a := hvbuf ▸ hread
    rw [← hvhead] at hhead hnext
    simp only [ensures_ite, ensures_sendReturn, ensures_proceed]
    refine ⟨fun _ => ⟨fun _ => ?_, fun _ => ?_, fun _ _ => storedBySend_uartReturn hread⟩, fun _ => ?_⟩ <;>
      refine storedBySend_goto_iff.2 ⟨hread, ?_⟩
    · exact ⟨hhead, hbefore, by simp, by simp, by simp⟩
    · exact ⟨hhead, hbefore, by simp, by simp, by simp⟩
    · exact ⟨hhead, hbefore, fun _ => hcurrent, fun _ => hnext, by simp⟩
  | flushOut2 =>
    simp only [sent, hl] at hhead hbefore
    simp only [lineStep, hl, ensures_andThen, ensures_proceed]
    exact (ensures_pump_tx u).mono fun v ⟨hvhead, hvbuf⟩ =>
      storedBySend_goto_iff.2 ⟨hvbuf ▸ hread, hvhead ▸ hhead, hbefore, by simp, by simp, by simp⟩
  | send1 | send2 | send3 | sendBuf3 | sendBuf4 | sendStr5 =>
    have hcurrent := hcurrent (by simp [hl])
    simp only [sent, hl] at hhead hbefore
    simp +contextual [lineStep, hl, storedBySend_goto_iff, sendAt_iff, sent, hhead, hbefore, hread, hcurrent, hcfg, hnext]
  | send7 | send9 | flushOut1 | sendBuf1 | sendBuf5 | sendBuf6 | sendBuf8 | sendStr1 | sendStr2 | sendStr6 | sendStr7
  | sendStr9 =>
    simp only [sent, hl] at hhead hbefore
    simp +contextual [lineStep, hl, storedBySend_goto_iff, storedBySend_uartReturn, sendAt_iff, sent, hhead, hbefore, hread,
      ensures_sendReturn, okStatus, setTxeIe]
  | send8 | flushOut3 | sendBuf7 | sendStr8 =>
    cases op with
    | send drain | sendBuf drain | sendStr drain =>
      simp only [sent, hl, hop] at hhead hbefore
      cases drain <;>
        simp +contextual [lineStep, hl, hop, storedBySend_goto_iff, storedBySend_uartReturn, sendAt_iff, sent, hhead, hbefore,
        hread, ensures_flushOutReturn, sendDrains, bufferDrains]
    | _ => simp [UOp.isSend] at hsend
  | sendBuf2 =>
    cases op with
    | sendBuf drain =>
      simp only [sent, hl] at hhead hbefore
      simp +contextual [lineStep, hl, storedBySend_goto_iff, sendAt_iff, sent, hhead, hbefore, hread, hcount]
      simp [Sends]
    | _ => simp [hl, lineOf] at hown
  | sendStr3 =>
    have hhbuf : u.hbuf = s.hbuf := by
      obtain ⟨-, -, -, -, -, -, -, hkeep⟩ := hrun.opKeeps
      exact hkeep (by rintro rfl; simp [UOp.isSend] at hsend)
    simp only [sent, hl] at hhead hbefore
    simp +contextual [lineStep, hl, storedBySend_goto_iff, sendAt_iff, sent, hhead, hbefore, hread, bufferByte, effAddr,
      hbufSize, hbuf, hcfg, hhbuf]
  | sendStr4 =>
    cases op with
    | sendStr drain =>
      have hbyte := hbyte hl
      simp only [sent, hl] at hhead hbefore
      simp +contextual [lineStep, hl, storedBySend_goto_iff, sendAt_iff, sent, hhead, hbefore, hread, hbyte]
      simp [Sends]
    | _ => simp [hl, lineOf] at hown
  | _ =>
    cases op with
    | send drain | sendBuf drain | sendStr drain => simp [hl, lineOf] at hown
    | _ => simp [UOp.isSend] at hsend

theorem storedBySend_issue {op : UOp} (hsend : op.isSend = true) (b : Byte) (s : State) (a : Nat) :
    StoredBySend op s a (issue op b s) := by
  refine ⟨fun j hj => ?_, rfl⟩
  obtain rfl : jobAt op op.firstLine b s.uart = j := Option.some.inj hj
  cases op with
  | send drain | sendBuf drain | sendStr drain =>
    simp [sendAt_iff, jobAt, UOp.firstLine, sent, issue, Sends]
  | _ => simp [UOp.isSend] at hsend

/-! ## The frame of a UART command -/

/-- What a UART command that answers a next state leaves alone, in terms of the operation it runs. -/
theorem ensures_exec_uart_frame {i : Instr} {s : State} (hi : i.isUart = true) :
    Ensures True (fun t => ∃ op, uartOp i = some op ∧ UartKeeps s t ∧ OpKeeps op s t ∧
      (op = .recvBuf → ∀ a, OutsideBuffer s a → Memory.read t.hbuf a = Memory.read s.hbuf a) ∧
      (op.isSend = true → ∀ a, OutsideSlots op s a → Memory.read t.uart.tx.buf a = Memory.read s.uart.tx.buf a))
      (exec i s) := by
  refine ensures_exec_uart hi fun op b hop _ _ => ensures_partial.2 fun t ht => ?_
  obtain ⟨hrun, -⟩ := (ensures_runLines_issue (Q := fun _ => True) trivial
    (fun _ _ _ _ _ => ensures_partial.2 fun _ _ => trivial) s.burst).apply ht
  refine ⟨op, hop, hrun.keeps, hrun.opKeeps, ?_, ?_⟩
  · rintro rfl a ha
    obtain ⟨-, -, hread⟩ := (ensures_runLines_issue (Q := StoredByRecv s a) (storedByRecv_issue b s a)
      (fun _ _ hrun hj hq => storedByRecv_lineStep ha hrun hj hq) s.burst).apply ht
    exact hread
  · intro hsend a ha
    obtain ⟨-, -, hread⟩ := (ensures_runLines_issue (Q := StoredBySend op s a) (storedBySend_issue hsend b s a)
      (fun _ _ hrun hj hq => storedBySend_lineStep hsend ha hrun hj hq) s.burst).apply ht
    exact hread

theorem outsideSlots_send {drain : Bool} {s : State} {a : Nat} (ha : a ≠ s.uart.tx.head) :
    OutsideSlots (.send drain) s a := by
  intro k hsends _
  obtain rfl : k = 0 := hsends k le_rfl
  exact ha

theorem outsideSlots_sendBuf {drain : Bool} {s : State} {a : Nat}
    (ha : ∀ k < s.uart.oprCount.toNat, a ≠ (s.uart.tx.head + k) % s.cfg.nTx) : OutsideSlots (.sendBuf drain) s a :=
  fun k hsends hlt => txSlot_eq_of_lt hlt ▸ ha k (hsends k le_rfl)

theorem outsideSlots_sendStr {drain : Bool} {s : State} {a : Nat}
    (ha : ∀ k, (∀ m ≤ k, Memory.read s.hbuf ((s.uart.oprBuf + m) % 2 ^ s.cfg.bufaw) ≠ 0#8) →
      a ≠ (s.uart.tx.head + k) % s.cfg.nTx) : OutsideSlots (.sendStr drain) s a :=
  fun k hsends hlt => txSlot_eq_of_lt hlt ▸ ha k hsends

/-- Settles O60: each line writes only what its command may write, and the stores go to the addresses and slots that the loop
counter has reached. -/
theorem uartFrame : Obligations.UartFrame := by
  unfold Obligations.UartFrame
  intro i s t hi h
  obtain ⟨op, hop, hkeeps, hopKeeps, hrecv, hsend⟩ := (ensures_exec_uart_frame hi).apply h
  refine ⟨⟨hkeeps.id, hkeeps.cw, hkeeps.oprCount, hkeeps.oprBuf, hkeeps.oprValue, hkeeps.oprTimeout, hkeeps.wireIn,
    hkeeps.wireOut, hkeeps.txShift, hkeeps.rxBuf, hkeeps.gie, hkeeps.sched, hkeeps.burst, hkeeps.drawn⟩, ?_⟩
  cases i with
  | uOpen | uClose | uIsopen | uAvail | uFlush outbound | uRecv =>
    obtain rfl := Option.some.inj hop
    simpa [OpKeeps, Instr.isSend, UOp.isSend] using hopKeeps
  | uRecvbuf =>
    obtain rfl := Option.some.inj hop
    simpa [OpKeeps, Instr.isSend, UOp.isSend, and_assoc, OutsideBuffer] using And.intro hopKeeps (hrecv rfl)
  | uSend drain byte =>
    obtain rfl := Option.some.inj hop
    simpa [OpKeeps, Instr.isSend, UOp.isSend, and_assoc] using
      And.intro hopKeeps fun a ha => hsend rfl a (outsideSlots_send ha)
  | uSendbuf drain =>
    obtain rfl := Option.some.inj hop
    simpa [OpKeeps, Instr.isSend, UOp.isSend, and_assoc] using
      And.intro hopKeeps fun a ha => hsend rfl a (outsideSlots_sendBuf ha)
  | uSendstr drain =>
    obtain rfl := Option.some.inj hop
    simpa [OpKeeps, Instr.isSend, UOp.isSend, and_assoc] using
      And.intro hopKeeps fun a ha => hsend rfl a (outsideSlots_sendStr ha)
  | _ => cases hi

end Sys2Proof.Machine
end

section
/-! SUPPORT. Every step keeps every memory in canonical form and within its address space (spec 20_memory.md R60, R64, R67, R75,
R76): a store goes to an address of its space, by the wrap of R67, the size of a typed value, or the check of the slot. -/

namespace Sys2Proof.Machine

/-! ## One memory -/

/-- The memory is in canonical form and within a space of `size` bytes. -/
abbrev Memory.fits (m : Memory) (size : Nat) : Prop := m.wf ∧ m.within size

theorem fits_write {m : Memory} {size a : Nat} (b : Byte) (h : m.fits size) (ha : a < size) :
    (Memory.write m a b).fits size :=
  ⟨Memory.wf_write a b h.1, Memory.within_write b h.2 ha⟩

/-! ## The memories of the I2C operations (R60, R75) -/

/-- The two memories an I2C operation stores in. -/
abbrev BuffersFit (s : State) : Prop := s.hbuf.fits (hbufSize s.cfg) ∧ s.i2c.scratch.fits 8

theorem BusKeeps.buffersFit {s t : State} (h : BusKeeps s t) (hs : BuffersFit s) : BuffersFit t := by
  simpa only [BuffersFit, h.cfg, h.hbuf, h.scratch] using hs

/-- Every byte of a buffer below offset `m` has its address in the space: always in `HBUF`, where addresses wrap; in `SCR` below
cell 8. -/
def Reachable (sp : Space) (buf m : Nat) : Prop := sp = .scr → buf + m ≤ 8

theorem buffersFit_writeSpace {sp : Space} {buf m i : Nat} {b : Byte} {s : State} (hreach : Reachable sp buf m) (hi : i < m)
    (h : BuffersFit s) : BuffersFit (writeSpace sp (effAddr s.cfg sp buf i) b s) := by
  obtain ⟨hhbuf, hscr⟩ := h
  cases sp with
  | hbuf => exact ⟨fits_write b hhbuf (Nat.mod_lt _ (Nat.two_pow_pos _)), hscr⟩
  | scr =>
    have hfits : buf + m ≤ 8 := hreach rfl
    exact ⟨hhbuf, fits_write b hscr (show buf + i < 8 by omega)⟩

theorem buffersFit_orAbort {n : BitVec 16} {r : Status × State} {go : Status → State → Status × State}
    (h : BuffersFit r.2) (hgo : ∀ st t, BuffersFit t → BuffersFit (go st t).2) : BuffersFit (orAbort n r go).2 :=
  orAbort_cases (P := fun q => BuffersFit q.2) (fun _ => hgo _ _ h) fun _ => (busKeeps_abort _ _ _).buffersFit h

theorem buffersFit_receiveLoop {sp : Space} {buf : Nat} {stopComm : Bool} :
    ∀ {rem n : Nat} {s : State}, Reachable sp buf (n + rem) → BuffersFit s →
      BuffersFit (receiveLoop sp buf stopComm rem n s).2
  | 0, _, s, _, h => by
    cases stopComm
    · exact h
    · exact (busKeeps_stop s).buffersFit h
  | rem + 1, n, s, hreach, h =>
    buffersFit_orAbort ((busKeeps_receiveByte _ s).buffersFit h) fun _ t ht =>
      buffersFit_receiveLoop (Nat.add_right_comm n 1 rem ▸ hreach)
        ((busKeeps_countDown _).buffersFit (buffersFit_writeSpace hreach (by omega) ht))

theorem buffersFit_readBuffer {sp : Space} {addr : BitVec 7} {reg : Byte} {buf : Nat} {count : BitVec 16} {s : State}
    (hreach : Reachable sp buf count.toNat) (h : BuffersFit s) : BuffersFit (readBuffer sp addr reg buf count s).2 :=
  buffersFit_orAbort (((busKeeps_mapI2c s rfl rfl rfl).trans (busKeeps_waitBusy _)).buffersFit h) fun _ t ht =>
    buffersFit_orAbort ((busKeeps_start _ _ t).buffersFit ht) fun _ t ht =>
    buffersFit_orAbort ((busKeeps_sendByte _ t).buffersFit ht) fun _ t ht =>
    buffersFit_orAbort ((busKeeps_start _ _ t).buffersFit ht) fun _ _ ht =>
    buffersFit_receiveLoop (by simpa only [Nat.zero_add] using hreach) ht

theorem buffersFit_readRaw {addr : BitVec 7} {buf : Nat} {count : BitVec 16} {stopComm : Bool} {s : State}
    (h : BuffersFit s) : BuffersFit (readRaw addr buf count stopComm s).2 :=
  buffersFit_orAbort (((busKeeps_mapI2c s rfl rfl rfl).trans (busKeeps_waitBusy _)).buffersFit h) fun _ t ht =>
    buffersFit_orAbort ((busKeeps_start _ _ t).buffersFit ht) fun _ _ ht => buffersFit_receiveLoop nofun ht

theorem fits_stageTyped {o : WireOrder} {size : Nat} {v : BitVec 64} {m : Memory} (hm : m.fits 8) :
    ∀ {n : Nat}, n ≤ 8 → (stageTyped o size v n m).fits 8
  | 0, _ => hm
  | n + 1, hn => fits_write _ (fits_stageTyped hm (by omega)) (by omega)

/-- The size of a typed value that is not refused (R94). -/
theorem le_eight_of_admitsTyped {size : Byte} {s : State} (h : admitsTyped size s = none) : size.toNat ≤ 8 := by
  unfold admitsTyped at h
  split at h
  · next hsize =>
    simp only [typedSizeOk, Bool.or_eq_true, beq_iff_eq] at hsize
    rcases hsize with ((rfl | rfl) | rfl) | rfl <;> decide
  · cases h

theorem buffersFit_writeTyped {addr : BitVec 7} {reg size : Byte} {s : State} (hsize : size.toNat ≤ 8) (h : BuffersFit s) :
    BuffersFit (writeTyped addr reg size s).2 := by
  obtain ⟨hhbuf, hscr⟩ := h
  exact (busKeeps_writeBuffer ..).buffersFit ⟨hhbuf, fits_stageTyped hscr hsize⟩

theorem buffersFit_readTyped {addr : BitVec 7} {reg size : Byte} {s : State} (hsize : size.toNat ≤ 8) (h : BuffersFit s) :
    BuffersFit (readTyped addr reg size s).2 := by
  have hread : BuffersFit (readBuffer .scr addr reg 0 (size.setWidth 16) s).2 := by
    refine buffersFit_readBuffer (fun _ => ?_) h
    rw [BitVec.toNat_setWidth]
    omega
  obtain ⟨v, n, heq⟩ := typedResult_eq size (readBuffer .scr addr reg 0 (size.setWidth 16) s).1
    (readBuffer .scr addr reg 0 (size.setWidth 16) s).2
  have heq : (readTyped addr reg size s).2 = _ := heq
  rw [heq]
  exact hread

/-- An I2C instruction is a command whose operation, once admitted, keeps the two memories in form. -/
theorem exec_i2c_buffersFit {i : Instr} (hi : i.isI2c = true) (s : State) :
    ∃ refusal body, exec i s = i2cCommand refusal body s ∧
      (refusal = none → ∀ t, BuffersFit t → BuffersFit (body t).2) := by
  have hbring {body : State → Status × State} (hk : ∀ t, BringUpKeeps t (body t).2) (hkeeps : ∀ t, I2cKeeps t (body t).2)
      (t : State) (ht : BuffersFit t) : BuffersFit (body t).2 := by
    simpa only [BuffersFit, (hkeeps t).cfg, (hk t).hbuf, (hk t).scratch] using ht
  cases i with
  | i2cOpen => exact ⟨none, i2cOpen, rfl, fun _ => hbring bringUpKeeps_i2cOpen keeps_i2cOpen⟩
  | i2cClose => exact ⟨none, i2cClose, rfl, fun _ => hbring bringUpKeeps_i2cClose keeps_i2cClose⟩
  | i2cReset => exact ⟨none, i2cReset, rfl, fun _ => hbring bringUpKeeps_i2cReset keeps_i2cReset⟩
  | i2cIsopen => exact ⟨none, i2cIsOpen, rfl, fun _ _ => id⟩
  | i2cScan => exact ⟨_, _, rfl, fun _ t => (busKeeps_scanLoop _ _ _ t).buffersFit⟩
  | i2cWrite addr reg => exact ⟨_, _, rfl, fun _ t => (busKeeps_writeBuffer _ _ _ _ _ t).buffersFit⟩
  | i2cRead addr reg => exact ⟨_, _, rfl, fun _ _ => buffersFit_readBuffer nofun⟩
  | i2cReadraw stopComm addr => exact ⟨_, _, rfl, fun _ _ => buffersFit_readRaw⟩
  | i2cWritet addr reg size => exact ⟨_, _, rfl, fun hadmit _ => buffersFit_writeTyped (le_eight_of_admitsTyped hadmit)⟩
  | i2cReadt addr reg size => exact ⟨_, _, rfl, fun hadmit _ => buffersFit_readTyped (le_eight_of_admitsTyped hadmit)⟩
  | i2cWaitbusy => exact ⟨_, _, rfl, fun _ t => (busKeeps_waitBusy t).buffersFit⟩
  | i2cStart rw addr => exact ⟨_, _, rfl, fun _ t => (busKeeps_start _ _ t).buffersFit⟩
  | i2cStop => exact ⟨_, _, rfl, fun _ t => (busKeeps_stop t).buffersFit⟩
  | i2cSendb byte => exact ⟨_, _, rfl, fun _ t => (busKeeps_sendByte _ t).buffersFit⟩
  | i2cRecvb ack => exact ⟨_, _, rfl, fun _ t => (busKeeps_receiveByte _ t).buffersFit⟩
  | uOpen | uClose | uIsopen | uAvail | uFlush | uSend | uSendbuf | uSendstr | uRecv | uRecvbuf | onRx | onTxe => cases hi

/-! ## All memories (R60) -/

/-- The memory invariant, memory by memory. -/
structure MemoriesFit (s : State) : Prop where
  hbuf : s.hbuf.fits (hbufSize s.cfg)
  scratch : s.i2c.scratch.fits 8
  rx : s.uart.rx.buf.fits s.cfg.nRx
  tx : s.uart.tx.buf.fits s.cfg.nTx

theorem memInv_iff {s : State} : MemInv s ↔ MemoriesFit s :=
  ⟨fun ⟨hhbuf, hscratch, hrx, htx⟩ => ⟨hhbuf, hscratch, hrx, htx⟩, fun h => ⟨h.hbuf, h.scratch, h.rx, h.tx⟩⟩

/-- An I2C command touches neither ring. -/
theorem memoriesFit_exec_i2c {i : Instr} {s : State} (hi : i.isI2c = true) (h : MemoriesFit s) :
    Ensures True MemoriesFit (exec i s) := by
  refine ensures_partial.2 fun t ht => ?_
  obtain ⟨refusal, body, heq, hfit⟩ := exec_i2c_buffersFit hi s
  obtain ⟨huart, -⟩ := i2cCommandsTouchNoUart i s t hi ht
  obtain ⟨-, hadmit, rfl⟩ := i2cCommand_eq_next.1 (heq ▸ ht)
  obtain ⟨hhbuf, hscratch⟩ := hfit hadmit (begun s) ⟨h.hbuf, h.scratch⟩
  have hcfg := (tracesGrow_exec_i2c hi ht).cfg
  refine ⟨hhbuf, hscratch, ?_, ?_⟩ <;> rw [hcfg, huart]
  · exact h.rx
  · exact h.tx

/-! ## The controller's stores (R76, R165, R187, R191) -/

/-- A change of the controller that stores in neither ring. -/
theorem memoriesFit_mapUart {f : Uart → Uart} {s : State} (h : MemoriesFit s) (hrx : (f s.uart).rx.buf = s.uart.rx.buf)
    (htx : (f s.uart).tx.buf = s.uart.tx.buf) : MemoriesFit (s.mapUart f) :=
  ⟨h.hbuf, h.scratch, by simpa [hrx] using h.rx, by simpa [htx] using h.tx⟩

theorem memoriesFit_goto {l : Line} {j : Job} {s : State} (h : MemoriesFit s) : MemoriesFit (goto l j s) :=
  memoriesFit_mapUart h rfl rfl

theorem memoriesFit_uartReturn {st : Status} {s : State} (h : MemoriesFit s) : MemoriesFit (uartReturn st s) :=
  memoriesFit_mapUart h rfl rfl

theorem memoriesFit_writeHbuf {s : State} {a : Nat} {b : Byte} (h : MemoriesFit s) (ha : a < hbufSize s.cfg) :
    MemoriesFit (s.writeHbuf a b) :=
  ⟨fits_write b h.hbuf ha, h.scratch, h.rx, h.tx⟩

theorem memoriesFit_pump {s : State} (h : MemoriesFit s) : Ensures True MemoriesFit (pump s) :=
  ensures_pump h (fun _ => memoriesFit_mapUart h rfl rfl) fun _ _ => ⟨fun _ => memoriesFit_mapUart h rfl rfl, fun _ => trivial⟩

theorem memoriesFit_execOnTxe {s : State} (h : MemoriesFit s) : Ensures True MemoriesFit (execOnTxe s) :=
  ensures_execOnTxe (fun _ => memoriesFit_mapUart h rfl rfl)
    fun _ _ _ => ⟨fun _ => memoriesFit_mapUart h rfl rfl, fun _ => trivial⟩

/-- on-receive stores in the slot at the head, if there is such a slot (R76, R165). -/
theorem memoriesFit_execOnRx {s : State} (h : MemoriesFit s) : Ensures True MemoriesFit (execOnRx s) := by
  exact ensures_execOnRx (fun _ _ _ _ _ => ⟨fun hslot => ⟨h.hbuf, h.scratch, fits_write _ h.rx hslot, h.tx⟩, fun _ => trivial⟩)
    fun _ _ _ _ => memoriesFit_mapUart h rfl rfl

/-- Of all lines, line 5 of `send` stores in a slot and line 8 of `recv(buffer, count, timeout)` in `HBUF`. -/
theorem memoriesFit_lineStep {s : State} {j : Job} (h : MemoriesFit s) : Ensures True MemoriesFit (lineStep j s) := by
  cases hl : j.line with
  | send5 =>
    simp only [lineStep, hl, sendStore, ensures_slotWrite]
    exact ⟨fun hslot => ⟨h.hbuf, h.scratch, h.rx, fits_write _ h.tx hslot⟩, fun _ => trivial⟩
  | recvBuf8 =>
    simp only [lineStep, hl, recvStore, ensures_proceed]
    exact memoriesFit_goto (memoriesFit_writeHbuf h (Nat.mod_lt _ (Nat.two_pow_pos _)))
  | send4 =>
    simp only [lineStep, hl, sendWait, ensures_andThen]
    exact (memoriesFit_pump h).mono fun u hu => by simp [ensures_sendReturn, memoriesFit_goto, memoriesFit_uartReturn, hu]
  | flushOut2 =>
    simp only [lineStep, hl, ensures_andThen, ensures_proceed]
    exact (memoriesFit_pump h).mono fun u hu => memoriesFit_goto hu
  | open3 | close3 | flushIn1 | send7 | recv4 =>
    simp only [lineStep, hl]
    exact memoriesFit_goto ⟨h.hbuf, h.scratch, h.rx, h.tx⟩
  | _ =>
    simp [lineStep, hl, memoriesFit_goto, memoriesFit_uartReturn, memoriesFit_mapUart, ensures_flushOutReturn, ensures_sendReturn,
      ensures_recvReturn, recvRead, h]

theorem memoriesFit_exec_uart {i : Instr} {s : State} (hi : i.isUart = true) (h : MemoriesFit s) : Ensures True MemoriesFit (exec i s) :=
  ensures_exec_uart hi fun _ _ _ _ _ => ensures_runLines (fun _ _ hu _ => memoriesFit_lineStep hu) _ (memoriesFit_mapUart h rfl rfl)

/-! ## The step -/

theorem memoriesFit_mainlineStep {s : State} (h : MemoriesFit s) : Ensures True MemoriesFit (mainlineStep s) := by
  unfold mainlineStep
  split
  · exact memoriesFit_lineStep h
  · exact h

/-- What is presented runs as a command of one of the engines or as an entry point, or does nothing. -/
theorem memoriesFit_present {s : State} (p : Presented) (h : MemoriesFit s) : Ensures True MemoriesFit (runFetched (fetch p s)) := by
  cases p with
  | i2cCommand w =>
    cases hd : decodeI2c w with
    | ok i =>
      simp only [fetch, hd, runFetched]
      exact memoriesFit_exec_i2c (isI2c_of_decodeI2c hd) ⟨h.hbuf, h.scratch, h.rx, h.tx⟩
    | error e => simp only [fetch, hd, runFetched, ensures_refused]
  | uartCommand w =>
    cases hd : decodeUart w with
    | ok i =>
      simp only [fetch, hd, runFetched]
      exact memoriesFit_exec_uart (isUart_of_decodeUart hd) (memoriesFit_mapUart h rfl rfl)
    | error e => simp only [fetch, hd, runFetched, ensures_refused]
  | cause c =>
    simp only [fetch]
    split
    · rcases (by decide : ∀ c : BitVec 1, decodeCause c = .onRx ∨ decodeCause c = .onTxe) c with hc | hc <;> rw [hc]
      · exact memoriesFit_execOnRx h
      · exact memoriesFit_execOnTxe h
    · exact h

/-- A host write goes to an address of `HBUF` (R68); no other move stores anything. -/
theorem memoriesFit_move {s : State} (e : Event) (h : MemoriesFit s) : Ensures True MemoriesFit (move e s) := by
  cases e with
  | hostWrite a b =>
    simp only [move, hostWrite, ensures_ite, ensures_refused, ensures_next, implies_true, true_and]
    exact fun _ => memoriesFit_writeHbuf h (Nat.mod_lt _ (Nat.two_pow_pos _))
  | hostRead a => simp [move, hostRead, h]
  | mainline => exact memoriesFit_mainlineStep h
  | setCount g v | setBuf g v | setValue g v => cases g <;> exact ensures_next.2 ⟨h.hbuf, h.scratch, h.rx, h.tx⟩
  | hwRx b f =>
    simp only [move, hwRx_eq]
    split <;> exact ensures_next.2 ⟨h.hbuf, h.scratch, h.rx, h.tx⟩
  | hwTxTake =>
    simp only [move, hwTxTake_eq]
    split <;> exact ensures_next.2 ⟨h.hbuf, h.scratch, h.rx, h.tx⟩
  | hwTxDone =>
    simp only [move, hwTxDone_eq]
    exact ensures_next.2 ⟨h.hbuf, h.scratch, h.rx, h.tx⟩
  | present p | setTimeout v | setGie b | setBurst n => exact ensures_next.2 ⟨h.hbuf, h.scratch, h.rx, h.tx⟩

/-- Settles O10: by the move that is next in the schedule. -/
theorem stepKeepsMemoryCanonical : Obligations.StepKeepsMemoryCanonical := by
  unfold Obligations.StepKeepsMemoryCanonical
  intro s t _ hinv ht
  have h := memInv_iff.1 hinv
  refine memInv_iff.2 (Ensures.apply (F := True) (P := MemoriesFit) ?_ ht)
  cases hs : s.sched with
  | nil => exact step_of_sched_nil hs ▸ memoriesFit_mainlineStep h
  | cons e rest =>
    have h' : MemoriesFit { s with sched := rest } := ⟨h.hbuf, h.scratch, h.rx, h.tx⟩
    by_cases he : ∃ p, e = .present p
    · obtain ⟨p, rfl⟩ := he
      simpa only [step, hs] using memoriesFit_present p h'
    · exact step_eq_move hs (not_exists.1 he) ▸ memoriesFit_move e h'

end Sys2Proof.Machine
end

section
/-! SUPPORT. `write` and `write<T>` with every answer good (spec 41_i2c_operations.md R135, R138; 20_memory.md R62, R75): the
register select that a read begins with too, the data bytes, and the staging of a typed value. -/

namespace Sys2Proof.Machine

/-! ## A byte sent, answer by answer (R115) -/

theorem sendByte_good {s : State} {b : Byte} {r : Xfer} {rest : List Xfer} (h : s.xferIn = r :: rest)
    (hr : evalTx r = .ok) : sendByte b s = (okStatus 1#16, emit (.txb b .ok) { s with xferIn := rest }) := by
  simp [sendByte, askXfer, h, hr, resOf]

/-! ## The register select (R135 lines 2 to 4, R136 lines 2 to 4) -/

/-- The start of a transfer in the write direction and the register byte, and then the rest of the operation. -/
def selectRegister (addr : BitVec 7) (reg : Byte) (go : Status → State → Status × State) (s : State) : Status × State :=
  orAbort 0#16 (start addr false s) fun _ t => orAbort 0#16 (sendByte reg t) go

/-- The transaction registers as a transfer sets them, the bus found free. -/
def transferBegun (addr : BitVec 7) (reg : Byte) (dir : Bool) (count : BitVec 16) (bs : List Bool) (s : State) : State :=
  { s with busyIn := bs, i2c := { s.i2c with tAddr := addr, tReg := reg, tDir := dir, tRem := count } }

/-- After a good register select, with the answers `rest` still to come. -/
def registerSelected (addr : BitVec 7) (reg : Byte) (count : BitVec 16) (bs : List Bool) (rest : List Xfer) (s : State) :
    State :=
  { s with
    busyIn := bs
    xferIn := rest
    i2c := { s.i2c with
      fsm := .transferringData, tAddr := addr, tReg := reg, tDir := false, tRem := count
      trace := s.i2c.trace ++ [.start (repeatedFrom s.i2c.fsm) .ok, .txa addr false .ok, .txb reg .ok] } }

section
variable {s : State} {sp : Space} {addr : BitVec 7} {reg : Byte} {buf : Nat} {count : BitVec 16} {bs : List Bool}
  {r1 r2 r3 : Xfer} {data rest : List Xfer}

theorem writeBuffer_free (hfree : s.busyIn = true :: bs) :
    writeBuffer sp addr reg buf count s =
      selectRegister addr reg (fun _ t => sendLoop sp buf count.toNat 0 t) (transferBegun addr reg false count bs s) := by
  unfold writeBuffer
  rw [waitBusy_clear (s := State.mapI2c _ s) hfree, orAbort_ok rfl]
  rfl

theorem selectRegister_good {dir : Bool} {go : Status → State → Status × State} (hx : s.xferIn = r1 :: r2 :: r3 :: rest)
    (h1 : evalCond r1 = .ok) (h2 : evalTx r2 = .ok) (h3 : evalTx r3 = .ok) :
    selectRegister addr reg go (transferBegun addr reg dir count bs s) =
      go (okStatus 1#16) (registerSelected addr reg count bs rest s) := by
  unfold selectRegister
  rw [start_good (s := transferBegun addr reg dir count bs s) hx h1 h2, orAbort_ok rfl, sendByte_good (rest := rest) rfl h3,
    orAbort_ok rfl, repeated_eq]
  simp [transferBegun, registerSelected, emit, State.mapI2c]

/-! ## The data bytes of a write (R135 lines 5 to 10) -/

/-- A byte of a buffer does not depend on the bus. -/
theorem readSpace_busKeeps {t : State} {a : Nat} (h : BusKeeps s t) : readSpace sp a t = readSpace sp a s := by
  cases sp
  · simp only [readSpace, h.hbuf]
  · simp only [readSpace, h.scratch]

/-- With good answers every byte is sent, from offset `n` on, and then the stop. -/
theorem sendLoop_good : ∀ {data : List Xfer} {n : Nat} {s : State}, s.xferIn = data ++ rest → (∀ r ∈ data, evalTx r = .ok) →
    sendLoop sp buf data.length n s = (okStatus (BitVec.ofNat 16 (n + data.length)), { s with
      xferIn := rest
      i2c := { s.i2c with
        fsm := .idle, tRem := s.i2c.tRem - BitVec.ofNat 16 data.length
        trace := s.i2c.trace ++ (List.range data.length).map (fun k =>
          .txb (readSpace sp (effAddr s.cfg sp buf (n + k)) s) .ok) ++ [.stop] } })
  | [], n, s, hx, _ => by
    have hx : s.xferIn = rest := hx
    simp [sendLoop, stop, setFsm, emit, State.mapI2c, ← hx]
  | r :: data, n, s, hx, hok => by
    obtain ⟨hr, hok⟩ := List.forall_mem_cons.1 hok
    rw [List.length_cons, sendLoop, sendByte_good (rest := data ++ rest) hx hr, orAbort_ok rfl, sendLoop_good (by rfl) hok]
    have hkeeps (b : Byte) : BusKeeps s (countDown (emit (.txb b .ok) { s with xferIn := data ++ rest })) :=
      ⟨rfl, rfl, rfl, rfl, rfl, rfl⟩
    have hcount : s.i2c.tRem - 1#16 - BitVec.ofNat 16 data.length = s.i2c.tRem - BitVec.ofNat 16 (data.length + 1) := by
      rw [Nat.add_comm, BitVec.ofNat_add, sub_sub]
    simp only [readSpace_busKeeps (hkeeps _)]
    simp [countDown, emit, State.mapI2c, hcount, List.range_succ_eq_map, Function.comp_def, Nat.add_assoc, Nat.add_comm 1]

/-- A write with every answer good, from a buffer in either space. -/
theorem writeBuffer_good (hfree : s.busyIn = true :: bs) (hx : s.xferIn = r1 :: r2 :: r3 :: (data ++ rest))
    (hlen : data.length = count.toNat) (h1 : evalCond r1 = .ok) (h2 : evalTx r2 = .ok) (h3 : evalTx r3 = .ok)
    (hdata : ∀ r ∈ data, evalTx r = .ok) :
    writeBuffer sp addr reg buf count s = (okStatus count, { s with
      busyIn := bs
      xferIn := rest
      i2c := { s.i2c with
        fsm := .idle, tAddr := addr, tReg := reg, tDir := false, tRem := 0#16
        trace := s.i2c.trace ++ [.start (repeatedFrom s.i2c.fsm) .ok, .txa addr false .ok, .txb reg .ok] ++
          (List.range count.toNat).map (fun k => .txb (readSpace sp (effAddr s.cfg sp buf k) s) .ok) ++ [.stop] } }) := by
  have hkeeps : BusKeeps s (registerSelected addr reg count bs (data ++ rest) s) := ⟨rfl, rfl, rfl, rfl, rfl, rfl⟩
  rw [writeBuffer_free hfree, selectRegister_good hx h1 h2 h3, ← hlen, sendLoop_good (rest := rest) rfl hdata]
  simp only [readSpace_busKeeps hkeeps]
  simp [registerSelected, hlen]

end

/-- Settles O33: the register select, the data bytes by induction on their answers, and the return. -/
theorem writeResult : Obligations.WriteResult := by
  unfold Obligations.WriteResult
  intro s addr reg r1 r2 r3 data rest bs hbusy hopened hfree hx hlen h1 h2 h3 hdata
  refine (i2cCommand_admitted hbusy (needsI2cOpen_eq_none.2 hopened)).trans ?_
  rw [writeBuffer_good (s := begun s) hfree hx hlen h1 h2 h3 hdata]
  simp [i2cReturn, State.mapI2c, Status.word, StClass.code, okStatus, readSpace, effAddr, hbufSize, hbusy]

/-! ## The layout of a typed value (R62) -/

theorem typedByte_eq (o : WireOrder) (size : Nat) (v : BitVec 64) (k : Nat) :
    typedByte o size v k = v.extractLsb' (typedShift o size k) 8 := by
  apply BitVec.eq_of_toNat_eq
  simp [typedByte, BitVec.extractLsb'_toNat]

/-- A cell that has been staged holds its byte of the value. -/
theorem read_stageTyped_lt (o : WireOrder) (size : Nat) (v : BitVec 64) {m : Memory} (hm : m.wf) {k : Nat} :
    ∀ {n : Nat}, k < n → Memory.read (stageTyped o size v n m) k = v.extractLsb' (typedShift o size k) 8
  | 0, hk => absurd hk (Nat.not_lt_zero k)
  | n + 1, hk => by
    have hwf : (stageTyped o size v n m).wf := by
      clear hk
      induction n with
      | zero => exact hm
      | succ n ih => exact Memory.wf_write _ _ ih
    rcases Nat.lt_succ_iff_lt_or_eq.1 hk with hk | rfl
    · rw [stageTyped, Memory.read_write_other _ (by omega)]
      exact read_stageTyped_lt o size v hm hk
    · rw [stageTyped, Memory.read_write_same _ _ hwf, typedByte_eq]

theorem admitsTyped_eq_none {size : Byte} {s : State} :
    admitsTyped size s = none ↔ typedSizeOk size = true ∧ s.i2c.opened = true := by
  cases h : typedSizeOk size <;> simp [admitsTyped, h]

theorem toNat_setWidth_size (size : Byte) : (size.setWidth 16).toNat = size.toNat := by
  rw [BitVec.toNat_setWidth]
  omega

/-- Settles O37: a write from the scratch cells the value has been staged in. -/
theorem typedWriteResult : Obligations.TypedWriteResult := by
  unfold Obligations.TypedWriteResult
  intro s addr reg size r1 r2 r3 data rest bs hbusy hopened hwf hsize hfree hx hlen h1 h2 h3 hdata place
  have hplace : place = typedShift s.cfg.wireOrder size.toNat := rfl
  let m := stageTyped s.cfg.wireOrder size.toNat s.i2c.oprValue size.toNat s.i2c.scratch
  have hbytes {k : Nat} (hk : k < size.toNat) : Memory.read m k = s.i2c.oprValue.extractLsb' (place k) 8 :=
    hplace ▸ read_stageTyped_lt _ _ _ hwf hk
  refine ⟨m, ?_, fun k hk => hbytes hk, fun k hk => read_stageTyped _ _ _ _ hk⟩
  refine (i2cCommand_admitted hbusy (admitsTyped_eq_none.2 ⟨hsize, hopened⟩)).trans ?_
  have hsent : (List.range size.toNat).map (fun k => BusEvent.txb (Memory.read m (0 + k)) .ok) =
      (List.range size.toNat).map (fun k => BusEvent.txb (s.i2c.oprValue.extractLsb' (place k) 8) .ok) := by
    refine List.map_congr_left fun k hk => ?_
    rw [Nat.zero_add, hbytes (List.mem_range.1 hk)]
  rw [writeTyped, writeBuffer_good (s := State.mapI2c _ (begun s)) hfree hx (hlen.trans (toNat_setWidth_size size).symm) h1 h2
    h3 hdata, toNat_setWidth_size, ← hsent]
  simp [i2cReturn, State.mapI2c, Status.word, StClass.code, okStatus, readSpace, effAddr, hbusy, m]

end Sys2Proof.Machine
end

section
/-! SUPPORT. The reads, good and failing, in either buffer space (spec 41_i2c_operations.md R136, R139 to R142, R144; 20_memory.md
R67, R75): the stages of a read one after the other, each with the actions it takes on the bus. -/

namespace Sys2Proof.Machine

/-! ## The two buffer spaces as memories (R75) -/

/-- The memory of a space. -/
def spaceMem (sp : Space) (s : State) : Memory :=
  match sp with
  | .hbuf => s.hbuf
  | .scr => s.i2c.scratch

/-- The state with another memory of a space. -/
def withSpace (sp : Space) (m : Memory) (s : State) : State :=
  match sp with
  | .hbuf => { s with hbuf := m }
  | .scr => s.mapI2c fun d => { d with scratch := m }

/-- The parameters of a block whose host buffer is as large as the space: `SCR` has 2^3 cells. -/
def spaceCfg (c : Config) (sp : Space) : Config :=
  match sp with
  | .hbuf => c
  | .scr => { c with bufaw := 3 }

theorem spaceMem_busKeeps {sp : Space} {s t : State} (h : BusKeeps s t) : spaceMem sp t = spaceMem sp s := by
  cases sp
  · exact h.hbuf
  · exact h.scratch

/-- A read's bytes in `SCR`, which does not wrap as long as they fit. -/
theorem received_scr {buf : Nat} {rest : List Xfer} : ∀ {pre : List BusAction} {good : List Xfer} {n : Nat} {s : State},
    s.xferIn = good ++ rest → good.length = pre.length → buf + (n + good.length) ≤ 8 →
    received .scr buf n pre good s = { s with
      xferIn := rest
      i2c := { s.i2c with
        scratch := storeAll (spaceCfg s.cfg .scr) buf n (good.map (·.data)) s.i2c.scratch
        tRem := s.i2c.tRem - BitVec.ofNat 16 good.length
        trace := s.i2c.trace ++ List.zipWith BusAction.event pre good } }
  | [], [], n, s, hx, _, _ => by
    have hx : s.xferIn = rest := hx
    simp [received, storeAll, ← hx]
  | [], r :: good, _, _, _, hlen, _ => by simp at hlen
  | a :: pre, [], _, _, _, hlen, _ => by simp at hlen
  | a :: pre, r :: good, n, s, hx, hlen, hfits => by
    rw [List.length_cons] at hfits
    rw [received, received_scr (rest := rest) (by simp [countDown, writeSpace_xferIn, hx]) (by simpa using hlen) (by omega)]
    have hcount : s.i2c.tRem - 1#16 - BitVec.ofNat 16 good.length = s.i2c.tRem - BitVec.ofNat 16 (r :: good).length := by
      rw [List.length_cons, Nat.add_comm, BitVec.ofNat_add, sub_sub]
    have hcell : (buf + n) % 8 = buf + n := Nat.mod_eq_of_lt (by omega)
    simp [countDown, writeSpace, storeAll, State.mapI2c, emit, effAddr, spaceCfg, hcount, hcell]

/-- The state after the data bytes of a read with good answers. -/
theorem received_eq {sp : Space} {buf : Nat} {rest : List Xfer} {pre : List BusAction} {good : List Xfer} {s : State}
    (hx : s.xferIn = good ++ rest) (hlen : good.length = pre.length) (hreach : Reachable sp buf good.length) :
    received sp buf 0 pre good s = withSpace sp (storeAll (spaceCfg s.cfg sp) buf 0 (good.map (·.data)) (spaceMem sp s))
      { s with
        xferIn := rest
        i2c := { s.i2c with
          tRem := s.i2c.tRem - BitVec.ofNat 16 good.length
          trace := s.i2c.trace ++ List.zipWith BusAction.event pre good } } := by
  cases sp with
  | hbuf => exact received_hbuf hx hlen
  | scr => exact received_scr hx hlen (by simpa using hreach rfl)

/-! ## A transfer that fails, stage by stage (R140, R141, R142) -/

/-- A transfer whose actions are those of two stages fails in the first, or goes well through it and fails in the second. -/
theorem failsAt_append {A B pre : List BusAction} {a : BusAction} {xfers good : List Xfer} {bad : Xfer} {rest : List Xfer}
    (h : failsAt (A ++ B) pre a xfers good bad rest) :
    failsAt A pre a xfers good bad rest ∨
    ∃ pre' g g', pre = A ++ pre' ∧ good = g ++ g' ∧ g.length = A.length ∧ (∀ p ∈ A.zip g, p.1.outcome p.2 = .ok) ∧
      xfers = g ++ (g' ++ bad :: rest) ∧ failsAt B pre' a (g' ++ bad :: rest) g' bad rest := by
  obtain ⟨⟨post, hacts⟩, hx, hlen, hok, hbad⟩ := h
  have hsplit : (∃ post', A = pre ++ a :: post') ∨ ∃ pre', pre = A ++ pre' ∧ B = pre' ++ a :: post := by
    rcases List.append_eq_append_iff.1 hacts with ⟨pre', hpre, hB⟩ | ⟨c, hA, hc⟩
    · exact .inr ⟨pre', hpre, hB⟩
    · cases c with
      | nil => exact .inr ⟨[], by simpa using hA.symm, by simpa using hc.symm⟩
      | cons b c => exact .inl ⟨c, (List.cons.inj hc).1 ▸ hA⟩
  rcases hsplit with hA | ⟨pre', rfl, hB⟩
  · exact .inl ⟨hA, hx, hlen, hok, hbad⟩
  · right
    have hA : (good.take A.length).length = A.length := by simp [hlen]
    rw [← List.take_append_drop A.length good, List.zip_append hA.symm, List.forall_mem_append] at hok
    refine ⟨pre', good.take A.length, good.drop A.length, rfl, (List.take_append_drop _ _).symm, hA, hok.1, ?_, ⟨post, hB⟩,
      rfl, by simp [hlen], hok.2, hbad⟩
    rw [hx, ← List.append_assoc, List.take_append_drop]

/-- From `s`, after the good actions `pre`, an operation has failed at the action `a` and ended with `r`: the class of that failure,
the number of bytes it has stored in the space `sp` as payload, a stop, the bus idle. -/
structure Aborted (sp : Space) (buf : Nat) (s : State) (pre : List BusAction) (a : BusAction) (good : List Xfer) (bad : Xfer)
    (rest : List Xfer) (bytes : List Byte) (r : Status × State) : Prop where
  status : r.1 = ⟨a.outcome bad, BitVec.ofNat 16 bytes.length⟩
  fsm : r.2.i2c.fsm = .idle
  xferIn : r.2.xferIn = rest
  trace : r.2.i2c.trace = s.i2c.trace ++ List.zipWith BusAction.event pre good ++ [a.event bad, .stop]
  memory : spaceMem sp r.2 = storeAll (spaceCfg s.cfg sp) buf 0 bytes (spaceMem sp s)

section
variable {sp : Space} {buf : Nat} {s u : State} {pre A : List BusAction} {a : BusAction} {good g : List Xfer} {bad : Xfer}
  {rest : List Xfer} {bytes : List Byte} {r : Status × State}

/-- A stage that went well, and then the failure. -/
theorem Aborted.after (h : Aborted sp buf u pre a good bad rest bytes r) (hkeeps : BusKeeps s u)
    (htrace : u.i2c.trace = s.i2c.trace ++ List.zipWith BusAction.event A g) (hlen : g.length = A.length) :
    Aborted sp buf s (A ++ pre) a (g ++ good) bad rest bytes r :=
  ⟨h.status, h.fsm, h.xferIn, by rw [h.trace, htrace, List.zipWith_append hlen.symm]; simp,
    by rw [h.memory, hkeeps.cfg, spaceMem_busKeeps hkeeps]⟩

/-- A primitive that ends in `Error`: the operation aborts there, with nothing stored. -/
theorem aborted_orAbort {n : BitVec 16} {go : Status → State → Status × State} (hbad : a.outcome bad ≠ .ok)
    (hkeeps : BusKeeps s u) (hfsm : u.i2c.fsm = .error) (hx : u.xferIn = rest)
    (htrace : u.i2c.trace = s.i2c.trace ++ List.zipWith BusAction.event pre good ++ [a.event bad]) :
    Aborted sp buf s pre a good bad rest [] (orAbort 0#16 (⟨a.outcome bad, n⟩, u) go) := by
  rw [orAbort_fail hbad, abort_of_error hfsm]
  exact ⟨rfl, rfl, hx, by simp [stop, htrace], spaceMem_busKeeps (hkeeps.trans (busKeeps_stop u))⟩

/-- A stage of one action that fails. -/
theorem failsAt_singleton {b : BusAction} {xfers : List Xfer} (h : failsAt [b] pre a xfers good bad rest) :
    pre = [] ∧ good = [] ∧ a = b ∧ xfers = bad :: rest ∧ a.outcome bad ≠ .ok := by
  obtain ⟨⟨post, hacts⟩, hx, hlen, -, hbad⟩ := h
  obtain rfl : pre = [] := by
    cases pre with
    | nil => rfl
    | cons p pre => simp at hacts
  obtain rfl : good = [] := List.length_eq_zero_iff.1 hlen
  exact ⟨rfl, rfl, (List.cons.inj hacts).1.symm, hx, hbad⟩

/-- The start of a transfer, and then the rest of it, of whose answers the first `k` are not for data bytes (R113). -/
theorem aborted_start {addr : BitVec 7} {rep rw : Bool} {B : List BusAction} {k : Nat} {go : Status → State → Status × State}
    (hrep : rep = repeatedFrom s.i2c.fsm) (hfails : failsAt ([.start rep] ++ ([.address addr rw] ++ B)) pre a s.xferIn good bad rest)
    (hgo : ∀ u pre' good', BusKeeps s u → u.i2c.fsm = .transferringData →
      failsAt B pre' a u.xferIn good' bad rest →
      Aborted sp buf u pre' a good' bad rest ((good'.drop k).map (·.data)) (go (okStatus 0#16) u)) :
    Aborted sp buf s pre a good bad rest ((good.drop (k + 2)).map (·.data)) (orAbort 0#16 (start addr rw s) go) := by
  subst hrep
  rcases failsAt_append hfails with h | ⟨pre, g1, good, rfl, rfl, hg1, hok1, hx, h1⟩
  · obtain ⟨rfl, rfl, rfl, hx, hbad⟩ := failsAt_singleton h
    have hstart := start_bad (addr := addr) (rw := rw) hx hbad
    have hkeeps := hstart ▸ busKeeps_start addr rw s
    rw [hstart]
    exact aborted_orAbort hbad hkeeps rfl rfl (by simp [repeated_eq, BusAction.event])
  obtain ⟨r1, rfl⟩ := List.length_eq_one_iff.1 hg1
  have hr1 : evalCond r1 = .ok := hok1 (.start (repeatedFrom s.i2c.fsm), r1) (by simp)
  rcases failsAt_append h1 with h | ⟨pre, g2, good, rfl, rfl, hg2, hok2, hx2, h⟩
  · obtain ⟨rfl, rfl, rfl, hx2, hbad⟩ := failsAt_singleton h
    have hstart := start_badAddress (addr := addr) (rw := rw) (hx.trans (congrArg _ hx2)) hr1 hbad
    have hkeeps := hstart ▸ busKeeps_start addr rw s
    rw [hstart]
    exact aborted_orAbort hbad hkeeps rfl rfl (by simp [repeated_eq, BusAction.event, hr1, resOf])
  · obtain ⟨r2, rfl⟩ := List.length_eq_one_iff.1 hg2
    have h2 : evalTx r2 = .ok := hok2 (.address addr rw, r2) (by simp)
    have hstart := start_good (addr := addr) (rw := rw) (hx.trans (congrArg _ hx2)) hr1 h2
    have hkeeps := hstart ▸ busKeeps_start addr rw s
    rw [hstart, orAbort_ok rfl]
    exact (hgo _ _ _ hkeeps rfl h).after (A := [.start (repeatedFrom s.i2c.fsm), .address addr rw]) (g := [r1, r2]) hkeeps
      (by simp [repeated_eq, BusAction.event, hr1, h2, resOf]) rfl

theorem sendByte_bad {b : Byte} (h : s.xferIn = bad :: rest) (hbad : evalTx bad ≠ .ok) :
    sendByte b s = (⟨evalTx bad, 0#16⟩, setFsm .error (emit (.txb b (resOf (evalTx bad))) { s with xferIn := rest })) := by
  simp [sendByte, askXfer, h, hbad]

/-- A byte sent, the register byte of a transfer, and then the rest of it (R115). -/
theorem aborted_sendByte {b : Byte} {B : List BusAction} {k : Nat} {go : Status → State → Status × State}
    (hfails : failsAt ([.send b] ++ B) pre a s.xferIn good bad rest) (hfsm : s.i2c.fsm = .transferringData)
    (hgo : ∀ u pre' good', BusKeeps s u → u.i2c.fsm = .transferringData →
      failsAt B pre' a u.xferIn good' bad rest →
      Aborted sp buf u pre' a good' bad rest ((good'.drop k).map (·.data)) (go (okStatus 1#16) u)) :
    Aborted sp buf s pre a good bad rest ((good.drop (k + 1)).map (·.data)) (orAbort 0#16 (sendByte b s) go) := by
  rcases failsAt_append hfails with h | ⟨pre, g, good, rfl, rfl, hg, hok, hx, h⟩
  · obtain ⟨rfl, rfl, rfl, hx, hbad⟩ := failsAt_singleton h
    rw [sendByte_bad hx hbad]
    exact aborted_orAbort hbad ⟨rfl, rfl, rfl, rfl, rfl, rfl⟩ rfl rfl (by simp [BusAction.event])
  · obtain ⟨r, rfl⟩ := List.length_eq_one_iff.1 hg
    have hr : evalTx r = .ok := hok (.send b, r) (by simp)
    have hkeeps : BusKeeps s (emit (.txb b .ok) { s with xferIn := good ++ bad :: rest }) := ⟨rfl, rfl, rfl, rfl, rfl, rfl⟩
    rw [sendByte_good hx hr, orAbort_ok rfl]
    exact (hgo _ _ _ hkeeps hfsm h).after (A := [.send b]) (g := [r]) hkeeps (by simp [BusAction.event, hr, resOf]) rfl

/-- The data bytes of a read: those before the failing one are stored (R144). -/
theorem aborted_receiveLoop {count : Nat} {stopComm : Bool} (hfails : failsAt (receiveActions count) pre a s.xferIn good bad rest)
    (hreach : Reachable sp buf count) :
    Aborted sp buf s pre a good bad rest (good.map (·.data)) (receiveLoop sp buf stopComm count 0 s) := by
  obtain ⟨⟨post, hacts⟩, hx, hlen, hok, hbad⟩ := hfails
  obtain rfl := eq_receive_of_receiveActions hacts
  have hcount : count = pre.length + (BusAction.receive (decide (0 < post.length)) :: post).length := by
    rw [← List.length_append, ← hacts, length_receiveActions]
  have hreach : Reachable sp buf good.length := fun hsp => by
    have := hreach hsp
    simp only [List.length_cons] at hcount
    omega
  rw [hcount] at hacts ⊢
  rw [receiveLoop_received hacts hx hlen hok, received_eq hx hlen hreach, List.length_cons,
    receiveLoop_bad (bad := bad) (rest := rest) (by cases sp <;> rfl) hbad, Nat.zero_add, ← hlen]
  cases sp <;> exact ⟨by simp [BusAction.outcome], rfl, rfl, by simp [stop, withSpace, BusAction.event], rfl⟩

end

/-! ## The read (R136) -/

section
variable {s : State} {sp : Space} {addr : BitVec 7} {reg : Byte} {buf : Nat} {count : BitVec 16} {bs : List Bool}

theorem readBuffer_free (hfree : s.busyIn = true :: bs) :
    readBuffer sp addr reg buf count s =
      selectRegister addr reg (fun _ t => orAbort 0#16 (start addr true t) fun _ t => receiveLoop sp buf true count.toNat 0 t)
        (transferBegun addr reg s.i2c.tDir count bs s) := by
  unfold readBuffer
  rw [waitBusy_clear (s := State.mapI2c _ s) hfree, orAbort_ok rfl]
  rfl

/-- A read that fails at a start, an address byte, the register byte or a data byte. -/
theorem aborted_readBuffer {pre : List BusAction} {a : BusAction} {good : List Xfer} {bad : Xfer} {rest : List Xfer}
    (hfree : s.busyIn = true :: bs) (hreach : Reachable sp buf count.toNat)
    (hfails : failsAt (readActions (repeatedFrom s.i2c.fsm) addr reg count.toNat) pre a s.xferIn good bad rest) :
    Aborted sp buf s pre a good bad rest ((good.drop 5).map (·.data)) (readBuffer sp addr reg buf count s) := by
  have hbegun : BusKeeps s (transferBegun addr reg s.i2c.tDir count bs s) := ⟨rfl, rfl, rfl, rfl, rfl, rfl⟩
  rw [readBuffer_free hfree]
  refine Aborted.after (A := []) (g := []) (aborted_start (k := 3) rfl hfails fun u pre good _ hfsm hfails => ?_) hbegun
    (by simp [transferBegun]) rfl
  refine aborted_sendByte (k := 2) hfails hfsm fun u pre good _ hfsm hfails => ?_
  exact aborted_start (k := 0) (by simp [hfsm]) hfails fun u pre good _ _ hfails => aborted_receiveLoop hfails hreach

/-- The data bytes of a read with good answers, and the stop. -/
theorem receiveLoop_good {data rest : List Xfer} (hx : s.xferIn = data ++ rest) (hdata : ∀ r ∈ data, evalRx r = .ok)
    (hreach : Reachable sp buf data.length) :
    receiveLoop sp buf true data.length 0 s = (okStatus (BitVec.ofNat 16 data.length),
      withSpace sp (storeAll (spaceCfg s.cfg sp) buf 0 (data.map (·.data)) (spaceMem sp s)) { s with
        xferIn := rest
        i2c := { s.i2c with
          fsm := .idle, tRem := s.i2c.tRem - BitVec.ofNat 16 data.length
          trace := s.i2c.trace ++ data.zipIdx.map (fun p => .rxb p.1.data (decide (p.2 + 1 < data.length)) .ok) ++
            [.stop] } }) := by
  have hlen : data.length = (receiveActions data.length).length := (length_receiveActions _).symm
  have hok : ∀ p ∈ (receiveActions data.length).zip data, p.1.outcome p.2 = .ok := by
    rintro ⟨a, r⟩ hp
    obtain ⟨ha, hr⟩ := List.of_mem_zip hp
    rw [outcome_of_mem_receiveActions ha]
    exact hdata r hr
  have hloop := receiveLoop_received (sp := sp) (buf := buf) (stopComm := true) (post := []) (n := 0)
    (by rw [← hlen]; simp) hx hlen hok
  rw [received_eq hx hlen hreach, zipWith_receiveActions hdata, ← hlen] at hloop
  refine hloop.trans ?_
  cases sp <;> simp [receiveLoop, withSpace, stop, setFsm, emit, State.mapI2c]

theorem readBuffer_good {r1 r2 r3 r4 r5 : Xfer} {data rest : List Xfer} (hfree : s.busyIn = true :: bs)
    (hx : s.xferIn = r1 :: r2 :: r3 :: r4 :: r5 :: (data ++ rest)) (hlen : data.length = count.toNat)
    (h1 : evalCond r1 = .ok) (h2 : evalTx r2 = .ok) (h3 : evalTx r3 = .ok) (h4 : evalCond r4 = .ok) (h5 : evalTx r5 = .ok)
    (hdata : ∀ r ∈ data, evalRx r = .ok) (hreach : Reachable sp buf count.toNat) :
    readBuffer sp addr reg buf count s = (okStatus count,
      withSpace sp (storeAll (spaceCfg s.cfg sp) buf 0 (data.map (·.data)) (spaceMem sp s)) { s with
        busyIn := bs
        xferIn := rest
        i2c := { s.i2c with
          fsm := .idle, tAddr := addr, tReg := reg, tDir := true, tRem := 0#16
          trace := s.i2c.trace ++
            [.start (repeatedFrom s.i2c.fsm) .ok, .txa addr false .ok, .txb reg .ok, .start true .ok, .txa addr true .ok] ++
            data.zipIdx.map (fun p => .rxb p.1.data (decide (p.2 + 1 < data.length)) .ok) ++ [.stop] } }) := by
  have hselected : BusKeeps s (registerSelected addr reg count bs (r4 :: r5 :: (data ++ rest)) s) :=
    ⟨rfl, rfl, rfl, rfl, rfl, rfl⟩
  rw [readBuffer_free hfree, selectRegister_good hx h1 h2 h3, start_good (rest := data ++ rest) rfl h4 h5, orAbort_ok rfl,
    ← hlen, receiveLoop_good (rest := rest) rfl hdata (hlen ▸ hreach)]
  cases sp <;> simp [registerSelected, withSpace, spaceMem, State.mapI2c, repeated_eq, hlen]

end

/-! ## The command -/

/-- The command that has failed as `Aborted` says returns as the spec asks (R140, R141, R142). -/
theorem Aborted.stoppedAt {sp : Space} {buf : Nat} {s : State} {pre : List BusAction} {a : BusAction} {good : List Xfer}
    {bad : Xfer} {rest : List Xfer} {data : List Xfer} {r : Status × State}
    (h : Aborted sp buf (begun s) pre a good bad rest (data.map (·.data)) r) (hcfg : r.2.cfg = s.cfg) :
    stoppedAt s (i2cReturn r.1 r.2) pre a good bad rest data.length := by
  refine ⟨?_, h.fsm, rfl, h.xferIn, h.trace⟩
  rw [i2cReturn_i2c, h.status, hcfg, Status.word, List.length_map]

/-- Settles O35: the register select, the repeated start and the data bytes, each stored at its address; the first failure, if any,
ends it. -/
theorem readResult : Obligations.ReadResult := by
  unfold Obligations.ReadResult
  refine ⟨fun s addr reg r1 r2 r3 r4 r5 data rest bs hbusy hopened hfree hwf hx hlen hfits h1 h2 h3 h4 h5 hdata => ?_,
    fun s addr reg pre a good bad rest bs hbusy hopened hfree hwf hfails => ?_⟩
  · obtain ⟨hstored, hother⟩ := read_storeAll_xfers s.cfg s.i2c.oprBuf data hwf
    refine ⟨storeAll s.cfg s.i2c.oprBuf 0 (data.map (·.data)) s.hbuf, ?_, hstored hfits, hother⟩
    refine (i2cCommand_admitted hbusy (needsI2cOpen_eq_none.2 hopened)).trans ?_
    rw [readBuffer_good (sp := .hbuf) (s := begun s) hfree hx hlen h1 h2 h3 h4 h5 hdata nofun]
    simp [i2cReturn, State.mapI2c, Status.word, StClass.code, okStatus, withSpace, spaceMem, spaceCfg, hbusy]
  · intro data
    obtain ⟨hstored, hother⟩ := read_storeAll_xfers s.cfg s.i2c.oprBuf data hwf
    have h := aborted_readBuffer (sp := .hbuf) (s := begun s) (buf := s.i2c.oprBuf) hfree nofun hfails
    have hcfg := (keeps_readBuffer .hbuf addr reg s.i2c.oprBuf s.i2c.oprCount (begun s)).cfg
    exact ⟨_, i2cCommand_admitted hbusy (needsI2cOpen_eq_none.2 hopened), h.stoppedAt hcfg,
      fun hfits k hk => (congrArg (Memory.read · _) h.memory).trans (hstored hfits k hk),
      fun a ha => (congrArg (Memory.read · _) h.memory).trans (hother a ha)⟩

end Sys2Proof.Machine
end

section
/-! SUPPORT. `read<T>`, good and failing (spec 41_i2c_operations.md R139 to R142; 20_memory.md R62, R75): the decoding of a value
from its bytes, bit by bit. -/

namespace Sys2Proof.Machine

/-! ## The decoded value (R62) -/

/-- Two bytes of a value have no bit in common. -/
theorem typedShift_apart (o : WireOrder) {size k n j : Nat} (hk : k < size) (hn : n < size) (hne : k ≠ n) (hj : j < 8) :
    typedShift o size k + j < typedShift o size n ∨ typedShift o size n + 8 ≤ typedShift o size k + j := by
  cases o <;> simp only [typedShift] <;> omega

theorem typedShift_add_eight_le (o : WireOrder) {size k : Nat} (hk : k < size) : typedShift o size k + 8 ≤ 8 * size := by
  cases o <;> simp only [typedShift] <;> omega

/-- The bits a byte `b` contributes when it is shifted to its place. -/
theorem getLsbD_shifted_byte (b : Byte) (place i : Nat) :
    (b.setWidth 64 <<< place).getLsbD i = (decide (i < 64 ∧ place ≤ i) && b.getLsbD (i - place)) := by
  by_cases h : i < 64 <;> by_cases hp : place ≤ i <;> simp [h, hp]

section
variable {o : WireOrder} {size : Nat} {m : Memory}

/-- Bit `j` of byte `k` of the decoded value is that of cell `k`, once that cell has been taken in. -/
theorem getLsbD_gatherTyped (hsize : size ≤ 8) {k j : Nat} (hk : k < size) (hj : j < 8) :
    ∀ {n : Nat}, n ≤ size → (gatherTyped o size m n).getLsbD (typedShift o size k + j) =
      (decide (k < n) && (Memory.read m k).getLsbD j)
  | 0, _ => by simp [gatherTyped]
  | n + 1, hn => by
    rw [gatherTyped, BitVec.getLsbD_or, getLsbD_gatherTyped hsize hk hj (by omega), getLsbD_shifted_byte]
    have htop := typedShift_add_eight_le o hk
    by_cases hkn : k = n
    · subst hkn
      have hlt : typedShift o size k + j < 64 := by omega
      simp [hlt]
    · have hlt : k < n + 1 ↔ k < n := by omega
      rcases typedShift_apart o hk hn hkn hj with hbelow | habove
      · have hplace : ¬ typedShift o size n ≤ typedShift o size k + j := by omega
        simp [hplace, hlt]
      · have hbit : (Memory.read m n).getLsbD (typedShift o size k + j - typedShift o size n) = false :=
          BitVec.getLsbD_of_ge _ _ (by omega)
        simp [hbit, hlt]

/-- The upper bits of the decoded value are 0. -/
theorem getLsbD_gatherTyped_of_ge {i : Nat} (hi : 8 * size ≤ i) :
    ∀ {n : Nat}, n ≤ size → (gatherTyped o size m n).getLsbD i = false
  | 0, _ => by simp [gatherTyped]
  | n + 1, hn => by
    have htop := typedShift_add_eight_le o hn
    have hbit : (Memory.read m n).getLsbD (i - typedShift o size n) = false := BitVec.getLsbD_of_ge _ _ (by omega)
    rw [gatherTyped, BitVec.getLsbD_or, getLsbD_gatherTyped_of_ge hi (by omega), getLsbD_shifted_byte, hbit]
    simp

theorem extractLsb'_gatherTyped (hsize : size ≤ 8) {k : Nat} (hk : k < size) :
    (gatherTyped o size m size).extractLsb' (typedShift o size k) 8 = Memory.read m k := by
  apply BitVec.eq_of_getLsbD_eq
  intro j hj
  rw [BitVec.getLsbD_extractLsb', getLsbD_gatherTyped hsize hk hj le_rfl]
  simp [hj, hk]

theorem gatherTyped_lt : (gatherTyped o size m size).toNat < 2 ^ (8 * size) :=
  Nat.lt_pow_two_of_testBit _ fun _ hi => getLsbD_gatherTyped_of_ge hi le_rfl

end

/-! ## The typed read (R139) -/

/-- The cells of a typed read: the received bytes from cell 0 on, and every other cell as it was. -/
theorem read_storeAll_scr (c : Config) (data : List Xfer) {m : Memory} (hm : m.wf) (hfits : data.length ≤ 8) :
    (∀ k (h : k < data.length),
      Memory.read (storeAll (spaceCfg c .scr) 0 0 (data.map (·.data)) m) k = (data[k]).data) ∧
    (∀ k, data.length ≤ k →
      Memory.read (storeAll (spaceCfg c .scr) 0 0 (data.map (·.data)) m) k = Memory.read m k) := by
  have hcell {k : Nat} (hk : k < data.length) : (0 + k) % 2 ^ (spaceCfg c .scr).bufaw = k := by
    rw [Nat.zero_add]
    exact Nat.mod_eq_of_lt (show k < 8 by omega)
  obtain ⟨hstored, hother⟩ := read_storeAll_xfers (spaceCfg c .scr) 0 data hm
  refine ⟨fun k hk => ?_, fun k hk => hother k fun i hi => ?_⟩
  · rw [← hstored hfits k hk, hcell hk]
  · rw [hcell hi]
    omega

theorem failsAt_length_lt {actions pre : List BusAction} {a : BusAction} {xfers good : List Xfer} {bad : Xfer}
    {rest : List Xfer} (h : failsAt actions pre a xfers good bad rest) : good.length < actions.length := by
  obtain ⟨⟨post, rfl⟩, -, hlen, -⟩ := h
  simp [hlen]

/-- Settles O38: a read into the scratch cells, whose bytes are then decoded unless it has failed. -/
theorem typedReadResult : Obligations.TypedReadResult := by
  unfold Obligations.TypedReadResult
  refine ⟨fun s addr reg size r1 r2 r3 r4 r5 data rest bs hbusy hopened hwf hsize hfree hx hlen h1 h2 h3 h4 h5 hdata => ?_,
    fun s addr reg size pre a good bad rest bs hbusy hopened hwf hsize hfree hfails => ?_⟩
  · have hadmit := admitsTyped_eq_none.2 ⟨hsize, hopened⟩
    have hle := le_eight_of_admitsTyped hadmit
    have hreach : Reachable .scr 0 (size.setWidth 16).toNat := fun _ => by rw [toNat_setWidth_size]; omega
    obtain ⟨hstored, hother⟩ := read_storeAll_scr s.cfg data hwf (hlen ▸ hle)
    have hread := readBuffer_good (sp := .scr) (reg := reg) (buf := 0) (addr := addr) (s := begun s) hfree hx
      (hlen.trans (toNat_setWidth_size size).symm) h1 h2 h3 h4 h5 hdata hreach
    have hexec : exec (.i2cReadt addr reg size) s = _ := i2cCommand_admitted hbusy hadmit
    simp only [readTyped, hread] at hexec
    refine ⟨_, hexec, rfl, rfl, rfl, fun k hk => ⟨hstored k hk, ?_⟩, gatherTyped_lt, fun k hk => hother k (hlen ▸ hk), rfl⟩
    exact (extractLsb'_gatherTyped hle (hlen ▸ hk)).trans (hstored k hk)
  · intro data
    have hadmit := admitsTyped_eq_none.2 ⟨hsize, hopened⟩
    have hle := le_eight_of_admitsTyped hadmit
    have hreach : Reachable .scr 0 (size.setWidth 16).toNat := fun _ => by rw [toNat_setWidth_size]; omega
    have hlen : data.length ≤ 8 := by
      have := failsAt_length_lt hfails
      simp only [readActions, List.length_append, length_receiveActions, List.length_cons, List.length_nil] at this
      simp only [data, List.length_drop]
      omega
    obtain ⟨hstored, hother⟩ := read_storeAll_scr s.cfg data hwf hlen
    rw [← toNat_setWidth_size] at hfails
    have h := aborted_readBuffer (sp := .scr) (s := begun s) hfree hreach hfails
    obtain ⟨_, -, -, -, hstores⟩ := storedCount_readBuffer .scr addr reg 0 (size.setWidth 16) (begun s)
    obtain ⟨v, n, htyped⟩ := typedResult_eq size (readBuffer .scr addr reg 0 (size.setWidth 16) (begun s)).1
      (readBuffer .scr addr reg 0 (size.setWidth 16) (begun s)).2
    have hend : Aborted .scr 0 (begun s) pre a good bad rest (data.map (·.data)) (readTyped addr reg size (begun s)) := by
      simp only [readTyped, htyped]
      exact ⟨h.status, h.fsm, h.xferIn, h.trace, h.memory⟩
    have hhbuf : (readTyped addr reg size (begun s)).2.hbuf = s.hbuf := by
      simp only [readTyped, htyped]
      exact hstores.hbuf rfl
    exact ⟨_, i2cCommand_admitted hbusy hadmit, hend.stoppedAt (keeps_readTyped addr reg size (begun s)).cfg, hhbuf,
      fun k hk => (congrArg (Memory.read · k) hend.memory).trans (hstored k hk),
      fun k hk => (congrArg (Memory.read · k) hend.memory).trans (hother k hk)⟩

end Sys2Proof.Machine
end

section
/-! SUPPORT. Bytes queued in a ring (spec 42_uart_ring_and_handlers.md R160 to R163): what a push does to the indices, to the slots
and to the bytes queued. -/

namespace Sys2Proof.Machine

/-- A byte written to the slot at the head, and the head advanced (R162). -/
def Ring.push (n : Nat) (b : Byte) (r : Ring) : Ring :=
  { r with buf := Memory.write r.buf r.head b, head := ringNext n r.head }

/-- Bytes pushed one after the other. -/
def Ring.pushAll (n : Nat) : List Byte → Ring → Ring
  | [], r => r
  | b :: bytes, r => Ring.pushAll n bytes (r.push n b)

/-- The ring's indices lie below its capacity `n`, and `m` more bytes find room (R161). -/
structure Ring.HasRoom (n m : Nat) (r : Ring) : Prop where
  head : r.head < n
  tail : r.tail < n
  room : ringCount n r.head r.tail + m < n

/-- The head lies as many slots past the tail as bytes are queued (R160). -/
theorem tail_add_ringCount {n head tail : Nat} (hh : head < n) (ht : tail < n) : (tail + ringCount n head tail) % n = head := by
  rw [ringCount_eq hh ht]
  split
  · rw [Nat.add_sub_cancel' ‹_›, Nat.mod_eq_of_lt hh]
  · rw [show tail + (n + head - tail) = head + n by omega, Nat.add_mod_right, Nat.mod_eq_of_lt hh]

section
variable {n m : Nat} {r : Ring} {b : Byte}

theorem Ring.HasRoom.next_ne (h : r.HasRoom n (m + 1)) : ringNext n r.head ≠ r.tail := by
  obtain ⟨hh, ht, hroom⟩ := h
  rw [ringCount_eq hh ht] at hroom
  rw [ringNext_eq hh]
  split at hroom <;> split <;> omega

theorem ringCount_push (h : r.HasRoom n (m + 1)) :
    ringCount n (r.push n b).head r.tail = ringCount n r.head r.tail + 1 := by
  obtain ⟨hh, ht, hroom⟩ := h
  have hn : ringNext n r.head < n := ringNext_lt (by omega)
  change ringCount n (ringNext n r.head) r.tail = _
  rw [ringCount_eq hh ht] at hroom ⊢
  rw [ringCount_eq hn ht, ringNext_eq hh]
  split at hroom <;> split <;> split <;> omega

theorem Ring.HasRoom.push (h : r.HasRoom n (m + 1)) : (r.push n b).HasRoom n m := by
  refine ⟨ringNext_lt (Nat.zero_lt_of_lt h.head), h.tail, ?_⟩
  have hroom := h.room
  change ringCount n (r.push n b).head r.tail + m < n
  rw [ringCount_push h]
  omega

/-- The byte is the newest of those queued (R163). -/
theorem bytes_push (h : r.HasRoom n (m + 1)) (hwf : r.buf.wf) : (r.push n b).bytes n = r.bytes n ++ [b] := by
  have hcount := ringCount_push (b := b) h
  obtain ⟨hh, ht, hroom⟩ := h
  have hhead := tail_add_ringCount hh ht
  change (List.range (ringCount n (r.push n b).head r.tail)).map
    (fun k => Memory.read (Memory.write r.buf r.head b) ((r.tail + k) % n)) = _
  rw [hcount, List.range_succ, List.map_append, List.map_singleton, hhead, Memory.read_write_same _ _ hwf]
  congr 1
  refine List.map_congr_left fun k hk => Memory.read_write_other b ?_
  rw [List.mem_range] at hk
  rw [← hhead]
  exact offset_ne hk (by omega)

end

section
variable {n : Nat}

@[simp] theorem pushAll_tail : ∀ (bytes : List Byte) (r : Ring), (r.pushAll n bytes).tail = r.tail
  | [], _ => rfl
  | b :: bytes, r => pushAll_tail bytes (r.push n b)

theorem pushAll_head : ∀ {bytes : List Byte} {r : Ring}, r.head < n →
    (r.pushAll n bytes).head = (r.head + bytes.length) % n
  | [], _, h => (Nat.mod_eq_of_lt h).symm
  | b :: bytes, r, h => by
    rw [Ring.pushAll, pushAll_head (ringNext_lt (Nat.zero_lt_of_lt h))]
    change ((r.head + 1) % n + bytes.length) % n = _
    rw [Nat.mod_add_mod, List.length_cons, Nat.add_assoc, Nat.add_comm 1]

theorem pushAll_concat (b : Byte) : ∀ (bytes : List Byte) (r : Ring),
    r.pushAll n (bytes ++ [b]) = (r.pushAll n bytes).push n b
  | [], _ => rfl
  | c :: bytes, r => pushAll_concat b bytes (r.push n c)

/-- Bytes that find room leave the rest of it. -/
theorem Ring.HasRoom.pushAll {m : Nat} : ∀ {bytes : List Byte} {r : Ring}, r.HasRoom n (m + bytes.length) →
    (r.pushAll n bytes).HasRoom n m
  | [], _, h => h
  | b :: _, r, h => Ring.HasRoom.pushAll (r := r.push n b) h.push

/-- Bytes that find room are queued in order behind those queued (R163). -/
theorem bytes_pushAll : ∀ {bytes : List Byte} {r : Ring}, r.HasRoom n bytes.length → r.buf.wf →
    (r.pushAll n bytes).bytes n = r.bytes n ++ bytes
  | [], _, _, _ => (List.append_nil _).symm
  | b :: bytes, r, h, hwf => by
    rw [Ring.pushAll, bytes_pushAll h.push (Memory.wf_write _ _ hwf), bytes_push h hwf, List.append_assoc]
    rfl

/-- A slot none of the bytes goes to is as it was. -/
theorem read_pushAll_other {a : Nat} : ∀ {bytes : List Byte} {r : Ring}, r.head < n →
    (∀ k < bytes.length, a ≠ (r.head + k) % n) → Memory.read (r.pushAll n bytes).buf a = Memory.read r.buf a
  | [], _, _, _ => rfl
  | b :: bytes, r, h, ha => by
    have hfirst : a ≠ r.head := by simpa [Nat.mod_eq_of_lt h] using ha 0 (by simp)
    rw [Ring.pushAll, read_pushAll_other (ringNext_lt (Nat.zero_lt_of_lt h)) fun k hk => ?_]
    · exact Memory.read_write_other b hfirst
    · change a ≠ ((r.head + 1) % n + k) % n
      rw [Nat.mod_add_mod, Nat.add_assoc, Nat.add_comm 1]
      exact ha (k + 1) (by simpa using hk)

end

end Sys2Proof.Machine
end

section
/-! SUPPORT. The buffer and the string `send` with room for all their bytes, line by line (spec 43_uart_operations.md R187, R188,
R189). -/

namespace Sys2Proof.Machine

/-! ## Lines run together (R10, R45) -/

theorem runLines_goto (n : Nat) (l : Line) (j : Job) (s : State) :
    runLines (n + 1) (goto l j s) = andThen (lineStep { j with line := l } (goto l j s)) (runLines n) :=
  runLines_some rfl n

/-- Only the last line an operation has gone on to counts. -/
@[simp] theorem goto_goto (l m : Line) (j k : Job) (s : State) : goto l j (goto m k s) = goto l j s := rfl

@[simp] theorem andThen_proceed (l : Line) (j : Job) (s : State) (f : State → Out) :
    andThen (proceed l j s) f = f (goto l j s) := rfl

@[simp] theorem andThen_finish (st : Status) (s : State) (f : State → Out) :
    andThen (finish st s) f = f (uartReturn st s) := rfl

@[simp] theorem uartReturn_goto (st : Status) (l : Line) (j : Job) (s : State) :
    uartReturn st (goto l j s) = uartReturn st s := rfl

/-- Once the operation has returned no line is left. -/
theorem runLines_uartReturn (n : Nat) (st : Status) (s : State) : runLines n (uartReturn st s) = .next (uartReturn st s) :=
  runLines_none rfl n

/-! ## One byte (R187) -/

/-- The state after the bytes have been queued for transmission. -/
def queueTx (bytes : List Byte) (s : State) : State :=
  s.mapUart fun u =>
    { u with
      tx := u.tx.pushAll s.cfg.nTx bytes, ctrl := { u.ctrl with txeIe := u.ctrl.txeIe || decide (0 < bytes.length) } }

theorem queueTx_nil (s : State) : queueTx [] s = s := by
  simp [queueTx, State.mapUart, Ring.pushAll]

theorem queueTx_concat (b : Byte) (bytes : List Byte) (s : State) :
    queueTx (bytes ++ [b]) s = queueTx [b] (queueTx bytes s) := by
  simp [queueTx, State.mapUart, pushAll_concat, Ring.pushAll]

/-- The job of a single-byte `send` at its last line. -/
def sendDone (j : Job) (s : State) : Job :=
  { j with waited := 0, nx := ringNext s.cfg.nTx s.uart.tx.head, line := .send9 }

theorem sendDrains_line (j : Job) (l : Line) (n w : Nat) : sendDrains { j with line := l, nx := n, waited := w } = sendDrains j := rfl

/-- A single-byte `send` with room that does not drain: eight lines to its return. -/
theorem runLines_send {s : State} {j : Job} (hroom : s.uart.tx.HasRoom s.cfg.nTx 1) (hdrain : sendDrains j = false) (k : Nat) :
    runLines (k + 8) (goto .send1 j s) =
      andThen (sendReturn (okStatus 1#16) (sendDone j s) (goto .send9 (sendDone j s) (queueTx [j.byte] s))) (runLines k) := by
  have hne := hroom.next_ne
  have hlt := hroom.head
  simp [runLines_goto, lineStep, proceed, change, sendStore, hne, slotWrite_eq hlt, hdrain, sendDrains_line]
  simp [sendDone, queueTx, State.mapUart, atomically, setTxeIe, goto, Ring.pushAll, Ring.push]

/-! ## The loop of a buffer or string `send` (R188, R189) -/

/-- Byte `k` of the buffer at `OPR_BUF` of the UART (R67). -/
def uartByte (s : State) (k : Nat) : Byte := Memory.read s.hbuf ((s.uart.oprBuf + k) % 2 ^ s.cfg.bufaw)

/-- The job of the operation `op`, issued in `s`, whose loop counter is at `i`. -/
structure LoopAt (op : UOp) (s : State) (i : Nat) (j : Job) : Prop where
  op_eq : j.op = op
  buf_eq : j.buf = s.uart.oprBuf
  count_eq : j.count = s.uart.oprCount
  i_eq : j.i = i

/-- The state `u` is `s` but for bytes queued: there is room for one more, and the buffer is as it was. -/
structure SendsFrom (s u : State) : Prop where
  cfg : u.cfg = s.cfg
  hbuf : u.hbuf = s.hbuf
  room : u.uart.tx.HasRoom u.cfg.nTx 1

theorem bufferByte_eq {op : UOp} {s u : State} {i : Nat} {j : Job} (hj : LoopAt op s i j) (hcfg : u.cfg = s.cfg)
    (hhbuf : u.hbuf = s.hbuf) : bufferByte j u = uartByte s i := by
  simp only [bufferByte, uartByte, effAddr, hbufSize, hcfg, hhbuf, hj.buf_eq, hj.i_eq]

/-- The job of a loop whose body has sent the byte `b`. -/
def sentByte (b : Byte) (j : Job) (u : State) : Job :=
  { sendDone { j with byte := b } u with ret := okStatus 1#16, i := j.i + 1 }

theorem LoopAt.sentByte {op : UOp} {s : State} {i : Nat} {j : Job} (h : LoopAt op s i j) (b : Byte) (u : State) :
    LoopAt op s (i + 1) (sentByte b j u) :=
  ⟨h.op_eq, h.buf_eq, h.count_eq, congrArg (· + 1) h.i_eq⟩

/-- A loop whose body takes `c` lines from the line `l` to send one byte sends the first bytes of the buffer, as long as there is
room for them. -/
theorem runLines_sendLoop {op : UOp} {l : Line} {c n : Nat} {s : State} {j : Job}
    (body : ∀ i < n, ∀ j u, LoopAt op s i j → SendsFrom s u → ∀ k,
      runLines (k + c) (goto l j u) = runLines k (goto l (sentByte (uartByte s i) j u) (queueTx [uartByte s i] u)))
    (hroom : s.uart.tx.HasRoom s.cfg.nTx n) (hj : LoopAt op s 0 j) :
    ∀ m ≤ n, ∃ j', LoopAt op s m j' ∧
      ∀ k, runLines (k + c * m) (goto l j s) = runLines k (goto l j' (queueTx ((List.range m).map (uartByte s)) s))
  | 0, _ => ⟨j, hj, fun k => by rw [List.range_zero, List.map_nil, queueTx_nil]; rfl⟩
  | m + 1, hm => by
    obtain ⟨j', hj', hrun⟩ := runLines_sendLoop body hroom hj m (by omega)
    have hmore : s.uart.tx.HasRoom s.cfg.nTx (1 + ((List.range m).map (uartByte s)).length) := by
      refine ⟨hroom.head, hroom.tail, ?_⟩
      have := hroom.room
      simp only [List.length_map, List.length_range]
      omega
    have hu : SendsFrom s (queueTx ((List.range m).map (uartByte s)) s) := ⟨rfl, rfl, hmore.pushAll⟩
    refine ⟨_, hj'.sentByte (uartByte s m) (queueTx ((List.range m).map (uartByte s)) s), fun k => ?_⟩
    rw [Nat.mul_succ, Nat.add_comm (c * m), ← Nat.add_assoc, hrun, body m hm j' _ hj' hu, List.range_succ, List.map_append,
      List.map_singleton, queueTx_concat]

theorem sendReturn_sendBuf {drain : Bool} {st : Status} {j : Job} {s : State} (hop : j.op = .sendBuf drain) :
    sendReturn st j s = proceed .sendBuf5 { j with ret := st } s := by
  simp only [sendReturn, hop]

theorem sendReturn_sendStr {drain : Bool} {st : Status} {j : Job} {s : State} (hop : j.op = .sendStr drain) :
    sendReturn st j s = proceed .sendStr6 { j with ret := st } s := by
  simp only [sendReturn, hop]

/-- After a byte that has been queued the loop of R188 goes on (R188 lines 5 and 6). -/
theorem runLines_sendBuf_next {j : Job} {u : State} (hret : j.ret.cls = .ok) (k : Nat) :
    runLines (k + 2) (goto .sendBuf5 j u) = runLines k (goto .sendBuf2 { j with i := j.i + 1 } u) := by
  simp only [runLines_goto, lineStep, if_pos hret, andThen_proceed, goto_goto]
  exact congrArg (runLines k) rfl

/-- The body of the loop of R188: thirteen lines. -/
theorem runLines_sendBuf_body {drain : Bool} {s u : State} {i : Nat} {j : Job} (hi : i < s.uart.oprCount.toNat)
    (hj : LoopAt (.sendBuf drain) s i j) (hu : SendsFrom s u) (k : Nat) :
    runLines (k + 13) (goto .sendBuf2 j u) =
      runLines k (goto .sendBuf2 (sentByte (uartByte s i) j u) (queueTx [uartByte s i] u)) := by
  have hmore : j.i < j.count.toNat := by rw [hj.i_eq, hj.count_eq]; exact hi
  have hload (k : Nat) : runLines (k + 3) (goto .sendBuf2 j u) = runLines k (goto .send1 { j with byte := uartByte s i } u) := by
    rw [← bufferByte_eq hj hu.cfg hu.hbuf]
    simp only [runLines_goto, lineStep, if_pos hmore, andThen_proceed, goto_goto]
    exact congrArg (runLines k) rfl
  have hop : (sendDone { j with byte := uartByte s i } u).op = .sendBuf drain := hj.op_eq
  rw [hload (k + 10), runLines_send hu.room (by simp [sendDrains, hj.op_eq]), sendReturn_sendBuf hop, andThen_proceed,
    goto_goto, runLines_sendBuf_next rfl]
  rfl

/-! ## The commands -/

/-- The job of an operation that has set its loop counter to 0. -/
theorem loopAt_issue (op : UOp) (l : Line) (b : Byte) (s : State) : LoopAt op (issue op b s) 0 (jobAt op l b s.uart) :=
  ⟨rfl, rfl, rfl, rfl⟩

theorem uartByte_issue (op : UOp) (b : Byte) (s : State) : uartByte (issue op b s) = uartByte s := rfl

theorem loopAt_of_issue {op k : UOp} {b : Byte} {s : State} {i : Nat} {j : Job} (h : LoopAt op (issue k b s) i j) :
    LoopAt op s i j :=
  ⟨h.op_eq, h.buf_eq, h.count_eq, h.i_eq⟩

/-- The lines of R188 from issue to the end of the loop. -/
theorem runLines_issue_sendBuf {drain : Bool} {s : State} (hroom : s.uart.tx.HasRoom s.cfg.nTx s.uart.oprCount.toNat) :
    ∃ j, LoopAt (.sendBuf drain) s s.uart.oprCount.toNat j ∧
      ∀ k, runLines (k + (13 * s.uart.oprCount.toNat + 2)) (issue (.sendBuf drain) 0#8 s) =
        runLines k (goto .sendBuf7 j
          (queueTx ((List.range s.uart.oprCount.toNat).map (uartByte s)) (issue (.sendBuf drain) 0#8 s))) := by
  obtain ⟨j, hj, hloop⟩ := runLines_sendLoop (s := issue (.sendBuf drain) 0#8 s)
    (fun i hi j u hj hu k => runLines_sendBuf_body hi hj hu k) hroom (loopAt_issue (.sendBuf drain) .sendBuf1 0#8 s) _ le_rfl
  have hend : ¬ j.i < j.count.toNat := by rw [hj.i_eq, hj.count_eq]; exact lt_irrefl _
  refine ⟨j, loopAt_of_issue hj, fun k => ?_⟩
  have hfirst (n : Nat) : runLines (n + 1) (issue (.sendBuf drain) 0#8 s) =
      runLines n (goto .sendBuf2 (jobAt (.sendBuf drain) .sendBuf1 0#8 s.uart) (issue (.sendBuf drain) 0#8 s)) := rfl
  rw [show k + (13 * s.uart.oprCount.toNat + 2) = k + 1 + 13 * s.uart.oprCount.toNat + 1 by omega, hfirst]
  refine (hloop (k + 1)).trans ?_
  rw [runLines_goto]
  simp only [lineStep, if_neg hend, andThen_proceed, goto_goto]
  exact congrArg (runLines k) rfl

/-- After its last byte the operation returns, or goes on to the drain loop (R188 lines 7 and 8). -/
theorem runLines_sendBuf7 {drain : Bool} {j : Job} {u : State} (hop : j.op = .sendBuf drain) :
    (drain = false → ∀ k, runLines (k + 2) (goto .sendBuf7 j u) = .next (uartReturn (okStatus (BitVec.ofNat 16 j.i)) u)) ∧
    (drain = true → runLines 1 (goto .sendBuf7 j u) = .next (goto .flushOut1 j u)) := by
  refine ⟨?_, ?_⟩ <;> rintro rfl <;>
    simp [runLines_goto (n := 0), runLines_goto, lineStep, bufferDrains, hop, runLines_uartReturn]
  rw [← hop]
  rfl

/-- The state in which a `send` form that has queued `bytes` returns. -/
theorem uartReturn_queueTx {op : UOp} {b : Byte} {bytes : List Byte} {st : Status} {s : State} (hbusy : s.uart.busy = false) :
    uartReturn st (queueTx bytes (issue op b s)) = { s with
      uart := { s.uart with
        tx := s.uart.tx.pushAll s.cfg.nTx bytes
        ctrl := { s.uart.ctrl with txeIe := s.uart.ctrl.txeIe || decide (0 < bytes.length) }
        resStatus := st.word s.cfg, job := none } } := by
  simp [uartReturn, queueTx, issue, State.mapUart, hbusy]

/-- The state in which one that has queued `bytes` goes on at the line `l`. -/
theorem goto_queueTx {op : UOp} {b : Byte} {bytes : List Byte} {l : Line} {j : Job} {s : State} :
    goto l j (queueTx bytes (issue op b s)) = { s with
      uart := { s.uart with
        tx := s.uart.tx.pushAll s.cfg.nTx bytes
        ctrl := { s.uart.ctrl with txeIe := s.uart.ctrl.txeIe || decide (0 < bytes.length) }
        busy := true, job := some { j with line := l } } } := by
  simp [goto, queueTx, issue, State.mapUart]

/-- The ring a `send` form leaves that has found room for `n` bytes. -/
theorem queued_ring {s : State} {n : Nat} (hinv : RingInv s) (hmem : MemInv s)
    (hroom : ringCount s.cfg.nTx s.uart.tx.head s.uart.tx.tail + n < s.cfg.nTx) :
    s.uart.tx.HasRoom s.cfg.nTx n ∧
    let ring := s.uart.tx.pushAll s.cfg.nTx ((List.range n).map (uartByte s))
    ring.tail = s.uart.tx.tail ∧ ring.head = (s.uart.tx.head + n) % s.cfg.nTx ∧
      ring.bytes s.cfg.nTx = s.uart.tx.bytes s.cfg.nTx ++ (List.range n).map (uartByte s) ∧
      (∀ a, (∀ k < n, a ≠ (s.uart.tx.head + k) % s.cfg.nTx) → Memory.read ring.buf a = Memory.read s.uart.tx.buf a) := by
  obtain ⟨⟨-, -, -, hhead, htail⟩, -⟩ := ringInv_iff.1 hinv
  have h : s.uart.tx.HasRoom s.cfg.nTx n := ⟨hhead, htail, hroom⟩
  have hlen : ((List.range n).map (uartByte s)).length = n := by simp
  refine ⟨h, pushAll_tail _ _, ?_, bytes_pushAll (hlen.symm ▸ h) (memInv_iff.1 hmem).tx.1, fun a ha => ?_⟩
  · rw [pushAll_head hhead, hlen]
  · exact read_pushAll_other hhead (hlen.symm ▸ ha)

/-- An admitted command of an open port runs its first `burst` lines. -/
theorem uartCommand_run {op : UOp} {b : Byte} {s : State} {n : Nat} (hbusy : s.uart.busy = false)
    (hopened : s.uart.opened = true) (hn : s.burst = n) :
    uartCommand (needsUartOpen s) op op.firstLine b s = runLines n (issue op b s) :=
  hn ▸ uartCommand_eq hbusy (needsUartOpen_eq_none.2 hopened)

theorem toNat_pos_iff {w : Nat} {x : BitVec w} : 0 < x.toNat ↔ x ≠ 0#w :=
  (BitVec.toNat_pos x).trans (BitVec.pos_iff_ne_zero x)

/-- Settles O55: the loop queues the bytes one by one, and the two lines after it return or go on to the drain loop. -/
theorem sendBufferResult : Obligations.SendBufferResult := by
  unfold Obligations.SendBufferResult
  intro s hinv hmem hbusy hopened hroom
  obtain ⟨hroom, hring⟩ := queued_ring hinv hmem hroom
  obtain ⟨htail, hhead, hbytes, hother⟩ := hring
  refine ⟨_, htail, hhead, hbytes, hother, fun hburst => ?_, fun hburst => ?_⟩
  · obtain ⟨j, hj, hrun⟩ := runLines_issue_sendBuf (drain := false) hroom
    obtain ⟨k, hk⟩ := Nat.exists_eq_add_of_le hburst
    have hk : s.burst = k + 2 + (13 * s.uart.oprCount.toNat + 2) := by omega
    refine (uartCommand_run (op := .sendBuf false) hbusy hopened hk).trans ?_
    rw [hrun, (runLines_sendBuf7 hj.op_eq).1 rfl k, uartReturn_queueTx hbusy]
    simp [hj.i_eq, toNat_pos_iff, Status.word, StClass.code, okStatus]
  · obtain ⟨j, hj, hrun⟩ := runLines_issue_sendBuf (drain := true) hroom
    have hk : s.burst = 1 + (13 * s.uart.oprCount.toNat + 2) := by omega
    refine ⟨{ j with line := .flushOut1 }, hj.op_eq, rfl, hj.i_eq, ?_⟩
    refine (uartCommand_run (op := .sendBuf true) hbusy hopened hk).trans ?_
    rw [hrun, (runLines_sendBuf7 hj.op_eq).2 rfl, goto_queueTx]
    simp [toNat_pos_iff]

end Sys2Proof.Machine
end

section
/-! SUPPORT. The string `send` with room for the bytes before its terminator (spec 43_uart_operations.md R189). -/

namespace Sys2Proof.Machine

theorem bufferByte_goto (l m : Line) (j k : Job) (s : State) :
    bufferByte { j with line := m } (goto l k s) = bufferByte j s := rfl

/-- After a byte that has been queued the loop of R189 goes on (R189 lines 6 and 7). -/
theorem runLines_sendStr_next {j : Job} {u : State} (hret : j.ret.cls = .ok) (k : Nat) :
    runLines (k + 2) (goto .sendStr6 j u) = runLines k (goto .sendStr2 { j with i := j.i + 1 } u) := by
  simp only [runLines_goto, lineStep, if_pos hret, andThen_proceed, goto_goto]
  exact congrArg (runLines k) rfl

section
variable {drain : Bool} {s u : State} {i : Nat} {j : Job}

/-- The body of the loop of R189: fourteen lines. -/
theorem runLines_sendStr_body (hi : uartByte s i ≠ 0#8) (hj : LoopAt (.sendStr drain) s i j) (hu : SendsFrom s u) (k : Nat) :
    runLines (k + 14) (goto .sendStr2 j u) =
      runLines k (goto .sendStr2 (sentByte (uartByte s i) j u) (queueTx [uartByte s i] u)) := by
  have hload (k : Nat) : runLines (k + 4) (goto .sendStr2 j u) = runLines k (goto .send1 { j with byte := uartByte s i } u) := by
    rw [← bufferByte_eq hj hu.cfg hu.hbuf] at hi ⊢
    simp only [runLines_goto, lineStep, andThen_proceed, goto_goto, bufferByte_goto, if_neg hi]
    exact congrArg (runLines k) rfl
  have hop : (sendDone { j with byte := uartByte s i } u).op = .sendStr drain := hj.op_eq
  rw [hload (k + 10), runLines_send hu.room (by simp [sendDrains, hj.op_eq]), sendReturn_sendStr hop, andThen_proceed,
    goto_goto, runLines_sendStr_next rfl]
  rfl

/-- At the terminator the loop ends (R189 line 4). -/
theorem runLines_sendStr_end (hi : uartByte s i = 0#8) (hj : LoopAt (.sendStr drain) s i j) (hcfg : u.cfg = s.cfg)
    (hhbuf : u.hbuf = s.hbuf) (k : Nat) :
    runLines (k + 3) (goto .sendStr2 j u) = runLines k (goto .sendStr8 { j with byte := uartByte s i } u) := by
  rw [← bufferByte_eq hj hcfg hhbuf] at hi ⊢
  simp only [runLines_goto, lineStep, andThen_proceed, goto_goto, bufferByte_goto, if_pos hi]
  exact congrArg (runLines k) rfl

end

/-- The lines of R189 from issue to the end of the loop. -/
theorem runLines_issue_sendStr {drain : Bool} {s : State} {n : Nat} (hroom : s.uart.tx.HasRoom s.cfg.nTx n)
    (hbytes : ∀ i < n, uartByte s i ≠ 0#8) (hterm : uartByte s n = 0#8) :
    ∃ j, LoopAt (.sendStr drain) s n j ∧
      ∀ k, runLines (k + (14 * n + 4)) (issue (.sendStr drain) 0#8 s) =
        runLines k (goto .sendStr8 j (queueTx ((List.range n).map (uartByte s)) (issue (.sendStr drain) 0#8 s))) := by
  obtain ⟨j, hj, hloop⟩ := runLines_sendLoop (s := issue (.sendStr drain) 0#8 s)
    (fun i hi j u hj hu k => runLines_sendStr_body (s := issue (.sendStr drain) 0#8 s) (hbytes i hi) hj hu k) hroom
    (loopAt_issue (.sendStr drain) .sendStr1 0#8 s) _ le_rfl
  replace hj := loopAt_of_issue hj
  rw [uartByte_issue] at hloop
  refine ⟨{ j with byte := uartByte s n }, ⟨hj.op_eq, hj.buf_eq, hj.count_eq, hj.i_eq⟩, fun k => ?_⟩
  have hfirst (m : Nat) : runLines (m + 1) (issue (.sendStr drain) 0#8 s) =
      runLines m (goto .sendStr2 (jobAt (.sendStr drain) .sendStr1 0#8 s.uart) (issue (.sendStr drain) 0#8 s)) := rfl
  rw [show k + (14 * n + 4) = k + 3 + 14 * n + 1 by omega, hfirst]
  rw [hloop (k + 3)]
  refine runLines_sendStr_end hterm hj ?_ ?_ k <;> rfl

/-- After the loop the operation returns, or goes on to the drain loop (R189 lines 8 and 9). -/
theorem runLines_sendStr8 {drain : Bool} {j : Job} {u : State} (hop : j.op = .sendStr drain) :
    (drain = false → ∀ k, runLines (k + 2) (goto .sendStr8 j u) = .next (uartReturn (okStatus (BitVec.ofNat 16 j.i)) u)) ∧
    (drain = true → runLines 1 (goto .sendStr8 j u) = .next (goto .flushOut1 j u)) := by
  refine ⟨?_, ?_⟩ <;> rintro rfl <;>
    simp [runLines_goto (n := 0), runLines_goto, lineStep, bufferDrains, hop, runLines_uartReturn]
  rw [← hop]
  rfl

/-- Settles O56: the loop queues the bytes before the terminator one by one, and the two lines after it return or go on to the drain
loop. -/
theorem sendStringResult : Obligations.SendStringResult := by
  unfold Obligations.SendStringResult
  intro s n hinv hmem hbusy hopened hnonzero hterm hroom
  obtain ⟨hroom, hring⟩ := queued_ring hinv hmem hroom
  obtain ⟨htail, hhead, hbytes, hother⟩ := hring
  refine ⟨_, htail, hhead, hbytes, hother, fun hburst => ?_, fun hburst => ?_⟩
  · obtain ⟨j, hj, hrun⟩ := runLines_issue_sendStr (drain := false) hroom hnonzero hterm
    obtain ⟨k, hk⟩ := Nat.exists_eq_add_of_le hburst
    have hk : s.burst = k + 2 + (14 * n + 4) := by omega
    refine (uartCommand_run (op := .sendStr false) hbusy hopened hk).trans ?_
    rw [hrun, (runLines_sendStr8 hj.op_eq).1 rfl k, uartReturn_queueTx hbusy]
    simp [hj.i_eq, Status.word, StClass.code, okStatus]
  · obtain ⟨j, hj, hrun⟩ := runLines_issue_sendStr (drain := true) hroom hnonzero hterm
    have hk : s.burst = 1 + (14 * n + 4) := by omega
    refine ⟨{ j with line := .flushOut1 }, hj.op_eq, rfl, hj.i_eq, ?_⟩
    refine (uartCommand_run (op := .sendStr true) hbusy hopened hk).trans ?_
    rw [hrun, (runLines_sendStr8 hj.op_eq).2 rfl, goto_queueTx]
    simp

end Sys2Proof.Machine
end

section
/-! SUPPORT. The buffer `recv`, line by line: bytes that wait are stored and popped, and polls of an empty ring end at the timeout
(spec 43_uart_operations.md R190, R191). -/

namespace Sys2Proof.Machine

/-! ## Bytes taken from the receive ring (R191 line 8) -/

/-- The flags that `m` bytes taken from the receive ring bring along: what was latched, with the first byte (R88). -/
def latched (m : Nat) (s : State) : Byte := if m = 0 then 0#8 else s.uart.rxError

/-- The `m` oldest bytes of the receive ring. -/
def waiting (m : Nat) (s : State) : List Byte :=
  (List.range m).map fun k => Memory.read s.uart.rx.buf ((s.uart.rx.tail + k) % s.cfg.nRx)

/-- The state after `m` bytes have been popped and stored, the first at offset `i` of the buffer at `buf`. -/
def takeRx (buf i m : Nat) (s : State) : State :=
  { s with
    hbuf := storeAll s.cfg buf i (waiting m s) s.hbuf
    uart := { s.uart with
      rx := { s.uart.rx with tail := (s.uart.rx.tail + m) % s.cfg.nRx }
      rxError := if m = 0 then s.uart.rxError else 0#8 } }

@[simp] theorem waiting_length (m : Nat) (s : State) : (waiting m s).length = m := by simp [waiting]

section
variable {buf i m : Nat} {s : State}

theorem takeRx_zero (ht : s.uart.rx.tail < s.cfg.nRx) : takeRx buf i 0 s = s := by
  simp [takeRx, waiting, storeAll, Nat.mod_eq_of_lt ht]

theorem waiting_succ (ht : s.uart.rx.tail < s.cfg.nRx) :
    waiting (m + 1) s = Memory.read s.uart.rx.buf s.uart.rx.tail :: waiting m (takeRx buf i 1 s) := by
  simp [waiting, takeRx, List.range_succ_eq_map, Nat.mod_eq_of_lt ht, Nat.add_assoc, Nat.add_comm 1]

theorem waiting_one (ht : s.uart.rx.tail < s.cfg.nRx) : waiting 1 s = [Memory.read s.uart.rx.buf s.uart.rx.tail] :=
  waiting_succ (m := 0) (buf := 0) (i := 0) ht

theorem takeRx_succ (ht : s.uart.rx.tail < s.cfg.nRx) :
    takeRx buf i (m + 1) s = takeRx buf (i + 1) m (takeRx buf i 1 s) := by
  have hwaiting := waiting_succ (m := m) (buf := buf) (i := i) ht
  simp only [takeRx, hwaiting, waiting_one ht, storeAll]
  simp [Nat.add_assoc, Nat.add_comm 1]

theorem latched_succ : latched (m + 1) s = s.uart.rxError ||| latched m (takeRx buf i 1 s) := by
  simp [latched, takeRx]

/-- A byte popped is one fewer queued. -/
theorem ringCount_pop {n head tail : Nat} (hh : head < n) (ht : tail < n) (hm : m + 1 ≤ ringCount n head tail) :
    head ≠ tail ∧ m ≤ ringCount n head ((tail + 1) % n) := by
  have hn : (tail + 1) % n < n := Nat.mod_lt _ (by omega)
  rw [ringCount_eq hh ht] at hm
  rw [ringCount_eq hh hn]
  rcases Nat.lt_or_ge (tail + 1) n with hlt | hge
  · rw [Nat.mod_eq_of_lt hlt]
    split at hm <;> split <;> omega
  · obtain rfl : n = tail + 1 := by omega
    rw [Nat.mod_self]
    split at hm <;> split <;> omega

end

/-! ## One byte (R190) -/

theorem recvReturn_recvBuf {st : Status} {j : Job} {s : State} (hop : j.op = .recvBuf) :
    recvReturn st j s = proceed .recvBuf4 { j with ret := st } s := by
  simp only [recvReturn, hop]

/-- The status in which `recv()` returns the oldest byte, with the flags that were latched. -/
def oldest (s : State) : Status := okStatus (s.uart.rxError ++ Memory.read s.uart.rx.buf s.uart.rx.tail)

/-- The job of a buffer `recv` that has stored the oldest byte. -/
def tookByte (j : Job) (s : State) : Job :=
  { j with
    i := j.i + 1, acc := j.acc ||| s.uart.rxError, flags := s.uart.rxError
    byte := Memory.read s.uart.rx.buf s.uart.rx.tail, ret := oldest s }

/-- The state after the oldest byte has been popped and the latch cleared. -/
def popOldest (s : State) : State :=
  s.mapUart fun u => { u with rx := { u.rx with tail := ringNext s.cfg.nRx u.rx.tail }, rxError := 0#8 }

theorem takeRx_one {buf i : Nat} {s : State} (ht : s.uart.rx.tail < s.cfg.nRx) :
    takeRx buf i 1 s =
      (popOldest s).writeHbuf (effAddr s.cfg .hbuf buf i) (Memory.read s.uart.rx.buf s.uart.rx.tail) := by
  rw [takeRx, waiting_one ht]
  rfl

theorem setWidth_shiftRight_append (a b : Byte) : ((a ++ b) >>> 8).setWidth 8 = a := by
  apply BitVec.eq_of_toNat_eq
  rw [BitVec.toNat_setWidth, BitVec.toNat_ushiftRight, toNat_join, Nat.shiftRight_eq_div_pow]
  omega

section
variable {j : Job} {s : State}

/-- While bytes are wanted the loop calls `recv()` (R191 lines 2 and 3). -/
theorem runLines_recvBuf_call (hi : j.i < j.count.toNat) (k : Nat) :
    runLines (k + 2) (goto .recvBuf2 j s) = runLines k (goto .recv1 j s) := by
  simp only [runLines_goto, lineStep, if_pos hi, andThen_proceed, goto_goto]
  exact congrArg (runLines k) rfl

/-- A `recv()` that finds a byte: five lines to its return. -/
theorem runLines_recv (hop : j.op = .recvBuf) (ht : s.uart.rx.tail < s.cfg.nRx) (hne : s.uart.rx.head ≠ s.uart.rx.tail) (k : Nat) :
    runLines (k + 5) (goto .recv1 j s) =
      runLines k (goto .recvBuf4
        { j with byte := Memory.read s.uart.rx.buf s.uart.rx.tail, flags := s.uart.rxError, ret := oldest s }
        (popOldest s)) := by
  simp [runLines_goto, lineStep, Ring.isEmpty, hne, recvRead, slotRead_eq ht, readClear, atomically, recvReturn_recvBuf, hop, change]
  rw [← hop]
  exact congrArg (runLines k) rfl

/-- The byte that `recv()` returned is stored (R191 lines 4 and 8). -/
theorem runLines_recvBuf_store (hcls : j.ret.cls ≠ .noData) (k : Nat) :
    runLines (k + 2) (goto .recvBuf4 j s) =
      runLines k (goto .recvBuf2 { j with acc := j.acc ||| (j.ret.payload >>> 8).setWidth 8, i := j.i + 1 }
        (s.writeHbuf (effAddr s.cfg .hbuf j.buf j.i) (j.ret.payload.setWidth 8))) := by
  simp only [runLines_goto, lineStep, if_neg hcls, recvStore, andThen_proceed, goto_goto]
  exact congrArg (runLines k) rfl

/-- The body of the loop of R191 when a byte waits: nine lines. -/
theorem runLines_recvBuf_body (hop : j.op = .recvBuf) (hi : j.i < j.count.toNat) (ht : s.uart.rx.tail < s.cfg.nRx)
    (hne : s.uart.rx.head ≠ s.uart.rx.tail) (k : Nat) :
    runLines (k + 9) (goto .recvBuf2 j s) = runLines k (goto .recvBuf2 (tookByte j s) (takeRx j.buf j.i 1 s)) := by
  have hcls : (oldest s).cls ≠ .noData := nofun
  have hflags : ((oldest s).payload >>> 8).setWidth 8 = s.uart.rxError := setWidth_shiftRight_append _ _
  have hbyte : (oldest s).payload.setWidth 8 = Memory.read s.uart.rx.buf s.uart.rx.tail := BitVec.setWidth_append_eq_right
  rw [runLines_recvBuf_call hi, runLines_recv hop ht hne, runLines_recvBuf_store hcls, takeRx_one ht, hflags, hbyte]
  rfl

/-- A `recv()` that finds none: back in the loop after two lines. -/
theorem runLines_recv_empty (hop : j.op = .recvBuf) (hempty : s.uart.rx.head = s.uart.rx.tail) (k : Nat) :
    runLines (k + 2) (goto .recv1 j s) = runLines k (goto .recvBuf5 { j with ret := ⟨.noData, 0xFF00#16⟩ } s) := by
  simp [runLines_goto, lineStep, Ring.isEmpty, hempty, recvReturn_recvBuf, hop]
  rw [← hop]
  exact congrArg (runLines k) rfl

/-- A poll of the empty ring before the timeout: six lines. -/
theorem runLines_recvBuf_poll (hop : j.op = .recvBuf) (hi : j.i < j.count.toNat) (hempty : s.uart.rx.head = s.uart.rx.tail)
    (hwait : j.waited < j.timeout.toNat) (k : Nat) :
    runLines (k + 6) (goto .recvBuf2 j s) =
      runLines k (goto .recvBuf2 (wait s.cfg { j with ret := ⟨.noData, 0xFF00#16⟩ }) s) := by
  rw [runLines_recvBuf_call hi, runLines_recv_empty hop hempty]
  simp only [runLines_goto, lineStep, if_neg (Nat.not_le.2 hwait), andThen_proceed, goto_goto]
  exact congrArg (runLines k) rfl

/-- The poll at which the timeout is reached: five lines. -/
theorem runLines_recvBuf_giveUp (hop : j.op = .recvBuf) (hi : j.i < j.count.toNat) (hempty : s.uart.rx.head = s.uart.rx.tail)
    (hwait : j.timeout.toNat ≤ j.waited) (k : Nat) :
    runLines (k + 5) (goto .recvBuf2 j s) = .next (uartReturn ⟨.opTimeout, timeoutFlags s.cfg j.acc ++ 0#8⟩ s) := by
  rw [runLines_recvBuf_call hi, runLines_recv_empty hop hempty, runLines_goto]
  simp only [lineStep, if_pos hwait, andThen_finish, uartReturn_goto, runLines_uartReturn]
  rfl

end

/-! ## The loop (R191) -/

/-- As long as bytes wait and are wanted, the loop takes them. -/
theorem runLines_recvLoop : ∀ {m : Nat} {j : Job} {s : State}, j.op = .recvBuf → j.i + m ≤ j.count.toNat →
    s.uart.rx.head < s.cfg.nRx → s.uart.rx.tail < s.cfg.nRx → m ≤ ringCount s.cfg.nRx s.uart.rx.head s.uart.rx.tail →
    ∃ b f r, ∀ k, runLines (k + 9 * m) (goto .recvBuf2 j s) =
      runLines k (goto .recvBuf2 { j with i := j.i + m, acc := j.acc ||| latched m s, byte := b, flags := f, ret := r }
        (takeRx j.buf j.i m s))
  | 0, j, s, _, _, _, ht, _ => ⟨j.byte, j.flags, j.ret, fun k => by simp [takeRx_zero ht, latched]⟩
  | m + 1, j, s, hop, hi, hh, ht, hm => by
    obtain ⟨hne, hrest⟩ := ringCount_pop hh ht hm
    obtain ⟨b, f, r, hrun⟩ := runLines_recvLoop (m := m) (j := tookByte j s) (s := takeRx j.buf j.i 1 s) hop
      (by simp only [tookByte]; omega) hh (Nat.mod_lt _ (Nat.zero_lt_of_lt ht)) hrest
    refine ⟨b, f, r, fun k => ?_⟩
    rw [show k + 9 * (m + 1) = k + 9 * m + 9 by omega, runLines_recvBuf_body hop (by omega) ht hne, hrun,
      takeRx_succ (m := m) ht, latched_succ (m := m) (buf := j.buf) (i := j.i)]
    simp [tookByte, BitVec.or_assoc, Nat.add_assoc, Nat.add_comm 1]

/-- With nothing waiting the loop polls `p` times at most before its timeout is reached. -/
theorem runLines_recvBuf_timeout {s : State} (hempty : s.uart.rx.head = s.uart.rx.tail) :
    ∀ {p k : Nat} {j : Job}, j.op = .recvBuf → j.i < j.count.toNat →
      j.timeout.toNat ≤ j.waited + p * s.cfg.pollQuantum → 6 * p + 5 ≤ k →
      runLines k (goto .recvBuf2 j s) = .next (uartReturn ⟨.opTimeout, timeoutFlags s.cfg j.acc ++ 0#8⟩ s)
  | p, k, j, hop, hi, hwait, hk => by
    rcases Nat.lt_or_ge j.waited j.timeout.toNat with hlt | hge
    · cases p with
      | zero => omega
      | succ p =>
        obtain ⟨k, rfl⟩ : ∃ n, k = n + 6 := ⟨k - 6, by omega⟩
        rw [Nat.succ_mul] at hwait
        have hrest : 6 * p + 5 ≤ k := by omega
        rw [runLines_recvBuf_poll hop hi hempty hlt]
        refine runLines_recvBuf_timeout hempty (j := wait s.cfg _) hop hi ?_ hrest
        simp only [wait]
        omega
    · obtain ⟨k, rfl⟩ : ∃ n, k = n + 5 := ⟨k - 5, by omega⟩
      exact runLines_recvBuf_giveUp hop hi hempty hge k

/-- Once no more bytes are wanted the operation returns: two lines. -/
theorem runLines_recvBuf_end {j : Job} {s : State} (hi : j.count.toNat ≤ j.i) (k : Nat) :
    runLines (k + 2) (goto .recvBuf2 j s) = .next (uartReturn (okStatus (j.acc ++ 0#8)) s) := by
  simp only [runLines_goto, lineStep, if_neg (Nat.not_lt.2 hi), andThen_proceed, goto_goto, andThen_finish, uartReturn_goto,
    runLines_uartReturn]

/-! ## The command -/

theorem toNat_eq_zero_iff {w : Nat} {x : BitVec w} : x.toNat = 0 ↔ x = 0#w := by
  simp [BitVec.toNat_eq]

/-- A buffer `recv` begins with its loop counter at 0 (R191 line 1). -/
theorem runLines_issue_recvBuf (s : State) (k : Nat) :
    runLines (k + 1) (issue .recvBuf 0#8 s) =
      runLines k (goto .recvBuf2 (jobAt .recvBuf .recvBuf1 0#8 s.uart) (issue .recvBuf 0#8 s)) := rfl

/-- The state in which a buffer `recv` that has taken `m` bytes returns. -/
theorem uartReturn_takeRx {m : Nat} {st : Status} {s : State} (hbusy : s.uart.busy = false) :
    uartReturn st (takeRx s.uart.oprBuf 0 m (issue .recvBuf 0#8 s)) = { s with
      hbuf := storeAll s.cfg s.uart.oprBuf 0 (waiting m s) s.hbuf
      uart := { s.uart with
        rx := { s.uart.rx with tail := (s.uart.rx.tail + m) % s.cfg.nRx }
        rxError := if m = 0 then s.uart.rxError else 0#8
        resStatus := st.word s.cfg, job := none } } := by
  simp [uartReturn, takeRx, issue, State.mapUart, hbusy, waiting]

/-- What the buffer memory reads once the bytes waiting are stored. -/
theorem read_storeAll_waiting {s : State} {m : Nat} (hmem : MemInv s) (hm : m ≤ 2 ^ s.cfg.bufaw) :
    let mem := storeAll s.cfg s.uart.oprBuf 0 (waiting m s) s.hbuf
    (∀ k < m, Memory.read mem ((s.uart.oprBuf + k) % 2 ^ s.cfg.bufaw) =
      Memory.read s.uart.rx.buf ((s.uart.rx.tail + k) % s.cfg.nRx)) ∧
    (∀ a, (∀ k < m, a ≠ (s.uart.oprBuf + k) % 2 ^ s.cfg.bufaw) → Memory.read mem a = Memory.read s.hbuf a) := by
  refine ⟨fun k hk => ?_, fun a ha => read_storeAll_other (by simpa using ha)⟩
  have hread := read_storeAll (c := s.cfg) (buf := s.uart.oprBuf) (n := 0) (m := s.hbuf) (bytes := waiting m s)
    (k := k) (by simpa using hk) (memInv_iff.1 hmem).hbuf.1 (by simpa using hm)
  rw [Nat.zero_add] at hread
  exact hread.trans (by simp [waiting])

/-- The job of a buffer `recv` issued in `s` that has taken `m` bytes, and has not waited. -/
structure Taken (s : State) (m : Nat) (j : Job) : Prop where
  op_eq : j.op = .recvBuf
  count_eq : j.count = s.uart.oprCount
  timeout_eq : j.timeout = s.uart.oprTimeout
  i_eq : j.i = m
  waited_eq : j.waited = 0
  acc_eq : j.acc = latched m s

/-- From its issue a buffer `recv` takes the bytes that wait and are wanted. -/
theorem runLines_issue_taken {s : State} {m : Nat} (hhead : s.uart.rx.head < s.cfg.nRx) (htail : s.uart.rx.tail < s.cfg.nRx)
    (hwait : m ≤ ringCount s.cfg.nRx s.uart.rx.head s.uart.rx.tail) (hcount : m ≤ s.uart.oprCount.toNat) :
    ∃ j, Taken s m j ∧ ∀ k, runLines (k + (9 * m + 1)) (issue .recvBuf 0#8 s) =
      runLines k (goto .recvBuf2 j (takeRx s.uart.oprBuf 0 m (issue .recvBuf 0#8 s))) := by
  obtain ⟨b, f, r, hrun⟩ := runLines_recvLoop (m := m) (j := jobAt .recvBuf .recvBuf1 0#8 s.uart)
    (s := issue .recvBuf 0#8 s) rfl ((Nat.zero_add m).trans_le hcount) hhead htail hwait
  exact ⟨_, ⟨rfl, rfl, rfl, Nat.zero_add m, rfl, BitVec.zero_or⟩, fun k => (runLines_issue_recvBuf s _).trans (hrun k)⟩

/-- As many polls as the timeout holds quanta, and one more, reach it (R181). -/
theorem timeout_le_polls {c : Config} (hq : 0 < c.pollQuantum) (timeout : Nat) :
    timeout ≤ (timeout / c.pollQuantum + 1) * c.pollQuantum :=
  Nat.mul_comm c.pollQuantum _ ▸ (Nat.lt_mul_div_succ timeout hq).le

/-- Settles O58: nine lines a byte, and the two after the loop return. -/
theorem recvBufferResult : Obligations.RecvBufferResult := by
  unfold Obligations.RecvBufferResult
  intro s hinv hmem hbusy hopened hcount hfits hburst
  obtain ⟨⟨-, hhead, htail, -, -⟩, -⟩ := ringInv_iff.1 hinv
  refine ⟨_, ?_, read_storeAll_waiting hmem hfits⟩
  obtain ⟨j, hj, hrun⟩ := runLines_issue_taken hhead htail hcount le_rfl
  have hend : j.count.toNat ≤ j.i := by rw [hj.count_eq, hj.i_eq]
  obtain ⟨k, hk⟩ := Nat.exists_eq_add_of_le hburst
  have hk : s.burst = k + 2 + (9 * s.uart.oprCount.toNat + 1) := by omega
  refine (uartCommand_run (op := .recvBuf) hbusy hopened hk).trans ?_
  rw [hrun, runLines_recvBuf_end hend, uartReturn_takeRx hbusy, hj.acc_eq]
  simp [latched, Status.word, StClass.code, okStatus, toNat_eq_zero_iff]

/-- With nothing waiting a buffer `recv` of a non-zero count polls until its timeout. -/
theorem recvBuf_gives_up {s : State} (hbusy : s.uart.busy = false) (hopened : s.uart.opened = true)
    (hempty : s.uart.rx.head = s.uart.rx.tail) (hcount : s.uart.oprCount ≠ 0#16) (hq : 0 < s.cfg.pollQuantum)
    (hburst : 6 * (s.uart.oprTimeout.toNat / s.cfg.pollQuantum + 2) + 1 ≤ s.burst) :
    exec .uRecvbuf s = .next { s with
      uart := { s.uart with
        resStatus := s.cfg.st.opTimeout ++ (efBit s.cfg.ef.timeout ++ 0#8), job := none } } := by
  obtain ⟨k, hk⟩ : ∃ k, s.burst = k + 1 := ⟨s.burst - 1, by omega⟩
  have hwait := timeout_le_polls hq s.uart.oprTimeout.toNat
  refine (uartCommand_run (op := .recvBuf) hbusy hopened hk).trans ?_
  rw [runLines_issue_recvBuf, runLines_recvBuf_timeout (s := issue .recvBuf 0#8 s) hempty
    (p := s.uart.oprTimeout.toNat / s.cfg.pollQuantum + 1) rfl (toNat_pos_iff.2 hcount)
    (hwait.trans_eq (Nat.zero_add _).symm) (by omega)]
  simp [uartReturn, issue, State.mapUart, hbusy, jobAt, timeoutFlags, Status.word, StClass.code]

/-- With fewer bytes waiting than it is to receive, a buffer `recv` takes them and then polls until its timeout. -/
theorem recvBuf_gives_up_after {s : State} (hinv : RingInv s) (hbusy : s.uart.busy = false) (hopened : s.uart.opened = true) {n : Nat} (hn : ringCount s.cfg.nRx s.uart.rx.head s.uart.rx.tail = n) (hpos : 0 < n)
    (hcount : n < s.uart.oprCount.toNat)
    (hburst : 9 * n + 6 * (s.uart.oprTimeout.toNat / s.cfg.pollQuantum + 2) + 1 ≤ s.burst) :
    exec .uRecvbuf s = .next { s with
      hbuf := storeAll s.cfg s.uart.oprBuf 0 (waiting n s) s.hbuf
      uart := { s.uart with
        rx := { s.uart.rx with tail := s.uart.rx.head }
        rxError := 0#8
        resStatus := s.cfg.st.opTimeout ++ ((s.uart.rxError ||| efBit s.cfg.ef.timeout) ++ 0#8), job := none } } := by
  obtain ⟨⟨hcfg, hhead, htail, -, -⟩, -⟩ := ringInv_iff.1 hinv
  obtain ⟨-, -, -, -, -, -, hq, -⟩ := hcfg
  have hlast : (s.uart.rx.tail + n) % s.cfg.nRx = s.uart.rx.head := hn ▸ tail_add_ringCount hhead htail
  obtain ⟨j, hj, hrun⟩ := runLines_issue_taken hhead htail hn.ge hcount.le
  have hmore : j.i < j.count.toNat := by rw [hj.i_eq, hj.count_eq]; exact hcount
  have hwait : j.timeout.toNat ≤ j.waited + (s.uart.oprTimeout.toNat / s.cfg.pollQuantum + 1) * s.cfg.pollQuantum := by
    rw [hj.timeout_eq, hj.waited_eq, Nat.zero_add]
    exact timeout_le_polls hq _
  obtain ⟨k, hk⟩ : ∃ k, s.burst = k + (9 * n + 1) := ⟨s.burst - (9 * n + 1), by omega⟩
  refine (uartCommand_run (op := .recvBuf) hbusy hopened hk).trans ?_
  rw [hrun, runLines_recvBuf_timeout (s := takeRx s.uart.oprBuf 0 n (issue .recvBuf 0#8 s)) hlast.symm hj.op_eq hmore hwait
    (by omega), uartReturn_takeRx hbusy, hj.acc_eq, hlast]
  simp [latched, hpos.ne', timeoutFlags, takeRx, issue, State.mapUart, Status.word, StClass.code]

/-- Settles O59: the bytes that wait are taken first, then the polls of the empty ring add up to the timeout. -/
theorem recvBufferTimesOut : Obligations.RecvBufferTimesOut := by
  unfold Obligations.RecvBufferTimesOut
  refine ⟨fun _ => recvBuf_gives_up, ?_⟩
  intro s hinv hmem hbusy hopened n hpos hcount hfits hburst
  exact ⟨_, recvBuf_gives_up_after hinv hbusy hopened rfl hpos hcount hburst, read_storeAll_waiting hmem hfits⟩

end Sys2Proof.Machine
end

section
/-! SUPPORT. The command words and the causes (spec 30_encoding.md R90 to R97; 60_exceptions.md R216): decoding is the inverse of
encoding, and a step runs or refuses what is presented to it. -/

namespace Sys2Proof

/-! ## The fields a row uses (R92, R93) -/

theorem legal_eq_ok {u : Uses} {w : Word} {i k : Instr} : legal u w i = .ok k ↔ unusedZero u w = true ∧ i = k := by
  unfold legal
  split <;> simp_all

theorem legalTyped_eq_ok {w : Word} {i k : Instr} :
    legalTyped w i = .ok k ↔ (fieldF w = false ∧ typedSizeOk (fieldByte w) = true) ∧ i = k := by
  unfold legalTyped
  cases fieldF w <;> cases typedSizeOk (fieldByte w) <;> simp

theorem unusedZero_iff {u : Uses} {w : Word} :
    unusedZero u w = true ↔ (u.f = false → fieldF w = false) ∧ (u.addr = false → fieldAddr w = 0#7) ∧
      (u.reg = false → fieldReg w = 0#8) ∧ (u.byte = false → fieldByte w = 0#8) := by
  simp only [unusedZero, Bool.and_eq_true, Bool.or_eq_true, Bool.not_eq_true', beq_iff_eq, ← Bool.not_eq_true, and_assoc,
    or_iff_not_imp_left]

/-- A legal word is put together from its code and the fields its row uses. -/
theorem commandWord_of_legal {u : Uses} {w : Word} {opc : BitVec 8} {i k : Instr} (hopc : fieldOpc w = opc)
    (h : legal u w i = .ok k) :
    i = k ∧ commandWord opc (u.f && fieldF w) (if u.addr then fieldAddr w else 0#7) (if u.reg then fieldReg w else 0#8)
      (if u.byte then fieldByte w else 0#8) = w := by
  obtain ⟨hzero, hi⟩ := legal_eq_ok.1 h
  obtain ⟨hf, haddr, hreg, hbyte⟩ := unusedZero_iff.1 hzero
  refine ⟨hi, ?_⟩
  conv_rhs => rw [← commandWord_fields w, hopc]
  congr 1
  · cases hu : u.f <;> simp [hf, hu]
  · split <;> simp_all
  · split <;> simp_all
  · split <;> simp_all

theorem commandWord_of_legalTyped {w : Word} {opc : BitVec 8} {i k : Instr} (hopc : fieldOpc w = opc)
    (h : legalTyped w i = .ok k) :
    i = k ∧ typedSizeOk (fieldByte w) = true ∧ commandWord opc false (fieldAddr w) (fieldReg w) (fieldByte w) = w := by
  obtain ⟨⟨hf, hsize⟩, hi⟩ := legalTyped_eq_ok.1 h
  exact ⟨hi, hsize, by rw [← hopc, ← hf, commandWord_fields]⟩

/-! ## Encoding and decoding are inverse to each other (R90, R92, R93, R95) -/

/-- Settles O1: the fields come back as the encoder put them in, those the row does not use as zero, and a typed operation's size is
one of R94. -/
theorem decodeOfEncodeIsTheInstruction : Obligations.DecodeOfEncodeIsTheInstruction := by
  unfold Obligations.DecodeOfEncodeIsTheInstruction
  intro i hi
  cases i with
  | onRx | onTxe => rfl
  | i2cWritet addr reg size | i2cReadt addr reg size =>
    have hsize : typedSizeOk size = true := hi
    simp [encode, decode, decodeI2c, legalTyped_eq_ok, hsize]
  | _ => simp [encode, decode, decodeI2c, decodeUart, legal_eq_ok, unusedZero_iff]

theorem encode_of_decodeI2c {w : Word} {i : Instr} (h : decodeI2c w = .ok i) : i.wf = true ∧ encode i = .i2cCommand w := by
  unfold decodeI2c at h
  split at h
  case h_16 => split at h <;> cases h
  case h_9 hopc | h_10 hopc =>
    obtain ⟨rfl, hsize, hw⟩ := commandWord_of_legalTyped hopc h
    exact ⟨hsize, congrArg Presented.i2cCommand hw⟩
  all_goals
    next hopc =>
    obtain ⟨rfl, hw⟩ := commandWord_of_legal hopc h
    exact ⟨rfl, congrArg Presented.i2cCommand hw⟩

theorem encode_of_decodeUart {w : Word} {i : Instr} (h : decodeUart w = .ok i) : i.wf = true ∧ encode i = .uartCommand w := by
  unfold decodeUart at h
  split at h
  case h_11 => split at h <;> cases h
  all_goals
    next hopc =>
    obtain ⟨rfl, hw⟩ := commandWord_of_legal hopc h
    exact ⟨rfl, congrArg Presented.uartCommand hw⟩

/-- Settles O2: row by row, a word that decodes is put together from the fields of its instruction; each cause has its entry
point. -/
theorem onlyEncodingsDecode : Obligations.OnlyEncodingsDecode := by
  unfold Obligations.OnlyEncodingsDecode
  intro p i h
  cases p with
  | i2cCommand w => exact encode_of_decodeI2c h
  | uartCommand w => exact encode_of_decodeUart h
  | cause c =>
    obtain rfl : decodeCause c = i := Except.ok.inj h
    obtain rfl | rfl := BitVec.eq_zero_or_eq_one c <;> exact ⟨rfl, rfl⟩

/-- Settles O3: the decoder evaluated on each word. -/
theorem specWordsDecode : Obligations.SpecWordsDecode := by
  unfold Obligations.SpecWordsDecode
  exact ⟨rfl, rfl, rfl, rfl, rfl, rfl, rfl, rfl, rfl, rfl⟩

namespace Machine

/-! ## What a step does with a presentation (R93, R95, R96, R216) -/

section
variable {s : State} {rest : List Event} {w : Word}

theorem step_of_present {p : Presented} (hs : s.sched = .present p :: rest) :
    step s = runFetched (fetch p { s with sched := rest }) := by
  simp only [step, hs]

theorem step_i2cCommand {i : Instr} (hs : s.sched = .present (.i2cCommand w) :: rest) (hd : decodeI2c w = .ok i) :
    step s = exec i { s with sched := rest, i2c := { s.i2c with cw := w } } := by
  rw [step_of_present hs, fetch, hd]
  rfl

theorem step_uartCommand {i : Instr} (hs : s.sched = .present (.uartCommand w) :: rest) (hd : decodeUart w = .ok i) :
    step s = exec i { s with sched := rest, uart := { s.uart with cw := w } } := by
  rw [step_of_present hs, fetch, hd]
  rfl

theorem step_i2cCommand_reserved {e : DecodeError} (hs : s.sched = .present (.i2cCommand w) :: rest)
    (hd : decodeI2c w = .error e) : step s = .refused (.reservedWord e) := by
  rw [step_of_present hs, fetch, hd]
  rfl

theorem step_uartCommand_reserved {e : DecodeError} (hs : s.sched = .present (.uartCommand w) :: rest)
    (hd : decodeUart w = .error e) : step s = .refused (.reservedWord e) := by
  rw [step_of_present hs, fetch, hd]
  rfl

/-- A cause that is not taken is consumed (R216). -/
theorem step_cause {c : BitVec 1} (hs : s.sched = .present (.cause c) :: rest) :
    step s = if (s.gie && causePending c s.uart) = true then exec (decodeCause c) { s with sched := rest }
      else .next { s with sched := rest } := by
  rw [step_of_present hs, fetch]
  exact apply_ite runFetched _ _ _

end

/-- Settles O4: a command runs in the state with its word in `CW`; a cause is taken when its source is pending and `GIE` = 1. -/
theorem stepRunsWhatIsPresented : Obligations.StepRunsWhatIsPresented := by
  unfold Obligations.StepRunsWhatIsPresented
  intro s rest i
  refine ⟨fun w hs hd => step_i2cCommand hs hd, fun w hs hd => step_uartCommand hs hd, fun hs => ?_, fun hs => ?_⟩
  · rw [step_cause hs]
    refine if_congr ?_ rfl rfl
    simp [causePending, rxPending, statRxc, Option.isSome_iff_ne_none]
  · rw [step_cause hs]
    refine if_congr ?_ rfl rfl
    simp [causePending, txePending, statTxe]

/-- A command of an idle engine that is not admitted is refused with the reason (R118, R130). -/
theorem i2cCommand_refused {body : State → Status × State} {s : State} {r : Refusal} (hbusy : s.i2c.busy = false) :
    i2cCommand (some r) body s = .refused r := by
  simp [i2cCommand, hbusy]

theorem admitsTyped_badSize {size : Byte} (s : State) (h : typedSizeOk size = false) :
    admitsTyped size s = some (.reservedWord .badSize) := by
  simp [admitsTyped, h]

/-- Settles O5: what decodes is the encoding of a well-formed instruction, so a word that encodes none does not decode. -/
theorem reservedWordsAreRefused : Obligations.ReservedWordsAreRefused := by
  unfold Obligations.ReservedWordsAreRefused
  intro s rest w
  refine ⟨fun hs hno => ?_, fun hs hno => ?_, fun addr reg size hsize hbusy => ?_⟩
  · cases hd : decodeI2c w with
    | error e => exact ⟨e, step_i2cCommand_reserved hs hd⟩
    | ok i =>
      obtain ⟨hwf, henc⟩ := encode_of_decodeI2c hd
      exact absurd henc (hno i hwf)
  · cases hd : decodeUart w with
    | error e => exact ⟨e, step_uartCommand_reserved hs hd⟩
    | ok i =>
      obtain ⟨hwf, henc⟩ := encode_of_decodeUart hd
      exact absurd henc (hno i hwf)
  · simp only [exec, execI2cWritet, execI2cReadt, admitsTyped_badSize s hsize, i2cCommand_refused hbusy, and_self]

end Machine
end Sys2Proof
end

section
/-! SUPPORT. The error latch (spec 30_encoding.md R85 to R88): the bits it can hold, and every step keeps it, and what a `recv` has
taken from it, to them. -/

namespace Sys2Proof.Machine

/-! ## The four flags (R86, R87) -/

/-- The positions of the four flags that the latch can hold (R86). -/
def latchBits (c : EfBits) : Finset (Fin 8) := {c.framing, c.overrun, c.parity, c.overflow}

theorem getLsbD_efBit : ∀ k i : Fin 8, (efBit k).getLsbD i = true ↔ i = k := by
  decide

theorem getLsbD_latchMask {c : EfBits} {i : Fin 8} : (latchMask c).getLsbD i = true ↔ i ∈ latchBits c := by
  simp only [latchMask, latchBits, BitVec.getLsbD_or, Bool.or_eq_true, getLsbD_efBit, Finset.mem_insert, Finset.mem_singleton,
    or_assoc]

theorem flagsOnly_iff {c : Config} {b : Byte} : flagsOnly c b ↔ ∀ i : Fin 8, b.getLsbD i = true → i ∈ latchBits c.ef := by
  simp only [← getLsbD_latchMask]
  rw [flagsOnly, BitVec.eq_of_getLsbD_eq_iff, Fin.forall_iff]
  refine forall₂_congr fun i hi => ?_
  rw [BitVec.getLsbD_and, BitVec.getLsbD_not, BitVec.getLsbD_zero]
  cases b.getLsbD i <;> cases (latchMask c.ef).getLsbD i <;> simp [hi]

section
variable {c : Config} {a b : Byte} {k : Fin 8}

theorem flagsOnly_zero (c : Config) : flagsOnly c 0#8 := BitVec.zero_and

theorem flagsOnly_or (ha : flagsOnly c a) (hb : flagsOnly c b) : flagsOnly c (a ||| b) := by
  rw [flagsOnly_iff] at *
  intro i h
  rw [BitVec.getLsbD_or, Bool.or_eq_true] at h
  exact h.elim (ha i) (hb i)

theorem flagsOnly_efBit (hk : k ∈ latchBits c.ef) : flagsOnly c (efBit k) :=
  flagsOnly_iff.2 fun i hi => (getLsbD_efBit k i).1 hi ▸ hk

theorem flagsOnly_efIf (hk : k ∈ latchBits c.ef) : ∀ b, flagsOnly c (efIf b k)
  | true => flagsOnly_efBit hk
  | false => flagsOnly_zero c

theorem flagsOnly_hwLatch (e : HwFlags) : flagsOnly c (hwLatch c.ef e) :=
  flagsOnly_or (flagsOnly_or (flagsOnly_efIf (by simp [latchBits]) _) (flagsOnly_efIf (by simp [latchBits]) _))
    (flagsOnly_efIf (by simp [latchBits]) _)

/-- Four flags leave a bit of the byte clear. -/
theorem ne_ff_of_flagsOnly (h : flagsOnly c b) : b ≠ 0xFF#8 := by
  rintro rfl
  have hset : ∀ i : Fin 8, (0xFF#8).getLsbD i = true := by decide
  have hall : latchBits c.ef = Finset.univ := Finset.eq_univ_of_forall fun i => flagsOnly_iff.1 h i (hset i)
  have hcard : (latchBits c.ef).card ≤ 4 := Finset.card_le_four
  rw [hall, Finset.card_univ, Fintype.card_fin] at hcard
  omega

theorem append_ne_noData_of_flagsOnly (h : flagsOnly c a) : a ++ b ≠ 0xFF00#16 := by
  intro heq
  have hflags := setWidth_shiftRight_append a b
  rw [heq] at hflags
  exact ne_ff_of_flagsOnly h hflags.symm

end

/-! ## The invariant, by line -/

/-- The clauses of the latch invariant about an operation: what it has accumulated, read from the latch, and been returned. -/
abbrev LatchJob (c : Config) (k : Job) : Prop :=
  flagsOnly c k.acc ∧ (k.line = .recv5 → flagsOnly c k.flags) ∧
  (k.line = .recvBuf8 ∨ (k.line = .recvBuf4 ∧ k.ret.cls ≠ .noData) → flagsOnly c ((k.ret.payload >>> 8).setWidth 8))

section
variable {s u : State} {k : Job}

/-- The operation in progress stays where it is. -/
theorem latchInv_of_kept (h : LatchInv s) (hcfg : u.cfg = s.cfg) (he : flagsOnly s.cfg u.uart.rxError)
    (hjob : u.uart.job = s.uart.job) : LatchInv u := by
  obtain ⟨-, hline⟩ := h
  simp only [LatchInv, hcfg, hjob]
  exact ⟨he, hline⟩

theorem latchInv_goto {l : Line} (he : flagsOnly u.cfg u.uart.rxError) (hk : LatchJob u.cfg { k with line := l }) :
    LatchInv (goto l k u) := by
  refine ⟨he, fun j hj => ?_⟩
  obtain rfl : { k with line := l } = j := Option.some.inj hj
  exact hk

theorem latchInv_uartReturn {st : Status} (he : flagsOnly u.cfg u.uart.rxError) : LatchInv (uartReturn st u) :=
  ⟨he, fun j hj => by cases hj⟩

theorem firstLine_ne_recv (op : UOp) : op.firstLine ≠ .recv5 ∧ op.firstLine ≠ .recvBuf4 ∧ op.firstLine ≠ .recvBuf8 := by
  cases op with
  | flush outbound => cases outbound <;> simp [UOp.firstLine]
  | _ => simp [UOp.firstLine]

/-- An operation is issued with nothing accumulated, and before it has read or been returned anything. -/
theorem latchInv_issue (op : UOp) (b : Byte) (h : LatchInv s) : LatchInv (issue op b s) := by
  refine ⟨h.1, fun j hj => ?_⟩
  obtain rfl : jobAt op op.firstLine b s.uart = j := Option.some.inj hj
  exact ⟨flagsOnly_zero _, by simp [jobAt, firstLine_ne_recv op]⟩

/-! ## The moves (R86) -/

theorem latchInv_execOnRx (h : LatchInv s) : Ensures True LatchInv (execOnRx s) :=
  ensures_execOnRx (fun _ e _ _ _ => ⟨fun _ => latchInv_of_kept h rfl (flagsOnly_hwLatch e) rfl, fun _ => trivial⟩)
    fun _ e _ _ => latchInv_of_kept h rfl (flagsOnly_or (flagsOnly_hwLatch e) (flagsOnly_efBit (by simp [latchBits]))) rfl

theorem latchInv_execOnTxe (h : LatchInv s) : Ensures True LatchInv (execOnTxe s) :=
  ensures_execOnTxe (fun _ => latchInv_of_kept h rfl h.1 rfl)
    fun _ _ _ => ⟨fun _ => latchInv_of_kept h rfl h.1 rfl, fun _ => trivial⟩

theorem pump_keeps_rxError (s : State) :
    Ensures True (fun u => u.cfg = s.cfg ∧ u.uart.rxError = s.uart.rxError) (pump s) :=
  ensures_pump ⟨rfl, rfl⟩ (fun _ => ⟨rfl, rfl⟩) fun _ _ => ⟨fun _ => ⟨rfl, rfl⟩, fun _ => trivial⟩

/-- A `recv` takes the latch along at line 4 of R190 and hands it on by line 5; a buffer `recv` accumulates it at line 8 of R191. -/
theorem latchInv_lineStep {j : Job} (h : LatchInv s) (hj : s.uart.job = some j) : Ensures True LatchInv (lineStep j s) := by
  obtain ⟨he, hline⟩ := h
  obtain ⟨hacc, hflags, hret⟩ := hline j hj
  cases hl : j.line with
  | close3 | flushIn1 =>
    simp only [lineStep, hl, ensures_proceed]
    exact latchInv_goto (flagsOnly_zero _) ⟨hacc, by simp⟩
  | recv4 =>
    simp only [lineStep, hl, readClear, ensures_proceed]
    exact latchInv_goto (flagsOnly_zero _) ⟨hacc, fun _ => he, by simp⟩
  | recv5 =>
    have hret : flagsOnly s.cfg (((j.flags ++ j.byte) >>> 8).setWidth 8) := by
      rw [setWidth_shiftRight_append]
      exact hflags hl
    simp only [lineStep, hl, ensures_recvReturn]
    exact ⟨fun _ => latchInv_goto he ⟨hacc, by simp, fun _ => hret⟩, fun _ => latchInv_uartReturn he⟩
  | recvBuf4 =>
    simp only [lineStep, hl, ensures_ite, ensures_proceed]
    exact ⟨fun _ => latchInv_goto he ⟨hacc, by simp⟩,
      fun hcls => latchInv_goto he ⟨hacc, by simp, fun _ => hret (.inr ⟨hl, hcls⟩)⟩⟩
  | recvBuf8 =>
    simp only [lineStep, hl, recvStore, ensures_proceed]
    exact latchInv_goto he ⟨flagsOnly_or hacc (hret (.inl hl)), by simp⟩
  | flushOut2 =>
    simp only [lineStep, hl, ensures_andThen]
    exact (pump_keeps_rxError s).mono fun u ⟨hcfg, hrx⟩ => latchInv_goto (hcfg ▸ hrx ▸ he) ⟨hcfg ▸ hacc, by simp⟩
  | send4 =>
    simp only [lineStep, hl, sendWait, ensures_andThen]
    refine (pump_keeps_rxError s).mono fun u ⟨hcfg, hrx⟩ => ?_
    have he : flagsOnly u.cfg u.uart.rxError := hcfg ▸ hrx ▸ he
    have hacc : flagsOnly u.cfg j.acc := hcfg ▸ hacc
    simp [ensures_sendReturn, LatchInv, flagsOnly, wait, he, hacc]
  | _ =>
    simp [lineStep, hl, sendStore, recvRead, ensures_flushOutReturn, ensures_sendReturn, ensures_recvReturn, LatchInv, flagsOnly,
      wait, enableReceive, atomically, setTxeIe, he, hacc]

/-! ## The step -/

theorem latchInv_exec_uart {i : Instr} (hi : i.isUart = true) (h : LatchInv s) : Ensures True LatchInv (exec i s) :=
  ensures_exec_uart hi fun op b _ _ _ => ensures_runLines (fun _ _ => latchInv_lineStep) _ (latchInv_issue op b h)

theorem latchInv_step (h : LatchInv s) : Ensures True LatchInv (step s) := by
  have h' : LatchInv s.taken := h
  have hkept {f : Uart → Uart} (he : (f s.uart).rxError = s.uart.rxError) (hjob : (f s.uart).job = s.uart.job) :
      LatchInv (s.taken.mapUart f) := latchInv_of_kept h' rfl (he ▸ h.1) hjob
  cases stepKind_step s with
  | refused r ho => rw [ho]; trivial
  | host u hu ho =>
    rw [ho]
    obtain ⟨hcfg, -, -, ⟨n, a, v, w, huart⟩⟩ := hu
    exact latchInv_of_kept h hcfg (huart ▸ h.1) (by rw [huart])
  | setGie b rest hs ho => rw [ho]; exact h
  | i2cCommand w i hi ho =>
    rw [ho, ensures_partial]
    intro t ht
    obtain ⟨st, u, hkeeps, rfl⟩ := exec_i2c_eq_next hi ht
    have huart : (i2cReturn st u).uart = s.uart := hkeeps.uart
    exact latchInv_of_kept h hkeeps.cfg (huart ▸ h.1) (by rw [huart])
  | uartCommand w rest hs i hi ho => rw [ho]; exact latchInv_exec_uart hi (hkept rfl rfl)
  | onRx ho => rw [ho]; exact latchInv_execOnRx h'
  | onTxe ho => rw [ho]; exact latchInv_execOnTxe h'
  | line j hj ho => rw [ho]; exact latchInv_lineStep h' hj
  | hwRx b e ho =>
    rw [ho]
    rcases hwRx_cases b e s.taken with ⟨-, -, heq⟩ | heq <;> rw [heq]
    exacts [hkept rfl rfl, h']
  | hwTxTake ho =>
    rw [ho]
    rcases hwTxTake_cases s.taken with ⟨b, -, -, -, heq⟩ | heq <;> rw [heq]
    exacts [hkept rfl rfl, h']
  | hwTxDone ho =>
    rw [ho]
    rcases hwTxDone_cases s.taken with ⟨b, -, heq⟩ | ⟨-, heq⟩ <;> rw [heq]
    exacts [hkept rfl rfl, h']

end

/-! ## What a `recv` returns (R85, R87, R88) -/

theorem mainlineStep_of_job {s : State} {j : Job} (hj : s.uart.job = some j) : mainlineStep s = lineStep j s := by
  simp only [mainlineStep, hj]

/-- Settles O12: every move keeps the flags the latch holds, and those on their way from it to a `recv`'s result, among four of the
eight bits. -/
theorem stepKeepsLatchFlags : Obligations.StepKeepsLatchFlags := by
  unfold Obligations.StepKeepsLatchFlags
  refine ⟨fun s t h ht => (latchInv_step h).apply ht, fun s h => ne_ff_of_flagsOnly h.1, fun s j h hj => ?_⟩
  obtain ⟨hacc, hflags, -⟩ := h.2 j hj
  rw [mainlineStep_of_job hj]
  refine ⟨fun hop hl => ?_, fun hl => ?_, fun hl hwait => ?_⟩
  · have hflags := hflags hl
    refine ⟨j.flags, j.byte, ?_, hflags, ne_ff_of_flagsOnly hflags, append_ne_noData_of_flagsOnly hflags⟩
    simp only [lineStep, hl, recvReturn, hop, finish, okStatus]
  · refine ⟨j.acc, ?_, hacc, ne_ff_of_flagsOnly hacc⟩
    simp only [lineStep, hl, finish, okStatus]
  · refine ⟨j.acc, ?_, hacc⟩
    simp only [lineStep, hl, if_pos hwait, finish, timeoutFlags]

end Sys2Proof.Machine
end

section
/-! SUPPORT. `available` and `recv` with their lines run together (spec 30_encoding.md R80, R85; 43_uart_operations.md R185, R190). -/

namespace Sys2Proof.Machine

/-- The state in which the controller runs an operation: `BUSY` = 1 (R96). -/
def uartBegun (s : State) : State := s.mapUart fun u => { u with busy := true }

theorem issue_eq_goto (op : UOp) (b : Byte) (s : State) :
    issue op b s = goto op.firstLine (jobAt op op.firstLine b s.uart) (uartBegun s) := rfl

section
variable {j : Job} {s : State}

/-- The three lines of `available` (R185). -/
theorem runLines_available (k : Nat) :
    runLines (k + 3) (goto .avail1 j s) =
      .next (uartReturn (okStatus (BitVec.ofNat 16 (ringCount s.cfg.nRx s.uart.rx.head s.uart.rx.tail))) s) := by
  simp [runLines_goto, lineStep, runLines_uartReturn]

/-- The host's `recv()` of an empty ring returns at its first line (R190 line 1). -/
theorem runLines_recv_noData (hop : j.op = .recv) (hempty : s.uart.rx.head = s.uart.rx.tail) (k : Nat) :
    runLines (k + 1) (goto .recv1 j s) = .next (uartReturn ⟨.noData, 0xFF00#16⟩ s) := by
  simp [runLines_goto, lineStep, runLines_uartReturn, Ring.isEmpty, hempty, recvReturn, hop]

/-- One that finds a byte returns at its fifth line (R190 lines 1 to 5). -/
theorem runLines_recv_oldest (hop : j.op = .recv) (ht : s.uart.rx.tail < s.cfg.nRx) (hne : s.uart.rx.head ≠ s.uart.rx.tail)
    (k : Nat) : runLines (k + 5) (goto .recv1 j s) = .next (uartReturn (oldest s) (popOldest s)) := by
  simp [runLines_goto, lineStep, Ring.isEmpty, hne, recvRead, slotRead_eq ht, change, readClear, atomically, recvReturn, hop,
    runLines_uartReturn]
  simp [uartReturn, oldest, popOldest, State.mapUart]

end

/-- Settles O49: the three lines read the head, the tail, and return the count of R161. -/
theorem availableResult : Obligations.AvailableResult := by
  unfold Obligations.AvailableResult
  intro s hbusy hopened hburst
  obtain ⟨k, hk⟩ := Nat.exists_eq_add_of_le' hburst
  refine (uartCommand_run (op := .available) hbusy hopened hk).trans ?_
  rw [issue_eq_goto, UOp.firstLine, runLines_available]
  simp [uartReturn, uartBegun, State.mapUart, hbusy, Status.word, StClass.code, okStatus, ringCount]

/-- Settles O57: with nothing queued the first line returns; else the fifth returns what the lines before it have popped and read from
the latch. -/
theorem recvResult : Obligations.RecvResult := by
  unfold Obligations.RecvResult
  intro s hbusy hopened hburst
  obtain ⟨k, hk⟩ := Nat.exists_eq_add_of_le' hburst
  have hrun := uartCommand_run (op := .recv) (b := 0#8) hbusy hopened hk
  rw [issue_eq_goto, UOp.firstLine] at hrun
  refine ⟨fun hempty => hrun.trans ?_, fun hne ht => hrun.trans ?_⟩
  · rw [runLines_recv_noData (s := uartBegun s) rfl hempty]
    simp [uartReturn, uartBegun, State.mapUart, hbusy, Status.word, StClass.code]
  · rw [runLines_recv_oldest (s := uartBegun s) rfl ht hne]
    simp [uartReturn, uartBegun, popOldest, oldest, State.mapUart, hbusy, Status.word, StClass.code, okStatus, ringNext]

end Sys2Proof.Machine
end

section
/-! SUPPORT. `scan` (spec 30_encoding.md R83; 41_i2c_operations.md R134, R140, R141): one probe, the probes of a range, and the ends a
scan comes to. -/

namespace Sys2Proof.Machine

/-! ## One probe (R134 lines 3 to 7) -/

/-- The state `t` of a scan begun in `s`, between two probes or at its end: the bus is idle, and the trace has gained `events`. -/
structure Scanned (s : State) (events : List BusEvent) (t : State) : Prop where
  cfg : t.cfg = s.cfg
  idle : t.i2c.fsm = .idle
  trace : t.i2c.trace = s.i2c.trace ++ events

theorem Scanned.append {s t u : State} {es fs : List BusEvent} (h : Scanned s es t) (k : Scanned t fs u) :
    Scanned s (es ++ fs) u :=
  ⟨k.cfg.trans h.cfg, k.idle, by rw [k.trace, h.trace, List.append_assoc]⟩

section
variable {s u : State} {bs : List Bool} {xs : List Xfer} {r bad : Xfer} {p : Xfer × Xfer} {a n k : Nat} {st : Status}
  {es : List BusEvent}

theorem repeated_of_idle (hidle : s.i2c.fsm = .idle) : repeated s = false := by
  simp [repeated, hidle]

theorem scanned_stop (hcfg : u.cfg = s.cfg) (htrace : u.i2c.trace = s.i2c.trace ++ es) :
    Scanned s (es ++ [.stop]) (stop u).2 :=
  ⟨hcfg, rfl, by simp [stop, htrace]⟩

/-- A probe whose wait is clear ends with its stop; whether the scan goes on depends on what its start returns. -/
theorem scanLoop_of_start (hfree : s.busyIn = true :: bs)
    (hstart : start (BitVec.ofNat 7 a) false { s with busyIn := bs } = (st, u)) :
    scanLoop (k + 1) a n s =
      if st.cls = .ok then scanLoop k (a + 1) (n + 1) (stop u).2
      else if st.cls = .nack then scanLoop k (a + 1) n (stop u).2
      else (⟨st.cls, BitVec.ofNat 16 n⟩, (stop u).2) := by
  rw [scanLoop, waitBusy_clear hfree, orAbort_ok rfl, hstart]

/-- A probe that is answered, by an acknowledge or not: the scan goes on. -/
theorem scanLoop_probe (hidle : s.i2c.fsm = .idle) (hfree : s.busyIn = true :: bs) (hx : s.xferIn = p.1 :: p.2 :: xs)
    (h1 : evalCond p.1 = .ok) (h2 : evalTx p.2 = .ok ∨ evalTx p.2 = .nack) :
    ∃ t, scanLoop (k + 1) a n s = scanLoop k (a + 1) (n + if evalTx p.2 == .ok then 1 else 0) t ∧
      Scanned s [.start false .ok, .txa (BitVec.ofNat 7 a) false (resOf (evalTx p.2)), .stop] t ∧
      t.busyIn = bs ∧ t.xferIn = xs := by
  have hrep : repeated { s with busyIn := bs } = false := repeated_of_idle hidle
  rcases h2 with h2 | h2
  · have hstart := start_good (s := { s with busyIn := bs }) (addr := BitVec.ofNat 7 a) (rw := false) hx h1 h2
    rw [hrep] at hstart
    rw [scanLoop_of_start hfree hstart, h2]
    exact ⟨_, rfl, scanned_stop (es := [_, _]) rfl rfl, rfl, rfl⟩
  · have hbad : evalTx p.2 ≠ .ok := by simp [h2]
    have hstart := start_badAddress (s := { s with busyIn := bs }) (addr := BitVec.ofNat 7 a) (rw := false) hx h1 hbad
    rw [hrep] at hstart
    rw [scanLoop_of_start hfree hstart, h2]
    exact ⟨_, rfl, scanned_stop (es := [_, _]) rfl rfl, rfl, rfl⟩

/-! ## Where a scan ends early (R134, R140, R141) -/

/-- A wait that fails: no stop, the bus being idle. -/
theorem scanLoop_wait_fails (hidle : s.i2c.fsm = .idle) (hwait : s.busyIn = false :: bs) :
    scanLoop (k + 1) a n s = (⟨.busTimeout, BitVec.ofNat 16 n⟩, { s with busyIn := bs }) := by
  rw [scanLoop, waitBusy_eq, askBusyClear_cons hwait]
  simp [orAbort, abort, hidle]

theorem evalCond_ne_nack (r : Xfer) : evalCond r ≠ .nack := by
  unfold evalCond
  split_ifs <;> simp

/-- A start condition that fails. -/
theorem scanLoop_start_fails (hidle : s.i2c.fsm = .idle) (hfree : s.busyIn = true :: bs) (hx : s.xferIn = bad :: xs)
    (hbad : evalCond bad ≠ .ok) :
    ∃ t, scanLoop (k + 1) a n s = (⟨evalCond bad, BitVec.ofNat 16 n⟩, t) ∧
      Scanned s [.start false (resOf (evalCond bad)), .stop] t := by
  have hrep : repeated { s with busyIn := bs } = false := repeated_of_idle hidle
  have hstart := start_bad (s := { s with busyIn := bs }) (addr := BitVec.ofNat 7 a) (rw := false) hx hbad
  rw [hrep] at hstart
  rw [scanLoop_of_start hfree hstart, if_neg hbad, if_neg (evalCond_ne_nack bad)]
  exact ⟨_, rfl, scanned_stop (es := [_]) rfl rfl⟩

/-- An address byte that meets a timeout or a bus error. -/
theorem scanLoop_address_fails (hidle : s.i2c.fsm = .idle) (hfree : s.busyIn = true :: bs) (hx : s.xferIn = r :: bad :: xs)
    (hr : evalCond r = .ok) (hbad : evalTx bad ≠ .ok) (hnack : evalTx bad ≠ .nack) :
    ∃ t, scanLoop (k + 1) a n s = (⟨evalTx bad, BitVec.ofNat 16 n⟩, t) ∧
      Scanned s [.start false .ok, .txa (BitVec.ofNat 7 a) false (resOf (evalTx bad)), .stop] t := by
  have hrep : repeated { s with busyIn := bs } = false := repeated_of_idle hidle
  have hstart := start_badAddress (s := { s with busyIn := bs }) (addr := BitVec.ofNat 7 a) (rw := false) hx hr hbad
  rw [hrep] at hstart
  rw [scanLoop_of_start hfree hstart, if_neg hbad, if_neg hnack]
  exact ⟨_, rfl, scanned_stop (es := [_, _]) rfl rfl⟩

end

/-! ## The probes in order (R134) -/

/-- What the answered probes `probes` leave in the trace, the first one of address `a`. -/
def probeEvents (a : Nat) (probes : List (Xfer × Xfer)) : List BusEvent :=
  (probes.zipIdx a).flatMap fun p =>
    [.start false .ok, .txa (BitVec.ofNat 7 p.2) false (resOf (evalTx p.1.2)), .stop]

theorem probeEvents_cons (a : Nat) (p : Xfer × Xfer) (probes : List (Xfer × Xfer)) :
    probeEvents a (p :: probes) =
      [.start false .ok, .txa (BitVec.ofNat 7 a) false (resOf (evalTx p.2)), .stop] ++ probeEvents (a + 1) probes := rfl

/-- As long as its probes are answered a scan goes on, counting those that acknowledge. -/
theorem scanLoop_probes {bs : List Bool} {xs : List Xfer} {k : Nat} : ∀ {probes : List (Xfer × Xfer)} {a n : Nat} {s : State},
    s.i2c.fsm = .idle → (∀ p ∈ probes, evalCond p.1 = .ok ∧ (evalTx p.2 = .ok ∨ evalTx p.2 = .nack)) →
    s.busyIn = List.replicate probes.length true ++ bs → s.xferIn = probes.flatMap (fun p => [p.1, p.2]) ++ xs →
    ∃ t, scanLoop (k + probes.length) a n s =
        scanLoop k (a + probes.length) (n + probes.countP fun p => evalTx p.2 == .ok) t ∧
      Scanned s (probeEvents a probes) t ∧ t.busyIn = bs ∧ t.xferIn = xs
  | [], a, n, s, hidle, _, hbusy, hx => ⟨s, rfl, ⟨rfl, hidle, (List.append_nil _).symm⟩, hbusy, hx⟩
  | p :: probes, a, n, s, hidle, hgood, hbusy, hx => by
    obtain ⟨⟨h1, h2⟩, hgood⟩ := List.forall_mem_cons.1 hgood
    obtain ⟨u, hfirst, hu, hubusy, hux⟩ := scanLoop_probe (k := k + probes.length) (a := a) (n := n) hidle hbusy hx h1 h2
    obtain ⟨t, hrest, ht, htbusy, htx⟩ := scanLoop_probes (a := a + 1) hu.idle hgood hubusy hux
    refine ⟨t, ?_, probeEvents_cons a p probes ▸ hu.append ht, htbusy, htx⟩
    rw [List.length_cons, ← Nat.add_assoc, hfirst, hrest, List.countP_cons]
    congr 1 <;> omega

/-! ## The command -/

/-- A scan from `s` whose probes `probes` are answered ends with the class `c`, the count of those acknowledged, and the events `more`
after those of the probes. -/
def ScanEnds (s : State) (probes : List (Xfer × Xfer)) (c : StClass) (more : List BusEvent) : Prop :=
  ∃ t, exec .i2cScan s = .next t ∧
    t.i2c.resStatus = c.code s.cfg.st ++ BitVec.ofNat 16 (probes.countP fun p => evalTx p.2 == .ok) ∧
    t.i2c.fsm = .idle ∧ t.i2c.busy = false ∧ t.i2c.trace = s.i2c.trace ++ probeEvents s.cfg.scanLo probes ++ more

/-- What the scan does after its answered probes decides how it ends. -/
theorem scanEnds_of_scanLoop {s : State} {probes : List (Xfer × Xfer)} {xs : List Xfer} {bs : List Bool} {k : Nat} {c : StClass}
    {more : List BusEvent} (hbusy : s.i2c.busy = false) (hopened : s.i2c.opened = true) (hidle : s.i2c.fsm = .idle)
    (hgood : ∀ p ∈ probes, evalCond p.1 = .ok ∧ (evalTx p.2 = .ok ∨ evalTx p.2 = .nack))
    (hfree : s.busyIn = List.replicate probes.length true ++ bs) (hx : s.xferIn = probes.flatMap (fun p => [p.1, p.2]) ++ xs)
    (hk : s.cfg.scanHi + 1 - s.cfg.scanLo = k + probes.length)
    (hend : ∀ n t, t.i2c.fsm = .idle → t.busyIn = bs → t.xferIn = xs →
      ∃ u, scanLoop k (s.cfg.scanLo + probes.length) n t = (⟨c, BitVec.ofNat 16 n⟩, u) ∧ Scanned t more u) :
    ScanEnds s probes c more := by
  obtain ⟨t, hloop, ht, htbusy, htx⟩ :=
    scanLoop_probes (k := k) (a := s.cfg.scanLo) (n := 0) (s := begun s) hidle hgood hfree hx
  obtain ⟨u, hrest, hu⟩ := hend (0 + probes.countP fun p => evalTx p.2 == .ok) t ht.idle htbusy htx
  have hscan : scan (begun s) = (⟨c, BitVec.ofNat 16 (probes.countP fun p => evalTx p.2 == .ok)⟩, u) := by
    rw [scan, mapI2c_cfg, hk, hloop, hrest, Nat.zero_add]
  obtain ⟨hcfg, huidle, htrace⟩ := ht.append hu
  refine ⟨_, i2cCommand_admitted hbusy (needsI2cOpen_eq_none.2 hopened), ?_, ?_, rfl, ?_⟩ <;> rw [hscan]
  · exact congrArg (fun d => Status.word d _) hcfg
  · exact huidle
  · exact htrace.trans (List.append_assoc _ _ _).symm

/-- Settles O32: by induction the answered probes leave their events and their count; then the range is used up, or a probe fails. -/
theorem scanCountsAcknowledgements : Obligations.ScanCountsAcknowledgements := by
  unfold Obligations.ScanCountsAcknowledgements
  intro s probes xs bs _ hbusy hopened hidle hgood hfree hx
  have hends {k : Nat} {c : StClass} {more : List BusEvent} :=
    scanEnds_of_scanLoop (k := k) (c := c) (more := more) hbusy hopened hidle hgood hfree hx
  refine ⟨fun hall => ?_, fun hmore => ?_⟩
  · exact hends (k := 0) (by omega) fun n t htidle _ _ => ⟨t, rfl, rfl, htidle, (List.append_nil _).symm⟩
  obtain ⟨k, hk⟩ := Nat.exists_eq_add_of_lt hmore
  have hk : s.cfg.scanHi + 1 - s.cfg.scanLo = k + 1 + probes.length := by omega
  refine ⟨fun bs' hbs => hends hk ?_, fun bs' bad xs' hbs hxs hbad => hends hk ?_,
    fun bs' r bad xs' hbs hxs hr hbad hnack => hends hk ?_⟩
  · exact fun n t htidle htbusy _ =>
      ⟨_, scanLoop_wait_fails htidle (htbusy.trans hbs), rfl, htidle, (List.append_nil _).symm⟩
  · exact fun n t htidle htbusy htx => scanLoop_start_fails htidle (htbusy.trans hbs) (htx.trans hxs) hbad
  · exact fun n t htidle htbusy htx =>
      scanLoop_address_fails htidle (htbusy.trans hbs) (htx.trans hxs) hr hbad hnack

end Sys2Proof.Machine
end

section
/-! SUPPORT. The bus trace stays well formed (spec 40_i2c_primitives.md R120; 10_state.md R22, R24, R25, R29): what the trace shows
between two primitives, what each primitive needs of it and leaves, and so every operation of the I2C engine. -/

namespace Sys2Proof.Machine

/-! ## What the trace shows (R24, R120) -/

/-- The protocol state is one of those between two operations, and the trace shows it: the invariant `I2cInv` but for `BUSY`. -/
abbrev Traced (d : I2c) : Prop :=
  d.fsm ≠ .addressing ∧ d.fsm ≠ .stopping ∧ (d.fsm = .closed ↔ d.opened = false) ∧
  readTrace d.trace = some (traceExpected d)

/-- `Traced`, and the device is open: what an operation on an open device begins and ends with. -/
abbrev OpenTraced (d : I2c) : Prop := d.opened = true ∧ Traced d

/-- The device is open, in the protocol state `f`, and the trace is well formed and shows `t`. -/
def Shows (f : Fsm) (t : TraceState) (d : I2c) : Prop :=
  d.opened = true ∧ d.fsm = f ∧ readTrace d.trace = some t

/-- A transfer in the direction `rw` is in progress. -/
def Transferring (rw : Bool) (d : I2c) : Prop := Shows .transferringData ⟨true, .transfer rw⟩ d ∧ d.tDir = rw

/-- The last bus action failed. -/
abbrev Failed (d : I2c) : Prop := Shows .error ⟨true, .broken⟩ d

/-- A transaction can begin or be stopped: the bus is idle, or held by a transfer or a failed action. It says less than `OpenTraced`,
because `write` sets `T_DIR` before its start, maybe over a transfer in the other direction (R135). -/
def Ready (d : I2c) : Prop :=
  Shows .idle {} d ∨ ∃ p, Shows .transferringData ⟨true, p⟩ d ∨ Shows .error ⟨true, p⟩ d

section
variable {s : State} {d : I2c} {f : Fsm} {t u : TraceState} {e : BusEvent} {rw : Bool}

theorem shows_emit (h : Shows f t s.i2c) (hstep : traceStep t e = some u) : Shows f u (emit e s).i2c := by
  obtain ⟨hopen, hfsm, htrace⟩ := h
  refine ⟨hopen, hfsm, ?_⟩
  rw [emit_i2c, readTrace_snoc, htrace]
  exact hstep

theorem shows_setFsm (g : Fsm) (h : Shows f t s.i2c) : Shows g t (setFsm g s).i2c := by
  obtain ⟨hopen, -, htrace⟩ := h
  exact ⟨hopen, rfl, htrace⟩

theorem shows_askXfer (h : Shows f t s.i2c) : Shows f t (askXfer s).2.i2c := by
  rwa [askXfer_i2c]

theorem shows_stop (h : Shows f t s.i2c) : Shows .idle {} (stop s).2.i2c :=
  shows_setFsm _ (shows_emit (shows_setFsm .stopping h) rfl)

theorem openTraced_of_idle (h : Shows .idle {} d) : OpenTraced d := by
  obtain ⟨hopen, hfsm, htrace⟩ := h
  simp [OpenTraced, Traced, hopen, hfsm, htrace, traceExpected]

theorem openTraced_of_transferring (h : Transferring rw d) : OpenTraced d := by
  obtain ⟨⟨hopen, hfsm, htrace⟩, hdir⟩ := h
  simp [OpenTraced, Traced, hopen, hfsm, htrace, hdir, traceExpected]

theorem openTraced_of_failed (h : Failed d) : OpenTraced d := by
  obtain ⟨hopen, hfsm, htrace⟩ := h
  simp [OpenTraced, Traced, hopen, hfsm, htrace, traceExpected]

theorem OpenTraced.transferring (h : OpenTraced d) (hfsm : d.fsm = .transferringData) : Transferring d.tDir d := by
  obtain ⟨hopen, -, -, -, htrace⟩ := h
  exact ⟨⟨hopen, hfsm, by simpa only [traceExpected, hfsm] using htrace⟩, rfl⟩

/-- Between two operations an open device is in one of three protocol states. -/
theorem OpenTraced.ready (h : OpenTraced d) : Ready d := by
  obtain ⟨hopen, haddr, hstop, hclosed, htrace⟩ := h
  cases hfsm : d.fsm with
  | idle => exact .inl ⟨hopen, hfsm, by simpa only [traceExpected, hfsm] using htrace⟩
  | transferringData => exact .inr ⟨_, .inl ⟨hopen, hfsm, by simpa only [traceExpected, hfsm] using htrace⟩⟩
  | error => exact .inr ⟨_, .inr ⟨hopen, hfsm, by simpa only [traceExpected, hfsm] using htrace⟩⟩
  | closed => exact absurd (hclosed.1 hfsm) (by simp [hopen])
  | addressing => exact absurd hfsm haddr
  | stopping => exact absurd hfsm hstop

theorem ready_of_transferring (h : Transferring rw d) : Ready d := (openTraced_of_transferring h).ready

theorem Ready.shows (h : Ready d) : ∃ f t, Shows f t d := by
  rcases h with h | ⟨p, h | h⟩ <;> exact ⟨_, _, h⟩

theorem Ready.idle (h : Ready d) (hfsm : d.fsm = .idle) : Shows .idle {} d := by
  rcases h with h | ⟨p, ⟨-, hheld, -⟩ | ⟨-, hheld, -⟩⟩
  · exact h
  · cases hfsm.symm.trans hheld
  · cases hfsm.symm.trans hheld

/-- The trace shows the bus held exactly when the next start is a repeated one (R113 line 1, R120 d). -/
theorem Ready.begun (addr : BitVec 7) (rw : Bool) (h : Ready s.i2c) :
    ∃ p, Shows .addressing ⟨repeated s, p⟩ (startBegun addr rw s).i2c := by
  rcases h with ⟨hopen, hfsm, htrace⟩ | ⟨p, ⟨hopen, hfsm, htrace⟩ | ⟨hopen, hfsm, htrace⟩⟩ <;>
    rw [repeated_eq, hfsm]
  · exact ⟨.quiet, hopen, rfl, htrace⟩
  · exact ⟨p, hopen, rfl, htrace⟩
  · exact ⟨p, hopen, rfl, htrace⟩

end

/-! ## The primitives (R113, R115, R116) -/

/-- A bus action of a transfer in the direction `rw` has ended: the transfer goes on, or the action failed. -/
def Acted (rw : Bool) (r : Status × State) : Prop :=
  if r.1.cls = .ok then Transferring rw r.2.i2c else Failed r.2.i2c

theorem resOf_ne_ok {c : StClass} (h : c ≠ .ok) : resOf c ≠ .ok := by
  cases c <;> simp_all [resOf]

theorem after_resOf {c : StClass} (p : TracePhase) (h : c ≠ .ok) : TracePhase.after (resOf c) p = .broken :=
  if_neg (resOf_ne_ok h)

section
variable {s : State} {rw : Bool}

theorem acted_sendByte (b : Byte) (h : Transferring false s.i2c) : Acted false (sendByte b s) := by
  obtain ⟨hshows, hdir⟩ := h
  have hasked := shows_askXfer hshows
  rw [sendByte_eq]
  by_cases hr : evalTx (askXfer s).1 = .ok
  · simp only [Acted, hr, if_true, okStatus]
    exact ⟨shows_emit hasked rfl, by simpa only [emit_i2c, askXfer_i2c] using hdir⟩
  · simp only [Acted, hr, if_false]
    exact shows_setFsm _ (shows_emit hasked (by simp [traceStep, after_resOf _ hr]))

theorem acted_receiveByte (ack : Bool) (h : Transferring true s.i2c) : Acted true (receiveByte ack s) := by
  obtain ⟨hshows, hdir⟩ := h
  have hasked := shows_askXfer hshows
  rw [receiveByte_eq]
  by_cases hr : evalRx (askXfer s).1 = .ok
  · simp only [Acted, hr, if_true, okStatus]
    exact ⟨shows_emit hasked rfl, by simpa only [emit_i2c, askXfer_i2c] using hdir⟩
  · simp only [Acted, hr, if_false]
    exact shows_setFsm _ (shows_emit hasked (by simp [traceStep, after_resOf _ hr]))

theorem acted_sendAddress (addr : BitVec 7) (h : Shows .addressing ⟨true, .started⟩ s.i2c) (hdir : s.i2c.tDir = rw) :
    Acted rw (sendAddress addr rw s) := by
  have hasked := shows_askXfer h
  rw [sendAddress_eq]
  by_cases hr : evalTx (askXfer s).1 = .ok
  · simp only [Acted, hr, if_true, okStatus]
    exact ⟨shows_setFsm _ (shows_emit hasked rfl), by simpa only [setFsm_i2c, emit_i2c, askXfer_i2c] using hdir⟩
  · simp only [Acted, hr, if_false]
    exact shows_setFsm _ (shows_emit hasked (by simp [traceStep, after_resOf _ hr]))

theorem acted_start (addr : BitVec 7) (rw : Bool) (h : Ready s.i2c) : Acted rw (start addr rw s) := by
  obtain ⟨p, hbegun⟩ := h.begun addr rw
  have hasked := shows_askXfer hbegun
  by_cases hr : evalCond (askXfer (startBegun addr rw s)).1 = .ok
  · rw [start_ok hr]
    exact acted_sendAddress addr (shows_emit hasked (by simp [traceStep, TracePhase.after]))
      (by rw [emit_i2c, askXfer_i2c]; rfl)
  · rw [start_fail hr]
    simp only [Acted, hr, if_false]
    exact shows_setFsm _ (shows_emit hasked (by simp [traceStep, after_resOf _ hr]))

end

/-! ## Primitives in sequence (R140, R141) -/

section
variable {s : State} {rw : Bool} {n : BitVec 16} {r : Status × State} {go : Status → State → Status × State}

theorem openTraced_of_acted (h : Acted rw r) : OpenTraced r.2.i2c := by
  unfold Acted at h
  split at h
  · exact openTraced_of_transferring h
  · exact openTraced_of_failed h

theorem openTraced_stop (h : Ready s.i2c) : OpenTraced (stop s).2.i2c := by
  obtain ⟨f, t, h⟩ := h.shows
  exact openTraced_of_idle (shows_stop h)

theorem openTraced_abort (c : StClass) (h : Ready s.i2c) : OpenTraced (abort c n s).2.i2c := by
  unfold abort
  dsimp only
  split
  · next hidle => exact openTraced_of_idle (h.idle hidle)
  · exact openTraced_stop h

/-- A bus action in an operation: if it fails the operation stops the bus, and else the rest finds the transfer going on. -/
theorem openTraced_orAbort (h : Acted rw r) (hgo : ∀ st t, Transferring rw t.i2c → OpenTraced (go st t).2.i2c) :
    OpenTraced (orAbort n r go).2.i2c :=
  orAbort_cases (P := fun q => OpenTraced q.2.i2c)
    (fun hok => hgo _ _ (by simpa only [Acted, hok, if_true] using h))
    fun _ => openTraced_abort _ (openTraced_of_acted h).ready

/-- The wait before an operation's start takes no bus action (R112). -/
theorem openTraced_afterWait (h : Ready s.i2c) (hgo : ∀ st t, Ready t.i2c → OpenTraced (go st t).2.i2c) :
    OpenTraced (orAbort n (waitBusy s) go).2.i2c := by
  have hwait : Ready (waitBusy s).2.i2c := by rwa [waitBusy_i2c]
  exact orAbort_cases (P := fun q => OpenTraced q.2.i2c) (fun _ => hgo _ _ hwait) fun _ => openTraced_abort _ hwait

end

/-! ## The operations (R134 to R139) -/

theorem transferring_writeSpace {rw : Bool} (sp : Space) (a : Nat) (b : Byte) {s : State} (h : Transferring rw s.i2c) :
    Transferring rw (writeSpace sp a b s).i2c := by
  cases sp <;> exact h

theorem openTraced_sendLoop (sp : Space) (buf : Nat) : ∀ (rem n : Nat) {s : State}, Transferring false s.i2c →
    OpenTraced (sendLoop sp buf rem n s).2.i2c
  | 0, _, _, h => openTraced_stop (ready_of_transferring h)
  | rem + 1, n, _, h => openTraced_orAbort (acted_sendByte _ h) fun _ _ ht => openTraced_sendLoop sp buf rem (n + 1) ht

theorem openTraced_receiveLoop (sp : Space) (buf : Nat) (stopComm : Bool) : ∀ (rem n : Nat) {s : State},
    Transferring true s.i2c → OpenTraced (receiveLoop sp buf stopComm rem n s).2.i2c
  | 0, _, _, h => by
    cases stopComm
    · exact openTraced_of_transferring h
    · exact openTraced_stop (ready_of_transferring h)
  | rem + 1, n, _, h =>
    openTraced_orAbort (acted_receiveByte _ h) fun _ _ ht =>
      openTraced_receiveLoop sp buf stopComm rem (n + 1) (transferring_writeSpace sp _ _ ht)

section
variable {s : State} (sp : Space) (addr : BitVec 7) (reg : Byte) (buf : Nat) (count : BitVec 16)

theorem openTraced_writeBuffer (h : Ready s.i2c) : OpenTraced (writeBuffer sp addr reg buf count s).2.i2c :=
  openTraced_afterWait h fun _ _ ht =>
    openTraced_orAbort (acted_start addr false ht) fun _ _ ht =>
    openTraced_orAbort (acted_sendByte reg ht) fun _ _ ht => openTraced_sendLoop sp buf count.toNat 0 ht

theorem openTraced_readBuffer (h : Ready s.i2c) : OpenTraced (readBuffer sp addr reg buf count s).2.i2c :=
  openTraced_afterWait h fun _ _ ht =>
    openTraced_orAbort (acted_start addr false ht) fun _ _ ht =>
    openTraced_orAbort (acted_sendByte reg ht) fun _ _ ht =>
    openTraced_orAbort (acted_start addr true (ready_of_transferring ht)) fun _ _ ht =>
    openTraced_receiveLoop sp buf true count.toNat 0 ht

theorem openTraced_readRaw (stopComm : Bool) (h : Ready s.i2c) : OpenTraced (readRaw addr buf count stopComm s).2.i2c :=
  openTraced_afterWait h fun _ _ ht =>
    openTraced_orAbort (acted_start addr true ht) fun _ _ ht =>
    openTraced_receiveLoop .hbuf buf stopComm count.toNat 0 ht

theorem openTraced_writeTyped (size : Byte) (h : Ready s.i2c) : OpenTraced (writeTyped addr reg size s).2.i2c :=
  openTraced_writeBuffer .scr addr reg 0 (size.setWidth 16) h

theorem openTraced_readTyped (size : Byte) (h : Ready s.i2c) : OpenTraced (readTyped addr reg size s).2.i2c := by
  obtain ⟨v, n, heq⟩ := typedResult_eq size (readBuffer .scr addr reg 0 (size.setWidth 16) s).1
    (readBuffer .scr addr reg 0 (size.setWidth 16) s).2
  have heq : (readTyped addr reg size s).2 = _ := heq
  rw [heq]
  exact openTraced_readBuffer .scr addr reg 0 (size.setWidth 16) h

end

theorem openTraced_scanLoop : ∀ (k a n : Nat) {s : State}, OpenTraced s.i2c → OpenTraced (scanLoop k a n s).2.i2c
  | 0, _, _, _, h => h
  | k + 1, a, n, _, h => openTraced_afterWait h.ready fun _ t ht => by
      have hstop := openTraced_stop (openTraced_of_acted (acted_start (BitVec.ofNat 7 a) false ht)).ready
      dsimp only
      split
      · exact openTraced_scanLoop k (a + 1) (n + 1) hstop
      · split
        · exact openTraced_scanLoop k (a + 1) n hstop
        · exact hstop

/-! ## Bring-up and tear-down (R117, R131, R132) -/

theorem traced_i2cClose {s : State} (h : Traced s.i2c) : Traced (i2cClose s).2.i2c := by
  obtain ⟨-, -, -, htrace⟩ := id h
  unfold i2cClose
  split
  · refine ⟨nofun, nofun, by simp, ?_⟩
    rw [mapI2c_i2c, emit_i2c, readTrace_snoc, htrace]
    rfl
  · exact h

theorem traced_i2cOpen {s : State} (h : Traced s.i2c) : Traced (i2cOpen s).2.i2c := by
  obtain ⟨l, n, hask⟩ := askInitOk_state s
  obtain ⟨-, -, hclosed, htrace⟩ := id h
  unfold i2cOpen
  split
  · exact h
  · next hopen =>
    have hfsm : s.i2c.fsm = .closed := hclosed.2 (by simpa using hopen)
    simp only [traceExpected, hfsm] at htrace
    simp only [hask]
    split
    · refine ⟨nofun, nofun, by simp, ?_⟩
      rw [mapI2c_i2c, emit_i2c, readTrace_snoc, htrace]
      rfl
    · exact h

theorem traced_i2cReset {s : State} (h : Traced s.i2c) : Traced (i2cReset s).2.i2c := traced_i2cOpen (traced_i2cClose h)

/-! ## Admission (R118, R130) -/

section
variable {s : State} {dir : Bool}

theorem admitsStartStop_eq_none : admitsStartStop s = none ↔
    s.i2c.opened = true ∧ (s.i2c.fsm = .idle ∨ s.i2c.fsm = .transferringData ∨ s.i2c.fsm = .error) := by
  unfold admitsStartStop
  split
  · next hclosed => simp [hclosed]
  · next hopen =>
    rw [Bool.not_eq_false] at hopen
    split <;> simp [*]

theorem admitsTransfer_eq_none : admitsTransfer dir s = none ↔
    s.i2c.opened = true ∧ s.i2c.fsm = .transferringData ∧ s.i2c.tDir = dir := by
  cases hopen : s.i2c.opened <;> simp [admitsTransfer, hopen]

theorem ready_of_opened (h : Traced s.i2c) (hopen : s.i2c.opened = true) : Ready s.i2c := OpenTraced.ready ⟨hopen, h⟩

theorem ready_of_needsI2cOpen (h : Traced s.i2c) (hadmit : needsI2cOpen s = none) : Ready s.i2c :=
  ready_of_opened h (needsI2cOpen_eq_none.1 hadmit)

theorem ready_of_admitsTyped {size : Byte} (h : Traced s.i2c) (hadmit : admitsTyped size s = none) : Ready s.i2c :=
  ready_of_opened h (admitsTyped_eq_none.1 hadmit).2

theorem ready_of_admitsStartStop (h : Traced s.i2c) (hadmit : admitsStartStop s = none) : Ready s.i2c :=
  ready_of_opened h (admitsStartStop_eq_none.1 hadmit).1

theorem transferring_of_admitsTransfer (h : Traced s.i2c) (hadmit : admitsTransfer dir s = none) :
    Transferring dir s.i2c := by
  obtain ⟨hopen, hfsm, rfl⟩ := admitsTransfer_eq_none.1 hadmit
  exact OpenTraced.transferring ⟨hopen, h⟩ hfsm

end

/-! ## The commands and the steps -/

/-- A command keeps the invariant when its operation, where it is admitted, leaves the trace showing the protocol state. -/
theorem i2cInv_i2cCommand {refusal : Option Refusal} {body : State → Status × State} {s t : State}
    (hbody : refusal = none → Traced (body (begun s)).2.i2c) (h : i2cCommand refusal body s = .next t) : I2cInv t := by
  obtain ⟨-, hadmit, rfl⟩ := i2cCommand_eq_next.1 h
  exact ⟨rfl, hbody hadmit⟩

theorem i2cInv_exec_i2c {i : Instr} {s t : State} (hi : i.isI2c = true) (hs : I2cInv s) (h : exec i s = .next t) :
    I2cInv t := by
  obtain ⟨-, hs⟩ := hs
  cases i with
  | i2cOpen => exact i2cInv_i2cCommand (refusal := none) (fun _ => traced_i2cOpen (s := begun s) hs) h
  | i2cClose => exact i2cInv_i2cCommand (refusal := none) (fun _ => traced_i2cClose (s := begun s) hs) h
  | i2cReset => exact i2cInv_i2cCommand (refusal := none) (fun _ => traced_i2cReset (s := begun s) hs) h
  | i2cIsopen => exact i2cInv_i2cCommand (refusal := none) (body := i2cIsOpen) (fun _ => hs) h
  | i2cScan =>
    exact i2cInv_i2cCommand (fun ha => (openTraced_scanLoop _ _ _ (s := begun s) ⟨needsI2cOpen_eq_none.1 ha, hs⟩).2) h
  | i2cWrite addr reg =>
    exact i2cInv_i2cCommand
      (fun ha => (openTraced_writeBuffer _ _ _ _ _ (s := begun s) (ready_of_needsI2cOpen hs ha)).2) h
  | i2cRead addr reg =>
    exact i2cInv_i2cCommand
      (fun ha => (openTraced_readBuffer _ _ _ _ _ (s := begun s) (ready_of_needsI2cOpen hs ha)).2) h
  | i2cReadraw stopComm addr =>
    exact i2cInv_i2cCommand (fun ha => (openTraced_readRaw _ _ _ _ (s := begun s) (ready_of_needsI2cOpen hs ha)).2) h
  | i2cWritet addr reg size =>
    exact i2cInv_i2cCommand (fun ha => (openTraced_writeTyped _ _ _ (s := begun s) (ready_of_admitsTyped hs ha)).2) h
  | i2cReadt addr reg size =>
    exact i2cInv_i2cCommand (fun ha => (openTraced_readTyped _ _ _ (s := begun s) (ready_of_admitsTyped hs ha)).2) h
  | i2cWaitbusy =>
    refine i2cInv_i2cCommand (body := waitBusy) (fun _ => ?_) h
    rw [waitBusy_i2c]
    exact hs
  | i2cStart rw addr =>
    exact i2cInv_i2cCommand
      (fun ha => (openTraced_of_acted (acted_start addr rw (s := begun s) (ready_of_admitsStartStop hs ha))).2) h
  | i2cStop =>
    exact i2cInv_i2cCommand (fun ha => (openTraced_stop (s := begun s) (ready_of_admitsStartStop hs ha)).2) h
  | i2cSendb b =>
    exact i2cInv_i2cCommand
      (fun ha => (openTraced_of_acted (acted_sendByte b (s := begun s) (transferring_of_admitsTransfer hs ha))).2) h
  | i2cRecvb ack =>
    exact i2cInv_i2cCommand
      (fun ha => (openTraced_of_acted (acted_receiveByte ack (s := begun s) (transferring_of_admitsTransfer hs ha))).2) h
  | uOpen | uClose | uIsopen | uAvail | uFlush | uSend | uSendbuf | uSendstr | uRecv | uRecvbuf | onRx | onTxe => cases hi

/-- Settles O13: an I2C command is a sequence of primitives, each of which finds in the trace what R120 asks for its event; the host's
moves write operand registers only, and no other agent touches the engine. -/
theorem stepKeepsTraceWellFormed : Obligations.StepKeepsTraceWellFormed := by
  unfold Obligations.StepKeepsTraceWellFormed
  intro s t hs hstep
  have of_i2c {u : State} (h : u.i2c = s.i2c) : I2cInv u := by
    simpa only [I2cInv, h] using hs
  have of_mapUart {u : State} (h : ∃ f, u = s.taken.mapUart f) : I2cInv u := by
    obtain ⟨f, rfl⟩ := h
    exact hs
  cases stepKind_step s with
  | refused r h => cases h.symm.trans hstep
  | host u hu h =>
    cases h.symm.trans hstep
    obtain ⟨n, a, v, hi2c⟩ := hu.i2c
    rw [I2cInv, hi2c]
    exact hs
  | setGie b rest hsched h => cases h.symm.trans hstep; exact hs
  | i2cCommand w i hi h =>
    exact i2cInv_exec_i2c (s := s.taken.mapI2c fun d => { d with cw := w }) hi hs (h.symm.trans hstep)
  | uartCommand w rest hsched i hi h =>
    obtain ⟨op, b, -, heq⟩ := exec_uart_eq hi (s.taken.mapUart fun u => { u with cw := w })
    exact of_i2c (keepsTo_uartCommand _ _ _ _ _ t (heq.symm.trans (h.symm.trans hstep))).i2c
  | onRx h => exact of_mapUart (execOnRx_eq_mapUart (h.symm.trans hstep))
  | onTxe h => exact of_mapUart (execOnTxe_eq_mapUart (h.symm.trans hstep))
  | line j hj h => exact of_i2c (keepsTo_lineStep j s.taken t (h.symm.trans hstep)).i2c
  | hwRx b e h => cases h.symm.trans hstep; exact of_mapUart (hwRx_eq_mapUart b e s.taken)
  | hwTxTake h => cases h.symm.trans hstep; exact of_mapUart (hwTxTake_eq_mapUart s.taken)
  | hwTxDone h => cases h.symm.trans hstep; exact of_mapUart (hwTxDone_eq_mapUart s.taken)

end Sys2Proof.Machine
end

section
/-! SUPPORT. The primitives as commands of the host: what is refused, and what each one that is admitted does (spec
40_i2c_primitives.md R110 to R118; 41_i2c_operations.md R130; 43_uart_operations.md R180; 60_exceptions.md R216;
70_reset_and_hazards.md R245, R247). -/

namespace Sys2Proof.Machine

/-! ## Refusals (R118, R130, R180, R216, R247) -/

section
variable {s : State}

theorem i2cCommand_busy {refusal : Option Refusal} {body : State → Status × State} (hbusy : s.i2c.busy = true) :
    i2cCommand refusal body s = .refused .busy := if_pos hbusy

theorem uartCommand_busy {refusal : Option Refusal} {op : UOp} {first : Line} {b : Byte} (hbusy : s.uart.busy = true) :
    uartCommand refusal op first b s = .refused .busy := if_pos hbusy

theorem uartCommand_refused {op : UOp} {first : Line} {b : Byte} {r : Refusal} (hbusy : s.uart.busy = false) :
    uartCommand (some r) op first b s = .refused r := by
  simp [uartCommand, hbusy]

theorem takeInterrupt_refused {c : BitVec 1} {entry : State → Out} (h : (s.gie && causePending c s.uart) = false) :
    takeInterrupt c entry s = .refused .notTaken := by
  simp [takeInterrupt, h]

theorem needsI2cOpen_closed (h : s.i2c.opened = false) : needsI2cOpen s = some .notOpen := by
  simp [needsI2cOpen, h]

theorem needsUartOpen_closed (h : s.uart.opened = false) : needsUartOpen s = some .notOpen := by
  simp [needsUartOpen, h]

theorem admitsTyped_closed {size : Byte} (hsize : typedSizeOk size = true) (h : s.i2c.opened = false) :
    admitsTyped size s = some .notOpen :=
  (if_pos hsize).trans (needsI2cOpen_closed h)

theorem admitsStartStop_closed (h : s.i2c.opened = false) : admitsStartStop s = some .notOpen := if_pos h

theorem admitsTransfer_closed {dir : Bool} (h : s.i2c.opened = false) : admitsTransfer dir s = some .notOpen := if_pos h

theorem admitsStartStop_notAdmitted (hopen : s.i2c.opened = true) (hidle : s.i2c.fsm ≠ .idle)
    (htransfer : s.i2c.fsm ≠ .transferringData) (herror : s.i2c.fsm ≠ .error) : admitsStartStop s = some .notAdmitted := by
  simp [admitsStartStop, hopen, hidle, htransfer, herror]

theorem admitsTransfer_notAdmitted {dir : Bool} (hopen : s.i2c.opened = true)
    (h : ¬ (s.i2c.fsm = .transferringData ∧ s.i2c.tDir = dir)) : admitsTransfer dir s = some .notAdmitted := by
  simp only [admitsTransfer, hopen, if_neg h, Bool.true_eq_false, if_false]

end

/-- The operation of a UART command is admitted on a port that is not open exactly when the command is (R180). -/
theorem anyPort_of_uartOp {i : Instr} {op : UOp} (h : uartOp i = some op) : op.anyPort ↔ i.anyPort = true := by
  cases i <;> cases h <;> simp [UOp.anyPort, Instr.anyPort]

/-- On a device that is not open (R130). -/
theorem exec_i2c_notOpen {i : Instr} {s : State} (hwf : i.wf = true) (hi : i.isI2c = true) (hany : i.anyDevice = false)
    (hbusy : s.i2c.busy = false) (hopen : s.i2c.opened = false) : exec i s = .refused .notOpen := by
  have refused {refusal : Option Refusal} {body : State → Status × State} (h : refusal = some .notOpen) :
      i2cCommand refusal body s = .refused .notOpen := by
    rw [h]
    exact i2cCommand_refused hbusy
  cases i with
  | i2cScan | i2cWrite | i2cRead | i2cReadraw | i2cWaitbusy => exact refused (needsI2cOpen_closed hopen)
  | i2cWritet | i2cReadt => exact refused (admitsTyped_closed hwf hopen)
  | i2cStart | i2cStop => exact refused (admitsStartStop_closed hopen)
  | i2cSendb | i2cRecvb => exact refused (admitsTransfer_closed hopen)
  | i2cOpen | i2cClose | i2cIsopen | i2cReset => cases hany
  | uOpen | uClose | uIsopen | uAvail | uFlush | uSend | uSendbuf | uSendstr | uRecv | uRecvbuf | onRx | onTxe => cases hi

/-- Settles O21: `BUSY` is looked at first, then the admission of the command; an entry point looks at `GIE` and its source. -/
theorem whatIsNotAdmittedIsRefused : Obligations.WhatIsNotAdmittedIsRefused := by
  unfold Obligations.WhatIsNotAdmittedIsRefused
  refine ⟨fun i s hwf => ⟨fun hi hbusy => ?_, fun hi hbusy => ?_, exec_i2c_notOpen hwf, fun hi hany hbusy hopen => ?_⟩,
    fun s hbusy hopen => ⟨fun hidle htransfer herror rw addr => ?_, fun hno b => ?_, fun hno ack => ?_⟩,
    fun s => ⟨fun hno => ?_, fun hno => ?_⟩⟩
  · obtain ⟨refusal, body, heq, -⟩ := exec_i2c_eq hi s
    exact heq.trans (i2cCommand_busy hbusy)
  · obtain ⟨op, b, -, heq⟩ := exec_uart_eq hi s
    exact heq.trans (uartCommand_busy hbusy)
  · obtain ⟨op, b, hop, heq⟩ := exec_uart_eq hi s
    have hanyOp : ¬ op.anyPort := by simp [anyPort_of_uartOp hop, hany]
    rw [heq, if_neg hanyOp, needsUartOpen_closed hopen, uartCommand_refused hbusy]
  · have hadmit := admitsStartStop_notAdmitted hopen hidle htransfer herror
    simp only [exec, execI2cStart, execI2cStop, hadmit, i2cCommand_refused hbusy, and_self]
  · simp only [exec, execI2cSendb, admitsTransfer_notAdmitted hopen hno, i2cCommand_refused hbusy]
  · simp only [exec, execI2cRecvb, admitsTransfer_notAdmitted hopen hno, i2cCommand_refused hbusy]
  · refine takeInterrupt_refused ?_
    rcases hno with h | h | h <;> simp [causePending, rxPending, statRxc, h]
  · refine takeInterrupt_refused ?_
    rcases hno with h | h | h <;> simp [causePending, txePending, statTxe, h]

/-! ## The outcome of a bus action (R110) -/

section
variable {r : Xfer}

theorem evalCond_of_not_done (h : r.done = false) : evalCond r = .busTimeout := if_pos h

theorem evalTx_of_not_done (h : r.done = false) : evalTx r = .busTimeout := if_pos h

theorem evalCond_of_done (h : r.done = true) : evalCond r = if r.err then .busError else .ok := by
  simp [evalCond, h]

theorem evalTx_of_done (h : r.done = true) :
    evalTx r = if r.err then .busError else if r.ack = true then .ok else .nack := by
  cases hack : r.ack <;> simp [evalTx, h, hack]

end

/-- Settles O22: by the order of the checks; a reception is classified as a condition is. -/
theorem busActionOutcome : Obligations.BusActionOutcome := by
  unfold Obligations.BusActionOutcome
  refine fun r => ⟨fun hdone => ?_, fun hdone herr => ?_, fun hdone herr => ?_, rfl, rfl, rfl, rfl⟩
  · simp [evalRx, evalCond_of_not_done hdone, evalTx_of_not_done hdone]
  · simp [evalRx, evalCond_of_done hdone, evalTx_of_done hdone, herr]
  · simp [evalRx, evalCond_of_done hdone, evalTx_of_done hdone, herr]

/-! ## The primitives that are admitted -/

/-- An admitted command ends with what its operation answers and the status word of R80; the engine is idle as before (R96). -/
theorem i2cCommand_of_body {refusal : Option Refusal} {body : State → Status × State} {s u : State} {st : Status}
    (hbusy : s.i2c.busy = false) (hadmit : refusal = none) (hbody : body (begun s) = (st, u)) :
    i2cCommand refusal body s = .next { u with
      i2c := { u.i2c with resStatus := st.cls.code u.cfg.st ++ st.payload, busy := s.i2c.busy } } := by
  rw [i2cCommand_admitted hbusy hadmit, hbody, hbusy]
  rfl

theorem waitBusy_cons {s : State} {clear : Bool} {rest : List Bool} (h : s.busyIn = clear :: rest) :
    waitBusy s = (if clear then okStatus 0#16 else ⟨.busTimeout, 0#16⟩, { s with busyIn := rest }) := by
  rw [waitBusy_eq, askBusyClear_cons h]

/-- Settles O23: the wait consumes one answer and returns its class; the stop leaves its event and an idle bus. -/
theorem waitBusyAndStopResult : Obligations.WaitBusyAndStopResult := by
  unfold Obligations.WaitBusyAndStopResult
  refine fun s hbusy hopen => ⟨fun clear rest hclear => ?_, fun hfsm => ?_⟩
  · refine (i2cCommand_of_body hbusy (needsI2cOpen_eq_none.2 hopen) (waitBusy_cons hclear)).trans ?_
    cases clear <;> simp [StClass.code, okStatus]
  · refine (i2cCommand_of_body (body := stop) hbusy (admitsStartStop_eq_none.2 ⟨hopen, hfsm⟩) rfl).trans ?_
    simp [setFsm, emit, State.mapI2c, StClass.code, okStatus]

/-- Where a start is admitted it is a repeated one unless the bus is idle (R113 line 1, R118). -/
theorem repeated_of_admitted {s : State} (h : s.i2c.fsm = .idle ∨ s.i2c.fsm = .transferringData ∨ s.i2c.fsm = .error) :
    repeated s = decide (s.i2c.fsm ≠ .idle) := by
  rcases h with h | h | h <;> simp [repeated, h]

/-- Settles O24: the start condition fails, or the address byte follows and fails, or both go well. -/
theorem startResult : Obligations.StartResult := by
  unfold Obligations.StartResult
  intro s addr rw r1 rest hbusy hopen hfsm hx rep
  have hrep : repeated (begun s) = rep := repeated_of_admitted hfsm
  have hadmit := admitsStartStop_eq_none.2 ⟨hopen, hfsm⟩
  refine ⟨fun h1 => ?_, fun h1 r2 rest' hrest => ?_⟩
  · refine (i2cCommand_of_body hbusy hadmit (start_bad (s := begun s) hx h1)).trans ?_
    rw [hrep]
    simp
  · rw [hrest] at hx
    by_cases h2 : evalTx r2 = .ok
    · refine (i2cCommand_of_body hbusy hadmit (start_good (s := begun s) hx h1 h2)).trans ?_
      rw [hrep]
      simp [StClass.code, okStatus, resOf, h2]
    · refine (i2cCommand_of_body hbusy hadmit (start_badAddress (s := begun s) hx h1 h2)).trans ?_
      rw [hrep]
      simp [h2]

/-- Settles O25: the byte is acknowledged, or sending it fails. -/
theorem sendByteResult : Obligations.SendByteResult := by
  unfold Obligations.SendByteResult
  intro s b r rest hbusy hopen hfsm hdir hx
  have hadmit := admitsTransfer_eq_none.2 ⟨hopen, hfsm, hdir⟩
  by_cases hr : evalTx r = .ok
  · refine (i2cCommand_of_body hbusy hadmit (sendByte_good (s := begun s) hx hr)).trans ?_
    simp [emit, State.mapI2c, StClass.code, okStatus, resOf, hr, hfsm]
  · refine (i2cCommand_of_body hbusy hadmit (sendByte_bad (s := begun s) hx hr)).trans ?_
    simp [setFsm, emit, State.mapI2c, hr]

theorem zero_append_eq_setWidth (b : Byte) : 0#8 ++ b = b.setWidth 16 := by
  rw [BitVec.setWidth_eq_append (by decide)]
  rfl

/-- Settles O26: the byte is received, or receiving it fails. -/
theorem receiveByteResult : Obligations.ReceiveByteResult := by
  unfold Obligations.ReceiveByteResult
  intro s ack r rest hbusy hopen hfsm hdir hx
  have hadmit := admitsTransfer_eq_none.2 ⟨hopen, hfsm, hdir⟩
  by_cases hr : evalRx r = .ok
  · refine (i2cCommand_of_body hbusy hadmit (receiveByte_good (s := begun s) hx hr)).trans ?_
    simp [emit, State.mapI2c, StClass.code, okStatus, resOf, zero_append_eq_setWidth, hr, hfsm]
  · refine (i2cCommand_of_body hbusy hadmit (receiveByte_bad (s := begun s) hx hr)).trans ?_
    simp [setFsm, emit, State.mapI2c, hr]

/-! ## Reset (R117, R131, R132) -/

section
variable {s : State} {initOk : Bool} {rest : List Bool}

theorem i2cReset_closed (hopen : s.i2c.opened = false) : i2cReset s = i2cOpen s := by
  simp [i2cReset, i2cClose, hopen]

theorem i2cReset_opened (hopen : s.i2c.opened = true) : i2cReset s = i2cOpen { s with
    i2c := { s.i2c with opened := false, fsm := .closed, trace := s.i2c.trace ++ [.cfgDeinit] } } := by
  simp [i2cReset, i2cClose, emit, State.mapI2c, hopen]

theorem i2cOpen_closed (hopen : s.i2c.opened = false) (h : s.initIn = initOk :: rest) :
    i2cOpen s = (if initOk then okStatus 0#16 else ⟨.busError, 0#16⟩, { s with
      initIn := rest
      i2c := { s.i2c with
        opened := initOk
        fsm := if initOk then .idle else s.i2c.fsm
        trace := s.i2c.trace ++ if initOk then [.cfgInit] else [] } }) := by
  cases initOk
  · have hsame : { s.i2c with opened := false } = s.i2c := by rw [← hopen]
    simp [i2cOpen, askInitOk_cons h, hopen, hsame]
  · simp [i2cOpen, askInitOk_cons h, hopen, emit, State.mapI2c]

end

/-- Settles O29: after its close the device is not open, so its open asks the environment. -/
theorem i2cResetResult : Obligations.I2cResetResult := by
  unfold Obligations.I2cResetResult
  intro s initOk rest hbusy hinit
  cases hopen : s.i2c.opened with
  | false =>
    have hreset := (i2cReset_closed (s := begun s) hopen).trans (i2cOpen_closed (s := begun s) hopen hinit)
    refine (i2cCommand_of_body (refusal := none) hbusy rfl hreset).trans ?_
    cases initOk <;> simp [StClass.code, okStatus]
  | true =>
    have hreset := (i2cReset_opened (s := begun s) hopen).trans (i2cOpen_closed rfl hinit)
    refine (i2cCommand_of_body (refusal := none) hbusy rfl hreset).trans ?_
    cases initOk <;> simp [StClass.code, okStatus]

end Sys2Proof.Machine
end

section
/-! SUPPORT. `write` and `write<T>` that fail (spec 41_i2c_operations.md R135, R138, R140 to R142): the register select fails as that of a
read does, or the data bytes go out one by one up to the one that fails. -/

namespace Sys2Proof.Machine

/-! ## A write that has failed (R140, R141) -/

/-- From `s`, after the good actions `pre`, an operation has failed at the action `a` and ended with `r`: the class of that failure, the
payload `n`, a stop, the bus idle. `Aborted` says it of the reads, whose payload counts the bytes they have stored. -/
structure Halted (s : State) (pre : List BusAction) (a : BusAction) (good : List Xfer) (bad : Xfer) (rest : List Xfer) (n : Nat)
    (r : Status × State) : Prop where
  status : r.1 = ⟨a.outcome bad, BitVec.ofNat 16 n⟩
  fsm : r.2.i2c.fsm = .idle
  xferIn : r.2.xferIn = rest
  trace : r.2.i2c.trace = s.i2c.trace ++ List.zipWith BusAction.event pre good ++ [a.event bad, .stop]

section
variable {s u : State} {sp : Space} {addr : BitVec 7} {reg : Byte} {buf : Nat} {count : BitVec 16} {bs : List Bool}
  {pre A : List BusAction} {a : BusAction} {good g : List Xfer} {bad : Xfer} {rest : List Xfer} {n : Nat} {r : Status × State}

theorem Aborted.halted {bytes : List Byte} (h : Aborted sp buf s pre a good bad rest bytes r) :
    Halted s pre a good bad rest bytes.length r :=
  ⟨h.status, h.fsm, h.xferIn, h.trace⟩

/-- A stage that went well, and then the failure. -/
theorem Halted.after (h : Halted u pre a good bad rest n r)
    (htrace : u.i2c.trace = s.i2c.trace ++ List.zipWith BusAction.event A g) (hlen : g.length = A.length) :
    Halted s (A ++ pre) a (g ++ good) bad rest n r :=
  ⟨h.status, h.fsm, h.xferIn, by rw [h.trace, htrace, List.zipWith_append hlen.symm]; simp⟩

/-- The command whose operation has failed returns as the spec asks (R96, R140, R141). -/
theorem Halted.stoppedAt (h : Halted (begun s) pre a good bad rest n r) (hcfg : r.2.cfg = s.cfg) :
    stoppedAt s (i2cReturn r.1 r.2) pre a good bad rest n := by
  refine ⟨?_, h.fsm, rfl, h.xferIn, h.trace⟩
  rw [i2cReturn_i2c, h.status, hcfg, Status.word]

theorem not_failsAt_nil {xfers : List Xfer} : ¬ failsAt [] pre a xfers good bad rest := by
  rintro ⟨⟨post, hacts⟩, -⟩
  simp at hacts

/-! ## The register select -/

/-- The start, the address byte or the register byte fails: no data byte has gone out. -/
theorem halted_selectRegister {dir : Bool} {go : Status → State → Status × State}
    (hfails : failsAt [.start (repeatedFrom s.i2c.fsm), .address addr false, .send reg] pre a s.xferIn good bad rest) :
    Halted s pre a good bad rest 0 (selectRegister addr reg go (transferBegun addr reg dir count bs s)) := by
  have h : Aborted .hbuf 0 (transferBegun addr reg dir count bs s) pre a good bad rest ((good.drop 3).map (·.data))
      (selectRegister addr reg go (transferBegun addr reg dir count bs s)) :=
    aborted_start (k := 1) (B := [.send reg] ++ []) rfl hfails fun u pre good _ hfsm hfails =>
      aborted_sendByte (k := 0) hfails hfsm fun u pre good _ _ hfails => absurd hfails not_failsAt_nil
  have hlt : good.length < 3 := failsAt_length_lt hfails
  rw [List.drop_eq_nil_of_le (by omega)] at h
  exact h.halted.after (A := []) (g := []) (by simp [transferBegun]) rfl

/-! ## The data bytes -/

/-- The data bytes of a write as bus actions, `rem` of them from offset `n` of the buffer on (R135 line 7). -/
def sendActions (sp : Space) (buf rem n : Nat) (s : State) : List BusAction :=
  (List.range rem).map fun k => .send (readSpace sp (effAddr s.cfg sp buf (n + k)) s)

theorem sendActions_succ (rem : Nat) : sendActions sp buf (rem + 1) n s =
    [.send (readSpace sp (effAddr s.cfg sp buf n) s)] ++ sendActions sp buf rem (n + 1) s := by
  simp [sendActions, List.range_succ_eq_map, Function.comp_def, Nat.add_assoc, Nat.add_comm 1]

/-- The bytes to send do not depend on the bus. -/
theorem sendActions_busKeeps {rem : Nat} (h : BusKeeps s u) : sendActions sp buf rem n u = sendActions sp buf rem n s := by
  simp only [sendActions, h.cfg, readSpace_busKeeps h]

/-- A data byte that fails ends the write there: the payload counts the bytes that went out before it. -/
theorem halted_sendLoop : ∀ {rem n : Nat} {s : State} {pre : List BusAction} {good : List Xfer},
    failsAt (sendActions sp buf rem n s) pre a s.xferIn good bad rest →
    Halted s pre a good bad rest (n + pre.length) (sendLoop sp buf rem n s)
  | 0, _, _, _, _, hfails => absurd hfails not_failsAt_nil
  | rem + 1, n, s, pre, good, hfails => by
    rw [sendActions_succ] at hfails
    rcases failsAt_append hfails with h | ⟨pre, g, good, rfl, rfl, hg, hok, hx, h⟩
    · obtain ⟨rfl, rfl, rfl, hx, hbad⟩ := failsAt_singleton h
      rw [sendLoop, sendByte_bad hx hbad, orAbort_fail hbad, abort_of_error rfl]
      exact ⟨rfl, rfl, rfl, by simp [stop, BusAction.event]⟩
    · obtain ⟨r, rfl⟩ := List.length_eq_one_iff.1 hg
      have hr : evalTx r = .ok := hok (.send (readSpace sp (effAddr s.cfg sp buf n) s), r) (by simp)
      rw [sendLoop, sendByte_good hx hr, orAbort_ok rfl]
      let u := countDown (emit (.txb (readSpace sp (effAddr s.cfg sp buf n) s) .ok) { s with xferIn := good ++ bad :: rest })
      have hkeeps : BusKeeps s u := ⟨rfl, rfl, rfl, rfl, rfl, rfl⟩
      have hrest : Halted u pre a good bad rest (n + 1 + pre.length) (sendLoop sp buf rem (n + 1) u) :=
        halted_sendLoop (sendActions_busKeeps hkeeps ▸ h)
      rw [List.length_append, List.length_singleton, ← Nat.add_assoc]
      exact hrest.after (A := [.send _]) (g := [r]) (by simp [u, countDown, BusAction.event, hr, resOf]) rfl

/-! ## The operations (R135, R138) -/

/-- A write that fails at its start, its address byte, its register byte or a data byte. -/
theorem halted_writeBuffer (hfree : s.busyIn = true :: bs)
    (hfails : failsAt (writeActions (repeatedFrom s.i2c.fsm) addr reg ((List.range count.toNat).map fun k =>
      readSpace sp (effAddr s.cfg sp buf k) s)) pre a s.xferIn good bad rest) :
    Halted s pre a good bad rest (pre.length - 3) (writeBuffer sp addr reg buf count s) := by
  rw [writeBuffer_free hfree]
  rcases failsAt_append hfails with h | ⟨pre, g, good, rfl, rfl, hg, hok, hx, h⟩
  · have hlen : pre.length < 3 := h.2.2.1 ▸ failsAt_length_lt h
    rw [Nat.sub_eq_zero_of_le (by omega)]
    exact halted_selectRegister h
  · obtain ⟨r1, r2, r3, rfl⟩ := List.length_eq_three.1 hg
    have h1 : evalCond r1 = .ok := hok (.start (repeatedFrom s.i2c.fsm), r1) (by simp)
    have h2 : evalTx r2 = .ok := hok (.address addr false, r2) (by simp)
    have h3 : evalTx r3 = .ok := hok (.send reg, r3) (by simp)
    rw [selectRegister_good hx h1 h2 h3]
    let u := registerSelected addr reg count bs (good ++ bad :: rest) s
    have hkeeps : BusKeeps s u := ⟨rfl, rfl, rfl, rfl, rfl, rfl⟩
    have hacts : sendActions sp buf count.toNat 0 u =
        ((List.range count.toNat).map fun k => readSpace sp (effAddr s.cfg sp buf k) s).map .send :=
      (sendActions_busKeeps hkeeps).trans (by simp [sendActions])
    have hrest : Halted u pre a good bad rest (0 + pre.length) (sendLoop sp buf count.toNat 0 u) :=
      halted_sendLoop (hacts ▸ h)
    rw [List.length_append, List.length_cons, List.length_cons, List.length_singleton, Nat.add_sub_cancel_left,
      ← Nat.zero_add pre.length]
    exact hrest.after (by simp [u, registerSelected, BusAction.event, h1, h2, h3, resOf]) rfl

end

/-- Settles O34: the register select fails, or a data byte after it; a typed write has staged its value before it begins. -/
theorem writeStopsAtFirstError : Obligations.WriteStopsAtFirstError := by
  unfold Obligations.WriteStopsAtFirstError
  intro s addr reg pre a good bad rest bs hbusy hopened hfree rep
  refine ⟨fun hfails => ?_, ?_⟩
  · have hkeeps := busKeeps_writeBuffer .hbuf addr reg s.i2c.oprBuf s.i2c.oprCount (begun s)
    have h := halted_writeBuffer (sp := .hbuf) (s := begun s) hfree hfails
    exact ⟨_, i2cCommand_admitted hbusy (needsI2cOpen_eq_none.2 hopened), h.stoppedAt hkeeps.cfg, hkeeps.hbuf⟩
  · intro size hsize hwf byte hfails
    let m := stageTyped s.cfg.wireOrder size.toNat s.i2c.oprValue size.toNat s.i2c.scratch
    let u := (begun s).mapI2c fun d => { d with scratch := m }
    have hstaged {k : Nat} (hk : k < size.toNat) : Memory.read m k = byte k := read_stageTyped_lt _ _ _ hwf hk
    have hbytes : (List.range size.toNat).map byte =
        (List.range (size.setWidth 16).toNat).map fun k => readSpace .scr (effAddr u.cfg .scr 0 k) u := by
      rw [toNat_setWidth_size]
      refine List.map_congr_left fun k hk => ?_
      rw [← hstaged (List.mem_range.1 hk), effAddr, Nat.zero_add]
      rfl
    rw [hbytes] at hfails
    have hkeeps := busKeeps_writeBuffer .scr addr reg 0 (size.setWidth 16) u
    have h : Halted (begun s) pre a good bad rest (pre.length - 3) (writeTyped addr reg size (begun s)) :=
      (halted_writeBuffer (s := u) hfree hfails).after (A := []) (g := []) (by simp [u]) rfl
    refine ⟨_, i2cCommand_admitted hbusy (admitsTyped_eq_none.2 ⟨hsize, hopened⟩), h.stoppedAt hkeeps.cfg, hkeeps.hbuf,
      fun k hk => ?_, fun k hk => ?_⟩
    · exact (congrArg (Memory.read · k) hkeeps.scratch).trans (hstaged hk)
    · exact (congrArg (Memory.read · k) hkeeps.scratch).trans (read_stageTyped _ _ _ _ hk)

end Sys2Proof.Machine
end

section
/-! SUPPORT. Every operation returns (spec 41_i2c_operations.md R134 to R142, R146): the class, the payload and the protocol state that a
sequence of primitives can end with, whatever the environment answers. -/

namespace Sys2Proof.Machine

/-- A typed read is the read into `SCR` but for `RES_VALUE`, which is drawn as a free value when the read has failed (R139). -/
theorem readTyped_eq (addr : BitVec 7) (reg size : Byte) (s : State) :
    let r := readBuffer .scr addr reg 0 (size.setWidth 16) s
    ∃ v n, readTyped addr reg size s = (r.1, { r.2 with i2c := { r.2.i2c with resValue := v }, drawn := n }) := by
  intro r
  obtain ⟨v, n, heq⟩ := typedResult_eq size r.1 r.2
  exact ⟨v, n, congrArg (Prod.mk r.1) heq⟩

/-! ## How an operation can return -/

/-- The operation answers a class and a count that are as `P` allows, and leaves the bus idle, or in `f` when the class is OK. -/
def Returns (P : StClass → Nat → Prop) (f : Fsm) (r : Status × State) : Prop :=
  ∃ n, r.1.payload = BitVec.ofNat 16 n ∧ P r.1.cls n ∧ r.2.i2c.fsm = if r.1.cls = .ok then f else .idle

/-- A transfer of `count` bytes: it counts at most all of them, and all of them when OK (R141). -/
def TransferCounts (count : Nat) (c : StClass) (n : Nat) : Prop :=
  c ∈ [.ok, .nack, .busTimeout, .busError] ∧ n ≤ count ∧ (c = .ok → n = count)

/-- A scan of `count` addresses counts at most all of them; one that does not acknowledge is no failure (R134). -/
def ScanCounts (count : Nat) (c : StClass) (n : Nat) : Prop :=
  c ∈ [.ok, .busTimeout, .busError] ∧ n ≤ count

section
variable {P : StClass → Nat → Prop} {f : Fsm} {n count : Nat} {s : State} {r : Status × State}
  {go : Status → State → Status × State}

/-- The cleanup leaves the bus idle (R140). -/
theorem abort_fsm (c : StClass) (n : BitVec 16) (s : State) : (abort c n s).2.i2c.fsm = .idle := by
  unfold abort
  dsimp only
  split
  · next hidle => exact hidle
  · rfl

theorem returns_orAbort (hfail : r.1.cls ≠ .ok → P r.1.cls n) (hgo : r.1.cls = .ok → Returns P f (go r.1 r.2)) :
    Returns P f (orAbort (BitVec.ofNat 16 n) r go) :=
  orAbort_cases hgo fun hbad => ⟨n, rfl, hfail hbad, (abort_fsm _ _ _).trans (if_neg hbad).symm⟩

/-- A command that its operation ends so returns so (R96). -/
theorem i2cCommand_returns {refusal : Option Refusal} {body : State → Status × State} (hbusy : s.i2c.busy = false)
    (hadmit : refusal = none) (hcfg : (body (begun s)).2.cfg = s.cfg) (h : Returns P f (body (begun s))) :
    ∃ (t : State) (c : StClass) (n : Nat), i2cCommand refusal body s = .next t ∧ P c n ∧
      t.i2c.resStatus = c.code s.cfg.st ++ BitVec.ofNat 16 n ∧ t.i2c.busy = false ∧
      t.i2c.opened = (body (begun s)).2.i2c.opened ∧ t.i2c.fsm = if c = .ok then f else .idle := by
  obtain ⟨n, hpay, hP, hfsm⟩ := h
  refine ⟨_, _, n, i2cCommand_admitted hbusy hadmit, hP, ?_, rfl, rfl, hfsm⟩
  rw [i2cReturn_i2c, Status.word, hcfg, hpay]

/-! ## The primitives -/

/-- A bus action of a transfer answers one of the four classes, and the transfer goes on when it is OK (R110, R113, R115, R116). -/
def Acts (r : Status × State) : Prop :=
  r.1.cls ∈ [.ok, .nack, .busTimeout, .busError] ∧ (r.1.cls = .ok → r.2.i2c.fsm = .transferringData)

theorem evalTx_mem (r : Xfer) : evalTx r ∈ [.ok, .nack, .busTimeout, .busError] := by
  unfold evalTx
  split_ifs <;> simp

theorem evalCond_mem (r : Xfer) : evalCond r ∈ [.ok, .nack, .busTimeout, .busError] := by
  unfold evalCond
  split_ifs <;> simp

/-- An action that fails. -/
theorem acts_of_fail {c : StClass} {p : BitVec 16} (hmem : c ∈ [.ok, .nack, .busTimeout, .busError]) (hc : c ≠ .ok) :
    Acts (⟨c, p⟩, s) :=
  ⟨hmem, fun hok => absurd hok hc⟩

/-- An action that goes well. -/
theorem acts_of_ok {p : BitVec 16} (hfsm : s.i2c.fsm = .transferringData) : Acts (okStatus p, s) :=
  ⟨by simp [okStatus], fun _ => hfsm⟩

theorem acts_sendByte (b : Byte) (hfsm : s.i2c.fsm = .transferringData) : Acts (sendByte b s) := by
  rw [sendByte_eq]
  by_cases h : evalTx (askXfer s).1 = .ok
  · simp only [h, if_true]
    exact acts_of_ok (by rw [emit_i2c, askXfer_i2c, hfsm])
  · simp only [h, if_false]
    exact acts_of_fail (evalTx_mem _) h

theorem acts_receiveByte (ack : Bool) (hfsm : s.i2c.fsm = .transferringData) : Acts (receiveByte ack s) := by
  rw [receiveByte_eq]
  by_cases h : evalRx (askXfer s).1 = .ok
  · simp only [h, if_true]
    exact acts_of_ok (by rw [emit_i2c, askXfer_i2c, hfsm])
  · simp only [h, if_false]
    exact acts_of_fail (evalCond_mem _) h

theorem acts_start (addr : BitVec 7) (rw : Bool) (s : State) : Acts (start addr rw s) := by
  by_cases h1 : evalCond (askXfer (startBegun addr rw s)).1 = .ok
  · rw [start_ok h1, sendAddress_eq]
    by_cases h2 : evalTx (askXfer (emit (.start (repeated s) .ok) (askXfer (startBegun addr rw s)).2)).1 = .ok
    · simp only [h2, if_true]
      exact acts_of_ok rfl
    · simp only [h2, if_false]
      exact acts_of_fail (evalTx_mem _) h2
  · rw [start_fail h1]
    exact acts_of_fail (evalCond_mem _) h1

theorem waitBusy_cls (s : State) (h : (waitBusy s).1.cls ≠ .ok) : (waitBusy s).1.cls = .busTimeout := by
  rw [waitBusy_eq] at h ⊢
  cases hclear : (askBusyClear s).1
  · rfl
  · exact absurd (by simp [hclear, okStatus]) h

/-! ## The transfers (R135 to R139) -/

/-- A bus action of a transfer, after which the rest of it is on the bus. -/
theorem returns_act (hr : Acts r) (hn : n ≤ count)
    (hgo : ∀ st t, t.i2c.fsm = .transferringData → Returns (TransferCounts count) f (go st t)) :
    Returns (TransferCounts count) f (orAbort (BitVec.ofNat 16 n) r go) :=
  returns_orAbort (fun hbad => ⟨hr.1, hn, fun hok => absurd hok hbad⟩) fun hok => hgo _ _ (hr.2 hok)

/-- The wait before a transfer. -/
theorem returns_afterWait (hgo : ∀ st t, Returns (TransferCounts count) f (go st t)) :
    Returns (TransferCounts count) f (orAbort 0#16 (waitBusy s) go) :=
  returns_orAbort (n := 0)
    (fun hbad => ⟨by simp [waitBusy_cls s hbad], Nat.zero_le _, fun hok => absurd hok hbad⟩) fun _ => hgo _ _

theorem returns_sendLoop (sp : Space) (buf : Nat) : ∀ (rem n : Nat) {s : State}, n + rem = count →
    s.i2c.fsm = .transferringData → Returns (TransferCounts count) .idle (sendLoop sp buf rem n s)
  | 0, n, _, hcount, _ => ⟨n, rfl, ⟨by simp [sendLoop, okStatus], hcount.le, fun _ => hcount⟩, rfl⟩
  | rem + 1, n, _, hcount, hfsm => returns_act (acts_sendByte _ hfsm) (by omega) fun _ _ ht =>
    returns_sendLoop sp buf rem (n + 1) (by omega) ht

/-- The protocol state a good read ends in: idle, or the stop is deferred (R29, R137). -/
abbrev afterRead (stopComm : Bool) : Fsm := if stopComm then .idle else .transferringData

theorem returns_receiveLoop (sp : Space) (buf : Nat) (stopComm : Bool) : ∀ (rem n : Nat) {s : State}, n + rem = count →
    s.i2c.fsm = .transferringData → Returns (TransferCounts count) (afterRead stopComm) (receiveLoop sp buf stopComm rem n s)
  | 0, n, s, hcount, hfsm => by
    refine ⟨n, rfl, ⟨by simp [receiveLoop, okStatus], hcount.le, fun _ => hcount⟩, ?_⟩
    cases stopComm
    · exact hfsm
    · rfl
  | rem + 1, n, _, hcount, hfsm => returns_act (acts_receiveByte _ hfsm) (by omega) fun st t ht =>
    returns_receiveLoop sp buf stopComm rem (n + 1) (by omega) (by cases sp <;> exact ht)

variable (sp : Space) (addr : BitVec 7) (reg : Byte) (buf : Nat) (size : BitVec 16) (s)

theorem returns_writeBuffer : Returns (TransferCounts size.toNat) .idle (writeBuffer sp addr reg buf size s) :=
  returns_afterWait fun _ t =>
    returns_act (n := 0) (acts_start addr false t) (Nat.zero_le _) fun _ _ ht =>
    returns_act (n := 0) (acts_sendByte reg ht) (Nat.zero_le _) fun _ _ ht =>
    returns_sendLoop sp buf size.toNat 0 (Nat.zero_add _) ht

theorem returns_readBuffer : Returns (TransferCounts size.toNat) .idle (readBuffer sp addr reg buf size s) :=
  returns_afterWait fun _ t =>
    returns_act (n := 0) (acts_start addr false t) (Nat.zero_le _) fun _ _ ht =>
    returns_act (n := 0) (acts_sendByte reg ht) (Nat.zero_le _) fun _ t _ =>
    returns_act (n := 0) (acts_start addr true t) (Nat.zero_le _) fun _ _ ht =>
    returns_receiveLoop sp buf true size.toNat 0 (Nat.zero_add _) ht

theorem returns_readRaw (stopComm : Bool) :
    Returns (TransferCounts size.toNat) (afterRead stopComm) (readRaw addr buf size stopComm s) :=
  returns_afterWait fun _ t =>
    returns_act (n := 0) (acts_start addr true t) (Nat.zero_le _) fun _ _ ht =>
    returns_receiveLoop .hbuf buf stopComm size.toNat 0 (Nat.zero_add _) ht

theorem returns_writeTyped (size : Byte) : Returns (TransferCounts size.toNat) .idle (writeTyped addr reg size s) :=
  toNat_setWidth_size size ▸ returns_writeBuffer _ .scr addr reg 0 (size.setWidth 16)

theorem returns_readTyped (size : Byte) : Returns (TransferCounts size.toNat) .idle (readTyped addr reg size s) := by
  obtain ⟨v, n, heq⟩ := readTyped_eq addr reg size s
  rw [heq, ← toNat_setWidth_size]
  exact returns_readBuffer s .scr addr reg 0 (size.setWidth 16)

end

section
variable (addr : BitVec 7) (reg : Byte) (buf : Nat) (size : BitVec 16) (s : State)

theorem opened_readBuffer (sp : Space) : (readBuffer sp addr reg buf size s).2.i2c.opened = s.i2c.opened := by
  obtain ⟨_, -, -, -, hstores⟩ := storedCount_readBuffer sp addr reg buf size s
  exact hstores.opened

theorem opened_readRaw (stopComm : Bool) : (readRaw addr buf size stopComm s).2.i2c.opened = s.i2c.opened := by
  obtain ⟨_, -, -, -, hstores⟩ := storedCount_readRaw addr buf size stopComm s
  exact hstores.opened

theorem opened_readTyped (size : Byte) : (readTyped addr reg size s).2.i2c.opened = s.i2c.opened := by
  obtain ⟨v, n, heq⟩ := readTyped_eq addr reg size s
  rw [heq]
  exact opened_readBuffer addr reg 0 (size.setWidth 16) s .scr

end

/-! ## The commands of the transfers -/

/-- The transfer command `i` of `count` bytes returns from `s`, with the bus idle unless it is a good raw read that defers its stop. -/
def TransferReturned (s : State) (i : Instr) (count : Nat) : Prop :=
  ∃ (t : State) (c : StClass) (n : Nat), exec i s = .next t ∧
    c ∈ [.ok, .nack, .busTimeout, .busError] ∧ n ≤ count ∧ (c = .ok → n = count) ∧
    t.i2c.resStatus = c.code s.cfg.st ++ BitVec.ofNat 16 n ∧ t.i2c.busy = false ∧ t.i2c.opened = true ∧
    t.i2c.fsm = (if c = .ok ∧ ∃ addr, i = .i2cReadraw false addr then .transferringData else .idle)

/-- It does when its operation returns so and leaves the device open. -/
theorem transferReturned_of_body {s : State} {i : Instr} {count : Nat} {refusal : Option Refusal}
    {body : State → Status × State} {f : Fsm} (hbusy : s.i2c.busy = false) (hopened : s.i2c.opened = true)
    (hexec : exec i s = i2cCommand refusal body s) (hadmit : refusal = none)
    (hkeeps : I2cKeeps (begun s) (body (begun s)).2) (hopen : (body (begun s)).2.i2c.opened = s.i2c.opened)
    (h : Returns (TransferCounts count) f (body (begun s)))
    (hf : f = if ∃ addr, i = .i2cReadraw false addr then .transferringData else .idle) : TransferReturned s i count := by
  obtain ⟨t, c, n, hnext, ⟨hc, hn, hok⟩, hstatus, hidle, hopened', hfsm⟩ := i2cCommand_returns hbusy hadmit hkeeps.cfg h
  refine ⟨t, c, n, hexec.trans hnext, hc, hn, hok, hstatus, hidle, hopened'.trans (hopen.trans hopened), ?_⟩
  rw [hfsm, hf, ite_and]

/-- Settles O30: each operation is a sequence of primitives, any of which may end it, and of loops over its bytes. -/
theorem transfersReturn : Obligations.TransfersReturn := by
  unfold Obligations.TransfersReturn
  intro s hbusy hopened i count hi
  have hadmit := needsI2cOpen_eq_none.2 hopened
  have hreturn {refusal : Option Refusal} {body : State → Status × State} {f : Fsm} :=
    transferReturned_of_body (i := i) (count := count) (refusal := refusal) (body := body) (f := f) hbusy hopened
  rcases hi with ⟨addr, reg, rfl, rfl⟩ | ⟨addr, reg, rfl, rfl⟩ | ⟨stopComm, addr, rfl, rfl⟩ | ⟨addr, reg, size, rfl, hsize, rfl⟩ |
    ⟨addr, reg, size, rfl, hsize, rfl⟩
  · exact hreturn rfl hadmit (keeps_writeBuffer ..) (busKeeps_writeBuffer ..).opened (returns_writeBuffer ..) (by simp)
  · exact hreturn rfl hadmit (keeps_readBuffer ..) (opened_readBuffer ..) (returns_readBuffer ..) (by simp)
  · exact hreturn rfl hadmit (keeps_readRaw ..) (opened_readRaw ..) (returns_readRaw ..) (by cases stopComm <;> simp)
  · exact hreturn rfl (admitsTyped_eq_none.2 ⟨hsize, hopened⟩) (keeps_writeTyped ..) (busKeeps_writeBuffer ..).opened
      (returns_writeTyped ..) (by simp)
  · exact hreturn rfl (admitsTyped_eq_none.2 ⟨hsize, hopened⟩) (keeps_readTyped ..) (opened_readTyped ..)
      (returns_readTyped ..) (by simp)

/-! ## The scan (R134) -/

/-- With at least one address to probe, or from an idle bus, a scan ends on an idle bus: every probe ends with a stop. -/
theorem returns_scanLoop {count : Nat} : ∀ (k a n : Nat) {s : State}, n + k ≤ count → (k = 0 → s.i2c.fsm = .idle) →
    Returns (ScanCounts count) .idle (scanLoop k a n s)
  | 0, _, n, _, hcount, hidle => ⟨n, rfl, ⟨by simp [scanLoop, okStatus], hcount⟩, hidle rfl⟩
  | k + 1, a, n, s, hcount, _ => by
    refine returns_orAbort (fun hbad => ⟨by simp [waitBusy_cls s hbad], by omega⟩) fun _ => ?_
    obtain ⟨hmem, -⟩ := acts_start (BitVec.ofNat 7 a) false (waitBusy s).2
    dsimp only
    split
    · exact returns_scanLoop k (a + 1) (n + 1) (by omega) fun _ => rfl
    · next hok =>
      split
      · exact returns_scanLoop k (a + 1) n (by omega) fun _ => rfl
      · next hnack => exact ⟨n, rfl, ⟨by simpa [hok, hnack] using hmem, by omega⟩, (if_neg hok).symm⟩

/-- Settles O31: by induction on the probes; the range of the parameters holds at least one address. -/
theorem scanReturns : Obligations.ScanReturns := by
  unfold Obligations.ScanReturns
  intro s hwf hbusy hopened
  obtain ⟨-, -, -, -, ⟨hrange, -⟩, -⟩ := hwf
  have h : Returns (ScanCounts (s.cfg.scanHi + 1 - s.cfg.scanLo)) .idle (scan (begun s)) :=
    returns_scanLoop _ _ 0 (Nat.zero_add _).le fun hnone =>
      absurd hnone (by simp only [mapI2c_cfg]; omega)
  obtain ⟨t, c, n, hnext, ⟨hc, hn⟩, hstatus, hidle, -, hfsm⟩ :=
    i2cCommand_returns hbusy (needsI2cOpen_eq_none.2 hopened) (keeps_scanLoop ..).cfg h
  exact ⟨t, c, n, hnext, hc, hn, hstatus, hidle, by rw [hfsm, ite_self]⟩

end Sys2Proof.Machine
end

section
/-! SUPPORT. What a command finds before anything of it happens (spec 41_i2c_operations.md R131 to R133, R140; 43_uart_operations.md R184;
70_reset_and_hazards.md R248): a bus that is not free, and a device already open or closed. -/

namespace Sys2Proof.Machine

/-! ## A bus that is not free (R140, R248) -/

/-- An operation from `s` has ended in a bus timeout before its first bus action, with a stop if the bus was held. -/
def TimedOut (s : State) (r : Status × State) : Prop :=
  r.1 = ⟨.busTimeout, 0#16⟩ ∧ r.2.i2c.fsm = .idle ∧
  r.2.i2c.trace = s.i2c.trace ++ (if s.i2c.fsm = .idle then [] else [.stop]) ∧ r.2.hbuf = s.hbuf ∧ r.2.xferIn = s.xferIn

section
variable {s : State} {bs : List Bool} {addr : BitVec 7} {reg : Byte}

/-- The first wait of an operation fails. -/
theorem timedOut_orAbort {go : Status → State → Status × State} (hwait : s.busyIn = false :: bs) :
    TimedOut s (orAbort 0#16 (waitBusy s) go) := by
  rw [waitBusy_cons hwait, orAbort_fail (by simp)]
  by_cases hidle : s.i2c.fsm = .idle <;> simp [TimedOut, abort, stop, hidle]

theorem timedOut_writeBuffer (sp : Space) (buf : Nat) (count : BitVec 16) (hwait : s.busyIn = false :: bs) :
    TimedOut s (writeBuffer sp addr reg buf count s) := timedOut_orAbort (s := s.mapI2c _) hwait

theorem timedOut_readBuffer (sp : Space) (buf : Nat) (count : BitVec 16) (hwait : s.busyIn = false :: bs) :
    TimedOut s (readBuffer sp addr reg buf count s) := timedOut_orAbort (s := s.mapI2c _) hwait

theorem timedOut_readRaw (buf : Nat) (count : BitVec 16) (stopComm : Bool) (hwait : s.busyIn = false :: bs) :
    TimedOut s (readRaw addr buf count stopComm s) := timedOut_orAbort (s := s.mapI2c _) hwait

theorem timedOut_writeTyped (size : Byte) (hwait : s.busyIn = false :: bs) : TimedOut s (writeTyped addr reg size s) :=
  timedOut_writeBuffer (s := s.mapI2c _) .scr 0 (size.setWidth 16) hwait

theorem timedOut_readTyped (size : Byte) (hwait : s.busyIn = false :: bs) : TimedOut s (readTyped addr reg size s) := by
  obtain ⟨v, n, heq⟩ := readTyped_eq addr reg size s
  rw [heq]
  exact timedOut_readBuffer .scr 0 (size.setWidth 16) hwait

/-- A scan of at least one address waits first. -/
theorem timedOut_scan (hwf : s.cfg.wf) (hwait : s.busyIn = false :: bs) : TimedOut s (scan s) := by
  obtain ⟨-, -, -, -, ⟨hrange, -⟩, -⟩ := hwf
  obtain ⟨k, hk⟩ : ∃ k, s.cfg.scanHi + 1 - s.cfg.scanLo = k + 1 := ⟨s.cfg.scanHi - s.cfg.scanLo, by omega⟩
  rw [scan, hk, scanLoop]
  exact timedOut_orAbort hwait

/-- A command whose operation ends so (R96). -/
theorem i2cCommand_timedOut {refusal : Option Refusal} {body : State → Status × State} (hbusy : s.i2c.busy = false)
    (hadmit : refusal = none) (hkeeps : I2cKeeps (begun s) (body (begun s)).2) (h : TimedOut (begun s) (body (begun s))) :
    ∃ t, i2cCommand refusal body s = .next t ∧ t.i2c.resStatus = s.cfg.st.busTimeout ++ 0#16 ∧ t.i2c.fsm = .idle ∧
      t.i2c.trace = s.i2c.trace ++ (if s.i2c.fsm = .idle then [] else [.stop]) ∧ t.hbuf = s.hbuf ∧ t.xferIn = s.xferIn := by
  obtain ⟨hst, hrest⟩ := h
  refine ⟨_, i2cCommand_admitted hbusy hadmit, ?_, hrest⟩
  rw [i2cReturn_i2c, hst, hkeeps.cfg]
  rfl

end

/-- Settles O39: each of the operations begins with a wait, a scan because its range is not empty. -/
theorem busyTimeoutPaysOwedStop : Obligations.BusyTimeoutPaysOwedStop := by
  unfold Obligations.BusyTimeoutPaysOwedStop
  intro s i bs hwf hbusy hopened hwait _ hi
  have hwait : (begun s).busyIn = false :: bs := hwait
  have hadmit := needsI2cOpen_eq_none.2 hopened
  rcases hi with rfl | ⟨addr, reg, rfl⟩ | ⟨addr, reg, rfl⟩ | ⟨stopComm, addr, rfl⟩ | ⟨addr, reg, size, hsize, rfl | rfl⟩
  · exact i2cCommand_timedOut hbusy hadmit (keeps_scanLoop ..) (timedOut_scan hwf hwait)
  · exact i2cCommand_timedOut hbusy hadmit (keeps_writeBuffer ..) (timedOut_writeBuffer _ _ _ hwait)
  · exact i2cCommand_timedOut hbusy hadmit (keeps_readBuffer ..) (timedOut_readBuffer _ _ _ hwait)
  · exact i2cCommand_timedOut hbusy hadmit (keeps_readRaw ..) (timedOut_readRaw _ _ _ hwait)
  · exact i2cCommand_timedOut hbusy (admitsTyped_eq_none.2 ⟨hsize, hopened⟩) (keeps_writeTyped ..) (timedOut_writeTyped _ hwait)
  · exact i2cCommand_timedOut hbusy (admitsTyped_eq_none.2 ⟨hsize, hopened⟩) (keeps_readTyped ..) (timedOut_readTyped _ hwait)

/-! ## Bring-up, tear-down and the open flag (R131 to R133, R184) -/

section
variable {s : State}

theorem i2cOpen_opened (hopen : s.i2c.opened = true) : i2cOpen s = (okStatus 0#16, s) := if_pos hopen

theorem i2cClose_closed (hopen : s.i2c.opened = false) : i2cClose s = (okStatus 0#16, s) := by
  simp [i2cClose, hopen]

theorem i2cClose_opened (hopen : s.i2c.opened = true) : i2cClose s = (okStatus 0#16, { s with
    i2c := { s.i2c with opened := false, fsm := .closed, trace := s.i2c.trace ++ [.cfgDeinit] } }) := by
  simp [i2cClose, emit, State.mapI2c, hopen]

end

/-- Settles O27: each command by whether the device is open; only an open of a closed device asks the environment. -/
theorem i2cOpenAndCloseResult : Obligations.I2cOpenAndCloseResult := by
  unfold Obligations.I2cOpenAndCloseResult
  refine fun s hbusy => ⟨fun hopen => ⟨?_, ?_⟩, fun hopen => ⟨?_, fun rest hinit => ?_, fun rest hinit => ?_⟩⟩
  · refine (i2cCommand_of_body (refusal := none) hbusy rfl (i2cOpen_opened (s := begun s) hopen)).trans ?_
    simp [StClass.code, okStatus]
  · refine (i2cCommand_of_body (refusal := none) hbusy rfl (i2cClose_opened (s := begun s) hopen)).trans ?_
    simp [StClass.code, okStatus]
  · refine (i2cCommand_of_body (refusal := none) hbusy rfl (i2cClose_closed (s := begun s) hopen)).trans ?_
    simp [StClass.code, okStatus]
  · refine (i2cCommand_of_body (refusal := none) hbusy rfl (i2cOpen_closed (s := begun s) hopen hinit)).trans ?_
    simp [StClass.code, okStatus]
  · refine (i2cCommand_of_body (refusal := none) hbusy rfl (i2cOpen_closed (s := begun s) hopen hinit)).trans ?_
    simp [StClass.code, hopen]

/-- The two lines of the UART's `isOpen` (R184). -/
theorem runLines_isOpen (j : Job) (s : State) (k : Nat) :
    runLines (k + 2) (goto .isOpen1 j s) = .next (uartReturn (okStatus 0#16)
      (s.mapUart fun u => { u with resValue := (BitVec.ofBool u.opened).setWidth 64 })) :=
  calc runLines (k + 2) (goto .isOpen1 j s)
    _ = runLines (k + 1) (goto .isOpen2 { j with line := .isOpen1 }
          (s.mapUart fun u => { u with resValue := (BitVec.ofBool u.opened).setWidth 64 })) := runLines_goto ..
    _ = _ := (runLines_goto ..).trans (runLines_uartReturn ..)

/-- Settles O28: the I2C command is one step; of the UART's two lines the first writes the flag and the second returns. -/
theorem isOpenResult : Obligations.IsOpenResult := by
  unfold Obligations.IsOpenResult
  refine ⟨fun s hbusy => ?_, fun s hbusy hburst => ?_⟩
  · refine (i2cCommand_of_body (body := i2cIsOpen) (refusal := none) hbusy rfl rfl).trans ?_
    cases hopen : s.i2c.opened <;> simp [State.mapI2c, okStatus, StClass.code, hopen]
  · obtain ⟨k, hk⟩ := Nat.exists_eq_add_of_le' hburst
    have hrun : exec .uIsopen s = runLines s.burst (goto .isOpen1 (jobAt .isOpen .isOpen1 0#8 s.uart) (uartBegun s)) :=
      uartCommand_eq hbusy rfl
    rw [hk, runLines_isOpen] at hrun
    refine hrun.trans ?_
    cases hopen : s.uart.opened <;>
      simp [uartReturn, uartBegun, State.mapUart, hbusy, hopen, Status.word, StClass.code, okStatus]

end Sys2Proof.Machine
end

section
/-! SUPPORT. The rings in motion (spec 42_uart_ring_and_handlers.md R160 to R164, R169): the indices and the bytes queued after a push
and after a pop, and what every step does to the bytes on their way (R194). -/

namespace Sys2Proof.Machine

/-! ## Indices (R160, R161) -/

section
variable {n head tail : Nat}

theorem ringCount_eq_zero (hh : head < n) (ht : tail < n) : ringCount n head tail = 0 ↔ head = tail := by
  rw [ringCount_eq hh ht]
  split <;> omega

theorem ringCount_eq_full (hh : head < n) (ht : tail < n) : ringCount n head tail = n - 1 ↔ ringNext n head = tail := by
  rw [ringCount_eq hh ht, ringNext_eq hh]
  split <;> split <;> omega

/-- A ring that is not full has room for one more. -/
theorem Ring.hasRoom_one {r : Ring} (hh : r.head < n) (ht : r.tail < n) (hne : ringNext n r.head ≠ r.tail) : r.HasRoom n 1 := by
  have hcount : ringCount n r.head r.tail < n := ringCount_lt (Nat.zero_lt_of_lt hh)
  have hfull := mt (ringCount_eq_full hh ht).1 hne
  exact ⟨hh, ht, by omega⟩

theorem ringCount_ringNext_tail (hh : head < n) (ht : tail < n) (hne : head ≠ tail) :
    ringCount n head (ringNext n tail) + 1 = ringCount n head tail := by
  rw [ringCount_eq hh ht, ringCount_eq hh (ringNext_lt (Nat.zero_lt_of_lt hh)), ringNext_eq ht]
  split <;> split <;> split <;> omega

end

/-- Settles O41: by the closed forms of `next` and `count`. -/
theorem ringArithmetic : Obligations.RingArithmetic := by
  unfold Obligations.RingArithmetic
  intro n head tail hn hh ht
  have hpos : 0 < n := Nat.zero_lt_of_lt hh
  refine ⟨ringNext_lt hpos, ?_, ringCount_eq_zero hh ht, ringCount_eq_full hh ht, Nat.le_sub_one_of_lt (ringCount_lt hpos),
    fun hne => ?_, ringCount_ringNext_tail hh ht⟩
  · rw [ringNext_eq (by omega), if_pos (by omega)]
  · exact ringCount_push (r := ⟨head, tail, []⟩) (b := 0#8) (Ring.hasRoom_one hh ht hne)

/-! ## Bytes queued (R162, R163) -/

/-- The oldest byte taken: the tail advanced (R163). -/
def Ring.pop (n : Nat) (r : Ring) : Ring := { r with tail := ringNext n r.tail }

section
variable {n : Nat} {r : Ring}

/-- A push and a pop move different indices. -/
theorem push_pop_comm (b : Byte) (r : Ring) : (r.pop n).push n b = (r.push n b).pop n := rfl

theorem bytes_of_empty (hh : r.head < n) (hempty : r.head = r.tail) : r.bytes n = [] := by
  rw [Ring.bytes, (ringCount_eq_zero hh (hempty ▸ hh)).2 hempty]
  rfl

/-- The byte a pop takes is the first of those queued (R163). -/
theorem bytes_pop (hh : r.head < n) (ht : r.tail < n) (hne : r.head ≠ r.tail) :
    r.bytes n = Memory.read r.buf r.tail :: (r.pop n).bytes n := by
  have hcount := ringCount_ringNext_tail hh ht hne
  simp only [Ring.bytes, Ring.pop, ← hcount, List.range_succ_eq_map, List.map_cons, List.map_map, Nat.add_zero,
    Nat.mod_eq_of_lt ht]
  refine congrArg _ (List.map_congr_left fun k _ => ?_)
  simp only [Function.comp, ringNext, Nat.mod_add_mod, Nat.succ_eq_add_one, Nat.add_assoc, Nat.add_comm 1]

/-- What stands in the slot at the head is not queued (R162). -/
theorem bytes_store (hh : r.head < n) (ht : r.tail < n) (b : Byte) :
    Ring.bytes n { r with buf := Memory.write r.buf r.head b } = r.bytes n := by
  refine List.map_congr_left fun k hk => Memory.read_write_other b ?_
  have hcount : ringCount n r.head r.tail < n := ringCount_lt (Nat.zero_lt_of_lt hh)
  replace hk : k < ringCount n r.head r.tail := List.mem_range.1 hk
  have hslot := offset_ne (n := n) (buf := r.tail) hk (by omega)
  rwa [tail_add_ringCount hh ht] at hslot

/-- A head that advances while the ring is not full makes the byte at the head the newest (R162). -/
theorem bytes_advance (hh : r.head < n) (ht : r.tail < n) (hne : ringNext n r.head ≠ r.tail) :
    Ring.bytes n { r with head := ringNext n r.head } = r.bytes n ++ [Memory.read r.buf r.head] := by
  have hcount := ringCount_push (b := 0#8) (Ring.hasRoom_one hh ht hne)
  simp only [Ring.push] at hcount
  simp only [Ring.bytes, hcount, List.range_succ, List.map_append, List.map_singleton, tail_add_ringCount hh ht]

end

/-! ## The bytes on their way (R163, R164, R194) -/

theorem ensures_and {F : Prop} {P Q : State → Prop} {o : Out} (hP : Ensures F P o) (hQ : Ensures F Q o) :
    Ensures F (fun t => P t ∧ Q t) o := by
  cases o with
  | next t => exact ⟨hP, hQ⟩
  | fault e => exact hP
  | refused r => trivial

/-- From `s` to `t` bytes have only come in behind those on their way to the wire, and only the oldest have left the receive ring. -/
structure BytesMove (s t : State) : Prop where
  cfg : t.cfg = s.cfg
  tx : txPipeline s <+: txPipeline t
  rx : ∃ k, t.uart.rx.bytes s.cfg.nRx = (s.uart.rx.bytes s.cfg.nRx).drop k

theorem BytesMove.trans {s t u : State} (h : BytesMove s t) (k : BytesMove t u) : BytesMove s u := by
  obtain ⟨m, hm⟩ := h.rx
  obtain ⟨n, hn⟩ := k.rx
  rw [h.cfg, hm, List.drop_drop] at hn
  exact ⟨k.cfg.trans h.cfg, h.tx.trans k.tx, _, hn⟩

section
variable {s t : State}

/-- The receive ring alone has changed, and holds what it held but for the oldest. -/
theorem bytesMove_of_rxBytes (hcfg : t.cfg = s.cfg) {k : Nat}
    (hrx : t.uart.rx.bytes s.cfg.nRx = (s.uart.rx.bytes s.cfg.nRx).drop k) (htx : t.uart.tx = s.uart.tx)
    (hhold : t.uart.txHold = s.uart.txHold) (hshift : t.uart.txShift = s.uart.txShift)
    (hout : t.uart.wireOut = s.uart.wireOut) : BytesMove s t :=
  ⟨hcfg, by simp only [txPipeline, hcfg, htx, hhold, hshift, hout, List.prefix_refl], k, hrx⟩

/-- Nothing of either ring, the hold stage, the shift stage or the wire has changed. -/
theorem bytesMove_of_kept (hcfg : t.cfg = s.cfg) (hrx : t.uart.rx = s.uart.rx) (htx : t.uart.tx = s.uart.tx)
    (hhold : t.uart.txHold = s.uart.txHold) (hshift : t.uart.txShift = s.uart.txShift)
    (hout : t.uart.wireOut = s.uart.wireOut) : BytesMove s t :=
  bytesMove_of_rxBytes hcfg (k := 0) (by rw [hrx, List.drop_zero]) htx hhold hshift hout

theorem bytesMove_refl (s : State) : BytesMove s s := bytesMove_of_kept rfl rfl rfl rfl rfl rfl

/-- The transmit ring holds what it held, or more behind it. -/
theorem bytesMove_of_txBytes (hcfg : t.cfg = s.cfg) (hrx : t.uart.rx = s.uart.rx)
    (htx : s.uart.tx.bytes s.cfg.nTx <+: t.uart.tx.bytes s.cfg.nTx) (hhold : t.uart.txHold = s.uart.txHold)
    (hshift : t.uart.txShift = s.uart.txShift) (hout : t.uart.wireOut = s.uart.wireOut) : BytesMove s t := by
  refine ⟨hcfg, ?_, 0, by rw [hrx, List.drop_zero]⟩
  simpa only [txPipeline, hcfg, hhold, hshift, hout, List.prefix_append_right_inj] using htx

theorem bytesMove_of_rxEmptied (hcfg : t.cfg = s.cfg) (hh : t.uart.rx.head < s.cfg.nRx)
    (hempty : t.uart.rx.head = t.uart.rx.tail) (htx : t.uart.tx = s.uart.tx) (hhold : t.uart.txHold = s.uart.txHold)
    (hshift : t.uart.txShift = s.uart.txShift) (hout : t.uart.wireOut = s.uart.wireOut) : BytesMove s t :=
  bytesMove_of_rxBytes hcfg ((bytes_of_empty hh hempty).trans List.drop_length.symm) htx hhold hshift hout

theorem bytesMove_goto {l : Line} {j : Job} (h : BytesMove s t) : BytesMove s (goto l j t) := ⟨h.cfg, h.tx, h.rx⟩

theorem bytesMove_uartReturn {st : Status} (h : BytesMove s t) : BytesMove s (uartReturn st t) := ⟨h.cfg, h.tx, h.rx⟩

/-- The byte on-transmit-empty moves goes from the old end of the ring to the free hold stage (R166). -/
theorem bytesMove_popTx (hinv : RingInv s) (hne : s.uart.tx.head ≠ s.uart.tx.tail) (hhold : s.uart.txHold = none) :
    BytesMove s (popTx s) := by
  obtain ⟨⟨-, -, -, hh, ht⟩, -⟩ := ringInv_iff.1 hinv
  have hpop : (popTx s).uart.tx = s.uart.tx.pop s.cfg.nTx := rfl
  refine ⟨rfl, ?_, 0, rfl⟩
  simp only [txPipeline, hpop, bytes_pop hh ht hne, hhold]
  simp [popTx]

theorem bytesMove_pump (hinv : RingInv s) : Ensures False (BytesMove s) (pump s) := by
  obtain ⟨⟨-, -, -, -, ht⟩, -⟩ := ringInv_iff.1 hinv
  exact ensures_pump (bytesMove_refl s) (fun _ => bytesMove_of_kept rfl rfl rfl rfl rfl rfl)
    fun hne hhold => ⟨fun _ => bytesMove_popTx hinv hne hhold, absurd ht⟩

theorem bytesMove_execOnTxe (hinv : RingInv s) : Ensures False (BytesMove s) (execOnTxe s) := by
  obtain ⟨⟨-, -, -, -, ht⟩, -⟩ := ringInv_iff.1 hinv
  exact ensures_execOnTxe (fun _ => bytesMove_of_kept rfl rfl rfl rfl rfl rfl)
    fun hne hhold _ => ⟨fun _ => bytesMove_popTx hinv hne hhold, absurd ht⟩

theorem bytesMove_hwTxTake (s : State) : BytesMove s (hwTxTake s) := by
  rcases hwTxTake_cases s with ⟨b, hhold, hshift, -, heq⟩ | heq <;> rw [heq]
  · refine ⟨rfl, ?_, 0, rfl⟩
    simp [txPipeline, hhold, hshift]
  · exact bytesMove_refl s

theorem bytesMove_hwTxDone (s : State) : BytesMove s (hwTxDone s) := by
  rcases hwTxDone_cases s with ⟨b, hshift, heq⟩ | ⟨-, heq⟩ <;> rw [heq]
  · refine ⟨rfl, ?_, 0, rfl⟩
    simp [txPipeline, hshift]
  · exact bytesMove_refl s

theorem bytesMove_hwRx (b : Byte) (e : HwFlags) (s : State) : BytesMove s (hwRx b e s) := by
  rcases hwRx_cases b e s with ⟨-, -, heq⟩ | heq <;> rw [heq] <;> exact bytesMove_of_kept rfl rfl rfl rfl rfl rfl

/-- A line stores at the head of the transmit ring, advances it, pops the receive ring or empties it, or leaves both as they are. -/
theorem bytesMove_lineStep {j : Job} (hinv : RingInv s) (hj : s.uart.job = some j) :
    Ensures False (BytesMove s) (lineStep j s) := by
  obtain ⟨⟨-, hrh, hrt, hth, htt⟩, hline⟩ := ringInv_iff.1 hinv
  obtain ⟨hnx, hroom, hbyte⟩ := hline j hj
  have hs := bytesMove_refl s
  cases hl : j.line with
  | flushOut2 =>
    simp only [lineStep, hl, ensures_andThen]
    exact (bytesMove_pump hinv).mono fun u hu => bytesMove_goto hu
  | send4 =>
    simp only [lineStep, hl, sendWait, ensures_andThen]
    exact (bytesMove_pump hinv).mono fun u hu => by simp [ensures_sendReturn, bytesMove_goto, bytesMove_uartReturn, hu]
  | send5 =>
    simp only [lineStep, hl, sendStore, ensures_slotWrite, ensures_change]
    exact ⟨fun _ => bytesMove_goto (bytesMove_of_txBytes rfl rfl (bytes_store hth htt j.byte ▸ List.prefix_refl _) rfl rfl rfl),
      absurd hth⟩
  | send6 =>
    have hnx := hnx (by simp [hl])
    have hroom := hnx ▸ hroom (by simp [hl])
    simp only [lineStep, hl, ensures_change, hnx]
    exact bytesMove_goto
      (bytesMove_of_txBytes rfl rfl (bytes_advance hth htt hroom ▸ List.prefix_append _ _) rfl rfl rfl)
  | recv2 =>
    simp only [lineStep, hl, recvRead, ensures_slotRead, ensures_proceed]
    exact ⟨fun _ => bytesMove_goto hs, absurd hrt⟩
  | recv3 =>
    have hpop := bytes_pop hrh hrt (hbyte (by simp [hl]))
    simp only [lineStep, hl, ensures_change]
    exact bytesMove_goto (bytesMove_of_rxBytes (k := 1) rfl (by rw [hpop]; rfl) rfl rfl rfl rfl)
  | flushIn1 =>
    simp only [lineStep, hl, ensures_proceed]
    exact bytesMove_goto (bytesMove_of_rxEmptied rfl hrh rfl rfl rfl rfl rfl)
  | close3 =>
    simp only [lineStep, hl, ensures_proceed]
    exact bytesMove_goto (bytesMove_of_rxEmptied rfl (Nat.zero_lt_of_lt hrh) rfl rfl rfl rfl rfl)
  | open2 | open3 | open4 | close4 | isOpen1 | send7 | recv4 | recvBuf8 =>
    simp only [lineStep, hl]
    exact bytesMove_goto (bytesMove_of_kept rfl rfl rfl rfl rfl rfl)
  | _ =>
    simp [lineStep, hl, bytesMove_goto, bytesMove_uartReturn, ensures_flushOutReturn, ensures_sendReturn, ensures_recvReturn, hs]

/-- So do the lines of a UART command from its issue on. -/
theorem bytesMove_exec_uart {i : Instr} (hi : i.isUart = true) (hinv : RingInv s) :
    Ensures False (BytesMove s) (exec i s) := by
  refine ensures_exec_uart hi fun op b _ _ _ => ?_
  have hline (u : State) (j : Job) (hu : RingInv u ∧ BytesMove s u) (hj : u.uart.job = some j) :
      Ensures False (fun v => RingInv v ∧ BytesMove s v) (lineStep j u) :=
    ensures_and ((ringStep_lineStep hu.1 hj).mono fun _ hv => hv.inv)
      ((bytesMove_lineStep hu.1 hj).mono fun _ hv => hu.2.trans hv)
  exact (ensures_runLines hline _ ⟨(ringStep_issue op b hinv).inv, bytesMove_of_kept rfl rfl rfl rfl rfl rfl⟩).mono
    fun _ h => h.2

/-- From `s` to `t` the bytes have moved as a step may move them: as `BytesMove` says, or one has come into the receive ring. -/
def BytesStep (s t : State) : Prop :=
  BytesMove s t ∨
    (txPipeline t = txPipeline s ∧ ∃ b, t.uart.rx.bytes s.cfg.nRx = s.uart.rx.bytes s.cfg.nRx ++ [b])

/-- on-receive adds the waiting byte to the receive ring behind those queued, or drops it (R165). -/
theorem bytesStep_execOnRx (hinv : RingInv s) (hmem : MemInv s) : Ensures False (BytesStep s) (execOnRx s) := by
  obtain ⟨⟨-, hrh, hrt, -, -⟩, -⟩ := ringInv_iff.1 hinv
  refine ensures_execOnRx (fun b e _ _ hne => ⟨fun _ => .inr ⟨rfl, b, ?_⟩, absurd hrh⟩)
    fun b e _ _ => .inl (bytesMove_of_kept rfl rfl rfl rfl rfl rfl)
  exact bytes_push (Ring.hasRoom_one hrh hrt hne) (memInv_iff.1 hmem).rx.1

theorem bytesStep_step (hinv : RingInv s) (hmem : MemInv s) : Ensures False (BytesStep s.taken) (step s) := by
  have hinv' : RingInv s.taken := hinv
  cases stepKind_step s with
  | refused r ho => rw [ho]; trivial
  | host u hu ho =>
    obtain ⟨hcfg, -, -, ⟨n, a, v, w, huart⟩⟩ := hu
    rw [ho]
    exact .inl (bytesMove_of_kept hcfg (congrArg (·.rx) huart) (congrArg (·.tx) huart) (congrArg (·.txHold) huart)
      (congrArg (·.txShift) huart) (congrArg (·.wireOut) huart))
  | setGie b rest hs ho => rw [ho]; exact .inl (bytesMove_of_kept rfl rfl rfl rfl rfl rfl)
  | i2cCommand w i hi ho =>
    rw [ho, ensures_total]
    refine ⟨fun e => exec_i2c_ne_fault hi, fun u hu => .inl ?_⟩
    have hcfg := (tracesGrow_exec_i2c hi hu).cfg
    obtain ⟨huart, -⟩ := i2cCommandsTouchNoUart i _ u hi hu
    exact bytesMove_of_kept hcfg (congrArg (·.rx) huart) (congrArg (·.tx) huart) (congrArg (·.txHold) huart)
      (congrArg (·.txShift) huart) (congrArg (·.wireOut) huart)
  | uartCommand w rest hs i hi ho =>
    rw [ho]
    exact (bytesMove_exec_uart (s := s.taken.mapUart fun u => { u with cw := w }) hi hinv).mono
      fun t h => .inl ⟨h.cfg, h.tx, h.rx⟩
  | onRx ho => rw [ho]; exact bytesStep_execOnRx hinv' hmem
  | onTxe ho => rw [ho]; exact (bytesMove_execOnTxe hinv').mono fun _ => .inl
  | line j hj ho => rw [ho]; exact (bytesMove_lineStep hinv' hj).mono fun _ => .inl
  | hwRx b e ho => rw [ho]; exact .inl (bytesMove_hwRx b e s.taken)
  | hwTxTake ho => rw [ho]; exact .inl (bytesMove_hwTxTake s.taken)
  | hwTxDone ho => rw [ho]; exact .inl (bytesMove_hwTxDone s.taken)

end

/-- Settles O15: a byte is added only where the transmit head advances; every other move hands one on to the next stage or leaves all
of them where they are. -/
theorem stepKeepsTransmitOrder : Obligations.StepKeepsTransmitOrder := by
  unfold Obligations.StepKeepsTransmitOrder
  intro s t hinv hmem hstep
  rcases (bytesStep_step hinv hmem).apply hstep with h | ⟨htx, -⟩
  · exact h.tx
  · exact htx ▸ List.prefix_refl _

/-- Settles O16: only on-receive adds a byte; a `recv()` takes the oldest, an inbound `flush` and a `close` take all. -/
theorem stepKeepsReceiveOrder : Obligations.StepKeepsReceiveOrder := by
  unfold Obligations.StepKeepsReceiveOrder
  exact fun s t hinv hmem hstep => ((bytesStep_step hinv hmem).apply hstep).imp (·.rx) (·.2)

end Sys2Proof.Machine
end

section
/-! SUPPORT. The entry points and the pump, each with its effect (spec 42_uart_ring_and_handlers.md R165 to R167), and the drain loop
that calls the pump (43_uart_operations.md R183, R186 to R189). -/

namespace Sys2Proof.Machine

section
variable {s : State}

/-! ## The entry points (R165, R166, R216, R219) -/

theorem takeInterrupt_of_pending {c : BitVec 1} {entry : State → Out} (hgie : s.gie = true) (hp : causePending c s.uart = true) :
    takeInterrupt c entry s = andThen (entry (enterInterrupt s)) fun t => .next (returnFromInterrupt t) := by
  simp only [takeInterrupt, hgie, hp, Bool.and_self, if_true]

/-- An entry point that is taken returns with `GIE` at 1, where it was. -/
theorem takeInterrupt_next {c : BitVec 1} {entry : State → Out} {u : State} (hgie : s.gie = true)
    (hp : causePending c s.uart = true) (h : entry (enterInterrupt s) = .next (enterInterrupt u)) (hu : u.gie = true) :
    takeInterrupt c entry s = .next u := by
  rw [takeInterrupt_of_pending hgie hp, h, andThen_next, returnFromInterrupt, enterInterrupt, ← hu]

/-- on-receive reads the waiting byte, and stores it when the ring has room. -/
theorem onReceive_eq {b : Byte} {e : HwFlags} (hhold : s.uart.rxHold = some (b, e)) (hh : s.uart.rx.head < s.cfg.nRx) :
    onReceive s = .next (if ringNext s.cfg.nRx s.uart.rx.head = s.uart.rx.tail then dropRx e s else pushRx b e s) := by
  rw [onReceive_eq_next, readData_some hhold]
  simp only [statErrors, hhold]
  split
  · next hfull => exact .inr ⟨hfull, rfl⟩
  · next hroom => exact .inl ⟨hroom, hh, rfl⟩

/-- Settles O42: on-receive between interrupt entry and return; its flags are the latch bits of the waiting byte's. -/
theorem onReceiveResult : Obligations.OnReceiveResult := by
  unfold Obligations.OnReceiveResult
  intro s b e hgie hhold hie hh hw
  have hp : causePending 0#1 s.uart = true := by simp [causePending, rxPending, statRxc, hhold, hie]
  have hrun := onReceive_eq (s := enterInterrupt s) hhold hh
  refine ⟨fun hroom => ?_, fun hfull => ?_⟩
  · exact takeInterrupt_next hgie hp (hrun.trans (congrArg _ (if_neg hroom))) hgie
  · exact takeInterrupt_next hgie hp (hrun.trans (congrArg _ (if_pos hfull))) hgie

/-- on-transmit-empty with `DATA` free. -/
theorem onTransmitEmpty_eq (hhold : s.uart.txHold = none) (ht : s.uart.tx.tail < s.cfg.nTx) :
    onTransmitEmpty s = .next (if s.uart.tx.head = s.uart.tx.tail then clearTxeIe s else popTx s) := by
  rw [onTransmitEmpty_eq_next]
  split
  · next hempty => exact .inl ⟨hempty, rfl⟩
  · next hne => exact .inr ⟨hne, ht, hhold, rfl⟩

theorem txePending_eq_true : txePending s.uart = true ↔ s.uart.txHold = none ∧ s.uart.ctrl.txeIe = true := by
  simp [txePending, statTxe]

/-- Settles O43: on-transmit-empty between interrupt entry and return; its interrupt was enabled. -/
theorem onTransmitEmptyResult : Obligations.OnTransmitEmptyResult := by
  unfold Obligations.OnTransmitEmptyResult
  intro s hgie hhold hie ht
  have hp : causePending 1#1 s.uart = true := txePending_eq_true.2 ⟨hhold, hie⟩
  have hrun := onTransmitEmpty_eq (s := enterInterrupt s) hhold ht
  refine ⟨fun hempty => ?_, fun hne => ?_⟩
  · exact takeInterrupt_next hgie hp (hrun.trans (congrArg _ (if_pos hempty))) hgie
  · refine (takeInterrupt_next (u := popTx s) hgie hp (hrun.trans (congrArg _ (if_neg hne))) hgie).trans ?_
    simp [popTx, State.mapUart, ringNext, hie]

/-! ## The pump (R167) -/

/-- The pump is not in action: interrupts are enabled, `DATA` is not free, or the transmit interrupt is off. -/
abbrev PumpIdle (s : State) : Prop := s.gie = true ∨ s.uart.txHold ≠ none ∨ s.uart.ctrl.txeIe = false

theorem pump_of_idle (h : PumpIdle s) : pump s = .next s := by
  rw [pump_eq, if_neg]
  rintro ⟨hgie, hp⟩
  obtain ⟨hhold, hie⟩ := txePending_eq_true.1 hp
  simp [PumpIdle, hgie, hhold, hie] at h

theorem pump_of_pending (hgie : s.gie = false) (hp : txePending s.uart = true) : pump s = onTransmitEmpty s := by
  rw [pump_eq, if_pos ⟨hgie, hp⟩]

/-- Settles O45: with its source pending the entry point and the pump run the same logic, the one between interrupt entry and
return. -/
theorem pumpIsTheInterrupt : Obligations.PumpIsTheInterrupt := by
  unfold Obligations.PumpIsTheInterrupt
  refine fun s => ⟨fun hgie hp => ?_, pump_of_idle⟩
  have hentry : enterInterrupt { s with gie := true } = s := by rw [enterInterrupt, ← hgie]
  rw [pump_of_pending hgie hp]
  refine (takeInterrupt_of_pending (c := 1#1) (s := { s with gie := true }) rfl hp).trans ?_
  rw [hentry]
  rfl

/-- on-transmit-empty neither reads nor writes the bookkeeping of an operation in progress. -/
theorem onTransmitEmpty_goto (l : Line) (j : Job) (s : State) :
    onTransmitEmpty (goto l j s) = andThen (onTransmitEmpty s) fun t => .next (goto l j t) := by
  by_cases hempty : s.uart.tx.isEmpty = true
  · simp only [onTransmitEmpty, goto_uart, hempty, if_true]
    rfl
  · by_cases ht : s.uart.tx.tail < s.cfg.nTx
    · cases hhold : s.uart.txHold with
      | none =>
        have hne : s.uart.tx.head ≠ s.uart.tx.tail := by simpa [Ring.isEmpty] using hempty
        rw [onTransmitEmpty_eq hhold ht, if_neg hne, onTransmitEmpty_eq (s := goto l j s) hhold ht]
        exact congrArg _ (if_neg hne)
      | some b => simp [onTransmitEmpty, hempty, slotRead_eq ht, writeData, hhold]
    · simp [onTransmitEmpty, hempty, slotRead, ht]

theorem pump_goto (l : Line) (j : Job) (s : State) : pump (goto l j s) = andThen (pump s) fun t => .next (goto l j t) := by
  by_cases hp : s.gie = false ∧ txePending s.uart = true
  · rw [pump_of_pending hp.1 hp.2, ← onTransmitEmpty_goto]
    exact pump_of_pending (s := goto l j s) hp.1 hp.2
  · rw [pump_eq s, if_neg hp]
    exact (pump_eq (goto l j s)).trans (if_neg hp)

/-- The pump writes neither the bookkeeping of the operation nor what it answers the host. -/
theorem pump_keeps_job (s : State) :
    Ensures True (fun t => t.uart.job = s.uart.job ∧ t.uart.busy = s.uart.busy ∧ t.uart.resStatus = s.uart.resStatus) (pump s) :=
  ensures_pump ⟨rfl, rfl, rfl⟩ (fun _ => ⟨rfl, rfl, rfl⟩) fun _ _ => ⟨fun _ => ⟨rfl, rfl, rfl⟩, fun _ => trivial⟩

theorem pump_answers (ht : s.uart.tx.tail < s.cfg.nTx) : ∃ t, pump s = .next t := by
  by_cases hp : s.gie = false ∧ txePending s.uart = true
  · exact ⟨_, (pump_of_pending hp.1 hp.2).trans (onTransmitEmpty_eq (txePending_eq_true.1 hp.2).1 ht)⟩
  · exact ⟨s, (pump_eq s).trans (if_neg hp)⟩

/-! ## The drain loop (R186) -/

theorem drained_eq_true {u : Uart} : drained u = true ↔ txIdle u := by
  simp [drained, statTxc, Ring.isEmpty]

section
variable {j : Job} (hj : s.uart.job = some j) (hl : j.line = .flushOut1)
include hj hl

/-- While the transmitter is at work an iteration of the drain loop is the pump (R186 lines 1 and 2). -/
theorem runLines_drain_busy (hbusy : ¬ txIdle s.uart) :
    runLines 2 s = andThen (pump s) fun t => .next (goto .flushOut1 j t) := by
  have hdrain : drained s.uart = false := Bool.eq_false_iff.2 (mt drained_eq_true.1 hbusy)
  simp [runLines_some hj, lineStep, hl, hdrain, runLines_goto (n := 0), pump_goto, andThen_assoc]
  rfl

/-- With the transmitter idle the drain loop ends (R186 line 1). -/
theorem runLines_drain_idle (hidle : txIdle s.uart) (k : Nat) :
    runLines (k + 2) s = andThen (flushOutReturn { j with line := .flushOut3 } (goto .flushOut3 j s)) (runLines k) := by
  simp only [runLines_some hj, lineStep, hl, drained_eq_true.2 hidle, if_true, andThen_proceed, runLines_goto]

end

end

/-- Settles O51: an iteration of the loop that finds the transmitter at work, and the lines after one that finds it idle. -/
theorem drainEndsWhenIdle : Obligations.DrainEndsWhenIdle := by
  unfold Obligations.DrainEndsWhenIdle
  refine ⟨fun s j hj hl hbusy => ?_, fun s j hj hl hempty hhold hshift => ?_⟩
  · have hrun : runLines 2 s = andThen (pump s) fun t => .next (goto .flushOut1 j t) :=
      runLines_drain_busy hj hl (by simpa only [txIdle, not_and_or] using hbusy)
    refine ⟨hrun, fun t ht => ?_, fun hinv => ?_⟩
    · obtain ⟨u, hu, hgoto⟩ := andThen_eq_next.1 (hrun ▸ ht)
      obtain ⟨-, hb, hr⟩ := (pump_keeps_job s).apply hu
      cases hgoto
      exact ⟨by rw [← hl]; rfl, hb, hr⟩
    · obtain ⟨⟨-, -, -, -, ht⟩, -⟩ := ringInv_iff.1 hinv
      obtain ⟨t, hpump⟩ := pump_answers ht
      exact ⟨_, hrun.trans (by rw [hpump]; rfl)⟩
  · have hrun := runLines_drain_idle hj hl ⟨hempty, hhold, hshift⟩
    refine ⟨fun hop => ?_, fun drain hop => ?_, fun drain hop => ?_, fun drain hop => ?_, fun hop => ?_⟩
    · rw [hrun 0]
      simp [flushOutReturn, hop, okStatus]
    · rw [hrun 1]
      simp [flushOutReturn, hop, runLines_goto (n := 0), lineStep, sendReturn, okStatus]
    · rw [hrun 1]
      simp [flushOutReturn, hop, runLines_goto (n := 0), lineStep, okStatus]
    · rw [hrun 1]
      simp [flushOutReturn, hop, runLines_goto (n := 0), lineStep, okStatus]
    · rw [hrun 0]
      simp [flushOutReturn, hop]
      rw [← hop]
      rfl

end Sys2Proof.Machine
end

section
/-! SUPPORT. The single-byte `send`, stage by stage (spec 43_uart_operations.md R181, R187): it stores its byte in a ring with room, pumps
while interrupts are off, and waits on a ring that stays full. -/

namespace Sys2Proof.Machine

theorem ringNext_ne_self {n i : Nat} (hn : 2 ≤ n) (hi : i < n) : ringNext n i ≠ i := by
  rw [ringNext_eq hi]
  split <;> omega

/-! ## The stages (R187) -/

/-- The job of a `send` that has looked at the head and waited so long. -/
def sendLooked (j : Job) (waited : Nat) (s : State) : Job :=
  { j with nx := ringNext s.cfg.nTx s.uart.tx.head, waited := waited }

/-- The next head is the tail. -/
abbrev TxFull (s : State) : Prop := ringNext s.cfg.nTx s.uart.tx.head = s.uart.tx.tail

section
variable {s : State} {j : Job} {w : Nat}

/-- A `send` returns wherever it is. -/
theorem sendReturn_goto (st : Status) (l m : Line) (j k : Job) (s : State) :
    sendReturn st { j with line := m } (goto l k s) = sendReturn st j s := by
  obtain ⟨op⟩ := j
  cases op <;> rfl

/-- A `send` looks at the head before anything else (R187 lines 1 and 2). -/
theorem runLines_send_look (j : Job) (s : State) (k : Nat) :
    runLines (k + 2) (goto .send1 j s) = runLines k (goto .send3 (sendLooked j 0 s) s) := rfl

/-- With room it stores its byte, advances the head and enables the interrupt (R187 lines 3 and 5 to 7). -/
theorem runLines_send_store (hh : s.uart.tx.head < s.cfg.nTx) (hroom : ¬ TxFull s) (k : Nat) :
    runLines (k + 4) (goto .send3 (sendLooked j w s) s) =
      runLines k (goto .send8 (sendLooked j w s) (queueTx [j.byte] s)) := by
  simp [runLines_goto, lineStep, sendLooked, hroom, sendStore, slotWrite_eq hh, change]
  simp [queueTx, State.mapUart, atomically, setTxeIe, goto, Ring.pushAll, Ring.push]

/-- A `send` that finds room queues its byte in six lines. -/
theorem runLines_send_queue (hh : s.uart.tx.head < s.cfg.nTx) (hroom : ¬ TxFull s) (k : Nat) :
    runLines (k + 6) (goto .send1 j s) = runLines k (goto .send8 (sendLooked j 0 s) (queueTx [j.byte] s)) :=
  (runLines_send_look j s (k + 4)).trans (runLines_send_store hh hroom k)

/-- One that does not drain then returns (R187 lines 8 and 9). -/
theorem runLines_send_return (hdrain : sendDrains j = false) (k : Nat) :
    runLines (k + 2) (goto .send8 j s) = andThen (sendReturn (okStatus 1#16) j s) (runLines k) := by
  have hdrain (l : Line) : sendDrains { j with line := l } = false := hdrain
  simp [runLines_goto, lineStep, hdrain, sendReturn_goto]

/-- One that drains goes on to the drain loop (R187 line 8). -/
theorem runLines_send_drain (hdrain : sendDrains j = true) : runLines 1 (goto .send8 j s) = .next (goto .flushOut1 j s) := by
  have hdrain (l : Line) : sendDrains { j with line := l } = true := hdrain
  simp only [runLines_goto (n := 0), lineStep, hdrain, if_true, andThen_proceed, goto_goto, runLines_zero]
  rfl

/-- The host's `send` returns to the host. -/
theorem sendReturn_send {drain : Bool} {st : Status} (hop : j.op = .send drain) : sendReturn st j s = finish st s := by
  simp only [sendReturn, hop]

end

/-- The state in which the host's `send` of a byte it has queued goes on or returns. -/
theorem uartBegun_queueTx (b : Byte) (s : State) :
    queueTx [b] (uartBegun s) = { s with
      uart := { s.uart with
        tx := { s.uart.tx with
          buf := Memory.write s.uart.tx.buf s.uart.tx.head b, head := (s.uart.tx.head + 1) % s.cfg.nTx }
        ctrl := { s.uart.ctrl with txeIe := true }
        busy := true } } := by
  simp [queueTx, uartBegun, State.mapUart, Ring.pushAll, Ring.push, ringNext]

/-- Settles O52: the `send` looks, stores its byte, and returns or goes on to the drain loop. -/
theorem sendResult : Obligations.SendResult := by
  unfold Obligations.SendResult
  intro s b hbusy hopened hh hroom queued
  have hrun {drain : Bool} {n : Nat} (hn : s.burst = n) :
      exec (.uSend drain b) s = runLines n (goto .send1 (jobAt (.send drain) .send1 b s.uart) (uartBegun s)) :=
    uartCommand_run (op := .send drain) hbusy hopened hn
  refine ⟨fun hburst => ?_, fun hburst => ?_⟩
  · obtain ⟨k, hk⟩ := Nat.exists_eq_add_of_le' hburst
    rw [hrun hk, runLines_send_queue (s := uartBegun s) hh hroom, runLines_send_return rfl, sendReturn_send (drain := false) rfl,
      andThen_finish, runLines_uartReturn, uartBegun_queueTx]
    simp [uartReturn, State.mapUart, queued, jobAt, hbusy, Status.word, StClass.code, okStatus]
  · simp only [hrun hburst]
    rw [runLines_send_queue (s := uartBegun s) (k := 1) hh hroom, runLines_send_drain rfl, uartBegun_queueTx]
    exact ⟨_, rfl, rfl, rfl⟩

/-! ## A full ring (R167, R181, R187 line 4) -/

section
variable {s t : State} {j : Job} {w : Nat}

/-- After the pump a `send` gives up if its timeout is reached, else it waits (R187 line 4). -/
theorem sendWait_goto (hpump : pump s = .next t) (hcfg : t.cfg = s.cfg) (l m : Line) (k : Job) :
    sendWait { j with line := m } (goto l k s) =
      if sendTimeout s.cfg j ≠ 0#32 ∧ (sendTimeout s.cfg j).toNat ≤ j.waited then sendReturn ⟨.txTimeout, 0#16⟩ j t
      else proceed .send3 (wait s.cfg j) t := by
  rw [sendWait, pump_goto, hpump]
  change (if sendTimeout t.cfg j ≠ 0#32 ∧ (sendTimeout t.cfg j).toNat ≤ j.waited
    then sendReturn ⟨.txTimeout, 0#16⟩ { j with line := m } (goto l k t)
    else proceed .send3 (wait t.cfg { j with line := m }) (goto l k t)) = _
  rw [hcfg, sendReturn_goto]
  rfl

theorem runLines_send_turn (hfull : TxFull s) (k : Nat) :
    runLines (k + 1) (goto .send3 (sendLooked j w s) s) =
      runLines k (goto .send4 { sendLooked j w s with line := .send3 } s) := by
  rw [runLines_goto]
  exact congrArg (andThen · (runLines k)) (if_pos hfull)

/-- A `send` on a full ring: two lines a turn. -/
theorem runLines_send_full (hfull : TxFull s) (hpump : pump s = .next t) (hcfg : t.cfg = s.cfg) (k : Nat) :
    runLines (k + 2) (goto .send3 (sendLooked j w s) s) =
      andThen (if sendTimeout s.cfg j ≠ 0#32 ∧ (sendTimeout s.cfg j).toNat ≤ w
        then sendReturn ⟨.txTimeout, 0#16⟩ (sendLooked j w s) t
        else proceed .send3 (sendLooked j (w + s.cfg.pollQuantum) s) t) (runLines k) := by
  rw [runLines_send_turn hfull, runLines_goto]
  exact congrArg (andThen · (runLines k)) (sendWait_goto (j := sendLooked j w s) hpump hcfg ..)

/-- While its timeout is not reached it waits and looks at the tail again. -/
theorem runLines_send_wait (hfull : TxFull s) (hpump : pump s = .next t) (hcfg : t.cfg = s.cfg)
    (hwait : sendTimeout s.cfg j ≠ 0#32 → w < (sendTimeout s.cfg j).toNat) (k : Nat) :
    runLines (k + 2) (goto .send3 (sendLooked j w s) s) =
      runLines k (goto .send3 (sendLooked j (w + s.cfg.pollQuantum) s) t) := by
  rw [runLines_send_full hfull hpump hcfg, if_neg fun h => Nat.not_le.2 (hwait h.1) h.2]
  rfl

/-- Once its timeout is reached it gives up. -/
theorem runLines_send_timeout (hfull : TxFull s) (hpump : pump s = .next t) (hcfg : t.cfg = s.cfg)
    (htimeout : sendTimeout s.cfg j ≠ 0#32) (hwait : (sendTimeout s.cfg j).toNat ≤ w) (k : Nat) :
    runLines (k + 2) (goto .send3 (sendLooked j w s) s) =
      andThen (sendReturn ⟨.txTimeout, 0#16⟩ (sendLooked j w s) t) (runLines k) := by
  rw [runLines_send_full hfull hpump hcfg, if_pos ⟨htimeout, hwait⟩]

/-! ## The pump in action (R167, R195) -/

/-- The ring is full, and the pump would move its oldest byte: interrupts are off, `DATA` is free, the transmit interrupt is on. -/
structure PumpsFull (s : State) : Prop where
  full : TxFull s
  head : s.uart.tx.head < s.cfg.nTx
  tail : s.uart.tx.tail < s.cfg.nTx
  ne : s.uart.tx.head ≠ s.uart.tx.tail
  gie : s.gie = false
  hold : s.uart.txHold = none
  ie : s.uart.ctrl.txeIe = true

theorem PumpsFull.pump (h : PumpsFull s) : pump s = .next (popTx s) := by
  rw [pump_of_pending h.gie (txePending_eq_true.2 ⟨h.hold, h.ie⟩), onTransmitEmpty_eq h.hold h.tail, if_neg h.ne]

/-- The pump makes room for one byte. -/
theorem PumpsFull.not_full_popTx (h : PumpsFull s) : ¬ TxFull (popTx s) := ringNext_ne_of_ne h.head h.tail h.ne

/-- A `send` that finds such a ring queues its byte in eight lines, whatever its timeout. -/
theorem runLines_send_pumped (h : PumpsFull s) (k : Nat) :
    runLines (k + 8) (goto .send1 j s) =
      runLines k (goto .send8 (sendLooked j s.cfg.pollQuantum s) (queueTx [j.byte] (popTx s))) := by
  have hwait (hT : sendTimeout s.cfg j ≠ 0#32) : 0 < (sendTimeout s.cfg j).toNat := toNat_pos_iff.2 hT
  rw [runLines_send_look, runLines_send_wait h.full h.pump rfl hwait, Nat.zero_add]
  exact runLines_send_store (s := popTx s) h.head h.not_full_popTx k

end

/-- Settles O54: the pump makes the room in which the `send` then stores its byte. -/
theorem sendPumpsWhenInterruptsAreOff : Obligations.SendPumpsWhenInterruptsAreOff := by
  unfold Obligations.SendPumpsWhenInterruptsAreOff
  intro s b hinv hbusy hopened hgie hhold hie hfull hburst
  obtain ⟨⟨⟨-, ⟨htwo, -⟩, -⟩, -, -, hh, ht⟩, -⟩ := ringInv_iff.1 hinv
  have hne : s.uart.tx.head ≠ s.uart.tx.tail := (ringNext_ne_self htwo hh).symm.trans_eq hfull
  have hpumps : PumpsFull (uartBegun s) := ⟨hfull, hh, ht, hne, hgie, hhold, hie⟩
  obtain ⟨k, hk⟩ := Nat.exists_eq_add_of_le' hburst
  refine (uartCommand_run (op := .send false) hbusy hopened hk).trans ?_
  rw [issue_eq_goto, UOp.firstLine, runLines_send_pumped hpumps, runLines_send_return rfl, sendReturn_send (drain := false) rfl,
    andThen_finish, runLines_uartReturn]
  simp [uartReturn, queueTx, popTx, uartBegun, State.mapUart, Ring.pushAll, Ring.push, jobAt, hbusy, ringNext, hfull,
    Status.word, StClass.code, okStatus]
  rw [← hie]

/-! ## A ring that stays full (R181, R187) -/

section
variable {s : State} {j : Job} (hfull : TxFull s) (hidle : PumpIdle s)
include hfull hidle

/-- With a timeout a `send` gives up after as many turns as make it up. -/
theorem runLines_send_turns (htimeout : sendTimeout s.cfg j ≠ 0#32) : ∀ {p k w : Nat},
    (sendTimeout s.cfg j).toNat ≤ w + p * s.cfg.pollQuantum → 2 * (p + 1) ≤ k →
    ∃ v m, k ≤ m + 2 * (p + 1) ∧ runLines k (goto .send3 (sendLooked j w s) s) =
      andThen (sendReturn ⟨.txTimeout, 0#16⟩ (sendLooked j v s) s) (runLines m)
  | p, k, w, hp, hk => by
    obtain ⟨k, rfl⟩ : ∃ n, k = n + 2 := ⟨k - 2, by omega⟩
    rcases Nat.lt_or_ge w (sendTimeout s.cfg j).toNat with hlt | hge
    · cases p with
      | zero => omega
      | succ p =>
        rw [Nat.succ_mul] at hp
        obtain ⟨v, m, hm, hrun⟩ := runLines_send_turns htimeout (p := p) (k := k) (w := w + s.cfg.pollQuantum) (by omega) (by omega)
        exact ⟨v, m, by omega, (runLines_send_wait hfull (pump_of_idle hidle) rfl (fun _ => hlt) k).trans hrun⟩
    · exact ⟨w, k, by omega, runLines_send_timeout hfull (pump_of_idle hidle) rfl htimeout hge k⟩

/-- So many lines after its first one it has given up. -/
theorem runLines_send_gives_up (htimeout : sendTimeout s.cfg j ≠ 0#32) (hq : 0 < s.cfg.pollQuantum) {k : Nat}
    (hk : 2 * ((sendTimeout s.cfg j).toNat / s.cfg.pollQuantum + 3) ≤ k) :
    ∃ v m, k ≤ m + 2 * ((sendTimeout s.cfg j).toNat / s.cfg.pollQuantum + 3) ∧
      runLines k (goto .send1 j s) = andThen (sendReturn ⟨.txTimeout, 0#16⟩ (sendLooked j v s) s) (runLines m) := by
  have hp := timeout_le_polls hq (sendTimeout s.cfg j).toNat
  generalize (sendTimeout s.cfg j).toNat / s.cfg.pollQuantum = p at hk hp ⊢
  obtain ⟨k, rfl⟩ : ∃ n, k = n + 2 := ⟨k - 2, by omega⟩
  obtain ⟨v, m, hm, hrun⟩ := runLines_send_turns hfull hidle htimeout (k := k) (w := 0) (hp.trans_eq (Nat.zero_add _).symm)
    (by omega)
  exact ⟨v, m, by omega, hrun⟩

/-- Without one it goes on waiting. -/
theorem runLines_send_waits (hforever : sendTimeout s.cfg j = 0#32) : ∀ k w,
    ∃ l i, runLines k (goto .send3 (sendLooked j w s) s) = .next (goto l i s)
  | 0, w => ⟨_, _, rfl⟩
  | 1, w => ⟨_, _, runLines_send_turn hfull 0⟩
  | k + 2, w => by
    obtain ⟨l, i, hrun⟩ := runLines_send_waits hforever k (w + s.cfg.pollQuantum)
    exact ⟨l, i, (runLines_send_wait hfull (pump_of_idle hidle) rfl (absurd hforever) k).trans hrun⟩

theorem runLines_send_never_returns (hforever : sendTimeout s.cfg j = 0#32) : ∀ k,
    ∃ l i, runLines k (goto .send1 j s) = .next (goto l i s)
  | 0 => ⟨_, _, rfl⟩
  | 1 => ⟨_, _, rfl⟩
  | k + 2 => runLines_send_waits hfull hidle hforever k 0

end

/-- The host's `send` on a full ring that the pump does not empty. -/
theorem send_on_full_ring {s : State} {drain : Bool} {b : Byte} (hbusy : s.uart.busy = false) (hopened : s.uart.opened = true)
    (hfull : TxFull s) (hq : 0 < s.cfg.pollQuantum) (hidle : PumpIdle s) :
    (s.uart.oprTimeout ≠ 0#32 → 2 * (s.uart.oprTimeout.toNat / s.cfg.pollQuantum + 3) ≤ s.burst →
      exec (.uSend drain b) s = .next { s with
        uart := { s.uart with resStatus := s.cfg.st.txTimeout ++ 0#16, job := none } }) ∧
    (s.uart.oprTimeout = 0#32 →
      ∃ j, exec (.uSend drain b) s = .next { s with uart := { s.uart with busy := true, job := some j } }) := by
  have hrun : exec (.uSend drain b) s = runLines s.burst (goto .send1 (jobAt (.send drain) .send1 b s.uart) (uartBegun s)) :=
    uartCommand_run (op := .send drain) hbusy hopened rfl
  refine ⟨fun htimeout hburst => hrun.trans ?_, fun hforever => ?_⟩
  · obtain ⟨v, m, -, hsend⟩ := runLines_send_gives_up (s := uartBegun s) (j := jobAt (.send drain) .send1 b s.uart)
      hfull hidle htimeout hq hburst
    rw [hsend, sendReturn_send (drain := drain) rfl, andThen_finish, runLines_uartReturn]
    simp [uartReturn, uartBegun, State.mapUart, hbusy, Status.word, StClass.code]
  · obtain ⟨l, i, hsend⟩ := runLines_send_never_returns (s := uartBegun s) (j := jobAt (.send drain) .send1 b s.uart)
      hfull hidle hforever s.burst
    exact ⟨_, hrun.trans hsend⟩

end Sys2Proof.Machine
end

section
/-! SUPPORT. A buffer or string `send` whose ring fills up and then stays full (spec 43_uart_operations.md R181, R187 to R189, R192;
93_implementation_defined.md U14, U18): it queues what finds room, one byte more when the pump moves the oldest, and gives up. -/

namespace Sys2Proof.Machine

/-! ## The ring -/

section
variable {n : Nat} {r : Ring} {b : Byte}

/-- The oldest byte of a full ring taken and a byte queued in the room that gives (R162, R163). -/
theorem bytes_pop_push (hh : r.head < n) (ht : r.tail < n) (hne : r.head ≠ r.tail) (hwf : r.buf.wf) :
    r.bytes n ++ [b] = Memory.read r.buf r.tail :: ((r.pop n).push n b).bytes n := by
  have hroom : (r.pop n).HasRoom n 1 :=
    Ring.hasRoom_one hh (ringNext_lt (Nat.zero_lt_of_lt ht)) (ringNext_ne_of_ne hh ht hne)
  rw [bytes_push hroom hwf, bytes_pop hh ht hne, List.cons_append]

theorem length_bytes : (r.bytes n).length = ringCount n r.head r.tail := by simp [Ring.bytes]

theorem wf_pushAll : ∀ {bytes : List Byte} {r : Ring}, r.buf.wf → (r.pushAll n bytes).buf.wf
  | [], _, h => h
  | b :: _, r, h => wf_pushAll (r := r.push n b) (Memory.wf_write _ _ h)

/-- A ring that has taken as many bytes as it had room for is full (R161). -/
theorem full_pushAll {bytes : List Byte} (hh : r.head < n) (ht : r.tail < n) (hwf : r.buf.wf)
    (hroom : ringCount n r.head r.tail + bytes.length = n - 1) :
    ringNext n (r.pushAll n bytes).head = (r.pushAll n bytes).tail := by
  have hfit : r.HasRoom n (0 + bytes.length) := ⟨hh, ht, by omega⟩
  obtain ⟨hh', ht', -⟩ := hfit.pushAll
  have hcount := congrArg List.length (bytes_pushAll (Nat.zero_add _ ▸ hfit) hwf)
  rw [List.length_append, length_bytes, length_bytes, hroom] at hcount
  exact (ringCount_eq_full hh' ht').1 hcount

/-- Bytes queued as far as there is room, the oldest taken, and one more queued. -/
theorem bytes_pushAll_pop {bytes : List Byte} (hfit : r.HasRoom n bytes.length) (hwf : r.buf.wf)
    (hne : (r.pushAll n bytes).head ≠ (r.pushAll n bytes).tail) :
    r.bytes n ++ (bytes ++ [b]) =
      Memory.read (r.pushAll n bytes).buf r.tail :: ((r.pushAll n (bytes ++ [b])).pop n).bytes n := by
  obtain ⟨hh, ht, -⟩ := Ring.HasRoom.pushAll (m := 0) ((Nat.zero_add bytes.length).symm ▸ hfit)
  have hpush := bytes_pop_push (b := b) hh ht hne (wf_pushAll hwf)
  rw [bytes_pushAll hfit hwf, pushAll_tail] at hpush
  rw [← List.append_assoc, hpush, pushAll_concat, push_pop_comm]

end

/-! ## The two forms (R188, R189) -/

/-- How the operation `op`, issued in `s`, loops from the line `l` with `c` lines before it calls the single-byte `send`, as long as its
counter is at most `n`; and what it makes of the `send`'s return. -/
structure SendForm (op : UOp) (l : Line) (c n : Nat) (s : State) : Prop where
  body : ∀ i < n, ∀ j u, LoopAt op s i j → SendsFrom s u → ∀ k,
    runLines (k + (c + 10)) (goto l j u) = runLines k (goto l (sentByte (uartByte s i) j u) (queueTx [uartByte s i] u))
  load : ∀ i ≤ n, ∀ j u, LoopAt op s i j → u.cfg = s.cfg → u.hbuf = s.hbuf → ∀ k,
    runLines (k + c) (goto l j u) = runLines k (goto .send1 { j with byte := uartByte s i } u)
  sent : ∀ j u, j.op = op → ∀ k, andThen (sendReturn (okStatus 1#16) j u) (runLines (k + 2)) =
    runLines k (goto l { j with ret := okStatus 1#16, i := j.i + 1 } u)
  failed : ∀ j u, j.op = op → ∀ k, andThen (sendReturn ⟨.txTimeout, 0#16⟩ j u) (runLines (k + 1)) =
    .next (uartReturn ⟨.txTimeout, BitVec.ofNat 16 j.i⟩ u)
  timeout : ∀ c j, j.op = op → sendTimeout c j = c.sendbufTimeout
  drains : ∀ j, j.op = op → sendDrains j = false

theorem sendForm_sendBuf {drain : Bool} {n : Nat} {s : State} (hn : n < s.uart.oprCount.toNat) :
    SendForm (.sendBuf drain) .sendBuf2 3 n s where
  body i hi j u hj hu k := runLines_sendBuf_body (hi.trans hn) hj hu k
  load i hi j u hj hcfg hhbuf k := by
    have hmore : j.i < j.count.toNat := by rw [hj.i_eq, hj.count_eq]; exact Nat.lt_of_le_of_lt hi hn
    rw [← bufferByte_eq hj hcfg hhbuf]
    simp only [runLines_goto, lineStep, if_pos hmore, andThen_proceed, goto_goto]
    exact congrArg (runLines k) rfl
  sent j u hop k := by
    rw [sendReturn_sendBuf hop, andThen_proceed, runLines_sendBuf_next rfl]
  failed j u hop k := by
    rw [sendReturn_sendBuf hop, andThen_proceed, runLines_goto]
    exact runLines_uartReturn k _ u
  timeout c j hop := by simp only [sendTimeout, hop]
  drains j hop := by simp only [sendDrains, hop]

theorem sendForm_sendStr {drain : Bool} {n : Nat} {s : State} (hn : ∀ i ≤ n, uartByte s i ≠ 0#8) :
    SendForm (.sendStr drain) .sendStr2 4 n s where
  body i hi j u hj hu k := runLines_sendStr_body (hn i hi.le) hj hu k
  load i hi j u hj hcfg hhbuf k := by
    have hbyte := hn i hi
    rw [← bufferByte_eq hj hcfg hhbuf] at hbyte ⊢
    simp only [runLines_goto, lineStep, andThen_proceed, goto_goto, bufferByte_goto, if_neg hbyte]
    exact congrArg (runLines k) rfl
  sent j u hop k := by
    rw [sendReturn_sendStr hop, andThen_proceed, runLines_sendStr_next rfl]
  failed j u hop k := by
    rw [sendReturn_sendStr hop, andThen_proceed, runLines_goto]
    exact runLines_uartReturn k _ u
  timeout c j hop := by simp only [sendTimeout, hop]
  drains j hop := by simp only [sendDrains, hop]

section
variable {op : UOp} {l : Line} {c n i : Nat} {s u : State} {j : Job}

/-- A byte that finds the ring full, and the pump in action, is queued all the same. -/
theorem SendForm.pumped (h : SendForm op l c n s) (hi : i ≤ n) (hj : LoopAt op s i j) (hcfg : u.cfg = s.cfg)
    (hhbuf : u.hbuf = s.hbuf) (hpumps : PumpsFull u) :
    ∃ j', LoopAt op s (i + 1) j' ∧ ∀ k, runLines (k + (c + 12)) (goto l j u) =
      runLines k (goto l j' (queueTx [uartByte s i] (popTx u))) := by
  have hop : (sendLooked { j with byte := uartByte s i } u.cfg.pollQuantum u).op = op := hj.op_eq
  refine ⟨{ sendLooked { j with byte := uartByte s i } u.cfg.pollQuantum u with ret := okStatus 1#16, i := j.i + 1 },
    ⟨hj.op_eq, hj.buf_eq, hj.count_eq, congrArg (· + 1) hj.i_eq⟩, fun k => ?_⟩
  rw [show k + (c + 12) = k + 2 + 2 + 8 + c by omega, h.load i hi j u hj hcfg hhbuf, runLines_send_pumped hpumps,
    runLines_send_return (h.drains _ hop), h.sent _ _ hop]
  rfl

/-- A byte that finds the ring full, and the pump not in action, ends the operation after its timeout (R181). -/
theorem SendForm.gives_up (h : SendForm op l c n s) (hi : i ≤ n) (hj : LoopAt op s i j) (hcfg : u.cfg = s.cfg)
    (hhbuf : u.hbuf = s.hbuf) (hfull : TxFull u) (hidle : PumpIdle u) (htimeout : s.cfg.sendbufTimeout ≠ 0#32)
    (hq : 0 < s.cfg.pollQuantum) {k : Nat} (hk : 2 * (s.cfg.sendbufTimeout.toNat / s.cfg.pollQuantum + 3) + c + 1 ≤ k) :
    runLines k (goto l j u) = .next (uartReturn ⟨.txTimeout, BitVec.ofNat 16 i⟩ u) := by
  have hT : sendTimeout u.cfg { j with byte := uartByte s i } = s.cfg.sendbufTimeout := by
    rw [h.timeout _ { j with byte := uartByte s i } hj.op_eq, hcfg]
  obtain ⟨k, rfl⟩ : ∃ m, k = m + c := ⟨k - c, by omega⟩
  obtain ⟨v, m, hm, hrun⟩ := runLines_send_gives_up hfull hidle (j := { j with byte := uartByte s i }) (k := k)
    (hT.trans_ne htimeout) (hcfg ▸ hq) (by rw [hT, hcfg]; omega)
  rw [hT, hcfg] at hm
  obtain ⟨m, rfl⟩ : ∃ p, m = p + 1 := ⟨m - 1, by omega⟩
  rw [h.load i hi j u hj hcfg hhbuf, hrun, h.failed (sendLooked { j with byte := uartByte s i } v u) u hj.op_eq]
  exact congrArg (fun n => Host.Outcome.next (uartReturn ⟨.txTimeout, BitVec.ofNat 16 n⟩ u)) hj.i_eq

end

/-! ## The command -/

/-- The outcome in which a buffer or string `send` has queued the first `n` bytes of its buffer, the pump has moved `pumped` bytes of
the ring to `DATA`, and the operation has given up. -/
def GaveUp (s : State) (pumped n : Nat) (o : Out) : Prop :=
  let bytes := s.uart.tx.bytes s.cfg.nTx ++ (List.range n).map (uartByte s)
  ∃ ring : Ring, ring.tail = (s.uart.tx.tail + pumped) % s.cfg.nTx ∧ ring.head = (s.uart.tx.head + n) % s.cfg.nTx ∧
    ring.bytes s.cfg.nTx = bytes.drop pumped ∧
    (∀ a, (∀ k < n, a ≠ (s.uart.tx.head + k) % s.cfg.nTx) → Memory.read ring.buf a = Memory.read s.uart.tx.buf a) ∧
    o = .next { s with
      uart := { s.uart with
        tx := ring
        txHold := if pumped = 1 then bytes.head? else s.uart.txHold
        ctrl := { s.uart.ctrl with txeIe := s.uart.ctrl.txeIe || decide (0 < n) }
        resStatus := s.cfg.st.txTimeout ++ BitVec.ofNat 16 n, job := none } }

/-- The state after a form has queued `n` bytes since its issue. -/
def filled (op : UOp) (n : Nat) (s : State) : State := queueTx ((List.range n).map (uartByte s)) (issue op 0#8 s)

/-- The pump is in action on the filled ring only if interrupts are off, `DATA` is free, and the transmit interrupt was on or has been
enabled by a byte queued. -/
theorem pumpIdle_filled {op : UOp} {room : Nat} {s : State}
    (hp : ¬ (s.gie = false ∧ s.uart.txHold = none ∧ (s.uart.ctrl.txeIe = true ∨ 0 < room))) : PumpIdle (filled op room s) := by
  simp only [not_and_or, not_or, Bool.not_eq_false, Bool.not_eq_true, Nat.pos_iff_ne_zero, not_not] at hp
  refine hp.imp_right (Or.imp_right ?_)
  rintro ⟨hie, rfl⟩
  simp [filled, queueTx, issue, hie]

section
variable {op : UOp} {l : Line} {c room : Nat} {s : State}
  (hinv : RingInv s) (hmem : MemInv s) (hbusy : s.uart.busy = false)
  (hroom : ringCount s.cfg.nTx s.uart.tx.head s.uart.tx.tail + room = s.cfg.nTx - 1)
include hinv hmem hroom

theorem full_filled : TxFull (filled op room s) := by
  obtain ⟨⟨-, -, -, hh, ht⟩, -⟩ := ringInv_iff.1 hinv
  exact full_pushAll hh ht (memInv_iff.1 hmem).tx.1 (by rwa [List.length_map, List.length_range])

theorem pumpsFull_filled (hgie : s.gie = false) (hhold : s.uart.txHold = none)
    (hie : s.uart.ctrl.txeIe = true ∨ 0 < room) : PumpsFull (filled op room s) := by
  obtain ⟨⟨⟨-, ⟨htwo, -⟩, -⟩, -, -, hh, ht⟩, -⟩ := ringInv_iff.1 hinv
  have hfull := full_filled (op := op) hinv hmem hroom
  have hhead : (filled op room s).uart.tx.head < s.cfg.nTx := (pushAll_head hh).trans_lt (Nat.mod_lt _ (Nat.zero_lt_of_lt hh))
  have htail : (filled op room s).uart.tx.tail < s.cfg.nTx := (pushAll_tail _ _).trans_lt ht
  refine ⟨hfull, hhead, htail, (ringNext_ne_self htwo hhead).symm.trans_eq hfull, hgie, hhold, ?_⟩
  simpa [filled, queueTx, issue] using hie

/-- A form first queues as many bytes as find room. -/
theorem SendForm.fills {n : Nat} (form : SendForm op l c n (issue op 0#8 s)) (hn : room ≤ n)
    (hfirst : ∀ k, runLines (k + 1) (issue op 0#8 s) = runLines k (goto l (jobAt op op.firstLine 0#8 s.uart) (issue op 0#8 s))) :
    ∃ j, LoopAt op (issue op 0#8 s) room j ∧
      ∀ k, runLines (k + (c + 10) * room + 1) (issue op 0#8 s) = runLines k (goto l j (filled op room s)) := by
  obtain ⟨⟨-, -, -, hh, -⟩, -⟩ := ringInv_iff.1 hinv
  obtain ⟨hfit, -⟩ := queued_ring hinv hmem (n := room) (by omega)
  obtain ⟨j, hj, hloop⟩ := runLines_sendLoop (s := issue op 0#8 s)
    (fun i hi j u hj hu k => form.body i (by omega) j u hj hu k) hfit (loopAt_issue op op.firstLine 0#8 s) room le_rfl
  exact ⟨j, hj, fun k => (hfirst _).trans (hloop k)⟩

include hbusy

theorem gaveUp_filled :
    GaveUp s 0 room (.next (uartReturn ⟨.txTimeout, BitVec.ofNat 16 room⟩ (filled op room s))) := by
  obtain ⟨⟨-, -, -, hh, ht⟩, -⟩ := ringInv_iff.1 hinv
  obtain ⟨-, htail, hhead, hbytes, hother⟩ := queued_ring hinv hmem (n := room) (by omega)
  refine ⟨_, htail.trans (Nat.mod_eq_of_lt ht).symm, hhead, hbytes, hother, ?_⟩
  rw [filled, uartReturn_queueTx hbusy]
  simp [Status.word, StClass.code]

theorem gaveUp_pumped (hpumps : PumpsFull (filled op room s)) :
    GaveUp s 1 (room + 1) (.next (uartReturn ⟨.txTimeout, BitVec.ofNat 16 (room + 1)⟩
      (queueTx [uartByte s room] (popTx (filled op room s))))) := by
  obtain ⟨⟨-, -, -, hh, ht⟩, -⟩ := ringInv_iff.1 hinv
  obtain ⟨hfit, -⟩ := queued_ring hinv hmem (n := room) (by omega)
  have hlen (n : Nat) : ((List.range n).map (uartByte s)).length = n := by simp
  have hlast : (List.range (room + 1)).map (uartByte s) = (List.range room).map (uartByte s) ++ [uartByte s room] := by
    rw [List.range_succ, List.map_append, List.map_singleton]
  have hbytes := bytes_pushAll_pop (b := uartByte s room) (n := s.cfg.nTx) (bytes := (List.range room).map (uartByte s))
    ((hlen room).symm ▸ hfit) (memInv_iff.1 hmem).tx.1 hpumps.ne
  rw [← hlast] at hbytes
  refine ⟨(s.uart.tx.pushAll s.cfg.nTx ((List.range (room + 1)).map (uartByte s))).pop s.cfg.nTx, ?_, ?_, ?_, fun a ha => ?_, ?_⟩
  · exact congrArg (ringNext s.cfg.nTx) (pushAll_tail _ _)
  · exact (pushAll_head hh).trans (by rw [hlen])
  · exact (congrArg List.tail hbytes).symm.trans List.drop_one.symm
  · exact read_pushAll_other hh ((hlen _).symm ▸ ha)
  · rw [hbytes, hlast, pushAll_concat]
    simp [uartReturn, queueTx, popTx, filled, issue, State.mapUart, hbusy, Status.word, StClass.code, Ring.pushAll, Ring.pop, Ring.push]

/-- The first byte that finds the ring full is queued if the pump is in action, and the operation gives up at the one after. -/
theorem SendForm.gaveUp {pumped : Nat} (form : SendForm op l c (room + pumped) (issue op 0#8 s))
    (hfirst : ∀ k, runLines (k + 1) (issue op 0#8 s) = runLines k (goto l (jobAt op op.firstLine 0#8 s.uart) (issue op 0#8 s)))
    (hpumped : pumped = if s.gie = false ∧ s.uart.txHold = none ∧ (s.uart.ctrl.txeIe = true ∨ 0 < room) then 1 else 0)
    (hopened : s.uart.opened = true) (htimeout : s.cfg.sendbufTimeout ≠ 0#32)
    (hburst : (c + 10) * (room + pumped) + 2 * (s.cfg.sendbufTimeout.toNat / s.cfg.pollQuantum) + c + 10 ≤ s.burst) :
    GaveUp s pumped (room + pumped) (uartCommand (needsUartOpen s) op op.firstLine 0#8 s) := by
  rw [uartCommand_run hbusy hopened rfl]
  obtain ⟨⟨⟨-, -, -, -, -, -, hq, -⟩, -⟩, -⟩ := ringInv_iff.1 hinv
  have hfull := full_filled (op := op) hinv hmem hroom
  obtain ⟨j, hj, hrun⟩ := form.fills hinv hmem hroom (Nat.le_add_right _ _) hfirst
  by_cases hp : s.gie = false ∧ s.uart.txHold = none ∧ (s.uart.ctrl.txeIe = true ∨ 0 < room)
  · obtain rfl : pumped = 1 := hpumped.trans (if_pos hp)
    obtain ⟨hgie, hhold, hie⟩ := hp
    have hpumps : PumpsFull (filled op room s) := pumpsFull_filled hinv hmem hroom hgie hhold hie
    obtain ⟨i, hi, hpump⟩ := form.pumped (u := filled op room s) (Nat.le_add_right _ _) hj rfl rfl hpumps
    rw [Nat.mul_succ] at hburst
    obtain ⟨k, hk⟩ : ∃ k, s.burst = k + (c + 12) + (c + 10) * room + 1 := ⟨s.burst - ((c + 12) + (c + 10) * room + 1), by omega⟩
    have hleft : 2 * (s.cfg.sendbufTimeout.toNat / s.cfg.pollQuantum + 3) + c + 1 ≤ k := by omega
    have hend := form.gives_up (u := queueTx [uartByte s room] (popTx (filled op room s))) le_rfl hi rfl rfl
      (congrArg (ringNext s.cfg.nTx) hfull) (.inr (.inl nofun)) htimeout hq hleft
    rw [hk, hrun, hpump, uartByte_issue, hend]
    exact gaveUp_pumped hinv hmem hbusy hroom hpumps
  · obtain rfl : pumped = 0 := hpumped.trans (if_neg hp)
    replace hburst : (c + 10) * room + 2 * (s.cfg.sendbufTimeout.toNat / s.cfg.pollQuantum) + c + 10 ≤ s.burst := hburst
    obtain ⟨k, hk⟩ : ∃ k, s.burst = k + (c + 10) * room + 1 := ⟨s.burst - ((c + 10) * room + 1), by omega⟩
    have hleft : 2 * (s.cfg.sendbufTimeout.toNat / s.cfg.pollQuantum + 3) + c + 1 ≤ k := by omega
    rw [hk, hrun, form.gives_up (u := filled op room s) le_rfl hj rfl rfl hfull (pumpIdle_filled hp) htimeout hq hleft]
    exact gaveUp_filled hinv hmem hbusy hroom

end

/-- Settles O53: a `send` on a full ring takes turns until its timeout is made up; a buffer or string `send` comes to that once its
ring is full. -/
theorem sendOnStuckRing : Obligations.SendOnStuckRing := by
  unfold Obligations.SendOnStuckRing
  refine ⟨fun s drain b hbusy hopened hfull hq hidle => send_on_full_ring hbusy hopened hfull hq hidle, ?_⟩
  intro s drain hinv hmem hbusy hopened htimeout room pumped n bytes givesUp
  obtain ⟨⟨-, -, -, hh, ht⟩, -⟩ := ringInv_iff.1 hinv
  have hcount : ringCount s.cfg.nTx s.uart.tx.head s.uart.tx.tail < s.cfg.nTx := ringCount_lt (by omega)
  have hroom : ringCount s.cfg.nTx s.uart.tx.head s.uart.tx.tail + room = s.cfg.nTx - 1 := by omega
  refine ⟨fun hn hburst => ?_, fun hn hburst => ?_⟩
  · exact SendForm.gaveUp (op := .sendBuf drain) hinv hmem hbusy hroom (sendForm_sendBuf hn) (fun _ => rfl) rfl hopened htimeout
      (by omega)
  · exact SendForm.gaveUp (op := .sendStr drain) hinv hmem hbusy hroom (sendForm_sendStr hn) (fun _ => rfl) rfl hopened htimeout
      (by omega)

end Sys2Proof.Machine
end

section
/-! SUPPORT. `open`, `close` and `flush` with their lines run together (spec 43_uart_operations.md R182, R183, R186). -/

namespace Sys2Proof.Machine

/-- An admitted command that needs no open port runs its first `burst` lines (R180). -/
theorem uartCommand_anyPort_run {op : UOp} {b : Byte} {s : State} {n : Nat} (hbusy : s.uart.busy = false) (hn : s.burst = n) :
    uartCommand none op op.firstLine b s = runLines n (issue op b s) :=
  hn ▸ uartCommand_eq hbusy rfl

section
variable {j : Job} {s : State}

/-! ## `open` (R182) -/

/-- `open` of an open port returns at its first line. -/
theorem runLines_open_opened (hopened : s.uart.opened = true) (k : Nat) :
    runLines (k + 1) (goto .open1 j s) = .next (uartReturn (okStatus 0#16) s) := by
  simp [runLines_goto, lineStep, hopened, runLines_uartReturn]

/-- What lines 2 to 4 of `open` do. -/
def openPort (c : Config) (u : Uart) : Uart :=
  { enableReceive { u with baud := c.uartBaud, format := c.uartFormat } with opened := true }

/-- `open` of a closed port returns at its fifth line. -/
theorem runLines_open_closed (hclosed : s.uart.opened = false) (k : Nat) :
    runLines (k + 5) (goto .open1 j s) = .next (uartReturn (okStatus 0#16) (s.mapUart (openPort s.cfg))) :=
  calc runLines (k + 5) (goto .open1 j s)
    _ = runLines (k + 4) (goto .open2 j s) := by
      rw [runLines_goto]
      exact congrArg (andThen · _) (if_neg (Bool.eq_false_iff.1 hclosed))
    _ = runLines (k + 1) (goto .open5 j (s.mapUart (openPort s.cfg))) := rfl
    _ = _ := (runLines_goto ..).trans (runLines_uartReturn ..)

/-! ## The drain loop (R186) -/

/-- With the transmitter idle `flush_out()` returns in two lines, wherever it was called. -/
theorem runLines_flushOut_idle (hidle : txIdle s.uart) (k : Nat) :
    runLines (k + 2) (goto .flushOut1 j s) = andThen (flushOutReturn j s) (runLines k) := by
  rw [runLines_drain_idle (s := goto .flushOut1 j s) rfl rfl hidle]
  obtain ⟨op⟩ := j
  cases op <;> rfl

theorem flushOutReturn_flush {outbound : Bool} (hop : j.op = .flush outbound) : flushOutReturn j s = finish (okStatus 0#16) s := by
  simp only [flushOutReturn, hop]

theorem flushOutReturn_closing (hop : j.op = .closing) : flushOutReturn j s = proceed .close3 j s := by
  simp only [flushOutReturn, hop]

/-! ## `close` (R183) -/

/-- `close` of a closed port returns at its first line. -/
theorem runLines_close_closed (hclosed : s.uart.opened = false) (k : Nat) :
    runLines (k + 1) (goto .close1 j s) = .next (uartReturn (okStatus 0#16) s) := by
  simp [runLines_goto, lineStep, hclosed, runLines_uartReturn]

/-- What lines 3 and 4 of `close` do. -/
def closePort (u : Uart) : Uart := { tearDown u with opened := false }

/-- `close` of an open port whose transmitter is idle returns at its fifth line, having called the drain loop in its second. -/
theorem runLines_close_idle (hop : j.op = .closing) (hopened : s.uart.opened = true) (hidle : txIdle s.uart) (k : Nat) :
    runLines (k + 7) (goto .close1 j s) = .next (uartReturn (okStatus 0#16) (s.mapUart closePort)) :=
  calc runLines (k + 7) (goto .close1 j s)
    _ = runLines (k + 6) (goto .close2 j s) := by
      rw [runLines_goto]
      exact congrArg (andThen · _) (if_pos hopened)
    _ = runLines (k + 5) (goto .flushOut1 j s) := rfl
    _ = runLines (k + 3) (goto .close3 j s) := by
      rw [runLines_flushOut_idle hidle, flushOutReturn_closing hop, andThen_proceed]
    _ = runLines (k + 1) (goto .close5 j (s.mapUart closePort)) := rfl
    _ = _ := (runLines_goto ..).trans (runLines_uartReturn ..)

/-! ## `flush` (R186) -/

/-- The two lines of the inbound `flush`. -/
theorem runLines_flushIn (k : Nat) :
    runLines (k + 2) (goto .flushIn1 j s) = .next (uartReturn (okStatus 0#16) (s.mapUart discardInput)) :=
  calc runLines (k + 2) (goto .flushIn1 j s)
    _ = runLines (k + 1) (goto .flushIn2 j (s.mapUart discardInput)) := rfl
    _ = _ := (runLines_goto ..).trans (runLines_uartReturn ..)

end

/-! ## What the host sees (R28, R96) -/

/-- What the host sees of an operation that changed the controller by `f` and returned `OK`: `BUSY` is 0 again. -/
theorem uartReturn_ok {f : Uart → Uart} {s : State} (hbusy : (f s.uart).busy = false)
    (hf : f { s.uart with busy := true } = { f s.uart with busy := true }) (payload : BitVec 16) :
    uartReturn (okStatus payload) ((uartBegun s).mapUart f) =
      { s with uart := { f s.uart with resStatus := s.cfg.st.ok ++ payload, job := none } } := by
  simp [uartReturn, uartBegun, State.mapUart, hf, hbusy, Status.word, StClass.code, okStatus]

/-- It sees only the status of one that changed nothing. -/
theorem uartReturn_ok_unchanged {s : State} (hbusy : s.uart.busy = false) (payload : BitVec 16) :
    uartReturn (okStatus payload) (uartBegun s) =
      { s with uart := { s.uart with resStatus := s.cfg.st.ok ++ payload, job := none } } :=
  uartReturn_ok (f := id) hbusy rfl payload

/-- Settles O47: the first line returns where the port is open; else the fifth returns, after the three that open it. -/
theorem uartOpenResult : Obligations.UartOpenResult := by
  unfold Obligations.UartOpenResult
  intro s hbusy hburst
  obtain ⟨k, hk⟩ := Nat.exists_eq_add_of_le' hburst
  have hrun : exec .uOpen s = _ := uartCommand_anyPort_run (op := .opening) hbusy hk
  rw [issue_eq_goto, UOp.firstLine] at hrun
  refine ⟨fun hopened => ?_, fun hclosed => ?_⟩
  · rw [hrun, runLines_open_opened (s := uartBegun s) hopened, uartReturn_ok_unchanged hbusy]
  · rw [hrun, runLines_open_closed (s := uartBegun s) hclosed, uartReturn_ok hbusy rfl]
    rfl

/-- Settles O48: the first line returns where the port is closed; else the drain loop ends at once, and the lines after it tear down. -/
theorem uartCloseResult : Obligations.UartCloseResult := by
  unfold Obligations.UartCloseResult
  intro s hbusy hburst
  obtain ⟨k, hk⟩ := Nat.exists_eq_add_of_le' hburst
  have hrun : exec .uClose s = _ := uartCommand_anyPort_run (op := .closing) hbusy hk
  rw [issue_eq_goto, UOp.firstLine] at hrun
  refine ⟨fun hclosed => ?_, fun hopened hempty hhold hshift => ?_⟩
  · rw [hrun, runLines_close_closed (s := uartBegun s) hclosed, uartReturn_ok_unchanged hbusy]
  · rw [hrun, runLines_close_idle (s := uartBegun s) rfl hopened ⟨hempty, hhold, hshift⟩, uartReturn_ok hbusy rfl]
    rfl

/-- Settles O50: inbound, the first line discards the input; outbound, the drain loop ends at once; then the `flush` returns. -/
theorem flushResult : Obligations.FlushResult := by
  unfold Obligations.FlushResult
  intro s hbusy hopened hburst
  obtain ⟨k, hk⟩ := Nat.exists_eq_add_of_le' hburst
  have hrun (outbound : Bool) : exec (.uFlush outbound) s = _ :=
    uartCommand_run (op := .flush outbound) (b := 0#8) hbusy hopened hk
  simp only [issue_eq_goto, UOp.firstLine] at hrun
  refine ⟨?_, fun hempty hhold hshift => ?_⟩
  · rw [hrun, if_neg Bool.false_ne_true, runLines_flushIn, uartReturn_ok hbusy rfl]
    rfl
  · rw [hrun, if_pos rfl, runLines_flushOut_idle (s := uartBegun s) ⟨hempty, hhold, hshift⟩, flushOutReturn_flush rfl,
      andThen_finish, runLines_uartReturn, uartReturn_ok_unchanged hbusy]

end Sys2Proof.Machine
end

section
/-! SUPPORT. The two interrupt entry points taken one after the other (spec 60_exceptions.md R217). -/

namespace Sys2Proof.Machine

section
variable {s : State} {b : Byte} {e : HwFlags}

/-! ## What each entry point does to the state (R165, R166), and what it leaves to the other -/

/-- The state after on-receive has taken the waiting byte `b` with the flags `e`. -/
def afterOnRx (b : Byte) (e : HwFlags) (s : State) : State :=
  if ringNext s.cfg.nRx s.uart.rx.head = s.uart.rx.tail then dropRx e s else pushRx b e s

/-- The state after on-transmit-empty. -/
def afterOnTxe (s : State) : State := if s.uart.tx.head = s.uart.tx.tail then clearTxeIe s else popTx s

theorem afterOnRx_of_full (h : ringNext s.cfg.nRx s.uart.rx.head = s.uart.rx.tail) : afterOnRx b e s = dropRx e s := if_pos h

theorem afterOnRx_of_room (h : ringNext s.cfg.nRx s.uart.rx.head ≠ s.uart.rx.tail) : afterOnRx b e s = pushRx b e s := if_neg h

theorem afterOnTxe_of_empty (h : s.uart.tx.head = s.uart.tx.tail) : afterOnTxe s = clearTxeIe s := if_pos h

theorem afterOnTxe_of_nonempty (h : s.uart.tx.head ≠ s.uart.tx.tail) : afterOnTxe s = popTx s := if_neg h

/-- on-receive leaves the transmit side, the enables and the controller alone. -/
theorem afterOnRx_keeps_transmit :
    (afterOnRx b e s).gie = s.gie ∧ (afterOnRx b e s).cfg = s.cfg ∧ (afterOnRx b e s).uart.tx = s.uart.tx ∧
      (afterOnRx b e s).uart.txHold = s.uart.txHold ∧ (afterOnRx b e s).uart.ctrl = s.uart.ctrl := by
  unfold afterOnRx
  split <;> exact ⟨rfl, rfl, rfl, rfl, rfl⟩

/-- on-transmit-empty leaves the receive side, its enable and the controller alone. -/
theorem afterOnTxe_keeps_receive :
    (afterOnTxe s).gie = s.gie ∧ (afterOnTxe s).cfg = s.cfg ∧ (afterOnTxe s).uart.rx = s.uart.rx ∧
      (afterOnTxe s).uart.rxHold = s.uart.rxHold ∧ (afterOnTxe s).uart.ctrl.rxIe = s.uart.ctrl.rxIe := by
  unfold afterOnTxe
  split <;> exact ⟨rfl, rfl, rfl, rfl, rfl⟩

/-- `GIE` plays no part in on-receive, so interrupt entry before it comes to the same as after it. -/
theorem afterOnRx_enterInterrupt : afterOnRx b e (enterInterrupt s) = enterInterrupt (afterOnRx b e s) :=
  (apply_ite enterInterrupt _ (dropRx e s) (pushRx b e s)).symm

/-- Nor in on-transmit-empty. -/
theorem afterOnTxe_enterInterrupt : afterOnTxe (enterInterrupt s) = enterInterrupt (afterOnTxe s) :=
  (apply_ite enterInterrupt _ (clearTxeIe s) (popTx s)).symm

theorem txePending_afterOnRx : txePending (afterOnRx b e s).uart = txePending s.uart := by
  obtain ⟨-, -, -, hhold, hctrl⟩ := afterOnRx_keeps_transmit (s := s) (b := b) (e := e)
  simp only [txePending, statTxe, hhold, hctrl]

theorem rxPending_afterOnTxe : rxPending (afterOnTxe s).uart = rxPending s.uart := by
  obtain ⟨-, -, -, hhold, hie⟩ := afterOnTxe_keeps_receive (s := s)
  simp only [rxPending, statRxc, hhold, hie]

/-- The two effects commute: with the receive ring full or not and the transmit ring empty or not, they write different fields, and
neither changes which case the other is in. -/
theorem afterOnTxe_afterOnRx_comm (b : Byte) (e : HwFlags) (s : State) :
    afterOnTxe (afterOnRx b e s) = afterOnRx b e (afterOnTxe s) := by
  by_cases hfull : ringNext s.cfg.nRx s.uart.rx.head = s.uart.rx.tail <;>
    by_cases hempty : s.uart.tx.head = s.uart.tx.tail
  · rw [afterOnRx_of_full hfull, afterOnTxe_of_empty hempty]
    exact (afterOnTxe_of_empty (s := dropRx e s) hempty).trans (afterOnRx_of_full (s := clearTxeIe s) hfull).symm
  · rw [afterOnRx_of_full hfull, afterOnTxe_of_nonempty hempty]
    exact (afterOnTxe_of_nonempty (s := dropRx e s) hempty).trans (afterOnRx_of_full (s := popTx s) hfull).symm
  · rw [afterOnRx_of_room hfull, afterOnTxe_of_empty hempty]
    exact (afterOnTxe_of_empty (s := pushRx b e s) hempty).trans (afterOnRx_of_room (s := clearTxeIe s) hfull).symm
  · rw [afterOnRx_of_room hfull, afterOnTxe_of_nonempty hempty]
    exact (afterOnTxe_of_nonempty (s := pushRx b e s) hempty).trans (afterOnRx_of_room (s := popTx s) hfull).symm

/-! ## The entry points, taken with their source pending (R216, R218, R219) -/

theorem exists_rxHold_of_rxPending (hp : rxPending s.uart = true) : ∃ b e, s.uart.rxHold = some (b, e) := by
  obtain ⟨hrxc, -⟩ := (Bool.and_eq_true _ _).mp hp
  exact Prod.exists.1 (Option.isSome_iff_exists.1 hrxc)

theorem exec_onRx_of_pending (hgie : s.gie = true) (hp : rxPending s.uart = true) (hhold : s.uart.rxHold = some (b, e))
    (hh : s.uart.rx.head < s.cfg.nRx) : exec .onRx s = .next (afterOnRx b e s) := by
  obtain ⟨hkeeps, -⟩ := afterOnRx_keeps_transmit (s := s) (b := b) (e := e)
  have hrun := onReceive_eq (s := enterInterrupt s) hhold hh
  exact takeInterrupt_next hgie hp (hrun.trans (congrArg _ afterOnRx_enterInterrupt)) (hkeeps.trans hgie)

theorem exec_onTxe_of_pending (hgie : s.gie = true) (hp : txePending s.uart = true) (ht : s.uart.tx.tail < s.cfg.nTx) :
    exec .onTxe s = .next (afterOnTxe s) := by
  obtain ⟨hkeeps, -⟩ := afterOnTxe_keeps_receive (s := s)
  obtain ⟨hhold, -⟩ := txePending_eq_true.1 hp
  have hrun := onTransmitEmpty_eq (s := enterInterrupt s) hhold ht
  exact takeInterrupt_next hgie hp (hrun.trans (congrArg _ afterOnTxe_enterInterrupt)) (hkeeps.trans hgie)

end

/-- Settles O44: each entry point leaves the other's source pending and its ring as it was, and their effects commute. -/
theorem entryPointsCommute : Obligations.EntryPointsCommute := by
  unfold Obligations.EntryPointsCommute
  rintro s ⟨-, hrh, -, -, htt, -⟩ hgie hrx htx
  obtain ⟨b, e, hhold⟩ := exists_rxHold_of_rxPending hrx
  obtain ⟨hgieR, hcfgR, hringR, -⟩ := afterOnRx_keeps_transmit (s := s) (b := b) (e := e)
  obtain ⟨hgieT, hcfgT, hringT, hholdT, -⟩ := afterOnTxe_keeps_receive (s := s)
  refine ⟨afterOnTxe (afterOnRx b e s), ?_, ?_⟩
  · rw [exec_onRx_of_pending hgie hrx hhold hrh, andThen_next]
    exact exec_onTxe_of_pending (hgieR.trans hgie) (txePending_afterOnRx.trans htx) (by rwa [hringR, hcfgR])
  · rw [exec_onTxe_of_pending hgie htx htt, andThen_next, afterOnTxe_afterOnRx_comm]
    exact exec_onRx_of_pending (hgieT.trans hgie) (rxPending_afterOnTxe.trans hrx) (hholdT.trans hhold)
      (by rwa [hringT, hcfgT])

end Sys2Proof.Machine
end

section
/-! SUPPORT. The state after reset (spec 70_reset_and_hazards.md R240, R241): nothing is pending, and nothing moves by itself. -/

namespace Sys2Proof.Machine

theorem rxPending_eq_false_of_rxIe {u : Uart} (h : u.ctrl.rxIe = false) : rxPending u = false :=
  Bool.and_eq_false_iff.2 (.inr h)

theorem txePending_eq_false_of_txeIe {u : Uart} (h : u.ctrl.txeIe = false) : txePending u = false :=
  Bool.and_eq_false_iff.2 (.inr h)

/-- R241: with no move scheduled the mainline agent has the step, and with no operation in progress it has no line to run. -/
theorem step_of_nothing_to_run {s : State} (hsched : s.sched = []) (hjob : s.uart.job = none) : step s = .next s :=
  calc step s
    _ = mainlineStep s := step_of_sched_nil hsched
    _ = .next s := by simp only [mainlineStep, hjob]

/-- Settles O7: the fields are read off the state after reset; no interrupt is pending since none is enabled (the transmit data
register is empty, so the clear `CTRL.TXEIE` alone holds that one back), and the empty schedule finds no operation in progress. -/
theorem resetLeavesEverythingIdle : Obligations.ResetLeavesEverythingIdle := by
  unfold Obligations.ResetLeavesEverythingIdle
  refine ⟨fun c g => ?_, {}, true, rfl, by decide⟩
  have hrx : rxPending (State.resetWith c g).uart = false := rxPending_eq_false_of_rxIe rfl
  have htx : txePending (State.resetWith c g).uart = false := txePending_eq_false_of_txeIe rfl
  have hstep : step (State.resetWith c g) = .next (State.resetWith c g) := step_of_nothing_to_run rfl rfl
  simp only [hrx, htx, hstep, and_true]
  simp only [State.resetWith, and_self]

end Sys2Proof.Machine
end
